-- ==== Sys2Proof/Config/Params.lean ====
section
/-! DEFINITION. The configuration record of the CORE: one field for each implementation parameter of spec/00_scope.md R9,
the record that holds the values of R9's table, the name each rule reads a parameter by, and the constants R13 and R161
derive from them. No definition outside this file writes a parameter's value. -/

namespace Sys2Proof.Config

/-- The implementation parameters (R9), each with its table value as the default. -/
structure Params where
  /-- Bits of a fixed-point word (D4). -/
  FX_W : Nat := 32
  /-- Fraction bits of an fx (D4). -/
  FX_F : Nat := 16
  /-- Bits of a phase word: one turn is 2^P (D5). -/
  P : Nat := 32
  /-- Fraction bits of the converter distance and ratio (D10). -/
  RC_FRAC : Nat := 32
  /-- Taps of the interpolation filter, the length of the history window (D9). -/
  RC_TAPS : Nat := 2
  /-- Fraction bits of an interpolation coefficient (D9). -/
  RC_CF : Nat := 16
  /-- Largest interpolation factor (D10). -/
  RC_MAX_UP : Nat := 256
  /-- Transform length of the spectral filter (D12). -/
  SF_N : Nat := 2048
  /-- New samples per filter block, and samples emitted per block (D12). -/
  SF_L : Nat := SF_N / 2
  /-- Largest error of the filter kernel with an all-ONE mask, in raw units (R184, D12). -/
  SF_EPS : Nat := 0
  /-- Window length of the level tracker (D15). -/
  LT_N : Nat := 32
  /-- Loss-of-signal floor of the level tracker average, raw (D27). -/
  LT_FLOOR : Int := 1
  /-- dB value reported for an average of zero, raw (D16). -/
  DB_FLOOR : Int := -6553600
  /-- Samples in the sync-shape window (the source's own number). -/
  SYNC_WIN : Nat := 6
  /-- Window samples at sync level needed for "sync now" (D22). -/
  SYNC_MAJ : Nat := 4
  /-- Lag of the majority behind a pulse's leading edge, in samples (D23). -/
  HS_DELAY : Nat := 3
  /-- Evenly spaced line pulses needed to lock (D24). -/
  HS_LOCK_COUNT : Nat := 4
  /-- Tolerance of the line pulse spacing, in samples (D24). -/
  HS_TOL : Nat := 2
  /-- Missed line pulses that drop lock (D24). -/
  HS_LOSS_COUNT : Nat := 4
  /-- Evenly spaced frame syncs needed to frame-lock (D25). -/
  VS_LOCK_COUNT : Nat := 2
  /-- Tolerance of the frame sync spacing, in lines (D25). -/
  VS_TOL : Nat := 1
  /-- Missed frame syncs that drop lock (D25). -/
  VS_LOSS_COUNT : Nat := 2
  /-- Largest samples-per-line the line buffer holds (D29). -/
  SPL_MAX : Nat := 4096
  /-- Largest lines-per-frame (D29). -/
  LPF_MAX : Nat := 4096
  /-- Largest number of complex samples in one block command (D2). -/
  DM_BLOCK_MAX : Nat := 4096
  /-- Capacity of the synthesis buffer in halves (D42). -/
  SY_BUF_WORDS : Nat := 65536
  /-- Capacity of the output queue in halves (D42). -/
  SY_Q_WORDS : Nat := 262144
  /-- Ticks per second of the wall-clock TIMER (D41). -/
  TB_HZ : Nat := 1000000
  /-- Bits of TIMER (D41). -/
  TIMER_W : Nat := 32
  deriving DecidableEq, Repr

/-- The configuration of the CORE modelled: every parameter at the value of R9's table (log entry 1). -/
abbrev params : Params := {}

/-- Bits of a fixed-point word (D4). -/
abbrev FX_W : Nat := params.FX_W
/-- Fraction bits of an fx (D4). -/
abbrev FX_F : Nat := params.FX_F
/-- Bits of a phase word: one turn is 2^P (D5). -/
abbrev P : Nat := params.P
/-- Fraction bits of the converter distance and ratio (D10). -/
abbrev RC_FRAC : Nat := params.RC_FRAC
/-- Taps of the interpolation filter, the length of the history window (D9). -/
abbrev RC_TAPS : Nat := params.RC_TAPS
/-- Fraction bits of an interpolation coefficient (D9). -/
abbrev RC_CF : Nat := params.RC_CF
/-- Largest interpolation factor (D10). -/
abbrev RC_MAX_UP : Nat := params.RC_MAX_UP
/-- Transform length of the spectral filter (D12). -/
abbrev SF_N : Nat := params.SF_N
/-- New samples per filter block, and samples emitted per block (D12). -/
abbrev SF_L : Nat := params.SF_L
/-- Largest error of the filter kernel with an all-ONE mask, in raw units (R184, D12). -/
abbrev SF_EPS : Nat := params.SF_EPS
/-- Window length of the level tracker (D15). -/
abbrev LT_N : Nat := params.LT_N
/-- Loss-of-signal floor of the level tracker average, raw (D27). -/
abbrev LT_FLOOR : Int := params.LT_FLOOR
/-- dB value reported for an average of zero, raw (D16). -/
abbrev DB_FLOOR : Int := params.DB_FLOOR
/-- Samples in the sync-shape window (the source's own number). -/
abbrev SYNC_WIN : Nat := params.SYNC_WIN
/-- Window samples at sync level needed for "sync now" (D22). -/
abbrev SYNC_MAJ : Nat := params.SYNC_MAJ
/-- Lag of the majority behind a pulse's leading edge, in samples (D23). -/
abbrev HS_DELAY : Nat := params.HS_DELAY
/-- Evenly spaced line pulses needed to lock (D24). -/
abbrev HS_LOCK_COUNT : Nat := params.HS_LOCK_COUNT
/-- Tolerance of the line pulse spacing, in samples (D24). -/
abbrev HS_TOL : Nat := params.HS_TOL
/-- Missed line pulses that drop lock (D24). -/
abbrev HS_LOSS_COUNT : Nat := params.HS_LOSS_COUNT
/-- Evenly spaced frame syncs needed to frame-lock (D25). -/
abbrev VS_LOCK_COUNT : Nat := params.VS_LOCK_COUNT
/-- Tolerance of the frame sync spacing, in lines (D25). -/
abbrev VS_TOL : Nat := params.VS_TOL
/-- Missed frame syncs that drop lock (D25). -/
abbrev VS_LOSS_COUNT : Nat := params.VS_LOSS_COUNT
/-- Largest samples-per-line the line buffer holds (D29). -/
abbrev SPL_MAX : Nat := params.SPL_MAX
/-- Largest lines-per-frame (D29). -/
abbrev LPF_MAX : Nat := params.LPF_MAX
/-- Largest number of complex samples in one block command (D2). -/
abbrev DM_BLOCK_MAX : Nat := params.DM_BLOCK_MAX
/-- Capacity of the synthesis buffer in halves (D42). -/
abbrev SY_BUF_WORDS : Nat := params.SY_BUF_WORDS
/-- Capacity of the output queue in halves (D42). -/
abbrev SY_Q_WORDS : Nat := params.SY_Q_WORDS
/-- Ticks per second of the wall-clock TIMER (D41). -/
abbrev TB_HZ : Nat := params.TB_HZ
/-- Bits of TIMER (D41). -/
abbrev TIMER_W : Nat := params.TIMER_W

/-! ## Derived constants -/

/-- 1.0 as a raw fx value (R13). -/
abbrev ONE : Int := 2 ^ FX_F
/-- Largest raw fx value (R13). -/
abbrev FX_MAX : Int := 2 ^ (FX_W - 1) - 1
/-- Smallest raw fx value (R13). -/
abbrev FX_MIN : Int := -2 ^ (FX_W - 1)
/-- Smallest legal converter ratio (R161): 1 / RC_MAX_UP. -/
abbrev RC_RATIO_MIN : Nat := 2 ^ RC_FRAC / RC_MAX_UP
/-- Smallest samples-per-line the apply step accepts (R218), no parameter of R9. -/
abbrev SPL_MIN : Nat := 8

end Sys2Proof.Config
end

