-- ==== Sys2Proof/Word.lean ====
section
/-! DEFINITION. The word types of the CORE: the 32-bit port word, the 16-bit half, the byte, the fixed-point
type fx, the complex type cfx, the phase word and the TIMER word (spec/00_scope.md R11, R13, R14;
spec/30_encoding.md R105; spec/60_exceptions.md R395). The arithmetic on
them is in Machine/Arith.lean. -/

namespace Sys2Proof

/-- A 32-bit word, the unit of all four ports (R11). -/
abbrev Word := BitVec 32

/-- A 16-bit half, the unit of the output queue (R11, R75). -/
abbrev Half := BitVec 16

/-- A byte of the synthesis buffer (R74). -/
abbrev Byte := BitVec 8

/-- A fixed-point number (R13): the signed pattern of FX_W bits whose `toInt` is the raw value, raw / ONE. -/
abbrev Fx := BitVec Config.FX_W

/-- A phase word (R14): P bits standing for a fraction of a full turn. -/
abbrev Phase := BitVec Config.P

/-- A value of TIMER (R395): TIMER_W bits. -/
abbrev TimerWord := BitVec Config.TIMER_W

/-- The fx 1.0 (R13). -/
abbrev fxOne : Fx := BitVec.ofInt Config.FX_W Config.ONE

/-- The largest fx (R13). -/
abbrev fxGreatest : Fx := BitVec.ofInt Config.FX_W Config.FX_MAX

/-- The smallest fx (R13). -/
abbrev fxLeast : Fx := BitVec.ofInt Config.FX_W Config.FX_MIN

/-- A complex sample (R14): the in-phase and the quadrature component, each an fx. -/
structure Cfx where
  re : Fx
  im : Fx
  deriving DecidableEq, Repr, Inhabited

end Sys2Proof
end

