-- ==== Sys2Proof/Config.lean ====
section
/-! DEFINITION. What one implementation of the CORE fixes beside the parameters of Config/Params.lean: the free parts of the
five configuration functions of spec/00_scope.md R10 (log entries 2 to 6) and of the environment's TIMER (log entry 7). A
free part is an opaque constant: no proof can see its value. Machine/ConfigFns.lean builds the configuration functions from the
free parts so that exactly the properties the spec names hold of them. -/

namespace Sys2Proof.Config

/-! ## Free parts of the configuration functions (R10) -/

/-- The mask modes of the spectral filter (R124): 0 DSB, 1 upper vestigial, 2 lower vestigial. -/
inductive SfMode where
  | dsb | upper | lower
  deriving DecidableEq, Repr, Inhabited

/-- The two vestigial-sideband kinds that `vsb_recombine` tells apart (R189): VSB_U and VSB_L. -/
inductive VsbSide where
  | upper | lower
  deriving DecidableEq, Repr, Inhabited

/-- Free part of `cs` (R143): what the implementation's table or CORDIC answers for a phase word that is not a
cardinal one, before the named properties are imposed (log entry 2). -/
opaque csFree : Phase → Cfx

/-- Free part of `sf_kernel` (R184): entry `n` of the implementation's transform of a block by a mask
(log entry 3). -/
opaque kernelFree : List Fx → List Cfx → Nat → Cfx

/-- Free part of `sf_maskgen` (R186): entry `k` of the implementation's mask for a mode, the two bandwidths and the
rate, in Hz (log entry 4). -/
opaque maskFree : SfMode → Word → Word → Word → Nat → Fx

/-- `vsb_recombine` (R189) whole: the spec names no property of it but that it is a function (log entry 5). -/
opaque vsbFree : VsbSide → Cfx → Cfx

/-- Free part of `db10` (R206): the levels, in raw fx, at which the implementation's logarithm rises by one raw unit,
with repeats (log entry 6). -/
opaque db10Steps : List Nat

/-- The value TIMER shows at its n-th read when the environment has fixed none (R395, log entry 7). -/
opaque timerFree : Nat → TimerWord

end Sys2Proof.Config
end

