-- ==== Sys2Proof/Machine/Arith.lean ====
section
/-! DEFINITION. The integer helpers, the fixed-point and the complex arithmetic of spec/00_scope.md R12 to R14, the
saturating counter of spec/44_atv_demod.md R230 and the magnitude and unit vector of R222. Values are computed on unbounded
integers and narrowed once, at the end. -/

namespace Sys2Proof.Machine
open Config

/-! ## Integer helpers (R12) -/

/-- `fdiv(a, b)` for b > 0: floor division (R12). Every use has b > 0; `a / 0` is 0 in Lean and no rule reaches it. -/
def fdiv (a b : Int) : Int := a / b

/-- `cdiv(a, b)` for a ≥ 0, b > 0: ceiling division (R12). -/
def cdiv (a b : Int) : Int := fdiv (a + b - 1) b

/-- `a >> k`: arithmetic shift, floor (R12). -/
def shr (a : Int) (k : Nat) : Int := fdiv a (2 ^ k)

/-- `clamp(v, lo, hi)` (R12). -/
def clamp (v lo hi : Int) : Int := if v < lo then lo else if hi < v then hi else v

/-- The loop of `isqrt`: bit by bit from the highest, `r` the root found so far. -/
def isqrtLoop (n : Nat) : Nat → Nat → Nat
  | 0, r => r
  | b + 1, r => isqrtLoop n b (if (r + 2 ^ b) * (r + 2 ^ b) ≤ n then r + 2 ^ b else r)

/-- `isqrt(a)`: the greatest r with r * r ≤ a (R12). -/
def isqrt (n : Nat) : Nat := isqrtLoop n (n.log2 / 2 + 1) 0

/-- `sat_inc(v)` = min(v + 1, 2^32 - 1) (R230). -/
def satInc (v : Word) : Word := if v = 0xFFFFFFFF#32 then v else v + 1

/-! ## Fixed point (R13) -/

/-- `sat(v)`: the fx nearest to v (R13). -/
def sat (v : Int) : Fx := BitVec.ofInt FX_W (clamp v FX_MIN FX_MAX)

/-- `clamp01(v)` = clamp(v, 0, ONE) (R13). -/
def clamp01 (v : Int) : Fx := BitVec.ofInt FX_W (clamp v 0 ONE)

/-- `fx_add` (R13). -/
def fxAdd (a b : Fx) : Fx := sat (a.toInt + b.toInt)

/-- `fx_sub` (R13). -/
def fxSub (a b : Fx) : Fx := sat (a.toInt - b.toInt)

/-- `fx_mul` (R13). -/
def fxMul (a b : Fx) : Fx := sat (shr (a.toInt * b.toInt) FX_F)

/-- `fx_div` for b > 0 (R13). -/
def fxDiv (a b : Fx) : Fx := sat (fdiv (a.toInt * 2 ^ FX_F) b.toInt)

/-- `fx_sqrt` (R13); no other rule uses it. -/
def fxSqrt (a : Fx) : Fx := if a.toInt < 0 then 0#32 else sat (isqrt (a.toInt * 2 ^ FX_F).toNat)

/-- The smaller of two fx by raw value (R220). -/
def fxMin (a b : Fx) : Fx := if b.toInt < a.toInt then b else a

/-- The larger of two fx by raw value (R220). -/
def fxMax (a b : Fx) : Fx := if a.toInt < b.toInt then b else a

/-- A sum kept in a signed 64-bit field (R25, R32). It cannot leave the field in a run; beyond it the value saturates, as R46
says of every quantity it does not list as wrapping (log entry 10). -/
def sat64 (v : Int) : BitVec 64 :=
  BitVec.ofInt 64 (clamp v (-2 ^ 63) (2 ^ 63 - 1))

/-! ## Complex samples (R14, R222) -/

/-- `cmul(a, b)` (R14). -/
def cmul (a b : Cfx) : Cfx :=
  { re := sat (shr (a.re.toInt * b.re.toInt - a.im.toInt * b.im.toInt) FX_F)
    im := sat (shr (a.re.toInt * b.im.toInt + a.im.toInt * b.re.toInt) FX_F) }

/-- The exact sum of the squared raw components. -/
def normSq (z : Cfx) : Int := z.re.toInt * z.re.toInt + z.im.toInt * z.im.toInt

/-- `magsq(z)` (R14). -/
def magsq (z : Cfx) : Fx := sat (shr (normSq z) FX_F)

/-- `cmag(z)` (R222). -/
def cmag (z : Cfx) : Fx := sat (isqrt (normSq z).toNat)

/-- One component of `unit(z)` for a magnitude g > 0 (R222). -/
def unitPart (v g : Fx) : Fx := BitVec.ofInt FX_W (clamp (fxDiv v g).toInt (-ONE) ONE)

/-- `unit(z)` (R222): the zero sample has no phase and gives (0, 0). -/
def unit (z : Cfx) : Cfx :=
  if cmag z = 0#32 then ⟨0#32, 0#32⟩
  else { re := unitPart z.re (cmag z), im := unitPart z.im (cmag z) }

end Sys2Proof.Machine
end

