-- ==== Sys2Proof/Machine/ConfigFns.lean ====
section
/-! DEFINITION. The five configuration functions (spec/00_scope.md R10): `cs` (R143), `sf_kernel` (R184),
`sf_maskgen` (R186), `vsb_recombine` (R189) and `db10` (R206). Each is built from an opaque free part of Config so
that the properties the spec names hold whatever the free part is, and so that every function with those properties
is one of the values it can take (log entries 2 to 6; Laws/ConfigFns.lean proves the properties). -/

namespace Sys2Proof.Machine
open Config

/-- The list of f(0), …, f(n-1). -/
def tabulate {α : Type} (n : Nat) (f : Nat → α) : List α := (List.range n).map f

/-! ## cs (R143) -/

/-- The cardinal phase k quarter turns from 0 (R143). -/
def cardinal (k : Nat) : Phase := BitVec.ofNat P (k * 2 ^ (P - 2))

/-- CS_RANGE of one component. -/
def inUnitRange (v : Fx) : Bool := decide (-ONE ≤ v.toInt) && decide (v.toInt ≤ ONE)

/-- CS_RANGE and CS_UNIT of a pair. -/
def nearUnit (z : Cfx) : Bool :=
  inUnitRange z.re && inUnitRange z.im && decide ((normSq z - ONE * ONE).natAbs ≤ 2 * ONE.natAbs)

/-- `cs(ph)`: cosine and sine of a phase word (R143). The four cardinal phases are CS_CARD; at the others the free part
stands wherever it has CS_RANGE and CS_UNIT. -/
def cs (ph : Phase) : Cfx :=
  if ph = cardinal 0 then ⟨fxOne, 0#32⟩
  else if ph = cardinal 1 then ⟨0#32, fxOne⟩
  else if ph = cardinal 2 then ⟨-fxOne, 0#32⟩
  else if ph = cardinal 3 then ⟨0#32, -fxOne⟩
  else if nearUnit (csFree ph) then csFree ph
  else ⟨fxOne, 0#32⟩

/-! ## sf_kernel (R184) -/

/-- The fx nearest to `raw` among those within SF_EPS of `v`. -/
def nearFx (v raw : Fx) : Fx := sat (clamp raw.toInt (v.toInt - SF_EPS) (v.toInt + SF_EPS))

/-- The sample nearest to `raw` among those whose components are within SF_EPS of those of `v`. -/
def nearCfx (v raw : Cfx) : Cfx := { re := nearFx v.re raw.re, im := nearFx v.im raw.im }

/-- `sf_kernel(mask, block)` (R184), SF_N entries (SFK_FUN): zeros where SFK_ZERO says so; within SF_EPS of the
block under an all-ONE mask (SFK_ID), and of the common value of a constant block when mask[0] = ONE (SFK_DC); the free
part elsewhere. -/
def sfKernel (mask : List Fx) (block : List Cfx) : List Cfx :=
  if block.all (fun z => decide (z = ⟨0#32, 0#32⟩)) || mask.all (fun m => decide (m = 0#32)) then
    tabulate SF_N fun _ => ⟨0#32, 0#32⟩
  else if mask.all (fun m => decide (m = fxOne)) ||
      (decide (mask.head? = some fxOne) && block.all (fun z => decide (some z = block.head?))) then
    tabulate SF_N fun n => nearCfx (block.getD n ⟨0#32, 0#32⟩) (kernelFree mask block n)
  else tabulate SF_N fun n => kernelFree mask block n

/-! ## sf_maskgen (R186) -/

/-- The one-sided bandwidths (up, lo) that a mode takes from bw_hz and opp_bw_hz (R186). -/
def bandEdges (mode : SfMode) (bw opp : Word) : Nat × Nat :=
  match mode with
  | .dsb => (bw.toNat, bw.toNat)
  | .upper => (bw.toNat, opp.toNat)
  | .lower => (opp.toNat, bw.toNat)

/-- MG_ALL's condition: the passband is as wide as the whole spectrum. -/
def passesAll (mode : SfMode) (bw opp rate : Word) : Bool :=
  decide (rate.toNat ≤ 2 * (bandEdges mode bw opp).1) && decide (rate.toNat ≤ 2 * (bandEdges mode bw opp).2)

/-- Entry k of a mask: ONE under MG_ALL and at bin 0 (MG_DC), else the free part brought into [0, ONE] (MG_RANGE). -/
def maskEntry (mode : SfMode) (bw opp rate : Word) (k : Nat) : Fx :=
  if passesAll mode bw opp rate then fxOne
  else if k = 0 then fxOne
  else clamp01 (maskFree mode bw opp rate k).toInt

/-- `sf_maskgen(mode, bw_hz, opp_bw_hz, rate_hz)` (R186), SF_N entries (MG_FUN): mode 2 mirrors mode 1 at every bin but
SF_N / 2 (MG_MIRROR). -/
def sfMaskgen (mode : SfMode) (bw opp rate : Word) : List Fx :=
  match mode with
  | .lower => tabulate SF_N fun k =>
      if k = SF_N / 2 then maskEntry .lower bw opp rate k
      else maskEntry .upper bw opp rate ((SF_N - k) % SF_N)
  | m => tabulate SF_N fun k => maskEntry m bw opp rate k

/-! ## vsb_recombine (R189) -/

/-- `vsb_recombine(kind, z)` (R189): any function of its two arguments (VR_FUN). -/
def vsbRecombine (side : VsbSide) (z : Cfx) : Cfx := vsbFree side z

/-! ## db10 (R206) -/

/-- How many of the free levels lie at or below a raw level. -/
def stepsUpTo (a : Nat) : Nat := (db10Steps.filter fun t => decide (t ≤ a)).length

/-- `db10(a)` for a raw level a ≥ 1 (R206): 0 at ONE (DB_ONE); elsewhere the free levels between ONE and a, counted, within
DB_RANGE; it rises with a (DB_MONO). -/
def db10 (a : Nat) : Fx :=
  if (a : Int) = ONE then 0#32
  else BitVec.ofInt FX_W (clamp ((stepsUpTo a : Int) - stepsUpTo ONE.toNat) (DB_FLOOR + 1) (50 * ONE - 1))

end Sys2Proof.Machine
end

