-- ==== Sys2Proof/Syntax.lean ====
section
/-! DEFINITION. The commands of the CORE, one constructor for each row of spec/opcode_table.json, in its order
(spec/30_encoding.md R106). Operands are the operand words of the command; a `flags` operand (R105) is held as its
named bits, since a command with another flag bit set is illegal before it is a command (R107). -/

namespace Sys2Proof

/-- A decoded command (R106). The block commands carry their complex samples in order. -/
inductive Instr where
  /-- NOP (R331). -/
  | nop
  /-- NCO.SETF k, nf (R145): instance and normalized frequency as {hi, lo}. -/
  | ncoSetf (k : Word) (nf : BitVec 64)
  /-- NCO.NEXT k (R146). -/
  | ncoNext (k : Word)
  /-- NCO.NEXTI k, skew (R147). -/
  | ncoNexti (k : Word) (skew : Word)
  /-- NCO.RDPH k (R148). -/
  | ncoRdph (k : Word)
  /-- RC.CFG in_rate, out_rate, f.reset (R165). -/
  | rcCfg (inRate outRate : Word) (reset : Bool)
  /-- RC.CONV x[0..n-1] (R166). -/
  | rcConv (xs : List Cfx)
  /-- SF.CFG mode, bw_hz, opp_bw_hz, rate_hz (R190). -/
  | sfCfg (mode bwHz oppBwHz rateHz : Word)
  /-- SF.APPLY x[0..n-1] (R191). -/
  | sfApply (xs : List Cfx)
  /-- LT.UPD z (R203). -/
  | ltUpd (z : Cfx)
  /-- LT.AVG (R204). -/
  | ltAvg
  /-- LT.PWR (R205). -/
  | ltPwr
  /-- DM.CFGATV (R112, R336). -/
  | dmCfgatv (lineNs topNs fps rowsRatio thrSyncTop thrBlack : Word) (hsyncEn vsyncEn : Bool)
  /-- DM.CFGRF (R113, R337). -/
  | dmCfgrf (freqOffsetHz modKind rfBwHz oppBwHz : Word) (filterEn decimEn : Bool)
  /-- DM.CFGSTREAM in_rate_hz (R338). -/
  | dmCfgstream (inRateHz : Word)
  /-- DM.START (R344). -/
  | dmStart
  /-- DM.STOP (R347). -/
  | dmStop
  /-- DM.FEED x[0..n-1] (R216). -/
  | dmFeed (xs : List Cfx)
  /-- DM.STATUS (R350). -/
  | dmStatus
  /-- SY.CFG (R114, R339). -/
  | syCfg (sampleRateHz carrierHz depth mod toneHz amIndex fmDevHz ampI ampQ dcI dcQ skew : Word)
  /-- SY.START (R345). -/
  | syStart
  /-- SY.STOP (R349). -/
  | syStop
  /-- SY.TICK (R295). -/
  | syTick
  /-- SY.GEN count (R282). -/
  | syGen (count : Word)
  /-- SY.POP n (R301). -/
  | syPop (n : Word)
  /-- SY.STATUS (R351). -/
  | syStatus
  /-- FAULT.RD (R352). -/
  | faultRd
  /-- RESET (R353). -/
  | reset
  deriving DecidableEq, Repr

end Sys2Proof
end

