-- ==== Sys2Proof/Machine/State.lean ====
section
/-! DEFINITION. The state of the CORE as plain data (spec/10_state.md R20 to R47), its ports (spec/30_encoding.md
R102 to R104, R110, R111) and its reset value (spec/70_reset_and_hazards.md R411). Enumerations are inductive types with one
constructor per code; an array of many entries is a list of (index, value) pairs in canonical form. -/

namespace Sys2Proof.Machine

/-! ## Outcomes -/

/-- Reasons to stop with a fault: none. Every command of the CORE completes with exactly one response and no input
leaves the step undefined (spec/93_implementation_defined.md, "Nothing in this CORE is treated as fault or stuck";
R85, R380). The CORE's own faults (R375) are state, and a step that raises one has a next state (R376). -/
inductive Fault
  deriving DecidableEq, Repr

/-- Reasons to refuse an instruction. -/
inductive Refusal where
  /-- Raised only by an arm of `exec` whose instruction has no meaning yet; safe. No arm does. -/
  | notModelled (mnemonic : String)
  deriving DecidableEq, Repr

/-- The outcome of a command's meaning. -/
abbrev Result (σ : Type) := Host.Outcome σ Fault Refusal

/-! ## Codes -/

/-- Response status codes 0 to 7 (R110). -/
inductive Status where
  | ok | illegal | range | busy | idle | nocfg | halted | fault
  deriving DecidableEq, Repr

/-- The demodulation states 0 to 4 (R121): U, LSS, LL, FSS, FL. -/
inductive Fsm where
  | unsynchronized | lineSyncSearching | lineLocked | frameSyncSearching | frameLocked
  deriving DecidableEq, Repr

/-- Demodulation Modulation Kind, codes 0 to 4 (R120): FM1, FM2, AM, VSB_U, VSB_L. -/
inductive DemodKind where
  | fm1 | fm2 | am | vsbU | vsbL
  deriving DecidableEq, Repr

/-- Synthesis Modulation Kind, codes 0 to 2 (R122): NONE, AM, FM. -/
inductive SynthKind where
  | none | am | fm
  deriving DecidableEq, Repr

/-- Bit depth, codes 0 to 2 (R123): 8, 12 and 16 bits. -/
inductive Depth where
  | bits8 | bits12 | bits16
  deriving DecidableEq, Repr

/-- Bank ids of EV_CFGREJ, 0 to 4 (R103). -/
inductive BankId where
  | atv | rf | stream | synthesis | derived
  deriving DecidableEq, Repr

/-- Reason codes of EV_CFGREJ, 1 to 7 (R111). -/
inductive Reason where
  | zeroField | topNotLess | badEnum | badLpf | badLps | badSpl | badTop
  deriving DecidableEq, Repr

/-- The fault bits (R375): bit 0 F_SY_BUFSIZE, bit 1 F_SY_QUEUE. -/
inductive FaultBit where
  | syBufsize | syQueue
  deriving DecidableEq, Repr

/-- Engine ids (R103, R398): 0 demodulation, 1 synthesis. -/
inductive EngineId where
  | demodulation | synthesis
  deriving DecidableEq, Repr

/-! ## Port records -/

/-- A response on RSP (R102): its status and its result words. -/
structure Response where
  status : Status
  words : List Word
  deriving DecidableEq, Repr

/-- An event record on EVT (R103). -/
inductive Event where
  /-- EV_RATE: effective sample rate in Hz. -/
  | rate (hz : Word)
  /-- EV_STATE: old and new state. -/
  | state (old new : Fsm)
  /-- EV_CFGREJ: bank and reason. -/
  | cfgRej (bank : BankId) (reason : Reason)
  /-- EV_FAULT: fault bit. -/
  | fault (bit : FaultBit)
  /-- EV_STOPPED: engine. -/
  | stopped (engine : EngineId)
  deriving DecidableEq, Repr

/-- A pixel record on PIX (R104). -/
inductive Pixel where
  /-- PX_LINE: row index, frame number, the samples of the line. -/
  | line (row frame : Word) (samples : List Fx)
  /-- PX_FRAME: number of the frame just completed, rows displayed. -/
  | frame (number rowsDisp : Word)
  deriving DecidableEq, Repr

/-! ## Arrays -/

/-- An array of many entries (R70): (index, value) pairs, indices strictly rising, no value equal to what an unlisted
index reads as (`sparseWf` of Machine/Ops.lean). -/
abbrev Sparse (α : Type) := List (Nat × α)

/-- The synthesis byte buffer `S.sybuf` (R74): bytes by offset, an unlisted offset reading 0 (R411). -/
abbrev Memory := List Host.Cell

/-! ## Units -/

/-- Oscillator state `S.nco[k]` (R22). -/
structure Nco where
  phase : Phase
  inc : Phase
  deriving DecidableEq, Repr

/-- Converter state `S.rc` (R23): ratio Q32.32, mu Q0.32, skip, hist[0] newest. -/
structure Rc where
  ratio : BitVec 64
  mu : BitVec Config.RC_FRAC
  skip : Word
  hist : Vector Cfx Config.RC_TAPS
  deriving DecidableEq, Repr

/-- Spectral filter state `S.sf` (R24): mask[0..SF_N-1], inb[0..SF_N-1], fill in 0 .. SF_L-1. -/
structure Sf where
  mask : Sparse Fx
  inb : Sparse Cfx
  fill : Fin Config.SF_L
  deriving DecidableEq, Repr

/-- Level tracker state `S.lt` (R25): win[0..LT_N-1], idx in 0 .. LT_N-1, sum signed 64 bits. -/
structure Lt where
  win : Vector Fx Config.LT_N
  idx : Fin Config.LT_N
  sum : BitVec 64
  deriving DecidableEq, Repr

/-! ## Demodulation engine -/

/-- The ATV bank (R27). -/
structure AtvBank where
  lineNs : Word
  topNs : Word
  fps : Word
  rowsRatio : Fx
  thrSyncTop : Fx
  thrBlack : Fx
  hsyncEn : Bool
  vsyncEn : Bool
  deriving DecidableEq, Repr

/-- The RF bank (R28). -/
structure RfBank where
  freqOffsetHz : Word
  modKind : DemodKind
  rfBwHz : Word
  oppBwHz : Word
  filterEn : Bool
  decimEn : Bool
  deriving DecidableEq, Repr

/-- The stream bank (R29). -/
structure StreamBank where
  inRateHz : Word
  deriving DecidableEq, Repr

/-- The three demodulation banks in one copy, pending or running (R26). -/
structure DmBanks where
  atv : AtvBank
  rf : RfBank
  stream : StreamBank
  deriving DecidableEq, Repr

/-- One flag per demodulation bank (R26): `pnd_f` or `val`. -/
structure DmFlags where
  atv : Bool
  rf : Bool
  stream : Bool
  deriving DecidableEq, Repr

/-- Derived running parameters `S.dm.d` (R30). -/
structure DmDerived where
  effRate : Word
  lpf : Word
  lps : Word
  spl : Word
  topN : Word
  rowsDisp : Word
  filtOn : Bool
  decimOn : Bool
  deriving DecidableEq, Repr

/-- The demodulation engine `S.dm` (R26, R30, R31, R33, R34). -/
structure Dm where
  pnd : DmBanks
  cur : DmBanks
  pndF : DmFlags
  val : DmFlags
  d : DmDerived
  rateReported : Word
  active : Bool
  stopReq : Bool
  uh1 : Cfx
  uh2 : Cfx
  line : Sparse Fx
  frames : Word
  deriving DecidableEq, Repr

/-- The synchronization state `S.sync` (R32). -/
structure Sync where
  fsm : Fsm
  hsNow : Bool
  pulseLen : Word
  hsCount : Word
  hsMiss : Word
  sinceHs : Word
  win : Vector Fx Config.SYNC_WIN
  winIdx : Fin Config.SYNC_WIN
  col : Word
  row : Word
  lineSum : BitVec 64
  vsPrev : Bool
  vsCount : Word
  vsMiss : Word
  linesSinceVs : Word
  ampMin : Fx
  ampMax : Fx
  effMin : Fx
  effDelta : Fx
  deriving DecidableEq, Repr

/-! ## Synthesis engine -/

/-- The synthesis bank (R35). -/
structure GenBank where
  sampleRateHz : Word
  carrierHz : Word
  depth : Depth
  mod : SynthKind
  toneHz : Word
  amIndex : Fx
  fmDevHz : Word
  ampI : Fx
  ampQ : Fx
  dcI : Fx
  dcQ : Fx
  skew : Word
  deriving DecidableEq, Repr

/-- Derived running parameters `S.gen.d` (R36): shift, full-scale amplitude, FM deviation unit. -/
structure GenDerived where
  shift : Nat
  ampFs : Nat
  fmD : Fx
  deriving DecidableEq, Repr

/-- The synthesis engine `S.gen` (R35 to R37). -/
structure Gen where
  pnd : GenBank
  cur : GenBank
  pndF : Bool
  val : Bool
  d : GenDerived
  fmDev : Fx
  toggle : Bool
  lastTime : TimerWord
  active : Bool
  stopReq : Bool
  halted : Bool
  deriving DecidableEq, Repr

/-! ## Ports and environment -/

/-- The boundary of the CORE (R79) and the inputs the environment supplies. `rsp`, `evt` and `pix` are the output
histories (R40, R102 to R104), oldest first. The other fields are the model's own (log entries 7 to 9): `cmd` is
the words on CMD the CORE has not consumed, `timerIn` the values of TIMER (R395) fixed for the next reads,
`timerReads` the number of reads whose value the environment left free, `resetIn` the reset input (R410). -/
structure Io where
  cmd : List Word
  rsp : List Response
  evt : List Event
  pix : List Pixel
  timerIn : List TimerWord
  timerReads : Nat
  resetIn : Bool
  deriving DecidableEq, Repr

/-- The whole state (R20 to R47): three oscillators, the converter, the filter, the tracker, the two engines, the
synthesis buffer and queue (R38, oldest half first), the fault register and error count (R39), the ports. -/
structure State where
  nco : Vector Nco 3
  rc : Rc
  sf : Sf
  lt : Lt
  dm : Dm
  sync : Sync
  gen : Gen
  sybuf : Memory
  syq : List Half
  fault : Word
  cfgErr : Word
  io : Io
  deriving DecidableEq, Repr

/-! ## Reset values (R411) -/

/-- The complex sample (0, 0). -/
def cfxZero : Cfx := ⟨0#32, 0#32⟩

/-- Reset value of an oscillator (R22, R411). -/
def Nco.reset : Nco := { phase := 0#32, inc := 0#32 }

/-- Reset value of the converter (R47, R411): ratio 1.0, the rest zero. -/
def Rc.reset : Rc :=
  { ratio := BitVec.ofNat 64 (2 ^ Config.RC_FRAC), mu := 0#32, skip := 0#32, hist := Vector.replicate _ cfxZero }

/-- Reset value of the filter (R411): every mask and block entry 0. -/
def Sf.reset : Sf := { mask := [], inb := [], fill := 0 }

/-- Reset value of the tracker (R411). -/
def Lt.reset : Lt := { win := Vector.replicate _ 0#32, idx := 0, sum := 0#64 }

/-- Reset value of the ATV bank (R26, R411): every field 0. -/
def AtvBank.reset : AtvBank :=
  { lineNs := 0#32, topNs := 0#32, fps := 0#32, rowsRatio := 0#32, thrSyncTop := 0#32, thrBlack := 0#32,
    hsyncEn := false, vsyncEn := false }

/-- Reset value of the RF bank (R26, R411): every field 0. -/
def RfBank.reset : RfBank :=
  { freqOffsetHz := 0#32, modKind := .fm1, rfBwHz := 0#32, oppBwHz := 0#32, filterEn := false, decimEn := false }

/-- Reset value of the demodulation banks (R26, R411). -/
def DmBanks.reset : DmBanks := { atv := .reset, rf := .reset, stream := { inRateHz := 0#32 } }

/-- Flags of which none is set. -/
def DmFlags.clear : DmFlags := { atv := false, rf := false, stream := false }

/-- Flags all set. -/
def DmFlags.full : DmFlags := { atv := true, rf := true, stream := true }

/-- Reset value of the derived parameters (R30, R411). -/
def DmDerived.reset : DmDerived :=
  { effRate := 0#32, lpf := 0#32, lps := 0#32, spl := 0#32, topN := 0#32, rowsDisp := 0#32, filtOn := false,
    decimOn := false }

/-- Reset value of the demodulation engine (R411). -/
def Dm.reset : Dm :=
  { pnd := .reset, cur := .reset, pndF := .clear, val := .clear, d := .reset, rateReported := 0#32, active := false,
    stopReq := false, uh1 := cfxZero, uh2 := cfxZero, line := [], frames := 0#32 }

/-- Sync-reset value of the synchronization state (R32, last column; R47): the same at hardware reset. -/
def Sync.reset : Sync :=
  { fsm := .unsynchronized, hsNow := false, pulseLen := 0#32, hsCount := 0#32, hsMiss := 0#32, sinceHs := 0#32,
    win := Vector.replicate _ fxGreatest, winIdx := 0, col := 0#32, row := 0#32, lineSum := 0#64, vsPrev := false,
    vsCount := 0#32, vsMiss := 0#32, linesSinceVs := 0#32, ampMin := fxGreatest, ampMax := fxLeast,
    effMin := 0#32, effDelta := fxOne }

/-- Reset value of the synthesis bank (R35, R411): every field 0. -/
def GenBank.reset : GenBank :=
  { sampleRateHz := 0#32, carrierHz := 0#32, depth := .bits8, mod := .none, toneHz := 0#32, amIndex := 0#32,
    fmDevHz := 0#32, ampI := 0#32, ampQ := 0#32, dcI := 0#32, dcQ := 0#32, skew := 0#32 }

/-- Reset value of the synthesis engine (R411). -/
def Gen.reset : Gen :=
  { pnd := .reset, cur := .reset, pndF := false, val := false, d := { shift := 0, ampFs := 0, fmD := 0#32 },
    fmDev := 0#32, toggle := false, lastTime := 0#32, active := false, stopReq := false, halted := false }

/-- The ports at hardware reset with nothing placed on them (R40, R411): no word waits on CMD, the histories are
empty, the environment has fixed no TIMER value. -/
def Io.reset : Io :=
  { cmd := [], rsp := [], evt := [], pix := [], timerIn := [], timerReads := 0, resetIn := false }

/-- The machine right after reset (R410, R411). -/
def State.reset : State :=
  { nco := Vector.replicate _ .reset, rc := .reset, sf := .reset, lt := .reset, dm := .reset, sync := .reset,
    gen := .reset, sybuf := [], syq := [], fault := 0#32, cfgErr := 0#32, io := .reset }

end Sys2Proof.Machine
end

