-- ==== Sys2Proof/Machine/Ops.lean ====
section
/-! DEFINITION. The operations every unit shares: arrays and the synthesis buffer (spec/20_memory.md R70 to R74), the output
queue (R75), responses and records (spec/00_scope.md R17; spec/30_encoding.md R102 to R104, R110, R111, R120 to R123), rejecting a
command and raising a fault (spec/60_exceptions.md R376; spec/46_control.md R335), the state changes of the
synchronization state (spec/44_atv_demod.md R237, R246, R247), reading TIMER (R395), and the RESET command's state change (R353). -/

namespace Sys2Proof.Machine
open Config

/-! ## Arrays (R16, R70) -/

/-- The pairs of a sparse array with value `v` put at index `i`, kept in rising order. -/
def sparseInsert {α : Type} (i : Nat) (v : α) : Sparse α → Sparse α
  | [] => [(i, v)]
  | (k, x) :: rest => if i < k then (i, v) :: (k, x) :: rest else (k, x) :: sparseInsert i v rest

/-- The pairs of a sparse array but those at index `i`. -/
def sparseErase {α : Type} (i : Nat) (a : Sparse α) : Sparse α := a.filter fun p => decide (p.1 ≠ i)

/-- `A[i]` (R16): an unlisted entry reads as `d`. -/
def sparseGet {α : Type} (d : α) (a : Sparse α) (i : Nat) : α :=
  match a with
  | [] => d
  | (k, x) :: rest => if k = i then x else sparseGet d rest i

/-- `A[i] <- v` (R16) for an array of `n` entries whose unlisted entries read as `d`. An index past the array cannot be
expressed by any command (R77) and writes nothing. -/
def sparseSet {α : Type} [DecidableEq α] (d : α) (n : Nat) (a : Sparse α) (i : Nat) (v : α) : Sparse α :=
  if n ≤ i then a
  else if v = d then sparseErase i a
  else sparseInsert i v (sparseErase i a)

/-- Canonical form: indices strictly rising and below `n`, no value equal to `d`. -/
def sparseWf {α : Type} [DecidableEq α] (d : α) (n : Nat) (a : Sparse α) : Bool :=
  a.all (fun p => decide (p.1 < n) && decide (p.2 ≠ d)) && decide (a.Pairwise fun p q => p.1 < q.1)

/-- The entries 0 .. n-1 of a sparse array as a list. -/
def sparseToList {α : Type} (d : α) (n : Nat) (a : Sparse α) : List α :=
  (List.range n).map (sparseGet d a)

/-- The sparse array whose entries from index `i` on are those of a list. -/
def sparseOfList {α : Type} [DecidableEq α] (d : α) : Nat → List α → Sparse α
  | _, [] => []
  | i, v :: vs => if v = d then sparseOfList d (i + 1) vs else (i, v) :: sparseOfList d (i + 1) vs

/-! ## The synthesis buffer (R16, R74) -/

/-- Bytes of the synthesis buffer. -/
def sybufBytes : Nat := 2 * SY_BUF_WORDS

/-- The byte at an offset. -/
def Memory.read (m : Memory) (a : Nat) : Byte := sparseGet 0#8 m a

/-- The buffer with one byte stored. -/
def Memory.write (m : Memory) (a : Nat) (b : Byte) : Memory := sparseSet 0#8 sybufBytes m a b

/-- The buffer's canonical form. -/
def Memory.wf (m : Memory) : Bool := sparseWf 0#8 sybufBytes m

/-- `MemRead(a, 2)` (R74): {byte a+1, byte a}. -/
def memRead (m : Memory) (a : Nat) : Half := m.read (a + 1) ++ m.read a

/-- `MemWrite(a, 2, h)` (R74): byte a is h[7:0], byte a+1 is h[15:8]. -/
def memWrite (m : Memory) (a : Nat) (h : Half) : Memory :=
  (m.write a (h.extractLsb' 0 8)).write (a + 1) (h.extractLsb' 8 8)

/-! ## The output queue (R75) -/

/-- `S.syq.fill` (R16). -/
def syqFill (s : State) : Nat := s.syq.length

/-- `S.syq.free` (R16). -/
def syqFree (s : State) : Nat := SY_Q_WORDS - s.syq.length

/-! ## Codes on the ports (R103, R110, R111, R120 to R123, R375) -/

/-- Status code (R110). -/
def Status.code : Status → Nat
  | .ok => 0 | .illegal => 1 | .range => 2 | .busy => 3 | .idle => 4 | .nocfg => 5 | .halted => 6 | .fault => 7

/-- Demodulation state code (R121). -/
def Fsm.code : Fsm → Nat
  | .unsynchronized => 0 | .lineSyncSearching => 1 | .lineLocked => 2 | .frameSyncSearching => 3 | .frameLocked => 4

/-- Demodulation kind of a code (R120); 5 and above are unassigned. -/
def DemodKind.ofCode? : Nat → Option DemodKind
  | 0 => some .fm1 | 1 => some .fm2 | 2 => some .am | 3 => some .vsbU | 4 => some .vsbL | _ => none

/-- Synthesis kind code (R122). -/
def SynthKind.code : SynthKind → Nat
  | .none => 0 | .am => 1 | .fm => 2

/-- Synthesis kind of a code (R122); 3 and above are unassigned. -/
def SynthKind.ofCode? : Nat → Option SynthKind
  | 0 => some .none | 1 => some .am | 2 => some .fm | _ => Option.none

/-- Bit depth code (R123). -/
def Depth.code : Depth → Nat
  | .bits8 => 0 | .bits12 => 1 | .bits16 => 2

/-- Bit depth of a code (R123); 3 and above are unassigned. -/
def Depth.ofCode? : Nat → Option Depth
  | 0 => some .bits8 | 1 => some .bits12 | 2 => some .bits16 | _ => none

/-- Bank id (R103). -/
def BankId.code : BankId → Nat
  | .atv => 0 | .rf => 1 | .stream => 2 | .synthesis => 3 | .derived => 4

/-- Reason code (R111). -/
def Reason.code : Reason → Nat
  | .zeroField => 1 | .topNotLess => 2 | .badEnum => 3 | .badLpf => 4 | .badLps => 5 | .badSpl => 6 | .badTop => 7

/-- Fault bit number (R375). -/
def FaultBit.code : FaultBit → Nat
  | .syBufsize => 0 | .syQueue => 1

/-- Engine id (R103). -/
def EngineId.code : EngineId → Nat
  | .demodulation => 0 | .synthesis => 1

/-- A record {code[31:24], LEN[23:0]} and its payload (R102 to R104). -/
def recordWords (code : Nat) (payload : List Word) : List Word :=
  (BitVec.ofNat 8 code ++ BitVec.ofNat 24 payload.length) :: payload

/-- The words of a response on RSP (R102). -/
def Response.toWords (r : Response) : List Word := recordWords r.status.code r.words

/-- The words of an event record on EVT (R103). -/
def Event.toWords : Event → List Word
  | .rate hz => recordWords 1 [hz]
  | .state old new => recordWords 2 [BitVec.ofNat 32 old.code, BitVec.ofNat 32 new.code]
  | .cfgRej bank reason => recordWords 3 [BitVec.ofNat 32 bank.code, BitVec.ofNat 32 reason.code]
  | .fault bit => recordWords 4 [BitVec.ofNat 32 bit.code]
  | .stopped engine => recordWords 5 [BitVec.ofNat 32 engine.code]

/-- The words of a pixel record on PIX (R104). -/
def Pixel.toWords : Pixel → List Word
  | .line row n samples => recordWords 1 (row :: n :: samples)
  | .frame number rowsDisp => recordWords 2 [number, rowsDisp]

/-! ## Responses and records (R17) -/

/-- `respond(status, words)`: one response on RSP. -/
def respond (st : Status) (ws : List Word) (s : State) : State :=
  { s with io := { s.io with rsp := s.io.rsp ++ [⟨st, ws⟩] } }

/-- `emit EVT(...)`. -/
def emitEvt (e : Event) (s : State) : State :=
  { s with io := { s.io with evt := s.io.evt ++ [e] } }

/-- `emit PIX(...)`. -/
def emitPix (p : Pixel) (s : State) : State :=
  { s with io := { s.io with pix := s.io.pix ++ [p] } }

/-- The command ends with a response. -/
def finish (st : Status) (ws : List Word) (s : State) : Result State := .next (respond st ws s)

/-- `reject(code)`: the command ends with status `code`, RLEN 0 and no further state change (R17, R102). -/
def reject (st : Status) (s : State) : Result State := finish st [] s

/-! ## Errors and faults -/

/-- One more configuration error counted and EV_CFGREJ emitted (R335, R341). -/
def countCfgErr (bank : BankId) (reason : Reason) (s : State) : State :=
  emitEvt (.cfgRej bank reason) { s with cfgErr := satInc s.cfgErr }

/-- `cfg_reject(bank, reason)` (R335). -/
def cfgReject (bank : BankId) (reason : Reason) (s : State) : Result State :=
  reject .range (countCfgErr bank reason s)

/-- `raise Fault(b)` (R376): the sticky bit, the synthesis engine halted and not active, EV_FAULT. The command then
answers E_FAULT. -/
def raiseFault (b : FaultBit) (s : State) : State :=
  emitEvt (.fault b)
    { s with
      fault := s.fault ||| (1#32 <<< b.code)
      gen := { s.gen with halted := true, active := false } }

/-! ## Synchronization state -/

/-- The source's "locked": fsm ≥ 2 (R32, R121). -/
def Fsm.locked : Fsm → Bool
  | .unsynchronized => false
  | .lineSyncSearching => false
  | .lineLocked => true
  | .frameSyncSearching => true
  | .frameLocked => true

/-- `set_fsm(new)` (R246): one EV_STATE when the state changes. -/
def setFsm (new : Fsm) (s : State) : State :=
  if s.sync.fsm = new then s
  else emitEvt (.state s.sync.fsm new) { s with sync := { s.sync with fsm := new } }

/-- `sync_reset()` (R247). -/
def syncReset (s : State) : State := { s with sync := .reset }

/-- `to_unsync()` (R237): sync reset, and EV_STATE unless the state already was Unsynchronized. -/
def toUnsync (s : State) : State :=
  if s.sync.fsm = .unsynchronized then syncReset s
  else emitEvt (.state s.sync.fsm .unsynchronized) (syncReset s)

/-! ## TIMER (R395) -/

/-- The value the next read of TIMER gives: the one the environment has fixed, else a free one (log entry 7). -/
def timerNow (s : State) : TimerWord :=
  match s.io.timerIn with
  | t :: _ => t
  | [] => timerFree s.io.timerReads

/-- The state after TIMER has been read once. -/
def timerAdvance (s : State) : State :=
  match s.io.timerIn with
  | _ :: ts => { s with io := { s.io with timerIn := ts } }
  | [] => { s with io := { s.io with timerReads := s.io.timerReads + 1 } }

/-! ## Reset (R353) -/

/-- Every field of `S` at its reset value (R411); records and responses already given are not recalled, what waits on CMD
and TIMER are not state of the CORE and stay (R353). DEDUCED (log entry 27), unsafe there: it emits no event, as R353 and R410
say, although R103 and R246 remark that every change of the demodulation state emits one. -/
def resetCore (s : State) : State := { State.reset with io := s.io }

end Sys2Proof.Machine
end

