-- ==== Sys2Proof/Machine/Flags.lean ====
section
/-! DEFINITION. The one-bit flags a command tests and the status words built of them (spec/10_state.md R41;
spec/30_encoding.md R115, R116; spec/46_control.md R332, R350, R351). -/

namespace Sys2Proof.Machine
open Config

/-- `owner_active(k)` (R332): the demodulation engine owns oscillator 0, the synthesis engine 1 and 2. -/
def ownerActive (k : Fin 3) (s : State) : Bool := if k = 0 then s.dm.active else s.gen.active

/-- All three flags set (R341, R344). -/
def DmFlags.all (f : DmFlags) : Bool := f.atv && f.rf && f.stream

/-- Any of the three flags set (R340, R344). -/
def DmFlags.any (f : DmFlags) : Bool := f.atv || f.rf || f.stream

/-- Flag by flag, either of two set (R341). -/
def DmFlags.or (f g : DmFlags) : DmFlags :=
  { atv := f.atv || g.atv, rf := f.rf || g.rf, stream := f.stream || g.stream }

/-- A status word with one flag at a bit position. -/
def bitAt (b : Bool) (i : Nat) : Word := if b then 1#32 <<< i else 0#32

/-- `video_active` (R41). -/
def videoActive (s : State) : Bool := s.dm.active

/-- `video_ok` (R41). -/
def videoOk (s : State) : Bool := s.sync.fsm.locked

/-- `audio_active` (R41): audio is out of scope. -/
def audioActive : Bool := false

/-- `audio_ok` (R41). -/
def audioOk : Bool := false

/-- Word 1 of DM.STATUS (R115, R350). -/
def dmStatusFlags (s : State) : Word :=
  BitVec.ofNat 32 s.sync.fsm.code ||| bitAt s.dm.active 3 ||| bitAt s.sync.fsm.locked 4 ||| bitAt s.sync.hsNow 5
    ||| bitAt (videoActive s) 6 ||| bitAt (videoOk s) 7 ||| bitAt audioActive 8 ||| bitAt audioOk 9
    ||| bitAt s.dm.stopReq 10
    ||| bitAt s.dm.pndF.atv 11 ||| bitAt s.dm.pndF.rf 12 ||| bitAt s.dm.pndF.stream 13
    ||| bitAt s.dm.val.atv 14 ||| bitAt s.dm.val.rf 15 ||| bitAt s.dm.val.stream 16
    ||| bitAt s.dm.d.filtOn 17 ||| bitAt s.dm.d.decimOn 18

/-- Word 5 of DM.STATUS (R115): {row[15:0], col[15:0]}. -/
def dmStatusPosition (s : State) : Word := s.sync.row.extractLsb' 0 16 ++ s.sync.col.extractLsb' 0 16

/-- Word 1 of SY.STATUS (R116, R351). -/
def syStatusFlags (s : State) : Word :=
  bitAt s.gen.active 0 ||| bitAt s.gen.halted 1 ||| bitAt s.gen.stopReq 2 ||| bitAt s.gen.pndF 3
    ||| bitAt s.gen.val 4 ||| bitAt s.gen.toggle 5
    ||| (BitVec.ofNat 32 s.gen.cur.depth.code <<< 6) ||| (BitVec.ofNat 32 s.gen.cur.mod.code <<< 8)

end Sys2Proof.Machine
end

