-- ==== Sys2Proof/Machine/Operands.lean ====
section
/-! DEFINITION. How a command reads its operand words (spec/30_encoding.md R105, R124; spec/46_control.md R334, R336 to R339):
signed and clamped readings, the oscillator index, the enumerations. A u32 operand is its word's `toNat`, an fx, s32 or
sphase operand its word's `toInt`, an nfq operand the `toInt` of its 64 bits. -/

namespace Sys2Proof.Machine
open Config

/-- The oscillator index k (R145 to R148): none when k > 2, which the command answers with E_RANGE. -/
def ncoIndex (k : Word) : Option (Fin 3) := if h : k.toNat < 3 then some ⟨k.toNat, h⟩ else none

/-- `clamp(sext_32(w), lo, hi)` as an fx: the reading of a clamped configuration field (R334). -/
def clampField (w : Word) (lo hi : Int) : Fx := BitVec.ofInt FX_W (clamp w.toInt lo hi)

/-- Spectral filter mode of an SF.CFG operand (R124): 3 and above give none. -/
def sfModeOf (w : Word) : Option SfMode :=
  match w.toNat with
  | 0 => some .dsb
  | 1 => some .upper
  | 2 => some .lower
  | _ => none

/-- The ATV bank that a valid DM.CFGATV message stages (R336). -/
def atvBankOf (lineNs topNs fps rowsRatio thrSyncTop thrBlack : Word) (hsyncEn vsyncEn : Bool) : AtvBank :=
  { lineNs, topNs, fps
    rowsRatio := clampField rowsRatio 1 ONE
    thrSyncTop := clampField thrSyncTop 0 ONE
    thrBlack := clampField thrBlack 0 ONE
    hsyncEn, vsyncEn }

/-- The synthesis bank that a valid SY.CFG message stages (R339). -/
def genBankOf (sampleRateHz carrierHz : Word) (depth : Depth) (mod : SynthKind)
    (toneHz amIndex fmDevHz ampI ampQ dcI dcQ skew : Word) : GenBank :=
  { sampleRateHz, carrierHz, depth, mod, toneHz
    amIndex := clampField amIndex 0 ONE
    fmDevHz
    ampI := clampField ampI 0 ONE
    ampQ := clampField ampQ 0 ONE
    dcI := clampField dcI (-ONE) ONE
    dcQ := clampField dcQ (-ONE) ONE
    skew }

/-- The result words of a list of complex samples: re, im, re, im, … (R166, R191). -/
def sampleWords : List Cfx → List Word
  | [] => []
  | z :: zs => z.re :: z.im :: sampleWords zs

end Sys2Proof.Machine
end

