-- ==== Sys2Proof/Machine/LevelTracker.lean ====
section
/-! DEFINITION. The level tracker (spec/43_level_tracker.md R200 to R208): update, average, power, LT.UPD, LT.AVG,
LT.PWR. -/

namespace Sys2Proof.Machine
open Config

/-- The next index of the tracker's ring (R201). -/
def ltNext (i : Fin LT_N) : Fin LT_N := ⟨(i.val + 1) % LT_N, Nat.mod_lt _ (by decide)⟩

/-- `lt_update(z)` (R201). -/
def ltUpdate (z : Cfx) (l : Lt) : Lt :=
  let m := magsq z
  { sum := sat64 (l.sum.toInt + m.toInt - l.win[l.idx].toInt)
    win := l.win.set l.idx m
    idx := ltNext l.idx }

/-- `lt_avg()` (R202). -/
def ltAvg (l : Lt) : Fx := sat (fdiv l.sum.toInt LT_N)

/-- `lt_pwr()` (R205). -/
def ltPwr (l : Lt) : Fx :=
  if ltAvg l = 0#32 then BitVec.ofInt FX_W DB_FLOOR else db10 (ltAvg l).toNat

/-- LT.UPD (R203). -/
def execLtUpd (z : Cfx) (s : State) : Result State :=
  if s.dm.active then reject .busy s
  else finish .ok [] { s with lt := ltUpdate z s.lt }

/-- LT.AVG (R204). -/
def execLtAvg (s : State) : Result State := finish .ok [ltAvg s.lt] s

/-- LT.PWR (R205). -/
def execLtPwr (s : State) : Result State := finish .ok [ltPwr s.lt] s

end Sys2Proof.Machine
end

