-- ==== Sys2Proof/Machine/Nco.lean ====
section
/-! DEFINITION. The oscillators (spec/40_nco.md R140 to R150): increments, the step function, NCO.SETF, NCO.NEXT,
NCO.NEXTI, NCO.RDPH. -/

namespace Sys2Proof.Machine
open Config

/-- `nco_inc(n)` (R141): n / 2^P cycles per sample, clamped to ±0.5. -/
def ncoInc (n : Int) : Phase := BitVec.ofInt P (clamp n (-2 ^ (P - 1)) (2 ^ (P - 1)))

/-- `nco_inc_hz(f_hz, rate_hz)` (R142), for rate_hz > 0. -/
def ncoIncHz (fHz : Int) (rateHz : Nat) : Phase := ncoInc (fdiv (fHz * 2 ^ P) rateHz)

/-- The oscillator after one advance of its phase (R144). -/
def ncoAdvance (n : Nco) : Nco := { n with phase := n.phase + n.inc }

/-- The value at a phase with the quadrature lookup offset by a skew (R144). -/
def ncoValue (ph : Phase) (skew : Int) : Cfx :=
  { re := (cs ph).re, im := (cs (ph + BitVec.ofInt P skew)).im }

/-- The value `nco_next` returns (R144): at the phase after the advance. -/
def ncoOut (n : Nco) (skew : Int) : Cfx := ncoValue (ncoAdvance n).phase skew

/-- The state with oscillator k replaced. -/
def setNco (k : Fin 3) (n : Nco) (s : State) : State := { s with nco := s.nco.set k n }

/-- The state with the increment of oscillator k replaced: its phase is not touched (R22). -/
def setInc (k : Fin 3) (inc : Phase) (s : State) : State := setNco k { s.nco[k] with inc := inc } s

/-- The state after `nco_next(k, skew)` (R144). -/
def ncoStep (k : Fin 3) (s : State) : State := setNco k (ncoAdvance s.nco[k]) s

/-- NCO.SETF (R145). -/
def execNcoSetf (k : Word) (nf : BitVec 64) (s : State) : Result State :=
  match ncoIndex k with
  | none => reject .range s
  | some i =>
    if ownerActive i s then reject .busy s
    else finish .ok [] (setInc i (ncoInc nf.toInt) s)

/-- NCO.NEXT (R146). -/
def execNcoNext (k : Word) (s : State) : Result State :=
  match ncoIndex k with
  | none => reject .range s
  | some i =>
    if ownerActive i s then reject .busy s
    else finish .ok [(ncoOut s.nco[i] 0).re, (ncoOut s.nco[i] 0).im] (ncoStep i s)

/-- NCO.NEXTI (R147). -/
def execNcoNexti (k skew : Word) (s : State) : Result State :=
  match ncoIndex k with
  | none => reject .range s
  | some i =>
    if ownerActive i s then reject .busy s
    else finish .ok [(ncoOut s.nco[i] skew.toInt).re, (ncoOut s.nco[i] skew.toInt).im] (ncoStep i s)

/-- NCO.RDPH (R148): a read-only snapshot, not subject to the ownership check. -/
def execNcoRdph (k : Word) (s : State) : Result State :=
  match ncoIndex k with
  | none => reject .range s
  | some i => finish .ok [s.nco[i].phase, s.nco[i].inc] s

end Sys2Proof.Machine
end

