-- ==== Sys2Proof/Machine/RateConverter.lean ====
section
/-! DEFINITION. The rate converter (spec/41_rate_converter.md R160 to R170): ratio, interpolation, the step function,
RC.CFG, RC.CONV. -/

namespace Sys2Proof.Machine
open Config

/-- `rc_ratio(in_rate, out_rate)` for out_rate > 0 (R161): Q32.32, truncated. -/
def rcRatio (inRate outRate : Nat) : Nat := inRate * 2 ^ RC_FRAC / outRate

/-- The weighted sum of one component at coefficient p (R163). -/
def rcMix (p : Nat) (h0 h1 : Fx) : Fx :=
  BitVec.ofInt FX_W (shr ((p : Int) * h0.toInt + (2 ^ RC_CF - (p : Int)) * h1.toInt) RC_CF)

/-- `rc_interp(mu)` (R163): the two nearest samples weighted by the top RC_CF bits of the fraction. -/
def rcInterp (mu : BitVec RC_FRAC) (h0 h1 : Cfx) : Cfx :=
  let p := mu.toNat / 2 ^ (RC_FRAC - RC_CF)
  { re := rcMix p h0.re h1.re, im := rcMix p h0.im h1.im }

/-- The converter after one output (R164): the distance advanced by the ratio, integer part to skip, fraction to mu. -/
def rcAdvance (c : Rc) : Rc :=
  let t := c.mu.toNat + c.ratio.toNat
  { c with mu := BitVec.ofNat RC_FRAC t, skip := BitVec.ofNat 32 (t / 2 ^ RC_FRAC) }

/-- The loop of `rc_push` (R164): outputs while skip = 0, in order. -/
def rcLoop : Nat → Rc → List Cfx × Rc
  | 0, c => ([], c)
  | fuel + 1, c =>
    if c.skip = 0#32 then
      let r := rcLoop fuel (rcAdvance c)
      (rcInterp c.mu c.hist[0] c.hist[1] :: r.1, r.2)
    else ([], c)

/-- A bound of the outputs per input, "at most 257" (R164): the loop ends before it since the ratio is at least 1 / RC_MAX_UP. -/
def rcFuel : Nat := RC_MAX_UP + 1

/-- The converter with x shifted into its history as the newest sample (R164). -/
def rcShift (x : Cfx) (c : Rc) : Rc := { c with hist := (c.hist.set 1 c.hist[0]).set 0 x }

/-- The converter with the input sample consumed (R164). -/
def rcConsume (c : Rc) : Rc := { c with skip := c.skip - 1 }

/-- `rc_push(x)` (R164): the outputs this input makes computable, and the converter after it. -/
def rcPush (x : Cfx) (c : Rc) : List Cfx × Rc :=
  let r := rcLoop rcFuel (rcShift x c)
  (r.1, rcConsume r.2)

/-- `rc_push` of a list of inputs, outputs joined (R166). -/
def rcPushAll : List Cfx → Rc → List Cfx × Rc
  | [], c => ([], c)
  | x :: xs, c =>
    let r := rcPush x c
    let q := rcPushAll xs r.2
    (r.1 ++ q.1, q.2)

/-- `rc_reset()` (R167): distance and history cleared, the ratio kept. -/
def rcReset (c : Rc) : Rc :=
  { c with mu := 0#32, skip := 0#32, hist := Vector.replicate _ cfxZero }

/-- The converter with a new ratio (R165, R341): nothing else changes. -/
def rcSetRatio (r : Nat) (c : Rc) : Rc := { c with ratio := BitVec.ofNat 64 r }

/-- RC.CFG (R165). -/
def execRcCfg (inRate outRate : Word) (reset : Bool) (s : State) : Result State :=
  if s.dm.active then reject .busy s
  else if inRate = 0#32 ∨ outRate = 0#32 then reject .range s
  else if rcRatio inRate.toNat outRate.toNat < RC_RATIO_MIN then reject .range s
  else
    let c := rcSetRatio (rcRatio inRate.toNat outRate.toNat) s.rc
    finish .ok [] { s with rc := if reset then rcReset c else c }

/-- RC.CONV (R166). -/
def execRcConv (xs : List Cfx) (s : State) : Result State :=
  if s.dm.active then reject .busy s
  else
    let r := rcPushAll xs s.rc
    finish .ok (sampleWords r.1) { s with rc := r.2 }

end Sys2Proof.Machine
end

