-- ==== Sys2Proof/Machine/SpectralFilter.lean ====
section
/-! DEFINITION. The spectral filter (spec/42_spectral_filter.md R180 to R193): the overlap-save step function,
SF.CFG, SF.APPLY. -/

namespace Sys2Proof.Machine
open Config

/-- The mask as SF_N entries. -/
def sfMaskList (f : Sf) : List Fx := sparseToList 0#32 SF_N f.mask

/-- The filter with a new mask (R188, R190): the samples collected are kept. -/
def sfSetMask (mask : List Fx) (f : Sf) : Sf := { f with mask := sparseOfList 0#32 0 mask }

/-- The block with a new sample stored at SF_L + fill (R182). -/
def sfStore (z : Cfx) (f : Sf) : Sparse Cfx := sparseSet cfxZero SF_N f.inb (SF_L + f.fill.val) z

/-- The kernel's result for a full block (R182, R184). -/
def sfResult (f : Sf) (inb : Sparse Cfx) : List Cfx :=
  sfKernel (sfMaskList f) (sparseToList cfxZero SF_N inb)

/-- The overlap tail kept for the next block (R182): entries 0 .. SF_L-1 take the values of SF_L .. SF_N-1, which keep
theirs. -/
def sfKeepTail (inb : Sparse Cfx) : Sparse Cfx :=
  let new := (sparseToList cfxZero SF_N inb).drop SF_L
  sparseOfList cfxZero 0 (new ++ new)

/-- `sf_push(z)` (R182): no output while the block fills, else its non-aliased half. -/
def sfPush (z : Cfx) (f : Sf) : List Cfx × Sf :=
  let inb := sfStore z f
  if h : f.fill.val + 1 < SF_L then ([], { f with inb := inb, fill := ⟨f.fill.val + 1, h⟩ })
  else ((sfResult f inb).drop SF_L, { f with inb := sfKeepTail inb, fill := 0 })

/-- `sf_push` of a list of inputs, outputs joined (R191). -/
def sfPushAll : List Cfx → Sf → List Cfx × Sf
  | [], f => ([], f)
  | x :: xs, f =>
    let r := sfPush x f
    let q := sfPushAll xs r.2
    (r.1 ++ q.1, q.2)

/-- The filter's block as DM.START leaves it (R346): zeros, none collected, the mask kept. -/
def sfClear (f : Sf) : Sf := { f with inb := [], fill := 0 }

/-- SF.CFG (R190). -/
def execSfCfg (mode bwHz oppBwHz rateHz : Word) (s : State) : Result State :=
  if s.dm.active then reject .busy s
  else
    match sfModeOf mode with
    | none => reject .range s
    | some m =>
      if rateHz = 0#32 then reject .range s
      else finish .ok [] { s with sf := sfSetMask (sfMaskgen m bwHz oppBwHz rateHz) s.sf }

/-- SF.APPLY (R191). -/
def execSfApply (xs : List Cfx) (s : State) : Result State :=
  if s.dm.active then reject .busy s
  else
    let r := sfPushAll xs s.sf
    finish .ok (sampleWords r.1) { s with sf := r.2 }

end Sys2Proof.Machine
end

