-- ==== Sys2Proof/Machine/DmControl.lean ====
section
/-! DEFINITION. Configuration, start, stop and status of the demodulation engine (spec/46_control.md R330 to R338, R340, R341,
R344, R346 to R348, R350) and the derived geometry (spec/44_atv_demod.md R218). -/

namespace Sys2Proof.Machine
open Config

/-! ## Configuration messages -/

/-- DM.CFGATV (R336). -/
def execDmCfgatv (lineNs topNs fps rowsRatio thrSyncTop thrBlack : Word) (hsyncEn vsyncEn : Bool) (s : State) :
    Result State :=
  if lineNs = 0#32 then cfgReject .atv .zeroField s
  else if topNs = 0#32 then cfgReject .atv .zeroField s
  else if fps = 0#32 then cfgReject .atv .zeroField s
  else if lineNs.toNat ≤ topNs.toNat then cfgReject .atv .topNotLess s
  else finish .ok []
    { s with dm := { s.dm with
        pnd := { s.dm.pnd with
          atv := atvBankOf lineNs topNs fps rowsRatio thrSyncTop thrBlack hsyncEn vsyncEn }
        pndF := { s.dm.pndF with atv := true } } }

/-- DM.CFGRF (R337). -/
def execDmCfgrf (freqOffsetHz modKind rfBwHz oppBwHz : Word) (filterEn decimEn : Bool) (s : State) : Result State :=
  match DemodKind.ofCode? modKind.toNat with
  | none => cfgReject .rf .badEnum s
  | some kind => finish .ok []
    { s with dm := { s.dm with
        pnd := { s.dm.pnd with rf := { freqOffsetHz, modKind := kind, rfBwHz, oppBwHz, filterEn, decimEn } }
        pndF := { s.dm.pndF with rf := true } } }

/-- DM.CFGSTREAM (R338). -/
def execDmCfgstream (inRateHz : Word) (s : State) : Result State :=
  if inRateHz = 0#32 then cfgReject .stream .zeroField s
  else finish .ok []
    { s with dm := { s.dm with
        pnd := { s.dm.pnd with stream := { inRateHz } }
        pndF := { s.dm.pndF with stream := true } } }

/-! ## Derived geometry (R218) -/

/-- The kinds that force the spectral filter into the path (R188). -/
def DemodKind.isVsb : DemodKind → Bool
  | .fm1 => false
  | .fm2 => false
  | .am => false
  | .vsbU => true
  | .vsbL => true

/-- Nanoseconds of a second, 10^9 (R218). -/
def nsPerSecond : Nat := 1000000000

/-- `rows_disp` (R218). -/
def rowsDispOf (rowsRatio : Fx) (lpf : Nat) : Word :=
  BitVec.ofInt 32 (clamp (shr (rowsRatio.toInt * lpf) FX_F) 1 lpf)

/-- `dm_derive(atv, rf, stream)` (R218): the derived parameters, or the reason there are none. -/
def dmDerive (b : DmBanks) : Except Reason DmDerived :=
  let inRate := b.stream.inRateHz.toNat
  let den := b.atv.fps.toNat * b.atv.lineNs.toNat
  if den = 0 ∨ nsPerSecond < den then .error .badLpf
  else
    let lpf := nsPerSecond / den
    if LPF_MAX < lpf then .error .badLpf
    else
      let lps := lpf * b.atv.fps.toNat
      if inRate < lps then .error .badLps
      else
        let spl := inRate / lps
        if spl < SPL_MIN ∨ SPL_MAX < spl then .error .badSpl
        else
          let effRate := if b.rf.decimEn then spl * lps else inRate
          let topN := max 2 (b.atv.topNs.toNat * effRate / nsPerSecond)
          if spl ≤ topN + HS_DELAY then .error .badTop
          else .ok
            { effRate := BitVec.ofNat 32 effRate
              lpf := BitVec.ofNat 32 lpf
              lps := BitVec.ofNat 32 lps
              spl := BitVec.ofNat 32 spl
              topN := BitVec.ofNat 32 topN
              rowsDisp := rowsDispOf b.atv.rowsRatio lpf
              filtOn := b.rf.filterEn || b.rf.modKind.isVsb
              decimOn := b.rf.decimEn }

/-! ## Apply step (R341) -/

/-- The mask mode of a demodulation kind (R188). -/
def DemodKind.sfMode : DemodKind → SfMode
  | .fm1 => .dsb
  | .fm2 => .dsb
  | .am => .dsb
  | .vsbU => .upper
  | .vsbL => .lower

/-- `dm_program_units()` (R341): oscillator 0's increment, the converter ratio and the filter mask from the running banks;
phase, converter position and filter block are kept. -/
def dmProgramUnits (s : State) : State :=
  let cur := s.dm.cur
  let inc := ncoIncHz (-cur.rf.freqOffsetHz.toInt) cur.stream.inRateHz.toNat
  let t := setInc 0 inc s
  { t with
    rc := rcSetRatio (rcRatio cur.stream.inRateHz.toNat s.dm.d.effRate.toNat) s.rc
    sf := sfSetMask (sfMaskgen cur.rf.modKind.sfMode cur.rf.rfBwHz cur.rf.oppBwHz s.dm.d.effRate) s.sf }

/-- The candidate banks (R341): pending where a message is pending, else running. -/
def dmCandidate (d : Dm) : DmBanks :=
  { atv := if d.pndF.atv then d.pnd.atv else d.cur.atv
    rf := if d.pndF.rf then d.pnd.rf else d.cur.rf
    stream := if d.pndF.stream then d.pnd.stream else d.cur.stream }

/-- What the synchronization state's timing depends on (R341): a change of any of it invalidates the timing. -/
structure TimingKey where
  spl : Word
  lpf : Word
  topN : Word
  effRate : Word
  modKind : DemodKind
  hsyncEn : Bool
  vsyncEn : Bool
  deriving DecidableEq, Repr

/-- The timing key of a derived record and its banks (R341). -/
def timingKey (d : DmDerived) (b : DmBanks) : TimingKey :=
  { spl := d.spl, lpf := d.lpf, topN := d.topN, effRate := d.effRate, modKind := b.rf.modKind,
    hsyncEn := b.atv.hsyncEn, vsyncEn := b.atv.vsyncEn }

/-- EV_RATE when the effective rate is not the one last reported (R249, R341). -/
def reportRate (s : State) : State :=
  if s.dm.d.effRate = s.dm.rateReported then s
  else
    let t := emitEvt (.rate s.dm.d.effRate) s
    { t with dm := { t.dm with rateReported := s.dm.d.effRate } }

/-- The accepted part of `dm_apply` (R341): candidate and derived record become running, the units are programmed, the
synchronization state is reset if the timing changed, a new rate is reported. -/
def dmCommit (cand : DmBanks) (d : DmDerived) (s : State) : State :=
  let t := dmProgramUnits { s with dm := { s.dm with cur := cand, val := .full, d := d } }
  let u := if s.dm.val.all && decide (timingKey d cand = timingKey s.dm.d s.dm.cur) then t else toUnsync t
  reportRate u

/-- `dm_apply()` (R341). -/
def dmApply (s : State) : State :=
  let cand := dmCandidate s.dm
  let cval := s.dm.val.or s.dm.pndF
  let s1 : State := { s with dm := { s.dm with pndF := .clear } }
  if cval.all then
    match dmDerive cand with
    | .error q => countCfgErr .derived q s1
    | .ok d => dmCommit cand d s1
  else { s1 with dm := { s1.dm with cur := cand, val := cval } }

/-- `dm_safe_point()` (R340): a stop request takes effect (R348), else pending banks are applied. -/
def dmSafePoint (s : State) : State :=
  if s.dm.stopReq then
    emitEvt (.stopped .demodulation) { s with dm := { s.dm with active := false, stopReq := false } }
  else if s.dm.pndF.any then dmApply s
  else s

/-! ## Start and stop -/

/-- `dm_create()` (R346). -/
def dmCreate (s : State) : State :=
  let t := dmProgramUnits s
  let u := toUnsync
    { t with
      nco := t.nco.set 0 { t.nco[0] with phase := 0#32 }
      rc := rcReset t.rc
      sf := sfClear t.sf
      lt := .reset }
  { u with dm := { u.dm with uh1 := cfxZero, uh2 := cfxZero, line := [], frames := 0#32 } }

/-- DM.START (R344). -/
def execDmStart (s : State) : Result State :=
  if s.dm.active then reject .busy s
  else
    let t := if s.dm.pndF.any then dmApply s else s
    if t.dm.val.all then
      let u := dmCreate t
      finish .ok [] { u with dm := { u.dm with active := true, stopReq := false } }
    else reject .nocfg t

/-- DM.STOP (R347): it only sets the request. -/
def execDmStop (s : State) : Result State :=
  finish .ok [] (if s.dm.active then { s with dm := { s.dm with stopReq := true } } else s)

/-- DM.STATUS (R350). -/
def execDmStatus (s : State) : Result State :=
  finish .ok [dmStatusFlags s, s.dm.d.effRate, ltAvg s.lt, ltPwr s.lt, dmStatusPosition s, s.dm.frames] s

end Sys2Proof.Machine
end

