-- ==== Sys2Proof/Machine/Demod.lean ====
section
/-! DEFINITION. The demodulation state machine (spec/44_atv_demod.md R215 to R249): front end, demodulators, normaliser,
line and frame sync, raster, DM.FEED. -/

namespace Sys2Proof.Machine
open Config

/-! ## Front end (R217) -/

/-- The rate converter in the path or bypassed (R168, R217). -/
def frontConvert (z : Cfx) (s : State) : List Cfx × State :=
  if s.dm.d.decimOn then
    let r := rcPush z s.rc
    (r.1, { s with rc := r.2 })
  else ([z], s)

/-- The spectral filter in the path or bypassed (R188, R217). -/
def frontFilter (zs : List Cfx) (s : State) : List Cfx × State :=
  if s.dm.d.filtOn then
    let r := sfPushAll zs s.sf
    (r.1, { s with sf := r.2 })
  else (zs, s)

/-- `dm_front(x)` (R217): mixer, converter, filter. -/
def dmFront (x : Cfx) (s : State) : List Cfx × State :=
  let a := frontConvert (cmul x (ncoOut s.nco[(0 : Fin 3)] 0)) (ncoStep 0 s)
  frontFilter a.1 a.2

/-! ## Demodulators (R221 to R226) -/

/-- The state with the discriminator history moved on by one unit vector (R223, which R33 summarises otherwise: log entry 28). -/
def pushHistory (u : Cfx) (s : State) : State := { s with dm := { s.dm with uh2 := s.dm.uh1, uh1 := u } }

/-- The result of `fm1` for a unit vector and the history (R224). -/
def fm1Raw (u a b : Cfx) : Fx :=
  let d := fxSub (fxMul a.re (fxSub u.im b.im)) (fxMul a.im (fxSub u.re b.re))
  clamp01 (shr (d.toInt + 2 * ONE) 2)

/-- The result of `fm2` for a unit vector and the history (R224). -/
def fm2Raw (u a : Cfx) : Fx :=
  let d := fxSub (fxMul a.re u.im) (fxMul a.im u.re)
  clamp01 (shr (d.toInt + ONE) 1)

/-- `vsb(kind, z)` (R226). -/
def vsbRaw (side : VsbSide) (z : Cfx) : Fx := cmag (vsbRecombine side z)

/-- The value of `dm_raw(z)` (R221). -/
def dmRaw (z : Cfx) (s : State) : Fx :=
  match s.dm.cur.rf.modKind with
  | .fm1 => fm1Raw (unit z) s.dm.uh1 s.dm.uh2
  | .fm2 => fm2Raw (unit z) s.dm.uh1
  | .am => cmag z
  | .vsbU => vsbRaw .upper z
  | .vsbL => vsbRaw .lower z

/-- The state after `dm_raw(z)` (R223): only the FM kinds move the history. -/
def dmRawStep (z : Cfx) (s : State) : State :=
  match s.dm.cur.rf.modKind with
  | .fm1 => pushHistory (unit z) s
  | .fm2 => pushHistory (unit z) s
  | .am => s
  | .vsbU => s
  | .vsbL => s

/-- `dm_norm(raw)` (R228). -/
def dmNorm (raw : Fx) (y : Sync) : Fx := clamp01 (fxDiv (fxSub raw y.effMin) y.effDelta).toInt

/-! ## Line sync (R229 to R235) -/

/-- The next index of the sync window (R229). -/
def winNext (i : Fin SYNC_WIN) : Fin SYNC_WIN := ⟨(i.val + 1) % SYNC_WIN, Nat.mod_lt _ (by decide)⟩

/-- The window after the new sample (R229). -/
def hsWindow (n : Fx) (y : Sync) : Sync := { y with win := y.win.set y.winIdx n, winIdx := winNext y.winIdx }

/-- The number of window samples at sync level, at or below the threshold (R230). DEDUCED (log entry 25): at the threshold itself
R427 says otherwise in a remark. -/
def syncLevelCount (thr : Fx) (y : Sync) : Nat :=
  (y.win.toList.filter fun v => decide (v.toInt ≤ thr.toInt)).length

/-- Majority, pulse length and the count since the last pulse (R230). DEDUCED (log entry 22), unsafe there: the majority counts
samples of the window, consecutive or not, as R230's pseudocode says, although R426 says that only consecutive ones give a
pulse. -/
def hsMajority (thr : Fx) (y : Sync) : Sync :=
  let now := decide (SYNC_MAJ ≤ syncLevelCount thr y)
  { y with
    hsNow := now
    pulseLen := if now then satInc y.pulseLen else 0#32
    sinceHs := satInc y.sinceHs }

/-- `detect` (R230), of the state after `hsMajority`; of R426's remark see log entry 22. -/
def hsDetect (d : DmDerived) (y : Sync) : Bool := y.hsNow && decide ((y.pulseLen.toNat : Int) = d.topN.toNat - 1)

/-- `on_cadence` (R232). -/
def onCadence (d : DmDerived) (y : Sync) : Bool :=
  decide (((y.sinceHs.toNat : Int) - d.spl.toNat).natAbs ≤ HS_TOL)

/-- `hs_align()` (R231). -/
def hsAlign (s : State) : State :=
  { s with sync := { s.sync with col := BitVec.ofInt 32 (s.dm.d.topN.toNat - 2 + HS_DELAY) } }

/-- The state with the line pulse counters replaced. -/
def setHs (count miss since : Word) (s : State) : State :=
  { s with sync := { s.sync with hsCount := count, hsMiss := miss, sinceHs := since } }

/-- `hs_unsync(detect)` (R233). -/
def hsUnsync (detect : Bool) (s : State) : State :=
  if detect then hsAlign (setHs 1#32 0#32 0#32 (setFsm .lineSyncSearching s)) else s

/-- `hs_search(detect)` (R234). -/
def hsSearch (detect : Bool) (s : State) : State :=
  if detect then
    if onCadence s.dm.d s.sync then
      let t := hsAlign (setHs (satInc s.sync.hsCount) s.sync.hsMiss 0#32 s)
      if HS_LOCK_COUNT ≤ t.sync.hsCount.toNat then setHs t.sync.hsCount 0#32 t.sync.sinceHs (setFsm .lineLocked t)
      else t
    else hsAlign (setHs 1#32 s.sync.hsMiss 0#32 s)
  else s

/-- `hs_locked(detect)` (R235). -/
def hsLocked (detect : Bool) (s : State) : State :=
  if detect && onCadence s.dm.d s.sync then hsAlign (setHs (satInc s.sync.hsCount) 0#32 0#32 s)
  else if s.sync.sinceHs.toNat = s.dm.d.spl.toNat + HS_TOL + 1 then
    let t := setHs 0#32 (satInc s.sync.hsMiss) (s.sync.sinceHs - s.dm.d.spl) s
    if HS_LOSS_COUNT ≤ t.sync.hsMiss.toNat then toUnsync t else t
  else s

/-- The part of the line state machine for the current state (R232). -/
def hsMachine (detect : Bool) (s : State) : State :=
  match s.sync.fsm with
  | .unsynchronized => hsUnsync detect s
  | .lineSyncSearching => hsSearch detect s
  | .lineLocked => hsLocked detect s
  | .frameSyncSearching => hsLocked detect s
  | .frameLocked => hsLocked detect s

/-- `hs_step(n)` (R229, R230, R232). -/
def hsStep (n : Fx) (s : State) : State :=
  let y := hsMajority s.dm.cur.atv.thrSyncTop (hsWindow n s.sync)
  let t : State := { s with sync := y }
  if s.dm.cur.atv.hsyncEn then hsMachine (hsDetect s.dm.d y) t else t

/-! ## Frame sync (R243) -/

/-- The answer of `vs_step`: no candidate taken, one accepted, or lock lost. -/
inductive VsAnswer where
  | none | acc | lost
  deriving DecidableEq, Repr

/-- A line at frame-sync level (R243). -/
def vsLevel (avg : Int) (thrBlack : Fx) : Bool := decide (avg ≤ shr thrBlack.toInt 1)

/-- `on_frame` (R243), of the state after the line has been counted. -/
def onFrame (d : DmDerived) (y : Sync) : Bool :=
  decide (((y.linesSinceVs.toNat : Int) - d.lpf.toNat).natAbs ≤ VS_TOL)

/-- The state with the frame sync counters replaced. -/
def setVs (count miss since : Word) (s : State) : State :=
  { s with sync := { s.sync with vsCount := count, vsMiss := miss, linesSinceVs := since } }

/-- LineLocked's part of `vs_step` (R243). -/
def vsLineLocked (cand : Bool) (s : State) : VsAnswer × State :=
  if cand then (.acc, setVs 1#32 0#32 0#32 (setFsm .frameSyncSearching s)) else (.none, s)

/-- FrameSyncSearching's part of `vs_step` (R243). -/
def vsSearching (cand : Bool) (s : State) : VsAnswer × State :=
  if cand then
    if onFrame s.dm.d s.sync then
      let c := satInc s.sync.vsCount
      if VS_LOCK_COUNT ≤ c.toNat then (.acc, setVs c 0#32 0#32 (setFsm .frameLocked s))
      else (.acc, setVs c s.sync.vsMiss 0#32 s)
    else (.acc, setVs 1#32 s.sync.vsMiss 0#32 s)
  else (.none, s)

/-- FrameLocked's part of `vs_step` (R243). -/
def vsFrameLocked (cand : Bool) (s : State) : VsAnswer × State :=
  if cand && onFrame s.dm.d s.sync then (.acc, setVs (satInc s.sync.vsCount) 0#32 0#32 s)
  else if s.sync.linesSinceVs.toNat = s.dm.d.lpf.toNat + VS_TOL + 1 then
    let t := setVs 0#32 (satInc s.sync.vsMiss) (s.sync.linesSinceVs - s.dm.d.lpf) s
    if VS_LOSS_COUNT ≤ t.sync.vsMiss.toNat then (.lost, toUnsync t) else (.none, t)
  else (.none, s)

/-- `vs_step(avg)` (R243), called in the locked states only (R241). -/
def vsStep (avg : Int) (s : State) : VsAnswer × State :=
  let level := vsLevel avg s.dm.cur.atv.thrBlack
  let cand := level && !s.sync.vsPrev
  let t : State :=
    { s with sync := { s.sync with vsPrev := level, linesSinceVs := satInc s.sync.linesSinceVs } }
  match t.sync.fsm with
  | .unsynchronized => (.none, t)
  | .lineSyncSearching => (.none, t)
  | .lineLocked => vsLineLocked cand t
  | .frameSyncSearching => vsSearching cand t
  | .frameLocked => vsFrameLocked cand t

/-! ## Raster (R240, R241, R244) -/

/-- `frame_done()` (R244). -/
def frameDone (s : State) : State :=
  let t := emitPix (.frame s.dm.frames s.dm.d.rowsDisp) s
  let delta := s.sync.ampMax.toInt - s.sync.ampMin.toInt
  { t with
    dm := { t.dm with frames := t.dm.frames + 1 }
    sync := { t.sync with
      row := 0#32
      effMin := s.sync.ampMin
      effDelta := if 0 < delta then sat delta else fxOne
      ampMin := fxGreatest
      ampMax := fxLeast } }

/-- The samples of the current line, column 0 first (R104). -/
def lineSamples (s : State) : List Fx := sparseToList 0#32 s.dm.d.spl.toNat s.dm.line

/-- The PX_LINE record of a completed line of the first rows_disp rows (R241, R242). -/
def emitLine (s : State) : State :=
  if s.sync.row.toNat < s.dm.d.rowsDisp.toNat then emitPix (.line s.sync.row s.dm.frames (lineSamples s)) s else s

/-- The raster moved to the next row (R241). -/
def nextRow (s : State) : State :=
  { s with sync := { s.sync with col := 0#32, lineSum := 0#64, row := satInc s.sync.row } }

/-- Whether the line just completed ends the frame, or an accepted frame sync only sets the row back (R241). DEDUCED (log entry 24),
unsafe there: so also on a frame sync accepted in LineLocked or FrameSyncSearching (R243), although R245 remarks that a frame
has exactly lpf lines in those states. -/
def lineEnd (v : VsAnswer) (s : State) : State :=
  if v = .lost then s
  else if s.dm.d.lpf.toNat ≤ s.sync.row.toNat ∨ (v = .acc ∧ VS_TOL < s.sync.row.toNat) then frameDone s
  else if v = .acc then { s with sync := { s.sync with row := 0#32 } }
  else s

/-- The line average of R241: floor of the line sum over spl. -/
def lineAverage (s : State) : Int := fdiv s.sync.lineSum.toInt s.dm.d.spl.toNat

/-- `line_done()` (R241). DEDUCED (log entry 26), unsafe there: a line completed outside the locked states, or with frame sync off,
leaves `vs_prev` as it was, as R241 and R243 say, although R41 remarks that every completed line writes it. -/
def lineDone (s : State) : State :=
  let t := nextRow (emitLine s)
  if s.dm.cur.atv.vsyncEn && s.sync.fsm.locked then
    let r := vsStep (lineAverage s) t
    lineEnd r.1 r.2
  else lineEnd .none t

/-- `raster_step()` (R240). -/
def rasterStep (s : State) : State :=
  let t : State := { s with sync := { s.sync with col := satInc s.sync.col } }
  if s.dm.d.spl.toNat ≤ t.sync.col.toNat then lineDone t else t

/-! ## The sample step (R220) -/

/-- The loss-of-signal test (R220, R236). -/
def checkSignal (s : State) : State :=
  if s.sync.fsm.locked && decide ((ltAvg s.lt).toInt < LT_FLOOR) then toUnsync s else s

/-- The amplitude statistics (R220, R228). -/
def recordAmp (raw : Fx) (s : State) : State :=
  { s with sync := { s.sync with ampMin := fxMin s.sync.ampMin raw, ampMax := fxMax s.sync.ampMax raw } }

/-- The luminance sample stored in the line and added to its sum (R220, R240). -/
def storeSample (n : Fx) (s : State) : State :=
  { s with
    dm := { s.dm with line := sparseSet 0#32 SPL_MAX s.dm.line s.sync.col.toNat n }
    sync := { s.sync with lineSum := sat64 (s.sync.lineSum.toInt + n.toInt) } }

/-- `dm_sample(z)` (R220), its lines in order. -/
def dmSample (z : Cfx) (s : State) : State :=
  let s1 : State := { s with lt := ltUpdate z s.lt }
  let raw := dmRaw z s1
  let s2 := recordAmp raw (checkSignal (dmRawStep z s1))
  let n := dmNorm raw s2.sync
  rasterStep (storeSample n (hsStep n s2))

/-! ## The cycle command (R216) -/

/-- `dm_sample` of a list of samples, in order. -/
def dmSamples : List Cfx → State → State
  | [], s => s
  | z :: zs, s => dmSamples zs (dmSample z s)

/-- The input block through the front end and the demodulator (R216): the count of demodulated samples and the state. -/
def dmBlock : List Cfx → State → Nat × State
  | [], s => (0, s)
  | x :: xs, s =>
    let f := dmFront x s
    let r := dmBlock xs (dmSamples f.1 f.2)
    (f.1.length + r.1, r.2)

/-- DM.FEED (R216). -/
def execDmFeed (xs : List Cfx) (s : State) : Result State :=
  if s.dm.active then
    let t := dmSafePoint s
    if t.dm.active then
      let r := dmBlock xs t
      finish .ok [BitVec.ofNat 32 r.1] r.2
    else reject .idle t
  else reject .idle s

end Sys2Proof.Machine
end

