-- ==== Sys2Proof/Machine/SyControl.lean ====
section
/-! DEFINITION. Configuration, start, stop and status of the synthesis engine (spec/46_control.md R339, R342, R343, R345,
R346, R348, R349, R351; spec/45_synthesis.md R294). -/

namespace Sys2Proof.Machine
open Config

/-- SY.CFG (R339). -/
def execSyCfg (sampleRateHz carrierHz depth mod toneHz amIndex fmDevHz ampI ampQ dcI dcQ skew : Word) (s : State) :
    Result State :=
  if sampleRateHz = 0#32 then cfgReject .synthesis .zeroField s
  else
    match Depth.ofCode? depth.toNat with
    | none => cfgReject .synthesis .badEnum s
    | some dep =>
      match SynthKind.ofCode? mod.toNat with
      | none => cfgReject .synthesis .badEnum s
      | some kind => finish .ok []
        { s with gen := { s.gen with
            pnd := genBankOf sampleRateHz carrierHz dep kind toneHz amIndex fmDevHz ampI ampQ dcI dcQ skew
            pndF := true } }

/-! ## Derived parameters (R294) -/

/-- The shift of a bit depth (R123). -/
def Depth.shift : Depth → Nat
  | .bits8 => 7
  | .bits12 => 11
  | .bits16 => 15

/-- The full-scale amplitude of a bit depth (R123). -/
def Depth.ampFs : Depth → Nat
  | .bits8 => 127
  | .bits12 => 2047
  | .bits16 => 32767

/-- `fm_d` (R294). -/
def fmUnit (fmDevHz sampleRateHz : Word) : Fx :=
  BitVec.ofInt FX_W (clamp (fdiv ((fmDevHz.toNat : Int) * 2 ^ (FX_F + 1)) sampleRateHz.toNat) 0 ONE)

/-- The derived record of a synthesis bank (R294). -/
def syDerive (b : GenBank) : GenDerived :=
  { shift := b.depth.shift, ampFs := b.depth.ampFs, fmD := fmUnit b.fmDevHz b.sampleRateHz }

/-- The engine's units programmed from a bank (R294, R343, R346): derived record and the two increments; phases kept. -/
def syProgram (b : GenBank) (s : State) : State :=
  let t := setInc 2 (ncoIncHz b.toneHz.toNat b.sampleRateHz.toNat)
    (setInc 1 (ncoIncHz b.carrierHz.toInt b.sampleRateHz.toNat) s)
  { t with gen := { t.gen with d := syDerive b } }

/-- `sy_apply()` (R343). -/
def syApply (s : State) : State :=
  syProgram s.gen.pnd { s with gen := { s.gen with pndF := false, cur := s.gen.pnd, val := true } }

/-- `sy_safe_point()` (R342). -/
def sySafePoint (s : State) : State :=
  if s.gen.stopReq then
    emitEvt (.stopped .synthesis) { s with gen := { s.gen with active := false, stopReq := false } }
  else if s.gen.pndF then syApply s
  else s

/-! ## Start and stop -/

/-- `sy_create()` (R346): it reads TIMER once. It writes `S.gen.d` too, which R36 leaves to the apply step (log entry 28). -/
def syCreate (s : State) : State :=
  let t := syProgram s.gen.cur s
  let u := setNco 2 { t.nco[(2 : Fin 3)] with phase := 0#32 } (setNco 1 { t.nco[(1 : Fin 3)] with phase := 0#32 } t)
  timerAdvance
    { u with gen := { u.gen with fmDev := 0#32, toggle := false, lastTime := timerNow s } }

/-- SY.START (R345). -/
def execSyStart (s : State) : Result State :=
  if s.gen.halted then reject .halted s
  else if s.gen.active then reject .busy s
  else
    let t := if s.gen.pndF then syApply s else s
    if t.gen.val then
      let u := syCreate t
      finish .ok [] { u with gen := { u.gen with active := true, stopReq := false } }
    else reject .nocfg t

/-- SY.STOP (R349): it only sets the request. -/
def execSyStop (s : State) : Result State :=
  finish .ok [] (if s.gen.active then { s with gen := { s.gen with stopReq := true } } else s)

/-- SY.STATUS (R351). -/
def execSyStatus (s : State) : Result State :=
  finish .ok
    [syStatusFlags s, BitVec.ofNat 32 (syqFill s), BitVec.ofNat 32 (syqFree s), s.gen.lastTime] s

end Sys2Proof.Machine
end

