-- ==== Sys2Proof/Machine/Synthesis.lean ====
section
/-! DEFINITION. The synthesis engine (spec/45_synthesis.md R280 to R303): the modulation kinds, scaling and conversion,
generation into the buffer and the queue, SY.GEN, SY.TICK, SY.POP. -/

namespace Sys2Proof.Machine
open Config

/-! ## Samples (R284 to R291) -/

/-- `fm_wrap(x)` (R289). -/
def fmWrap (x : Int) : Int := if ONE < x then x - 2 * ONE else if x < -ONE then x + 2 * ONE else x

/-- The AM envelope at a tone value (R286). -/
def amEnvelope (index t : Fx) : Fx := clamp01 (shr (ONE + (fxMul index t).toInt) 1)

/-- The FM deviation after a tone value (R288). -/
def fmNext (dev fmD t : Fx) : Fx := sat (fmWrap (dev.toInt + (fxMul fmD t).toInt))

/-- The phase word of a deviation (R288): deviation times pi. -/
def fmPhase (dev : Fx) : Phase := BitVec.ofInt P (dev.toInt * 2 ^ (P - 1 - FX_F))

/-- `sy_none()` (R285). -/
def syNone (s : State) : Cfx × State := (ncoOut s.nco[(1 : Fin 3)] s.gen.cur.skew.toInt, ncoStep 1 s)

/-- `sy_am()` (R286). -/
def syAm (s : State) : Cfx × State :=
  let c := ncoOut s.nco[(1 : Fin 3)] 0
  let e := amEnvelope s.gen.cur.amIndex (ncoOut s.nco[(2 : Fin 3)] 0).re
  ({ re := fxMul c.re e, im := fxMul c.im e }, ncoStep 2 (ncoStep 1 s))

/-- `sy_fm()` (R288). DEDUCED (log entry 23), unsafe there: the value is what `cmul` gives (R14, R288), although R284 remarks that a
component lies at most one raw unit beyond [-ONE, ONE]; the floor can give two below. -/
def syFm (s : State) : Cfx × State :=
  let dev := fmNext s.gen.fmDev s.gen.d.fmD (ncoOut s.nco[(2 : Fin 3)] 0).re
  let t := ncoStep 1 (ncoStep 2 s)
  (cmul (ncoOut s.nco[(1 : Fin 3)] 0) (cs (fmPhase dev)), { t with gen := { t.gen with fmDev := dev } })

/-- `sy_sample()` (R284). -/
def sySample (s : State) : Cfx × State :=
  match s.gen.cur.mod with
  | .none => syNone s
  | .am => syAm s
  | .fm => syFm s

/-- `sy_scale(c)` (R290). -/
def syScale (b : GenBank) (c : Cfx) : Cfx :=
  { re := fxAdd (fxMul c.re b.ampI) b.dcI, im := fxAdd (fxMul c.im b.ampQ) b.dcQ }

/-- `sy_conv(v)` (R291). -/
def syConv (d : GenDerived) (v : Fx) : Int := clamp (shr v.toInt (FX_F - d.shift)) (-(d.ampFs : Int)) d.ampFs

/-- `sy_conv(v) mod 2^16`, the stored half (R281, R291). -/
def syHalf (d : GenDerived) (v : Fx) : Half := BitVec.ofInt 16 (syConv d v)

/-! ## Generation (R281) -/

/-- One sample generated, scaled, converted and stored at bytes 4i .. 4i+3 (R74, R281). -/
def syOne (i : Nat) (s : State) : State :=
  let r := sySample s
  let v := syScale r.2.gen.cur r.1
  { r.2 with
    sybuf := memWrite (memWrite r.2.sybuf (4 * i) (syHalf r.2.gen.d v.re)) (4 * i + 2) (syHalf r.2.gen.d v.im) }

/-- Samples i, i+1, … generated, as many as the first argument says (R281). -/
def syFill : Nat → Nat → State → State
  | 0, _, s => s
  | n + 1, i, s => syFill n (i + 1) (syOne i s)

/-- The first n halves of the buffer, in order (R281). -/
def batchHalves (n : Nat) (m : Memory) : List Half := (List.range n).map fun j => memRead m (2 * j)

/-- The batch pushed in one step (R75, R281, R293). -/
def syPush (n : Nat) (s : State) : State := { s with syq := s.syq ++ batchHalves n s.sybuf }

/-- The size check `sy_generate(count)` fails, if any (R281, R292, R293): the buffer first, then the queue. -/
def syCheck (count : Nat) (s : State) : Option FaultBit :=
  if SY_BUF_WORDS < count then some .syBufsize
  else if syqFree s < 2 * (count / 2) then some .syQueue
  else none

/-- The batch of `sy_generate(count)` when both checks pass (R281). -/
def syBatch (count : Nat) (s : State) : State := syPush (2 * (count / 2)) (syFill (count / 2) 0 s)

/-- `sy_generate(count)` and the response of the command that called it (R281, R282, R295). -/
def syGenerate (count : Nat) (s : State) : Result State :=
  match syCheck count s with
  | some b => finish .fault [0#32] (raiseFault b s)
  | none => finish .ok [BitVec.ofNat 32 (2 * (count / 2))] (syBatch count s)

/-- SY.GEN (R282). -/
def execSyGen (count : Word) (s : State) : Result State :=
  if s.gen.halted then reject .halted s
  else if s.gen.active then
    let t := sySafePoint s
    if t.gen.active then syGenerate count.toNat t else reject .idle t
  else reject .idle s

/-! ## Throttle (R295) -/

/-- `elapsed` (R295, R297): modulo 2^TIMER_W. -/
def syElapsed (s : State) : Nat := (timerNow s - s.gen.lastTime).toNat

/-- `due`, in samples times TB_HZ (R295). -/
def syDue (s : State) : Nat := s.gen.cur.sampleRateHz.toNat * syElapsed s

/-- `n` (R295): the due samples rounded up when the toggle is 1, else down. -/
def syDueSamples (s : State) : Nat :=
  if s.gen.toggle then (syDue s + TB_HZ - 1) / TB_HZ else syDue s / TB_HZ

/-- The state after TIMER has been read and the toggle flipped (R295). -/
def syTickAdvance (s : State) : State :=
  timerAdvance { s with gen := { s.gen with lastTime := timerNow s, toggle := !s.gen.toggle } }

/-- SY.TICK (R295). -/
def execSyTick (s : State) : Result State :=
  if s.gen.halted then reject .halted s
  else if s.gen.active then
    let t := sySafePoint s
    if t.gen.active then syGenerate (2 * syDueSamples t) (syTickAdvance t) else reject .idle t
  else reject .idle s

/-! ## The consumer (R301) -/

/-- Halves packed two to a word, the first popped in bits 15:0 (R76, R301). -/
def packHalves : List Half → List Word
  | a :: b :: rest => (b ++ a) :: packHalves rest
  | _ => []

/-- `m`: the halves SY.POP takes (R301). -/
def popCount (n : Word) (s : State) : Nat := min n.toNat (syqFill s)

/-- SY.POP (R301). -/
def execSyPop (n : Word) (s : State) : Result State :=
  if n.toNat % 2 = 1 then reject .range s
  else
    let m := popCount n s
    finish .ok (BitVec.ofNat 32 m :: packHalves (s.syq.take m)) { s with syq := s.syq.drop (2 * (m / 2)) }

end Sys2Proof.Machine
end

