-- ==== Sys2Proof/Machine/System.lean ====
section
/-! DEFINITION. The commands of the whole block (spec/46_control.md R331, R352, R353): NOP, FAULT.RD, RESET. -/

namespace Sys2Proof.Machine

/-- NOP (R331). -/
def execNop (s : State) : Result State := finish .ok [] s

/-- FAULT.RD (R352): reading clears nothing. -/
def execFaultRd (s : State) : Result State := finish .ok [s.fault, s.cfgErr] s

/-- RESET (R353): accepted in every state; it emits no event. -/
def execReset (s : State) : Result State := finish .ok [] (resetCore s)

end Sys2Proof.Machine
end

