-- ==== Sys2Proof/Machine/Dispatch.lean ====
section
/-! DEFINITION. The dispatch of a decoded command to its meaning, one arm per constructor (spec/30_encoding.md R106). -/

namespace Sys2Proof.Machine

/-- The effect of a command on the state (R19: one atomic step). -/
def exec (i : Instr) (s : State) : Host.Outcome State Fault Refusal :=
  match i with
  | .nop => Sys2Proof.Machine.execNop s
  | .ncoSetf k nf => Sys2Proof.Machine.execNcoSetf k nf s
  | .ncoNext k => Sys2Proof.Machine.execNcoNext k s
  | .ncoNexti k skew => Sys2Proof.Machine.execNcoNexti k skew s
  | .ncoRdph k => Sys2Proof.Machine.execNcoRdph k s
  | .rcCfg inRate outRate reset => Sys2Proof.Machine.execRcCfg inRate outRate reset s
  | .rcConv xs => Sys2Proof.Machine.execRcConv xs s
  | .sfCfg mode bwHz oppBwHz rateHz => Sys2Proof.Machine.execSfCfg mode bwHz oppBwHz rateHz s
  | .sfApply xs => Sys2Proof.Machine.execSfApply xs s
  | .ltUpd z => Sys2Proof.Machine.execLtUpd z s
  | .ltAvg => Sys2Proof.Machine.execLtAvg s
  | .ltPwr => Sys2Proof.Machine.execLtPwr s
  | .dmCfgatv a b c d e g h v => Sys2Proof.Machine.execDmCfgatv a b c d e g h v s
  | .dmCfgrf a b c d f g => Sys2Proof.Machine.execDmCfgrf a b c d f g s
  | .dmCfgstream inRateHz => Sys2Proof.Machine.execDmCfgstream inRateHz s
  | .dmStart => Sys2Proof.Machine.execDmStart s
  | .dmStop => Sys2Proof.Machine.execDmStop s
  | .dmFeed xs => Sys2Proof.Machine.execDmFeed xs s
  | .dmStatus => Sys2Proof.Machine.execDmStatus s
  | .syCfg a b c d e f g h j k l m => Sys2Proof.Machine.execSyCfg a b c d e f g h j k l m s
  | .syStart => Sys2Proof.Machine.execSyStart s
  | .syStop => Sys2Proof.Machine.execSyStop s
  | .syTick => Sys2Proof.Machine.execSyTick s
  | .syGen count => Sys2Proof.Machine.execSyGen count s
  | .syPop n => Sys2Proof.Machine.execSyPop n s
  | .syStatus => Sys2Proof.Machine.execSyStatus s
  | .faultRd => Sys2Proof.Machine.execFaultRd s
  | .reset => Sys2Proof.Machine.execReset s

end Sys2Proof.Machine
end

