-- ==== Sys2Proof/WellFormed.lean ====
section
/-! DEFINITION. Which terms of `Instr` are commands the encoding can carry (spec/30_encoding.md R106, R108): a block
command holds 1 to DM_BLOCK_MAX complex samples; every other operand is any word. -/

namespace Sys2Proof

/-- A block of 1 to DM_BLOCK_MAX complex samples (R72, R106). -/
def blockOk (xs : List Cfx) : Bool :=
  decide (1 ≤ xs.length) && decide (xs.length ≤ Config.DM_BLOCK_MAX)

/-- The well-formed commands (R106, R108). -/
def WellFormed : Instr → Bool
  | .nop => true
  | .ncoSetf _ _ => true
  | .ncoNext _ => true
  | .ncoNexti _ _ => true
  | .ncoRdph _ => true
  | .rcCfg _ _ _ => true
  | .rcConv xs => blockOk xs
  | .sfCfg _ _ _ _ => true
  | .sfApply xs => blockOk xs
  | .ltUpd _ => true
  | .ltAvg => true
  | .ltPwr => true
  | .dmCfgatv _ _ _ _ _ _ _ _ => true
  | .dmCfgrf _ _ _ _ _ _ => true
  | .dmCfgstream _ => true
  | .dmStart => true
  | .dmStop => true
  | .dmFeed xs => blockOk xs
  | .dmStatus => true
  | .syCfg _ _ _ _ _ _ _ _ _ _ _ _ => true
  | .syStart => true
  | .syStop => true
  | .syTick => true
  | .syGen _ => true
  | .syPop _ => true
  | .syStatus => true
  | .faultRd => true
  | .reset => true

end Sys2Proof
end

