-- ==== Sys2Proof/Decode.lean ====
section
/-! DEFINITION. The command decoder and encoder (spec/30_encoding.md R101, R105 to R109, R112 to R114). The decoder
is total: a command it refuses is refused by name, and every such refusal is answered E_ILLEGAL (R107, R108). -/

namespace Sys2Proof

/-- Why a command is illegal (R107, R108), in the order the checks are made. -/
inductive Illegal where
  /-- OPC is not in the opcode map (R107 step 2, R109). -/
  | reservedOpcode
  /-- LEN is not the value, or not in the set, that R106 gives for OPC (R107 step 3). -/
  | badLength
  /-- A `flags` operand has a bit set that is not named (R107 step 4). -/
  | reservedFlag
  deriving DecidableEq, Repr

/-- The header word {OPC[31:24], LEN[23:0]} (R101). -/
def headerWord (opc len : Nat) : Word :=
  BitVec.ofNat 8 opc ++ BitVec.ofNat 24 len

/-- Field OPC of a header (R101). -/
def headerOpc (h : Word) : Nat := h.toNat / 2 ^ 24

/-- Field LEN of a header (R101). -/
def headerLen (h : Word) : Nat := h.toNat % 2 ^ 24

/-- The complex samples of an operand list, two words each, first the in-phase one (R105). -/
def pairUp : List Word → List Cfx
  | re :: im :: rest => ⟨re, im⟩ :: pairUp rest
  | _ => []

/-- The operand words of a block of complex samples (R105). -/
def unpair : List Cfx → List Word
  | [] => []
  | z :: zs => z.re :: z.im :: unpair zs

/-- A `flags` operand of which bits 0 .. n-1 are named and no other may be set (R105, R107). -/
def flagsOk (n : Nat) (f : Word) : Bool := decide (f.toNat < 2 ^ n)

/-- Bit `i` of a `flags` operand. -/
def flagBit (f : Word) (i : Nat) : Bool := f.getLsbD i

/-- The operands of a block command with length field `len` (R106: 2n with 1 ≤ n ≤ DM_BLOCK_MAX; R108). -/
def decodeBlock (len : Nat) (ops : List Word) (mk : List Cfx → Instr) : Except Illegal Instr :=
  if len = 0 ∨ len % 2 = 1 ∨ 2 * Config.DM_BLOCK_MAX < len then .error .badLength
  else .ok (mk (pairUp ops))

/-- A command without operands. -/
def decode0 (i : Instr) : List Word → Except Illegal Instr
  | [] => .ok i
  | _ => .error .badLength

/-- A command with one operand word. -/
def decode1 (mk : Word → Instr) : List Word → Except Illegal Instr
  | [a] => .ok (mk a)
  | _ => .error .badLength

/-- RC.CFG's operands: f is a `flags` operand with bit 0 named (R106, R165). -/
def decodeRcCfg : List Word → Except Illegal Instr
  | [a, b, f] => if flagsOk 1 f then .ok (.rcCfg a b (flagBit f 0)) else .error .reservedFlag
  | _ => .error .badLength

/-- DM.CFGATV's operands (R112). -/
def decodeCfgatv : List Word → Except Illegal Instr
  | [a, b, c, d, e, g, f] =>
    if flagsOk 2 f then .ok (.dmCfgatv a b c d e g (flagBit f 0) (flagBit f 1)) else .error .reservedFlag
  | _ => .error .badLength

/-- DM.CFGRF's operands (R113). -/
def decodeCfgrf : List Word → Except Illegal Instr
  | [a, b, c, d, f] =>
    if flagsOk 2 f then .ok (.dmCfgrf a b c d (flagBit f 0) (flagBit f 1)) else .error .reservedFlag
  | _ => .error .badLength

/-- The command that a header and its LEN operand words stand for (R106, R107 steps 2 to 4). -/
def decodeCommand (h : Word) (ops : List Word) : Except Illegal Instr :=
  match headerOpc h with
  | 0x00 => decode0 .nop ops
  | 0x10 => match ops with
    | [k, hi, lo] => .ok (.ncoSetf k (hi ++ lo))
    | _ => .error .badLength
  | 0x11 => decode1 .ncoNext ops
  | 0x12 => match ops with
    | [k, skew] => .ok (.ncoNexti k skew)
    | _ => .error .badLength
  | 0x13 => decode1 .ncoRdph ops
  | 0x20 => decodeRcCfg ops
  | 0x21 => decodeBlock (headerLen h) ops .rcConv
  | 0x30 => match ops with
    | [mode, bw, opp, rate] => .ok (.sfCfg mode bw opp rate)
    | _ => .error .badLength
  | 0x31 => decodeBlock (headerLen h) ops .sfApply
  | 0x40 => match ops with
    | [re, im] => .ok (.ltUpd ⟨re, im⟩)
    | _ => .error .badLength
  | 0x41 => decode0 .ltAvg ops
  | 0x42 => decode0 .ltPwr ops
  | 0x50 => decodeCfgatv ops
  | 0x51 => decodeCfgrf ops
  | 0x52 => decode1 .dmCfgstream ops
  | 0x53 => decode0 .dmStart ops
  | 0x54 => decode0 .dmStop ops
  | 0x55 => decodeBlock (headerLen h) ops .dmFeed
  | 0x56 => decode0 .dmStatus ops
  | 0x60 => match ops with
    | [w1, w2, w3, w4, w5, w6, w7, w8, w9, w10, w11, w12] =>
      .ok (.syCfg w1 w2 w3 w4 w5 w6 w7 w8 w9 w10 w11 w12)
    | _ => .error .badLength
  | 0x61 => decode0 .syStart ops
  | 0x62 => decode0 .syStop ops
  | 0x63 => decode0 .syTick ops
  | 0x64 => decode1 .syGen ops
  | 0x65 => decode1 .syPop ops
  | 0x66 => decode0 .syStatus ops
  | 0x70 => decode0 .faultRd ops
  | 0x7F => decode0 .reset ops
  | _ => .error .reservedOpcode

/-- Whether a list has at least `n` entries (no count of a long list is made). -/
def hasAtLeast : Nat → List Word → Bool
  | 0, _ => true
  | _ + 1, [] => false
  | n + 1, _ :: ws => hasAtLeast n ws

/-- The first command on CMD and the words after it (R101, R107): none while fewer than 1 + LEN words have arrived;
else what the header and its LEN operand words decode to. A refused command is consumed whole as well. -/
def decode (cmd : List Word) : Option (Except Illegal Instr × List Word) :=
  match cmd with
  | [] => none
  | h :: ws =>
    if hasAtLeast (headerLen h) ws then
      some (decodeCommand h (ws.take (headerLen h)), ws.drop (headerLen h))
    else none

/-! ## Encoder -/

/-- The opcode of a command (R106). -/
def opcodeOf : Instr → Nat
  | .nop => 0x00
  | .ncoSetf _ _ => 0x10
  | .ncoNext _ => 0x11
  | .ncoNexti _ _ => 0x12
  | .ncoRdph _ => 0x13
  | .rcCfg _ _ _ => 0x20
  | .rcConv _ => 0x21
  | .sfCfg _ _ _ _ => 0x30
  | .sfApply _ => 0x31
  | .ltUpd _ => 0x40
  | .ltAvg => 0x41
  | .ltPwr => 0x42
  | .dmCfgatv _ _ _ _ _ _ _ _ => 0x50
  | .dmCfgrf _ _ _ _ _ _ => 0x51
  | .dmCfgstream _ => 0x52
  | .dmStart => 0x53
  | .dmStop => 0x54
  | .dmFeed _ => 0x55
  | .dmStatus => 0x56
  | .syCfg _ _ _ _ _ _ _ _ _ _ _ _ => 0x60
  | .syStart => 0x61
  | .syStop => 0x62
  | .syTick => 0x63
  | .syGen _ => 0x64
  | .syPop _ => 0x65
  | .syStatus => 0x66
  | .faultRd => 0x70
  | .reset => 0x7F

/-- The `flags` operand with bit 0 and bit 1 as given (R112, R113, R165). -/
def flagsWord (b0 b1 : Bool) : Word :=
  (if b0 then 1#32 else 0#32) ||| (if b1 then 2#32 else 0#32)

/-- The operand words of a command (R106, R112 to R114). -/
def operandsOf : Instr → List Word
  | .nop => []
  | .ncoSetf k nf => [k, nf.extractLsb' 32 32, nf.extractLsb' 0 32]
  | .ncoNext k => [k]
  | .ncoNexti k skew => [k, skew]
  | .ncoRdph k => [k]
  | .rcCfg a b r => [a, b, flagsWord r false]
  | .rcConv xs => unpair xs
  | .sfCfg mode bw opp rate => [mode, bw, opp, rate]
  | .sfApply xs => unpair xs
  | .ltUpd z => [z.re, z.im]
  | .ltAvg => []
  | .ltPwr => []
  | .dmCfgatv a b c d e g h v => [a, b, c, d, e, g, flagsWord h v]
  | .dmCfgrf a b c d f g => [a, b, c, d, flagsWord f g]
  | .dmCfgstream r => [r]
  | .dmStart => []
  | .dmStop => []
  | .dmFeed xs => unpair xs
  | .dmStatus => []
  | .syCfg a b c d e f g h i j k l => [a, b, c, d, e, f, g, h, i, j, k, l]
  | .syStart => []
  | .syStop => []
  | .syTick => []
  | .syGen n => [n]
  | .syPop n => [n]
  | .syStatus => []
  | .faultRd => []
  | .reset => []

/-- The words of a command on CMD (R101). -/
def encode (i : Instr) : List Word :=
  headerWord (opcodeOf i) (operandsOf i).length :: operandsOf i

/-! ## The opcode table's numbering -/

/-- Words 1 .. n of a command whose bits are `w`, word i at bits 32i+31 .. 32i. -/
def operandWordsOf : Nat → Nat → List Word
  | 0, _ => []
  | n + 1, w => BitVec.ofNat 32 (w / 2 ^ 32) :: operandWordsOf n (w / 2 ^ 32)

/-- The number of operand words of the longest command (R106). -/
def maxOperandWords : Nat := 2 * Config.DM_BLOCK_MAX

/-- The words on CMD of the command whose first `nbits` bits are those of `w` and whose other bits are 0: the header
and as many operand words as its LEN says, at most those of the longest command (R101). -/
def tableWords (nbits w : Nat) : List Word :=
  let v := w % 2 ^ nbits
  let h : Word := BitVec.ofNat 32 v
  h :: operandWordsOf (min (headerLen h) maxOperandWords) v

/-- The command the decoder reads from an opcode-table word; none where it refuses. -/
def decodeTableWord (nbits w : Nat) : Option Instr :=
  match decode (tableWords nbits w) with
  | some (.ok i, _) => some i
  | _ => none

end Sys2Proof
end

