-- ==== Sys2Proof/Machine/Fetch.lean ====
section
/-! DEFINITION. Taking a command from CMD (spec/30_encoding.md R101, R107; spec/20_memory.md R82; spec/70_reset_and_hazards.md
R410, R411): the next command, the state with its words consumed, the answer to an illegal one, the reset input, placing a
command on CMD. -/

namespace Sys2Proof.Machine

/-- The next command on CMD and the words after it; none while no whole command has arrived (R107, R410). -/
def nextCommand (s : State) : Option (Except Illegal Instr × List Word) := decode s.io.cmd

/-- The state with the words left on CMD replaced (R101: a command's words are consumed whole). -/
def withCmd (ws : List Word) (s : State) : State := { s with io := { s.io with cmd := ws } }

/-- The answer to a command the decoder refuses (R107, R108): E_ILLEGAL and no other state change. -/
def rejectIllegal (_e : Illegal) (s : State) : Result State := reject .illegal s

/-- Whether the reset input is asserted (R410). -/
def resetAsserted (s : State) : Bool := s.io.resetIn

/-- The leading whole commands of CMD, at most as many as the first argument says (R101). -/
def wholeCommands : Nat → List Word → List Word
  | 0, _ => []
  | _ + 1, [] => []
  | n + 1, h :: ws =>
    if hasAtLeast (headerLen h) ws then
      h :: (ws.take (headerLen h) ++ wholeCommands n (ws.drop (headerLen h)))
    else []

/-- CMD without the command of which only part has arrived, wherever it stands (R410). -/
def dropPartial (cmd : List Word) : List Word := wholeCommands cmd.length cmd

/-- The reset input asserted (R410): every field of `S` at its reset value, the histories empty (R411), a partly arrived
command discarded, nothing emitted. Whole commands on CMD wait on (log entry 9); TIMER is not affected (R395). -/
def hardwareReset (s : State) : State :=
  { State.reset with io := { Io.reset with
      cmd := dropPartial s.io.cmd
      timerIn := s.io.timerIn
      timerReads := s.io.timerReads } }

/-- The state with an opcode-table word as the command that CMD delivers next, reset not asserted. -/
def placeTableWord (s : State) (nbits w : Nat) : State :=
  { s with io := { s.io with cmd := tableWords nbits w, resetIn := false } }

end Sys2Proof.Machine
end

