-- ==== Sys2Proof/Machine/Step.lean ====
section
/-! DEFINITION. One step of the CORE (spec/20_memory.md R82; spec/70_reset_and_hazards.md R410): the reset input if it is
asserted, else the next whole command on CMD, else waiting. -/

namespace Sys2Proof.Machine

/-- One step (R19, R82, R107, R410). -/
def step (s : State) : Host.Outcome State Fault Refusal :=
  if resetAsserted s then .next (hardwareReset s)
  else
    match nextCommand s with
    | none => .next s
    | some (.error e, rest) => rejectIllegal e (withCmd rest s)
    | some (.ok i, rest) => exec i (withCmd rest s)

/-- The state with an opcode-table word as the command the next step runs (log entry 8). -/
def State.withFetchWord (s : State) (nbits w : Nat) : State := placeTableWord s nbits w

end Sys2Proof.Machine
end

