-- ==== Sys2Proof/Safety.lean ====
section
/-! DEFINITION. What the statements about the CORE are said in: runs of several commands (spec/20_memory.md R82), the
invariants of spec/10_state.md R44 with the facts they rest on, the agents' shares of the state (R45), the arcs of the
demodulation state machine (spec/44_atv_demod.md R248), a run without a fatal fault (spec/60_exceptions.md R375, R377). -/

namespace Sys2Proof.Machine
open Config

/-! ## Runs -/

/-- The commands of a list executed one after another, each atomically (R82). -/
def execAll : List Instr → State → Result State
  | [], s => .next s
  | i :: is, s =>
    match exec i s with
    | .next t => execAll is t
    | .fault r => .fault r
    | .refused r => .refused r

/-- The words on CMD of a list of commands. -/
def encodeAll : List Instr → List Word
  | [] => []
  | i :: is => encode i ++ encodeAll is

/-- A state in which no fatal fault has happened since reset: the synthesis engine is not halted and no fault bit is set
(R375 to R377). A safe run is one whose every state is such a state. -/
def NoFault (s : State) : Prop := s.gen.halted = false ∧ s.fault = 0#32

/-! ## Classes of commands -/

/-- The commands of the control path (R330): configuration messages, stop requests, status reads and NOP. -/
def isControl : Instr → Bool
  | .nop => true
  | .ncoSetf _ _ => false
  | .ncoNext _ => false
  | .ncoNexti _ _ => false
  | .ncoRdph _ => true
  | .rcCfg _ _ _ => false
  | .rcConv _ => false
  | .sfCfg _ _ _ _ => false
  | .sfApply _ => false
  | .ltUpd _ => false
  | .ltAvg => true
  | .ltPwr => true
  | .dmCfgatv _ _ _ _ _ _ _ _ => true
  | .dmCfgrf _ _ _ _ _ _ => true
  | .dmCfgstream _ => true
  | .dmStart => false
  | .dmStop => true
  | .dmFeed _ => false
  | .dmStatus => true
  | .syCfg _ _ _ _ _ _ _ _ _ _ _ _ => true
  | .syStart => false
  | .syStop => true
  | .syTick => false
  | .syGen _ => false
  | .syPop _ => false
  | .syStatus => true
  | .faultRd => true
  | .reset => false

/-- The commands that act on the demodulation engine or its units (R2, R45). -/
def isDemod : Instr → Bool
  | .nop => false
  | .ncoSetf k _ => decide (k = 0#32)
  | .ncoNext k => decide (k = 0#32)
  | .ncoNexti k _ => decide (k = 0#32)
  | .ncoRdph k => decide (k = 0#32)
  | .rcCfg _ _ _ => true
  | .rcConv _ => true
  | .sfCfg _ _ _ _ => true
  | .sfApply _ => true
  | .ltUpd _ => true
  | .ltAvg => true
  | .ltPwr => true
  | .dmCfgatv _ _ _ _ _ _ _ _ => true
  | .dmCfgrf _ _ _ _ _ _ => true
  | .dmCfgstream _ => true
  | .dmStart => true
  | .dmStop => true
  | .dmFeed _ => true
  | .dmStatus => true
  | .syCfg _ _ _ _ _ _ _ _ _ _ _ _ => false
  | .syStart => false
  | .syStop => false
  | .syTick => false
  | .syGen _ => false
  | .syPop _ => false
  | .syStatus => false
  | .faultRd => false
  | .reset => false

/-- The commands that act on the synthesis engine, its oscillators or its queue (R2, R45). -/
def isSynth : Instr → Bool
  | .nop => false
  | .ncoSetf k _ => decide (k ≠ 0#32)
  | .ncoNext k => decide (k ≠ 0#32)
  | .ncoNexti k _ => decide (k ≠ 0#32)
  | .ncoRdph k => decide (k ≠ 0#32)
  | .rcCfg _ _ _ => false
  | .rcConv _ => false
  | .sfCfg _ _ _ _ => false
  | .sfApply _ => false
  | .ltUpd _ => false
  | .ltAvg => false
  | .ltPwr => false
  | .dmCfgatv _ _ _ _ _ _ _ _ => false
  | .dmCfgrf _ _ _ _ _ _ => false
  | .dmCfgstream _ => false
  | .dmStart => false
  | .dmStop => false
  | .dmFeed _ => false
  | .dmStatus => false
  | .syCfg _ _ _ _ _ _ _ _ _ _ _ _ => true
  | .syStart => true
  | .syStop => true
  | .syTick => true
  | .syGen _ => true
  | .syPop _ => true
  | .syStatus => true
  | .faultRd => false
  | .reset => false

/-- The commands that may store into the synthesis buffer: the generating commands (R70) and RESET. -/
def storesToBuffer : Instr → Bool
  | .nop => false
  | .ncoSetf _ _ => false
  | .ncoNext _ => false
  | .ncoNexti _ _ => false
  | .ncoRdph _ => false
  | .rcCfg _ _ _ => false
  | .rcConv _ => false
  | .sfCfg _ _ _ _ => false
  | .sfApply _ => false
  | .ltUpd _ => false
  | .ltAvg => false
  | .ltPwr => false
  | .dmCfgatv _ _ _ _ _ _ _ _ => false
  | .dmCfgrf _ _ _ _ _ _ => false
  | .dmCfgstream _ => false
  | .dmStart => false
  | .dmStop => false
  | .dmFeed _ => false
  | .dmStatus => false
  | .syCfg _ _ _ _ _ _ _ _ _ _ _ _ => false
  | .syStart => false
  | .syStop => false
  | .syTick => true
  | .syGen _ => true
  | .syPop _ => false
  | .syStatus => false
  | .faultRd => false
  | .reset => true

/-- The direct unit commands that write, with the engine that owns their unit active (R332); an oscillator index
above 2 is answered before ownership is looked at (R379). -/
def unitOwnerActive (i : Instr) (s : State) : Bool :=
  match i with
  | .nop => false
  | .ncoSetf k _ => match ncoIndex k with | some j => ownerActive j s | none => false
  | .ncoNext k => match ncoIndex k with | some j => ownerActive j s | none => false
  | .ncoNexti k _ => match ncoIndex k with | some j => ownerActive j s | none => false
  | .ncoRdph _ => false
  | .rcCfg _ _ _ => s.dm.active
  | .rcConv _ => s.dm.active
  | .sfCfg _ _ _ _ => s.dm.active
  | .sfApply _ => s.dm.active
  | .ltUpd _ => s.dm.active
  | .ltAvg => false
  | .ltPwr => false
  | .dmCfgatv _ _ _ _ _ _ _ _ => false
  | .dmCfgrf _ _ _ _ _ _ => false
  | .dmCfgstream _ => false
  | .dmStart => false
  | .dmStop => false
  | .dmFeed _ => false
  | .dmStatus => false
  | .syCfg _ _ _ _ _ _ _ _ _ _ _ _ => false
  | .syStart => false
  | .syStop => false
  | .syTick => false
  | .syGen _ => false
  | .syPop _ => false
  | .syStatus => false
  | .faultRd => false
  | .reset => false

/-- Whether `n` result words are what the "RLEN on OK" column of R106 gives the command in a state. -/
def resultCount (i : Instr) (s : State) (n : Nat) : Bool :=
  match i with
  | .nop => decide (n = 0)
  | .ncoSetf _ _ => decide (n = 0)
  | .ncoNext _ => decide (n = 2)
  | .ncoNexti _ _ => decide (n = 2)
  | .ncoRdph _ => decide (n = 2)
  | .rcCfg _ _ _ => decide (n = 0)
  | .rcConv _ => decide (n % 2 = 0)
  | .sfCfg _ _ _ _ => decide (n = 0)
  | .sfApply xs => decide (n = 2 * ((s.sf.fill.val + xs.length) / SF_L * SF_L))
  | .ltUpd _ => decide (n = 0)
  | .ltAvg => decide (n = 1)
  | .ltPwr => decide (n = 1)
  | .dmCfgatv _ _ _ _ _ _ _ _ => decide (n = 0)
  | .dmCfgrf _ _ _ _ _ _ => decide (n = 0)
  | .dmCfgstream _ => decide (n = 0)
  | .dmStart => decide (n = 0)
  | .dmStop => decide (n = 0)
  | .dmFeed _ => decide (n = 1)
  | .dmStatus => decide (n = 6)
  | .syCfg _ _ _ _ _ _ _ _ _ _ _ _ => decide (n = 0)
  | .syStart => decide (n = 0)
  | .syStop => decide (n = 0)
  | .syTick => decide (n = 1)
  | .syGen _ => decide (n = 1)
  | .syPop k => decide (n = 1 + min k.toNat s.syq.length / 2)
  | .syStatus => decide (n = 4)
  | .faultRd => decide (n = 2)
  | .reset => decide (n = 0)

/-- The reserved opcodes (R109). -/
def reservedOpcode (opc : Nat) : Prop :=
  (0x01 ≤ opc ∧ opc ≤ 0x0F) ∨ (0x14 ≤ opc ∧ opc ≤ 0x1F) ∨ (0x22 ≤ opc ∧ opc ≤ 0x2F) ∨ (0x32 ≤ opc ∧ opc ≤ 0x3F) ∨
    (0x43 ≤ opc ∧ opc ≤ 0x4F) ∨ (0x57 ≤ opc ∧ opc ≤ 0x5F) ∨ (0x67 ≤ opc ∧ opc ≤ 0x6F) ∨
    (0x71 ≤ opc ∧ opc ≤ 0x7E) ∨ (0x80 ≤ opc ∧ opc ≤ 0xFF)

/-! ## Shares of the state (R45) -/

/-- What the demodulation engine holds (R45), its pending banks and flags included. -/
def demodShare (s : State) : Nco × Rc × Sf × Lt × Dm × Sync :=
  (s.nco[(0 : Fin 3)], s.rc, s.sf, s.lt, s.dm, s.sync)

/-- What the synthesis engine and the consumer hold (R45), the pending bank and flags included. -/
def synthShare (s : State) : Nco × Nco × Gen × Memory × List Half :=
  (s.nco[(1 : Fin 3)], s.nco[(2 : Fin 3)], s.gen, s.sybuf, s.syq)

/-- What only a worker writes (R45): everything but the pending banks, their flags and the stop requests. -/
def workerShare (s : State) :=
  (s.nco, s.rc, s.sf, s.lt, s.sync, s.sybuf, s.syq, s.fault,
    (s.dm.cur, s.dm.val, s.dm.d, s.dm.rateReported, s.dm.active, s.dm.uh1, s.dm.uh2, s.dm.line, s.dm.frames),
    (s.gen.cur, s.gen.val, s.gen.d, s.gen.fmDev, s.gen.toggle, s.gen.lastTime, s.gen.active, s.gen.halted))

/-! ## Events -/

/-- The arcs of the demodulation state machine (R248): up one state at a time, and from any other state down to
Unsynchronized. -/
def fsmArc : Fsm → Fsm → Bool
  | .unsynchronized, b => decide (b = .lineSyncSearching)
  | .lineSyncSearching, b => decide (b = .lineLocked) || decide (b = .unsynchronized)
  | .lineLocked, b => decide (b = .frameSyncSearching) || decide (b = .unsynchronized)
  | .frameSyncSearching, b => decide (b = .frameLocked) || decide (b = .unsynchronized)
  | .frameLocked, b => decide (b = .unsynchronized)

/-- The EV_STATE records of a list lead from one state to another, arc by arc (R246, R248). -/
def statePath : List Event → Fsm → Fsm → Bool
  | [], a, b => decide (a = b)
  | .state old new :: es, a, b => decide (old = a) && fsmArc old new && statePath es new b
  | .rate _ :: es, a, b => statePath es a b
  | .cfgRej _ _ :: es, a, b => statePath es a b
  | .fault _ :: es, a, b => statePath es a b
  | .stopped _ :: es, a, b => statePath es a b

/-- The number of EV_CFGREJ records of a list (R335, R341). -/
def rejections : List Event → Nat
  | [] => 0
  | .cfgRej _ _ :: es => rejections es + 1
  | .rate _ :: es => rejections es
  | .state _ _ :: es => rejections es
  | .fault _ :: es => rejections es
  | .stopped _ :: es => rejections es

/-- The number of PX_FRAME records of a list (R104, R244). -/
def framesIn : List Pixel → Nat
  | [] => 0
  | .frame _ _ :: ps => framesIn ps + 1
  | .line _ _ _ :: ps => framesIn ps

/-! ## Invariants (R44) -/

/-- The derived geometry R218 can answer: what R44 says of it. -/
structure DmDerived.Ok (d : DmDerived) : Prop where
  spl_min : SPL_MIN ≤ d.spl.toNat
  spl_max : d.spl.toNat ≤ SPL_MAX
  top_min : 2 ≤ d.topN.toNat
  top_max : d.topN.toNat + HS_DELAY < d.spl.toNat
  lpf_min : 1 ≤ d.lpf.toNat
  lpf_max : d.lpf.toNat ≤ LPF_MAX
  rows_min : 1 ≤ d.rowsDisp.toNat
  rows_max : d.rowsDisp.toNat ≤ d.lpf.toNat

/-- R44's lines about the demodulation engine and its units, with R30 (the derived record is that of the running banks);
`active` rests on the valid flags and these on the geometry, so each is said of the weaker condition. -/
structure DmInv (s : State) : Prop where
  ratio_min : RC_RATIO_MIN ≤ s.rc.ratio.toNat
  ratio_max : s.rc.ratio.toNat ≤ (2 ^ 32 - 1) * 2 ^ 32
  win_nonneg : ∀ m ∈ s.lt.win.toList, 0 ≤ BitVec.toInt m
  sum_eq : s.lt.sum.toInt = (s.lt.win.toList.map BitVec.toInt).sum
  active_valid : s.dm.active = true → s.dm.val.all = true
  derived : s.dm.val.all = true → dmDerive s.dm.cur = .ok s.dm.d
  geometry : s.dm.val.all = true → s.dm.d.Ok
  col_lt : s.dm.val.all = true → s.sync.col.toNat < s.dm.d.spl.toNat
  row_lt : s.dm.val.all = true → s.sync.row.toNat < s.dm.d.lpf.toNat
  delta_pos : 0 < s.sync.effDelta.toInt

/-- R44's lines about the synthesis engine, its queue and the fault register, with R36, R75, R376 and R386. -/
structure SyInv (s : State) : Prop where
  dev_min : -ONE ≤ s.gen.fmDev.toInt
  dev_max : s.gen.fmDev.toInt ≤ ONE
  unit_min : 0 ≤ s.gen.d.fmD.toInt
  unit_max : s.gen.d.fmD.toInt ≤ ONE
  scale : s.gen.val = true → s.gen.d.shift = s.gen.cur.depth.shift ∧ s.gen.d.ampFs = s.gen.cur.depth.ampFs
  active_valid : s.gen.active = true → s.gen.val = true
  halted_idle : s.gen.halted = true → s.gen.active = false
  halted_fault : s.gen.halted = true ↔ s.fault ≠ 0#32
  fault_bits : s.fault.toNat ≤ 2
  fill_max : s.syq.length ≤ SY_Q_WORDS
  fill_even : s.syq.length % 2 = 0

/-- An ATV bank that passed validation (R27, R336). -/
structure AtvBank.Ok (b : AtvBank) : Prop where
  top_pos : 0 < b.topNs.toNat
  top_lt : b.topNs.toNat < b.lineNs.toNat
  fps_pos : 0 < b.fps.toNat
  ratio_min : 1 ≤ b.rowsRatio.toInt
  ratio_max : b.rowsRatio.toInt ≤ ONE
  thr_sync : 0 ≤ b.thrSyncTop.toInt ∧ b.thrSyncTop.toInt ≤ ONE
  thr_black : 0 ≤ b.thrBlack.toInt ∧ b.thrBlack.toInt ≤ ONE

/-- A synthesis bank that passed validation (R35, R339). -/
structure GenBank.Ok (b : GenBank) : Prop where
  rate_pos : 0 < b.sampleRateHz.toNat
  am_index : 0 ≤ b.amIndex.toInt ∧ b.amIndex.toInt ≤ ONE
  amp_i : 0 ≤ b.ampI.toInt ∧ b.ampI.toInt ≤ ONE
  amp_q : 0 ≤ b.ampQ.toInt ∧ b.ampQ.toInt ≤ ONE
  dc_i : -ONE ≤ b.dcI.toInt ∧ b.dcI.toInt ≤ ONE
  dc_q : -ONE ≤ b.dcQ.toInt ∧ b.dcQ.toInt ≤ ONE

/-- Every bank that is pending or valid passed validation (R27 to R29, R35), and every array is in canonical form. -/
structure DataInv (s : State) : Prop where
  atv_pending : s.dm.pndF.atv = true → s.dm.pnd.atv.Ok
  atv_running : s.dm.val.atv = true → s.dm.cur.atv.Ok
  stream_pending : s.dm.pndF.stream = true → 0 < s.dm.pnd.stream.inRateHz.toNat
  stream_running : s.dm.val.stream = true → 0 < s.dm.cur.stream.inRateHz.toNat
  gen_pending : s.gen.pndF = true → s.gen.pnd.Ok
  gen_running : s.gen.val = true → s.gen.cur.Ok
  mask_wf : sparseWf 0#32 SF_N s.sf.mask = true
  inb_wf : sparseWf cfxZero SF_N s.sf.inb = true
  line_wf : sparseWf 0#32 SPL_MAX s.dm.line = true
  buf_wf : s.sybuf.wf = true

end Sys2Proof.Machine
end

