-- ==== Sys2Proof/Certificates/Slice0/Obligations.lean ====
section
/-! DEFINITION. The statements about the CORE for the provers: encoding, the step, the invariants of spec/10_state.md R44,
the rules about all commands, and what each command does, family by family. OBLIGATIONS.json lists them. -/

open Sys2Proof Sys2Proof.Machine Sys2Proof.Config

/-! ## Encoding and decoding -/

/-- Every well-formed command decodes from its own words, whatever follows them on CMD (R101, R105 to R107, R112 to
R114). -/
def Obligations.DecodeOfEncode : Prop :=
  ∀ (i : Instr) (rest : List Word), WellFormed i = true → decode (encode i ++ rest) = some (.ok i, rest)

/-- A command the decoder accepts is well-formed and its words are exactly those of its encoding: no word sequence but
an encoding is given a meaning (R106 to R109). -/
def Obligations.EncodeOfDecode : Prop :=
  ∀ (cmd rest : List Word) (i : Instr), decode cmd = some (.ok i, rest) →
    WellFormed i = true ∧ cmd = encode i ++ rest

/-- A whole command on CMD that is no encoding of a well-formed command, and any with a reserved opcode, is consumed
with its LEN operand words, answered E_ILLEGAL with no result word, and changes nothing else (R101, R107 to R109). -/
def Obligations.IllegalAnswered : Prop :=
  ∀ (s : State) (h : Word) (ws : List Word), s.io.resetIn = false → s.io.cmd = h :: ws →
    (h.extractLsb' 0 24).toNat ≤ ws.length →
    ((∀ i, WellFormed i = true → h :: ws.take (h.extractLsb' 0 24).toNat ≠ encode i) ∨
      reservedOpcode (h.extractLsb' 24 8).toNat) →
    step s = .next { s with io := { s.io with
      cmd := ws.drop (h.extractLsb' 0 24).toNat, rsp := s.io.rsp ++ [⟨.illegal, []⟩] } }

/-- Words written out from R101, R105, R106 and R112 decode to the commands they stand for. -/
def Obligations.SampleWordsDecode : Prop :=
  decodeTableWord 32 0x00000000 = some .nop ∧
  decodeTableWord 128 0x40000000000000000000000110000003 = some (.ncoSetf 1#32 0x0000000040000000#64) ∧
  decode [0x20000003#32, 5#32, 2#32, 1#32] = some (.ok (.rcCfg 5#32 2#32 true), []) ∧
  decode [0x30000004#32, 1#32, 250000#32, 50000#32, 1000000#32] =
    some (.ok (.sfCfg 1#32 250000#32 50000#32 1000000#32), []) ∧
  decode [0x40000002#32, 0x00010000#32, 0xFFFF0000#32] = some (.ok (.ltUpd ⟨0x00010000#32, 0xFFFF0000#32⟩), []) ∧
  decode [0x50000007#32, 64000#32, 4700#32, 25#32, 0x10000#32, 6554#32, 19661#32, 2#32] =
    some (.ok (.dmCfgatv 64000#32 4700#32 25#32 0x10000#32 6554#32 19661#32 false true), []) ∧
  decode [0x55000002#32, 7#32, 8#32, 9#32] = some (.ok (.dmFeed [⟨7#32, 8#32⟩]), [9#32]) ∧
  decode [0x65000001#32, 4#32] = some (.ok (.syPop 4#32), []) ∧
  decode [0x7F000000#32] = some (.ok .reset, []) ∧
  decode [0x20000003#32, 5#32, 2#32, 2#32] = some (.error .reservedFlag, []) ∧
  decode [0x55000003#32, 7#32, 8#32, 9#32] = some (.error .badLength, [])

/-- The words of responses and event and pixel records: header fields and payload (R102 to R104, R110, R111, R121). -/
def Obligations.PortFormats : Prop :=
  (∀ r : Response, r.words.length < 2 ^ 24 → ∃ h : Word, r.toWords = h :: r.words ∧
    (h.extractLsb' 0 24).toNat = r.words.length ∧
    ((h.extractLsb' 24 8).toNat, r.status) ∈
      [(0, Status.ok), (1, .illegal), (2, .range), (3, .busy), (4, .idle), (5, .nocfg), (6, .halted), (7, .fault)]) ∧
  (∀ hz : Word, (Event.rate hz).toWords = [0x01000001#32, hz]) ∧
  (∀ old new : Fsm, ∃ a b : Word, (Event.state old new).toWords = [0x02000002#32, a, b] ∧
    (a.toNat, old) ∈ [(0, Fsm.unsynchronized), (1, .lineSyncSearching), (2, .lineLocked), (3, .frameSyncSearching),
      (4, .frameLocked)] ∧
    (b.toNat, new) ∈ [(0, Fsm.unsynchronized), (1, .lineSyncSearching), (2, .lineLocked), (3, .frameSyncSearching),
      (4, .frameLocked)]) ∧
  (∀ (bank : BankId) (q : Reason), ∃ a b : Word, (Event.cfgRej bank q).toWords = [0x03000002#32, a, b] ∧
    (a.toNat, bank) ∈ [(0, BankId.atv), (1, .rf), (2, .stream), (3, .synthesis), (4, .derived)] ∧
    (b.toNat, q) ∈ [(1, Reason.zeroField), (2, .topNotLess), (3, .badEnum), (4, .badLpf), (5, .badLps), (6, .badSpl),
      (7, .badTop)]) ∧
  (Event.fault .syBufsize).toWords = [0x04000001#32, 0#32] ∧ (Event.fault .syQueue).toWords = [0x04000001#32, 1#32] ∧
  (Event.stopped .demodulation).toWords = [0x05000001#32, 0#32] ∧
  (Event.stopped .synthesis).toWords = [0x05000001#32, 1#32] ∧
  (∀ (row n : Word) (vs : List Fx), vs.length ≤ SPL_MAX → ∃ h : Word, (Pixel.line row n vs).toWords = h :: row :: n :: vs ∧
    (h.extractLsb' 24 8).toNat = 1 ∧ (h.extractLsb' 0 24).toNat = 2 + vs.length) ∧
  (∀ n rows : Word, (Pixel.frame n rows).toWords = [0x02000002#32, n, rows])

/-! ## The step -/

/-- With reset not asserted, a step runs the command at the front of CMD, with its words consumed; with no whole command
there it changes nothing (R82, R101, R107; that a step waits so is log entry 8). -/
def Obligations.StepRunsCommand : Prop :=
  ∀ s : State, s.io.resetIn = false →
    (∀ (i : Instr) (rest : List Word), WellFormed i = true → s.io.cmd = encode i ++ rest →
      step s = exec i { s with io := { s.io with cmd := rest } }) ∧
    (∀ (i : Instr) (rest : List Word), decode s.io.cmd = some (.ok i, rest) →
      step s = exec i { s with io := { s.io with cmd := rest } }) ∧
    (decode s.io.cmd = none → step s = .next s)

/-- RESET, from any state: every field at the value of R411's table, the histories, CMD and TIMER as they were but for
the response; and a step with the reset input asserted leaves the same fields, gives no response, empties the histories and
discards the command of which only part has arrived, wherever on CMD it stands (R353, R410, R411). That whole commands on CMD
wait on, and the fields `cmd`, `timerIn`, `timerReads` and `resetIn` of `io`, are the model's own choice (log entries 7 to 9),
and so is it that the reset input empties the histories in whatever state it comes (log entry 16), and that RESET emits no
EV_STATE when it leaves a synchronized state, as R353 says against R103's remark (log entry 27). -/
def Obligations.ResetEffect : Prop :=
  ∀ s : State,
    (∃ t, exec .reset s = .next t ∧ t.io = { s.io with rsp := s.io.rsp ++ [⟨.ok, []⟩] } ∧
      { t with io := s.io } = { State.reset with io := s.io } ∧
      (∀ k : Fin 3, t.nco[k].phase = 0#32 ∧ t.nco[k].inc = 0#32) ∧
      t.rc.ratio.toNat = 2 ^ 32 ∧ t.rc.mu = 0#32 ∧ t.rc.skip = 0#32 ∧
      (∀ k : Fin 2, t.rc.hist[k] = ⟨0#32, 0#32⟩) ∧
      (∀ k, sparseGet 0#32 t.sf.mask k = 0#32 ∧ sparseGet cfxZero t.sf.inb k = ⟨0#32, 0#32⟩) ∧ t.sf.fill.val = 0 ∧
      (∀ k : Fin 32, t.lt.win[k] = 0#32) ∧ t.lt.idx.val = 0 ∧ t.lt.sum = 0#64 ∧
      t.dm.active = false ∧ t.dm.stopReq = false ∧ t.dm.pndF.any = false ∧ t.dm.val.any = false ∧
      t.dm.rateReported = 0#32 ∧ t.dm.frames = 0#32 ∧ (∀ k, sparseGet 0#32 t.dm.line k = 0#32) ∧
      t.sync.fsm = .unsynchronized ∧ (∀ k : Fin 6, t.sync.win[k].toInt = FX_MAX) ∧ t.sync.ampMin.toInt = FX_MAX ∧
      t.sync.ampMax.toInt = FX_MIN ∧ t.sync.effMin = 0#32 ∧ t.sync.effDelta.toInt = ONE ∧ t.sync.col = 0#32 ∧
      t.sync.row = 0#32 ∧
      t.gen.active = false ∧ t.gen.halted = false ∧ t.gen.stopReq = false ∧ t.gen.pndF = false ∧ t.gen.val = false ∧
      t.gen.fmDev = 0#32 ∧ t.gen.toggle = false ∧ t.gen.lastTime = 0#32 ∧
      (∀ a, t.sybuf.read a = 0#8) ∧ t.syq = [] ∧ t.fault = 0#32 ∧ t.cfgErr = 0#32) ∧
    (s.io.resetIn = true → ∃ (whole : List (List Word)) (part : List Word), s.io.cmd = whole.flatten ++ part ∧
      (∀ c ∈ whole, ∃ h ws, c = h :: ws ∧ ws.length = (h.extractLsb' 0 24).toNat) ∧ decode part = none ∧
      step s = .next { State.reset with io := { s.io with
        cmd := whole.flatten, rsp := [], evt := [], pix := [], resetIn := false } })

/-! ## All commands -/

/-- Every command completes with exactly one response and only appends to the histories; neither the histories nor the
words waiting on CMD affect what it does (R17, R40, R82, R85, R102). That RESET, too, leaves the words on CMD is the model's
choice (log entry 16). -/
def Obligations.PortsAppendOnly : Prop :=
  ∀ (i : Instr) (s : State), ∃ (t : State) (r : Response) (evs : List Event) (pxs : List Pixel),
    exec i s = .next t ∧ t.io.cmd = s.io.cmd ∧ t.io.resetIn = s.io.resetIn ∧ t.io.rsp = s.io.rsp ++ [r] ∧
    t.io.evt = s.io.evt ++ evs ∧ t.io.pix = s.io.pix ++ pxs ∧
    ∀ (cmd : List Word) (rsp : List Response) (evt : List Event) (pix : List Pixel),
      exec i { s with io := { s.io with cmd := cmd, rsp := rsp, evt := evt, pix := pix } } =
        .next { t with io := { t.io with cmd := cmd, rsp := rsp ++ [r], evt := evt ++ evs, pix := pix ++ pxs } }

/-- The response of every command: with status OK as many result words as R106's table says; with another status none,
but for the count word 0 of E_FAULT (R102, R106, R282, R295). -/
def Obligations.ResponseShape : Prop :=
  ∀ (i : Instr) (s : State), ∃ (t : State) (r : Response), exec i s = .next t ∧ t.io.rsp = s.io.rsp ++ [r] ∧
    (r.status = .ok → resultCount i s r.words.length = true) ∧
    (r.status = .fault → r.words = [0#32]) ∧
    (r.status ≠ .ok → r.status ≠ .fault → r.words = [])

/-- The invariants hold right after reset (R44, R411). -/
def Obligations.InvariantsAtReset : Prop :=
  DmInv State.reset ∧ SyInv State.reset ∧ DataInv State.reset

/-- Every step keeps R44's lines about the demodulation engine and its units: the converter ratio, the tracker sum, the
geometry, the column and the row, the normaliser span. -/
def Obligations.StepKeepsDmInv : Prop :=
  ∀ s t : State, DmInv s → step s = .next t → DmInv t

/-- Every step keeps R44's lines about the synthesis engine: the FM deviation in [-ONE, ONE], the queue within its capacity
and even, the reserved fault bits 0, halted exactly when a fault bit is set (R36, R75, R289, R375 to R377, R386). -/
def Obligations.StepKeepsSyInv : Prop :=
  ∀ s t : State, SyInv s → step s = .next t → SyInv t

/-- Every step keeps every staged and running bank legal (R27, R29, R35, R336, R338, R339), and the arrays mask, inb, line
and sybuf in the canonical form in which the model holds them: indices rising and inside the array, no value listed that an
unlisted index reads as. The canonical form is the model's own representation of the arrays (log entry 11), not a rule of
the spec. -/
def Obligations.StepKeepsDataInv : Prop :=
  ∀ s t : State, DataInv s → step s = .next t → DataInv t

/-- The control path writes only pending banks, pending flags and stop requests: nothing a worker owns changes, and nothing
reaches PIX (R45, R330, R390). -/
def Obligations.ControlOwnsPending : Prop :=
  ∀ (i : Instr) (s t : State), isControl i = true → exec i s = .next t →
    workerShare t = workerShare s ∧ t.io.pix = s.io.pix ∧ t.io.timerIn = s.io.timerIn

/-- The engines share no state but the fault register, the error count and the ports: a command of one leaves everything
the other holds (R45, R93, R376, R398). -/
def Obligations.EnginesIndependent : Prop :=
  ∀ (i : Instr) (s t : State), exec i s = .next t →
    (isDemod i = true → synthShare t = synthShare s ∧ t.fault = s.fault ∧ t.io.timerIn = s.io.timerIn ∧
      t.io.timerReads = s.io.timerReads) ∧
    (isSynth i = true → demodShare t = demodShare s ∧ t.io.pix = s.io.pix)

/-- A fault bit once set stays set, and a halted engine stays halted, until RESET; only the generating commands set them
(R39, R375 to R377). -/
def Obligations.FaultsSticky : Prop :=
  ∀ (i : Instr) (s t : State), i ≠ .reset → exec i s = .next t →
    (∀ b, s.fault.getLsbD b = true → t.fault.getLsbD b = true) ∧
    (s.gen.halted = true → t.gen.halted = true ∧ t.fault = s.fault) ∧
    (storesToBuffer i = false → t.fault = s.fault ∧ t.gen.halted = s.gen.halted)

/-- The refusals that change nothing: a direct unit command while the engine that owns the unit is active (E_BUSY), where
the demodulation engine owns oscillator 0, the converter, the filter and the tracker, and the synthesis engine oscillators 1
and 2;
SY.TICK, SY.GEN and SY.START while halted (E_HALTED), a cycle command of an engine that is not active (E_IDLE), an
oscillator index above 2 and an odd SY.POP count (E_RANGE) (R145 to R148, R216, R282, R295, R301, R332, R345, R377). -/
def Obligations.RefusalsChangeNothing : Prop :=
  ∀ s : State,
    (∀ i, unitOwnerActive i s = true → exec i s = .next (respond .busy [] s)) ∧
    (∀ j : Fin 3, ownerActive j s = if j = 0 then s.dm.active else s.gen.active) ∧
    (s.dm.active = true → ∀ i,
      ((∃ nf, i = .ncoSetf 0#32 nf) ∨ i = .ncoNext 0#32 ∨ (∃ w, i = .ncoNexti 0#32 w) ∨ (∃ a b r, i = .rcCfg a b r) ∨
        (∃ xs, i = .rcConv xs) ∨ (∃ m a b r, i = .sfCfg m a b r) ∨ (∃ xs, i = .sfApply xs) ∨ ∃ z, i = .ltUpd z) →
      exec i s = .next (respond .busy [] s)) ∧
    (s.gen.active = true → ∀ k : Word, k = 1#32 ∨ k = 2#32 →
      (∀ nf, exec (.ncoSetf k nf) s = .next (respond .busy [] s)) ∧ exec (.ncoNext k) s = .next (respond .busy [] s) ∧
      ∀ w, exec (.ncoNexti k w) s = .next (respond .busy [] s)) ∧
    (s.gen.halted = true → exec .syTick s = .next (respond .halted [] s) ∧
      exec .syStart s = .next (respond .halted [] s) ∧ ∀ n, exec (.syGen n) s = .next (respond .halted [] s)) ∧
    (s.dm.active = false → ∀ xs, exec (.dmFeed xs) s = .next (respond .idle [] s)) ∧
    (s.gen.halted = false → s.gen.active = false → exec .syTick s = .next (respond .idle [] s) ∧
      ∀ n, exec (.syGen n) s = .next (respond .idle [] s)) ∧
    (∀ k : Word, 2 < k.toNat → (∀ nf, exec (.ncoSetf k nf) s = .next (respond .range [] s)) ∧
      exec (.ncoNext k) s = .next (respond .range [] s) ∧ (∀ w, exec (.ncoNexti k w) s = .next (respond .range [] s)) ∧
      exec (.ncoRdph k) s = .next (respond .range [] s)) ∧
    (∀ n : Word, n.toNat % 2 = 1 → exec (.syPop n) s = .next (respond .range [] s))

/-- The error count rises by one with every EV_CFGREJ record and by nothing else, and saturates (R39, R335, R341,
R371). -/
def Obligations.CfgErrCounts : Prop :=
  ∀ (i : Instr) (s t : State), i ≠ .reset → exec i s = .next t →
    ∃ evs, t.io.evt = s.io.evt ++ evs ∧ t.cfgErr.toNat = min (s.cfgErr.toNat + rejections evs) (2 ^ 32 - 1)

/-- Every change of the demodulation state during a command follows an arc of R248's table and is recorded by exactly one
EV_STATE record, in order: the records lead from the state before to the state after (R246, R248). RESET, which emits no event
(R353), is left out: R103 and R246 remark otherwise (log entry 27). -/
def Obligations.FsmFollowsArcs : Prop :=
  ∀ (i : Instr) (s t : State), i ≠ .reset → exec i s = .next t →
    ∃ evs, t.io.evt = s.io.evt ++ evs ∧ statePath evs s.sync.fsm t.sync.fsm = true

/-- No command but SY.TICK, SY.GEN and RESET changes a byte of the synthesis buffer, and only these and SY.POP change the
queue (R70, R74, R75). That RESET does is R353 and R411; R70's list of who reaches each memory leaves it out (log entry 28). -/
def Obligations.BufferFrame : Prop :=
  ∀ (i : Instr) (s t : State), storesToBuffer i = false → exec i s = .next t →
    (∀ a, t.sybuf.read a = s.sybuf.read a) ∧ ((∀ n, i ≠ .syPop n) → t.syq = s.syq)

/-! ## Reads -/

/-- DM.STATUS answers six words laid out as R115 says and changes nothing (R350). -/
def Obligations.DmStatusReport : Prop :=
  ∀ s : State, ∃ w1 w3 w4 w5 : Word,
    exec .dmStatus s = .next (respond .ok [w1, s.dm.d.effRate, w3, w4, w5, s.dm.frames] s) ∧
    ((w1.extractLsb' 0 3).toNat, s.sync.fsm) ∈ [(0, Fsm.unsynchronized), (1, .lineSyncSearching), (2, .lineLocked),
      (3, .frameSyncSearching), (4, .frameLocked)] ∧
    w1.getLsbD 3 = s.dm.active ∧ w1.getLsbD 4 = decide (2 ≤ (w1.extractLsb' 0 3).toNat) ∧
    w1.getLsbD 5 = s.sync.hsNow ∧ w1.getLsbD 6 = s.dm.active ∧ w1.getLsbD 7 = w1.getLsbD 4 ∧
    w1.getLsbD 8 = false ∧ w1.getLsbD 9 = false ∧ w1.getLsbD 10 = s.dm.stopReq ∧
    w1.getLsbD 11 = s.dm.pndF.atv ∧ w1.getLsbD 12 = s.dm.pndF.rf ∧ w1.getLsbD 13 = s.dm.pndF.stream ∧
    w1.getLsbD 14 = s.dm.val.atv ∧ w1.getLsbD 15 = s.dm.val.rf ∧ w1.getLsbD 16 = s.dm.val.stream ∧
    w1.getLsbD 17 = s.dm.d.filtOn ∧ w1.getLsbD 18 = s.dm.d.decimOn ∧ w1.extractLsb' 19 13 = 0#13 ∧
    exec .ltAvg s = .next (respond .ok [w3] s) ∧ exec .ltPwr s = .next (respond .ok [w4] s) ∧
    (w5.extractLsb' 16 16).toNat = s.sync.row.toNat % 2 ^ 16 ∧ (w5.extractLsb' 0 16).toNat = s.sync.col.toNat % 2 ^ 16

/-- NOP, FAULT.RD, NCO.RDPH and SY.STATUS answer what R331, R352, R148 and R351 say, the last laid out as R116 says, and change
nothing, whatever the engines do (R117). -/
def Obligations.SnapshotReports : Prop :=
  ∀ s : State,
    exec .nop s = .next (respond .ok [] s) ∧
    exec .faultRd s = .next (respond .ok [s.fault, s.cfgErr] s) ∧
    (∀ (k : Word) (j : Fin 3), k.toNat = j.val →
      exec (.ncoRdph k) s = .next (respond .ok [s.nco[j].phase, s.nco[j].inc] s)) ∧
    ∃ w1 w2 w3 : Word, exec .syStatus s = .next (respond .ok [w1, w2, w3, s.gen.lastTime] s) ∧
      w1.getLsbD 0 = s.gen.active ∧ w1.getLsbD 1 = s.gen.halted ∧ w1.getLsbD 2 = s.gen.stopReq ∧
      w1.getLsbD 3 = s.gen.pndF ∧ w1.getLsbD 4 = s.gen.val ∧ w1.getLsbD 5 = s.gen.toggle ∧
      ((w1.extractLsb' 6 2).toNat, s.gen.cur.depth) ∈ [(0, Depth.bits8), (1, .bits12), (2, .bits16)] ∧
      ((w1.extractLsb' 8 2).toNat, s.gen.cur.mod) ∈ [(0, SynthKind.none), (1, .am), (2, .fm)] ∧
      w1.extractLsb' 10 22 = 0#22 ∧
      (s.syq.length ≤ 262144 → w2.toNat = s.syq.length ∧ w3.toNat = 262144 - s.syq.length)

/-- LT.AVG and LT.PWR change nothing and answer the floor of the sum over 32, and its power in dB: -100 dB for 0, 0 dB for
1.0, within DB_RANGE, and rising with the average (R202, R204 to R206; DB_ONE, DB_MONO, DB_RANGE). -/
def Obligations.LevelReports : Prop :=
  ∀ s : State, 0 ≤ s.lt.sum.toInt → s.lt.sum.toInt ≤ 32 * FX_MAX → ∃ a p : Fx,
    exec .ltAvg s = .next (respond .ok [a] s) ∧ exec .ltPwr s = .next (respond .ok [p] s) ∧
    a.toInt = s.lt.sum.toInt / 32 ∧ (a.toInt = 0 → p.toInt = -6553600) ∧
    (a.toInt = 65536 → p.toInt = 0) ∧ (0 < a.toInt → -6553600 < p.toInt ∧ p.toInt < 50 * 65536) ∧
    ∀ u : State, s.lt.sum.toInt ≤ u.lt.sum.toInt → u.lt.sum.toInt ≤ 32 * FX_MAX →
      ∃ q : Fx, exec .ltPwr u = .next (respond .ok [q] u) ∧ p.toInt ≤ q.toInt

/-! ## Oscillators -/

/-- NCO.SETF on an idle engine's oscillator: the increment becomes the frequency clamped to half a turn per sample,
modulo 2^32; phase, the other oscillators and all else stay (R141, R145). -/
def Obligations.NcoSetfResult : Prop :=
  ∀ (s : State) (k : Word) (j : Fin 3) (nf : BitVec 64), k.toNat = j.val →
    (if j = 0 then s.dm.active else s.gen.active) = false →
    ∃ inc : Word, (inc.toNat : Int) = max (-2 ^ 31) (min (2 ^ 31) nf.toInt) % 2 ^ 32 ∧
      exec (.ncoSetf k nf) s =
        .next (respond .ok [] { s with nco := s.nco.set j { phase := s.nco[j].phase, inc := inc } })

/-- NCO.NEXT and NCO.NEXTI on an idle engine's oscillator: the phase advances first, modulo a turn, and the value is taken
there, the quadrature component at the skewed phase; nothing else changes (R144, R146, R147). -/
def Obligations.NcoNextResult : Prop :=
  ∀ (s : State) (k skew : Word) (j : Fin 3), k.toNat = j.val → (if j = 0 then s.dm.active else s.gen.active) = false →
    ∃ ph q : Word, ph.toNat = (s.nco[j].phase.toNat + s.nco[j].inc.toNat) % 2 ^ 32 ∧
      (q.toNat : Int) = (ph.toNat + skew.toInt) % 2 ^ 32 ∧
      exec (.ncoNext k) s = .next (respond .ok [(cs ph).re, (cs ph).im]
        { s with nco := s.nco.set j { phase := ph, inc := s.nco[j].inc } }) ∧
      exec (.ncoNexti k skew) s = .next (respond .ok [(cs ph).re, (cs q).im]
        { s with nco := s.nco.set j { phase := ph, inc := s.nco[j].inc } })

/-- No drift: after n NCO.NEXT commands the phase is exactly n increments further, and each of the n values answered has
magnitude 1 within CS_UNIT and components in [-1, 1] (R143, R149). -/
def Obligations.NcoNoDrift : Prop :=
  ∀ (n : Nat) (s : State) (k : Word) (j : Fin 3), k.toNat = j.val → (if j = 0 then s.dm.active else s.gen.active) = false →
    ∃ (t : State) (zs : List Cfx), execAll (List.replicate n (.ncoNext k)) s = .next t ∧ zs.length = n ∧
      t.io.rsp = s.io.rsp ++ zs.map (fun z => ⟨.ok, [z.re, z.im]⟩) ∧
      (∀ z ∈ zs, (z.re.toInt * z.re.toInt + z.im.toInt * z.im.toInt - 2 ^ 32).natAbs ≤ 2 ^ 17 ∧
        z.re.toInt.natAbs ≤ 65536 ∧ z.im.toInt.natAbs ≤ 65536) ∧
      t.nco[j].phase.toNat = (s.nco[j].phase.toNat + n * s.nco[j].inc.toNat) % 2 ^ 32 ∧
      t.nco[j].inc = s.nco[j].inc

/-! ## Rate converter -/

/-- RC.CFG on an idle engine: the ratio becomes the quotient of the rates in Q32.32, truncated; with the flag the position
and the history are cleared, without it they stay; a zero rate or a ratio below 1/256 is refused and changes nothing (R161,
R165, R167). -/
def Obligations.RcCfgResult : Prop :=
  ∀ (s : State) (a b : Word) (reset : Bool), s.dm.active = false →
    (0 < a.toNat → 0 < b.toNat → b.toNat ≤ 256 * a.toNat → ∃ r : BitVec 64, r.toNat = a.toNat * 2 ^ 32 / b.toNat ∧
      exec (.rcCfg a b reset) s = .next (respond .ok [] { s with rc :=
        if reset then { ratio := r, mu := 0#32, skip := 0#32, hist := #v[⟨0#32, 0#32⟩, ⟨0#32, 0#32⟩] }
        else { s.rc with ratio := r } })) ∧
    (a.toNat = 0 ∨ b.toNat = 0 ∨ 256 * a.toNat < b.toNat →
      exec (.rcCfg a b reset) s = .next (respond .range [] s))

/-- RC.CONV on an idle engine: the position moves on by exactly the ratio for each output and back by one period for each
input, at most 257 outputs come from an input, and nothing but the converter changes (R162, R164, R166, R170). -/
def Obligations.RcConvPositions : Prop :=
  ∀ (s : State) (xs : List Cfx), s.dm.active = false → 2 ^ 24 ≤ s.rc.ratio.toNat →
    s.rc.ratio.toNat ≤ (2 ^ 32 - 1) * 2 ^ 32 →
    ∃ (zs : List Cfx) (c : Rc), exec (.rcConv xs) s = .next (respond .ok (sampleWords zs) { s with rc := c }) ∧
      c.ratio = s.rc.ratio ∧ zs.length ≤ 257 * xs.length ∧
      (c.skip.toNat + xs.length) * 2 ^ 32 + c.mu.toNat =
        s.rc.skip.toNat * 2 ^ 32 + s.rc.mu.toNat + zs.length * s.rc.ratio.toNat

/-- RC.CONV of one sample, however many outputs it makes computable (none, one or several), at a position that 256 outputs move
past the newest sample, as every ratio of at least 1/256 does: the sample is shifted into the history; output j stands at the
position mu + j ratio and weights the two nearest inputs by the top 16 bits of that fraction, rounded down; there are exactly as
many as positions before the next period; and the position is split again into whole periods, less the one consumed, and a
fraction. With periods left to skip no output is made and only their number falls (R163, R164). -/
def Obligations.RcConvInterpolates : Prop :=
  ∀ (s : State) (x : Cfx) (pos r : Nat), s.dm.active = false →
    pos = s.rc.skip.toNat * 2 ^ 32 + s.rc.mu.toNat → r = s.rc.ratio.toNat →
    r ≤ (2 ^ 32 - 1) * 2 ^ 32 → 2 ^ 32 ≤ pos + 256 * r →
    ∃ (ys : List Cfx) (c : Rc), exec (.rcConv [x]) s = .next (respond .ok (sampleWords ys) { s with rc := c }) ∧
      c.ratio = s.rc.ratio ∧ c.hist = #v[x, s.rc.hist[0]] ∧
      (∀ j, j < ys.length ↔ pos + j * r < 2 ^ 32) ∧
      (∀ (j : Nat) (y : Cfx) (p : Int), ys[j]? = some y → p = ((pos + j * r : Nat) : Int) / 65536 →
        y.re.toInt = (p * x.re.toInt + (65536 - p) * s.rc.hist[0].re.toInt) / 65536 ∧
        y.im.toInt = (p * x.im.toInt + (65536 - p) * s.rc.hist[0].im.toInt) / 65536) ∧
      c.mu.toNat = (pos + ys.length * r) % 2 ^ 32 ∧ c.skip.toNat + 1 = (pos + ys.length * r) / 2 ^ 32 ∧
      (s.rc.skip ≠ 0#32 → ys = [] ∧ c.mu = s.rc.mu ∧ c.skip.toNat + 1 = s.rc.skip.toNat)

/-- DC exactness: a pushed input becomes the newest stored sample; and with the newest stored sample and every input equal
to v, every output of RC.CONV is exactly v, at any ratio and position: so every output after the first input is v (R169). -/
def Obligations.RcDcExact : Prop :=
  ∀ (s : State) (v : Cfx), s.dm.active = false →
    (∃ (ws : List Word) (c : Rc), exec (.rcConv [v]) s = .next (respond .ok ws { s with rc := c }) ∧ c.hist[0] = v) ∧
    (s.rc.hist[0] = v → ∀ xs : List Cfx, (∀ x ∈ xs, x = v) → ∃ (n : Nat) (c : Rc),
      exec (.rcConv xs) s = .next (respond .ok (sampleWords (List.replicate n v)) { s with rc := c }))

/-- Splitting a stream into commands in any way gives the same concatenated output and the same end state, for RC.CONV and
for SF.APPLY (R166, R191), and for DM.FEED of a running engine with nothing pending, whose counts add up (R216). And a batch of
SY.GEN pushes and leaves what its parts push and leave one after the other: the queue, the oscillators, the deviation and all
else but the buffer, which holds the last batch from byte 0 (R281, R303). -/
def Obligations.StreamsSplit : Prop :=
  ∀ (s : State) (xs ys : List Cfx),
    (s.dm.active = false → ∃ (t u : State) (a b : List Word), exec (.rcConv xs) s = .next (respond .ok a t) ∧
      exec (.rcConv ys) (respond .ok a t) = .next (respond .ok b (respond .ok a u)) ∧
      exec (.rcConv (xs ++ ys)) s = .next (respond .ok (a ++ b) u)) ∧
    (s.dm.active = false → ∃ (t u : State) (a b : List Word), exec (.sfApply xs) s = .next (respond .ok a t) ∧
      exec (.sfApply ys) (respond .ok a t) = .next (respond .ok b (respond .ok a u)) ∧
      exec (.sfApply (xs ++ ys)) s = .next (respond .ok (a ++ b) u)) ∧
    (s.dm.active = true → s.dm.stopReq = false → s.dm.pndF.any = false → ∃ (t u : State) (a b : Word),
      exec (.dmFeed xs) s = .next (respond .ok [a] t) ∧
      exec (.dmFeed ys) (respond .ok [a] t) = .next (respond .ok [b] (respond .ok [a] u)) ∧
      exec (.dmFeed (xs ++ ys)) s = .next (respond .ok [a + b] u)) ∧
    (s.gen.halted = false → s.gen.active = true → s.gen.stopReq = false → s.gen.pndF = false →
      ∀ m n k : Word, m.toNat % 2 = 0 → k.toNat = m.toNat + n.toNat → k.toNat ≤ 65536 →
      s.syq.length + k.toNat ≤ 262144 → ∃ (t u v : State) (a b : Word), a = m ∧ b.toNat = 2 * (n.toNat / 2) ∧
        exec (.syGen m) s = .next (respond .ok [a] t) ∧
        exec (.syGen n) (respond .ok [a] t) = .next (respond .ok [b] (respond .ok [a] u)) ∧
        exec (.syGen k) s = .next (respond .ok [a + b] v) ∧ v = { u with sybuf := v.sybuf })

/-! ## Spectral filter -/

/-- SF.CFG on an idle engine: only the mask changes; its entries lie in [0, ONE], bin 0 is ONE, a passband as wide as the
spectrum passes every bin, and modes 1 and 2 mirror each other; a mode above 2 or rate 0 is refused (R124, R186, R190;
MG_RANGE, MG_DC, MG_ALL, MG_MIRROR). -/
def Obligations.SfCfgResult : Prop :=
  ∀ (s : State) (mode bw opp rate : Word), s.dm.active = false →
    (mode.toNat ≤ 2 → rate.toNat ≠ 0 → ∃ mask : Sparse Fx,
      exec (.sfCfg mode bw opp rate) s = .next (respond .ok [] { s with sf := { s.sf with mask := mask } }) ∧
      (∀ k, k < 2048 → 0 ≤ (sparseGet 0#32 mask k).toInt ∧ (sparseGet 0#32 mask k).toInt ≤ 65536) ∧
      (sparseGet 0#32 mask 0).toInt = 65536 ∧
      (rate.toNat ≤ 2 * bw.toNat → mode.toNat = 0 ∨ rate.toNat ≤ 2 * opp.toNat →
        ∀ k, k < 2048 → (sparseGet 0#32 mask k).toInt = 65536) ∧
      (mode.toNat = 1 → ∃ mirror : Sparse Fx, exec (.sfCfg 2#32 bw opp rate) s =
          .next (respond .ok [] { s with sf := { s.sf with mask := mirror } }) ∧
        ∀ k, k < 2048 → k ≠ 1024 → sparseGet 0#32 mask k = sparseGet 0#32 mirror ((2048 - k) % 2048))) ∧
    (2 < mode.toNat ∨ rate.toNat = 0 → exec (.sfCfg mode bw opp rate) s = .next (respond .range [] s))

/-- SF.APPLY on an idle engine returns whole half-blocks only, as many as the collected and the new samples fill, keeps
count of the rest and keeps the mask; nothing outside the filter changes (R182, R191). -/
def Obligations.SfApplyCount : Prop :=
  ∀ (s : State) (xs : List Cfx), s.dm.active = false → ∃ (zs : List Cfx) (f : Sf),
    exec (.sfApply xs) s = .next (respond .ok (sampleWords zs) { s with sf := f }) ∧
    zs.length = (s.sf.fill.val + xs.length) / 1024 * 1024 ∧ f.fill.val = (s.sf.fill.val + xs.length) % 1024 ∧
    f.mask = s.sf.mask

/-- What SF.APPLY does under any mask, a block at a time (a longer stream splits by StreamsSplit). Samples that do not fill the
block are stored behind those collected and none comes out. Samples that just fill it release entries 1024 to 2047 of the kernel
of the mask and of the block with them stored, and the block's new half is kept as the overlap tail. What comes out is zeros
under an all-0 mask or of a zero block, the new half itself under an all-ONE mask, and the value v of a constant block whenever
bin 0 is ONE. So from an empty block and under the all-ONE mask 1024 samples come out exactly (R182, R184, R191, R192;
SFK_ZERO, SFK_ID and SFK_DC with SF_EPS = 0, the value of R9's table: log entry 1). -/
def Obligations.SfApplyIdentity : Prop :=
  (∀ (s : State) (xs : List Cfx), s.dm.active = false → s.sf.fill.val + xs.length < 1024 → ∃ f : Sf,
    exec (.sfApply xs) s = .next (respond .ok [] { s with sf := f }) ∧ f.mask = s.sf.mask ∧
    f.fill.val = s.sf.fill.val + xs.length ∧ ∀ k, sparseGet cfxZero f.inb k =
      if 1024 + s.sf.fill.val ≤ k ∧ k < 1024 + s.sf.fill.val + xs.length
        then xs.getD (k - (1024 + s.sf.fill.val)) cfxZero else sparseGet cfxZero s.sf.inb k) ∧
  (∀ (s : State) (xs block : List Cfx) (mask : List Fx), s.dm.active = false → s.sf.fill.val + xs.length = 1024 →
    mask.length = 2048 → (∀ k, k < 2048 → mask[k]? = some (sparseGet 0#32 s.sf.mask k)) → block.length = 2048 →
    (∀ k, k < 2048 → block[k]? = some (if k < 1024 + s.sf.fill.val then sparseGet cfxZero s.sf.inb k
      else xs.getD (k - (1024 + s.sf.fill.val)) cfxZero)) → ∃ (ys : List Cfx) (f : Sf),
      exec (.sfApply xs) s = .next (respond .ok (sampleWords ys) { s with sf := f }) ∧
      ys = (sfKernel mask block).drop 1024 ∧ ys.length = 1024 ∧ f.mask = s.sf.mask ∧ f.fill.val = 0 ∧
      (∀ k, k < 1024 → some (sparseGet cfxZero f.inb k) = block[1024 + k]?) ∧
      ((∀ m ∈ mask, m = 0#32) ∨ (∀ z ∈ block, z = ⟨0#32, 0#32⟩) → ys = List.replicate 1024 ⟨0#32, 0#32⟩) ∧
      ((∀ m ∈ mask, m.toInt = 65536) → ys = block.drop 1024) ∧
      ((sparseGet 0#32 s.sf.mask 0).toInt = 65536 → ∀ v, (∀ z ∈ block, z = v) → ys = List.replicate 1024 v)) ∧
  ∀ (s : State) (xs : List Cfx), s.dm.active = false → s.sf.fill.val = 0 → xs.length = 1024 →
    (∀ k, k < 2048 → (sparseGet 0#32 s.sf.mask k).toInt = 65536) → ∃ f : Sf,
      exec (.sfApply xs) s = .next (respond .ok (sampleWords xs) { s with sf := f }) ∧ f.fill.val = 0 ∧
      ∀ k, k < 1024 → some (sparseGet cfxZero f.inb k) = xs[k]?

/-! ## Level tracker -/

/-- LT.UPD on an idle engine: the squared magnitude, rounded down and saturated, replaces the oldest window entry, and the sum
moves by the exact difference; nothing else changes (R14, R201, R203). -/
def Obligations.LtUpdResult : Prop :=
  ∀ (s : State) (z : Cfx), s.dm.active = false → 0 ≤ s.lt.sum.toInt → s.lt.sum.toInt ≤ 32 * FX_MAX →
    ∃ (m : Fx) (l : Lt), m.toInt = min FX_MAX ((z.re.toInt * z.re.toInt + z.im.toInt * z.im.toInt) / 65536) ∧
      exec (.ltUpd z) s = .next (respond .ok [] { s with lt := l }) ∧
      l.sum.toInt = s.lt.sum.toInt + m.toInt - s.lt.win[s.lt.idx].toInt ∧ l.idx.val = (s.lt.idx.val + 1) % 32 ∧
      (∀ j : Fin 32, l.win[j] = if j = s.lt.idx then m else s.lt.win[j])

/-- Steady state: after 32 updates of squared magnitude m in a row, LT.AVG answers m exactly, whatever the window held
before (R208). -/
def Obligations.LtSteadyState : Prop :=
  ∀ (s : State) (zs : List Cfx) (m : Fx), s.dm.active = false → DmInv s → zs.length = 32 →
    (∀ z ∈ zs, m.toInt = min FX_MAX ((z.re.toInt * z.re.toInt + z.im.toInt * z.im.toInt) / 65536)) →
    ∃ t, execAll (zs.map .ltUpd) s = .next t ∧ exec .ltAvg t = .next (respond .ok [m] t)

/-! ## Configuration messages -/

/-- A valid configuration message, at any time, is staged whole with its clamped fields and sets its pending flag; nothing else
changes (R334, R336 to R339, R120, R122, R123). -/
def Obligations.MessagesStaged : Prop :=
  ∀ s : State,
    (∀ (lineNs topNs fps ratio thr black : Word) (h v : Bool), 0 < topNs.toNat → topNs.toNat < lineNs.toNat →
      0 < fps.toNat → ∃ b : AtvBank,
      exec (.dmCfgatv lineNs topNs fps ratio thr black h v) s = .next (respond .ok []
        { s with dm := { s.dm with pnd := { s.dm.pnd with atv := b }, pndF := { s.dm.pndF with atv := true } } }) ∧
      b.lineNs = lineNs ∧ b.topNs = topNs ∧ b.fps = fps ∧ b.rowsRatio.toInt = max 1 (min 65536 ratio.toInt) ∧
      b.thrSyncTop.toInt = max 0 (min 65536 thr.toInt) ∧ b.thrBlack.toInt = max 0 (min 65536 black.toInt) ∧
      b.hsyncEn = h ∧ b.vsyncEn = v) ∧
    (∀ (offset kind bw opp : Word) (mk : DemodKind) (f g : Bool),
      (kind.toNat, mk) ∈ [(0, DemodKind.fm1), (1, .fm2), (2, .am), (3, .vsbU), (4, .vsbL)] →
      exec (.dmCfgrf offset kind bw opp f g) s = .next (respond .ok []
        { s with dm := { s.dm with pnd := { s.dm.pnd with rf := ⟨offset, mk, bw, opp, f, g⟩ },
                                   pndF := { s.dm.pndF with rf := true } } })) ∧
    (∀ rate : Word, 0 < rate.toNat → exec (.dmCfgstream rate) s = .next (respond .ok []
        { s with dm := { s.dm with pnd := { s.dm.pnd with stream := ⟨rate⟩ },
                                   pndF := { s.dm.pndF with stream := true } } })) ∧
    (∀ (rate carrier depth mod tone am dev ai aq di dq skew : Word) (d : Depth) (k : SynthKind), 0 < rate.toNat →
      (depth.toNat, d) ∈ [(0, Depth.bits8), (1, .bits12), (2, .bits16)] →
      (mod.toNat, k) ∈ [(0, SynthKind.none), (1, .am), (2, .fm)] → ∃ b : GenBank,
      exec (.syCfg rate carrier depth mod tone am dev ai aq di dq skew) s = .next (respond .ok []
        { s with gen := { s.gen with pnd := b, pndF := true } }) ∧
      b.sampleRateHz = rate ∧ b.carrierHz = carrier ∧ b.depth = d ∧ b.mod = k ∧ b.toneHz = tone ∧
      b.amIndex.toInt = max 0 (min 65536 am.toInt) ∧ b.fmDevHz = dev ∧
      b.ampI.toInt = max 0 (min 65536 ai.toInt) ∧ b.ampQ.toInt = max 0 (min 65536 aq.toInt) ∧
      b.dcI.toInt = max (-65536) (min 65536 di.toInt) ∧ b.dcQ.toInt = max (-65536) (min 65536 dq.toInt) ∧
      b.skew = skew)

/-- A message with a field out of range is refused whole: the error count rises by one and saturates, EV_CFGREJ names the bank
and the first failing check, the response is E_RANGE, and no bank, flag or fault bit changes (R335 to R339, R371). -/
def Obligations.MessagesRejected : Prop :=
  ∀ s : State, ∃ c : Word, c.toNat = min (s.cfgErr.toNat + 1) (2 ^ 32 - 1) ∧
    ∀ (i : Instr) (bank : BankId) (q : Reason),
      ((∃ lineNs topNs fps ratio thr black h v, i = .dmCfgatv lineNs topNs fps ratio thr black h v ∧ bank = .atv ∧
          (lineNs.toNat = 0 ∨ topNs.toNat = 0 ∨ fps.toNat = 0) ∧ q = .zeroField) ∨
        (∃ lineNs topNs fps ratio thr black h v, i = .dmCfgatv lineNs topNs fps ratio thr black h v ∧ bank = .atv ∧
          0 < fps.toNat ∧ 0 < lineNs.toNat ∧ lineNs.toNat ≤ topNs.toNat ∧ q = .topNotLess) ∨
        (∃ offset kind bw opp f g, i = .dmCfgrf offset kind bw opp f g ∧ bank = .rf ∧ 4 < kind.toNat ∧ q = .badEnum) ∨
        (i = .dmCfgstream 0#32 ∧ bank = .stream ∧ q = .zeroField) ∨
        (∃ carrier depth mod tone am dev ai aq di dq skew,
          i = .syCfg 0#32 carrier depth mod tone am dev ai aq di dq skew ∧ bank = .synthesis ∧ q = .zeroField) ∨
        (∃ rate carrier depth mod tone am dev ai aq di dq skew,
          i = .syCfg rate carrier depth mod tone am dev ai aq di dq skew ∧ bank = .synthesis ∧ 0 < rate.toNat ∧
          (2 < depth.toNat ∨ 2 < mod.toNat) ∧ q = .badEnum)) →
      exec i s = .next { s with
        cfgErr := c
        io := { s.io with evt := s.io.evt ++ [.cfgRej bank q], rsp := s.io.rsp ++ [⟨.range, []⟩] } }

/-! ## Demodulation engine: geometry, start, stop, apply -/

/-- The derived record of a set of banks, or the first reason there is none (R218). -/
def Obligations.DmDeriveGeometry : Prop :=
  ∀ b : DmBanks, ∀ den lpf lps spl eff top : Nat,
    den = b.atv.fps.toNat * b.atv.lineNs.toNat → lpf = 10 ^ 9 / den → lps = lpf * b.atv.fps.toNat →
    spl = b.stream.inRateHz.toNat / lps → eff = (if b.rf.decimEn then spl * lps else b.stream.inRateHz.toNat) →
    top = max 2 (b.atv.topNs.toNat * eff / 10 ^ 9) →
    if den = 0 ∨ 10 ^ 9 < den ∨ 4096 < lpf then dmDerive b = .error .badLpf
    else if b.stream.inRateHz.toNat < lps then dmDerive b = .error .badLps
    else if spl < 8 ∨ 4096 < spl then dmDerive b = .error .badSpl
    else if spl ≤ top + 3 then dmDerive b = .error .badTop
    else ∃ d, dmDerive b = .ok d ∧ d.lpf.toNat = lpf ∧ d.lps.toNat = lps ∧ d.spl.toNat = spl ∧
      d.effRate.toNat = eff ∧ d.topN.toNat = top ∧
      (d.rowsDisp.toNat : Int) = max 1 (min (lpf : Int) (b.atv.rowsRatio.toInt * lpf / 65536)) ∧
      d.decimOn = b.rf.decimEn ∧
      (d.filtOn = true ↔ b.rf.filterEn = true ∨ b.rf.modKind = .vsbU ∨ b.rf.modKind = .vsbL)

/-- DM.START of an idle engine with a valid running configuration and nothing pending: the units derived again from the
running banks, every piece of dynamic state created anew, EV_STATE unless the state was Unsynchronized; banks, flags, fault,
count and the synthesis engine stay. With messages pending whose geometry is refused, START drops them, counts the error, emits
EV_CFGREJ bank 4, and succeeds with the earlier configuration as if nothing had been pending (R341, R344, R346). The increment
and the ratio at rate 0, which no run has, are the model's choice (log entry 14). -/
def Obligations.DmStartRunning : Prop :=
  (∀ s : State, s.dm.active = false → s.dm.pndF.any = false → s.dm.val.all = true →
    ∃ (inc : Word) (ratio : BitVec 64) (mode : SfMode),
      (inc.toNat : Int) = max (-2 ^ 31) (min (2 ^ 31)
        (-s.dm.cur.rf.freqOffsetHz.toInt * 2 ^ 32 / s.dm.cur.stream.inRateHz.toNat)) % 2 ^ 32 ∧
      ratio.toNat = s.dm.cur.stream.inRateHz.toNat * 2 ^ 32 / s.dm.d.effRate.toNat ∧
      (s.dm.cur.rf.modKind, mode) ∈
        [(DemodKind.fm1, SfMode.dsb), (.fm2, .dsb), (.am, .dsb), (.vsbU, .upper), (.vsbL, .lower)] ∧
      exec .dmStart s = .next (respond .ok [] { s with
        nco := s.nco.set (0 : Fin 3) { phase := 0#32, inc := inc }
        rc := { ratio := ratio, mu := 0#32, skip := 0#32, hist := #v[⟨0#32, 0#32⟩, ⟨0#32, 0#32⟩] }
        sf := { mask := sparseOfList 0#32 0 (sfMaskgen mode s.dm.cur.rf.rfBwHz s.dm.cur.rf.oppBwHz s.dm.d.effRate),
                inb := [], fill := 0 }
        lt := Lt.reset
        sync := Sync.reset
        dm := { s.dm with uh1 := ⟨0#32, 0#32⟩, uh2 := ⟨0#32, 0#32⟩, line := [], frames := 0#32, active := true,
                          stopReq := false }
        io := { s.io with evt := s.io.evt ++ (if s.sync.fsm = .unsynchronized then []
          else [.state s.sync.fsm .unsynchronized]) } })) ∧
  ∀ (s : State) (cand : DmBanks) (q : Reason), s.dm.active = false → s.dm.pndF.any = true → s.dm.val.all = true →
    cand = { atv := if s.dm.pndF.atv then s.dm.pnd.atv else s.dm.cur.atv
             rf := if s.dm.pndF.rf then s.dm.pnd.rf else s.dm.cur.rf
             stream := if s.dm.pndF.stream then s.dm.pnd.stream else s.dm.cur.stream } →
    dmDerive cand = .error q → ∃ (c : Word) (t : State), c.toNat = min (s.cfgErr.toNat + 1) (2 ^ 32 - 1) ∧
      exec .dmStart s = .next t ∧ exec .dmStart { s with
        cfgErr := c
        dm := { s.dm with pndF := ⟨false, false, false⟩ }
        io := { s.io with evt := s.io.evt ++ [.cfgRej .derived q] } } = .next t ∧
      t.dm.active = true ∧ t.dm.cur = s.dm.cur ∧ t.dm.d = s.dm.d ∧ t.dm.pndF = ⟨false, false, false⟩ ∧ t.cfgErr = c ∧
      t.io.rsp = s.io.rsp ++ [⟨.ok, []⟩]

/-- DM.START of an idle engine with messages pending and a complete candidate whose geometry is legal: the candidate becomes
running, its flags are cleared, the derived record is stored, EV_RATE reports a rate not reported before, and the
engine runs with fresh dynamic state (R341, R344, R346, R413). -/
def Obligations.DmStartApplies : Prop :=
  ∀ (s : State) (cand : DmBanks) (d : DmDerived), s.dm.active = false → s.dm.pndF.any = true →
    (s.dm.val.atv || s.dm.pndF.atv) = true → (s.dm.val.rf || s.dm.pndF.rf) = true →
    (s.dm.val.stream || s.dm.pndF.stream) = true →
    cand = { atv := if s.dm.pndF.atv then s.dm.pnd.atv else s.dm.cur.atv
             rf := if s.dm.pndF.rf then s.dm.pnd.rf else s.dm.cur.rf
             stream := if s.dm.pndF.stream then s.dm.pnd.stream else s.dm.cur.stream } →
    dmDerive cand = .ok d →
    ∃ t : State, exec .dmStart s = .next t ∧
      t.dm = { s.dm with
        cur := cand, pndF := ⟨false, false, false⟩, val := ⟨true, true, true⟩, d := d, rateReported := d.effRate
        uh1 := ⟨0#32, 0#32⟩, uh2 := ⟨0#32, 0#32⟩, line := [], frames := 0#32, active := true, stopReq := false } ∧
      t.nco[(0 : Fin 3)].phase = 0#32 ∧ (t.nco[(0 : Fin 3)].inc.toNat : Int) = max (-2 ^ 31) (min (2 ^ 31)
        (-cand.rf.freqOffsetHz.toInt * 2 ^ 32 / cand.stream.inRateHz.toNat)) % 2 ^ 32 ∧
      t.rc.ratio.toNat = cand.stream.inRateHz.toNat * 2 ^ 32 / d.effRate.toNat ∧ t.rc.mu = 0#32 ∧
      t.rc.skip = 0#32 ∧ t.rc.hist = #v[⟨0#32, 0#32⟩, ⟨0#32, 0#32⟩] ∧
      (∃ mode, (cand.rf.modKind, mode) ∈
          [(DemodKind.fm1, SfMode.dsb), (.fm2, .dsb), (.am, .dsb), (.vsbU, .upper), (.vsbL, .lower)] ∧
        t.sf.mask = sparseOfList 0#32 0 (sfMaskgen mode cand.rf.rfBwHz cand.rf.oppBwHz d.effRate)) ∧
      t.sf.inb = [] ∧ t.sf.fill = 0 ∧ t.lt = Lt.reset ∧ t.sync = Sync.reset ∧
      synthShare t = synthShare s ∧ t.fault = s.fault ∧ t.cfgErr = s.cfgErr ∧ t.io.pix = s.io.pix ∧
      t.io.rsp = s.io.rsp ++ [⟨.ok, []⟩] ∧ ∃ evs, t.io.evt = s.io.evt ++ evs ∧
        (∀ e, e ∈ evs ↔ (e = .rate d.effRate ∧ d.effRate ≠ s.dm.rateReported) ∨
          (e = .state s.sync.fsm .unsynchronized ∧ s.sync.fsm ≠ .unsynchronized)) ∧ evs.Nodup

/-- START refused: DM.START and SY.START of an active engine answer E_BUSY and change nothing; without a complete running
configuration they answer E_NOCFG, DM.START keeping the messages that have arrived, or discarding them with EV_CFGREJ bank 4
when the geometry they imply is illegal (R341, R344, R345). -/
def Obligations.StartRefused : Prop :=
  ∀ s : State,
    (s.dm.active = true → exec .dmStart s = .next (respond .busy [] s)) ∧
    (s.dm.active = false → s.dm.pndF.any = false → s.dm.val.all = false →
      exec .dmStart s = .next (respond .nocfg [] s)) ∧
    (s.dm.active = false → s.dm.pndF.any = true → ∀ (cand : DmBanks) (cval : DmFlags),
      cand = { atv := if s.dm.pndF.atv then s.dm.pnd.atv else s.dm.cur.atv
               rf := if s.dm.pndF.rf then s.dm.pnd.rf else s.dm.cur.rf
               stream := if s.dm.pndF.stream then s.dm.pnd.stream else s.dm.cur.stream } →
      cval = { atv := s.dm.val.atv || s.dm.pndF.atv, rf := s.dm.val.rf || s.dm.pndF.rf,
               stream := s.dm.val.stream || s.dm.pndF.stream } →
      (cval.all = false → exec .dmStart s = .next (respond .nocfg []
        { s with dm := { s.dm with cur := cand, val := cval, pndF := ⟨false, false, false⟩ } })) ∧
      (cval.all = true → s.dm.val.all = false → ∀ q, dmDerive cand = .error q → ∃ c : Word,
        c.toNat = min (s.cfgErr.toNat + 1) (2 ^ 32 - 1) ∧ exec .dmStart s = .next (respond .nocfg []
          { s with
            cfgErr := c
            dm := { s.dm with pndF := ⟨false, false, false⟩ }
            io := { s.io with evt := s.io.evt ++ [.cfgRej .derived q] } }))) ∧
    (s.gen.halted = false → s.gen.active = true → exec .syStart s = .next (respond .busy [] s)) ∧
    (s.gen.halted = false → s.gen.active = false → s.gen.pndF = false → s.gen.val = false →
      exec .syStart s = .next (respond .nocfg [] s))

/-- STOP sets the request of an active engine and nothing else, and does nothing to an idle one; the next cycle command takes
the stop, processes nothing, emits EV_STOPPED and answers E_IDLE, pending messages staying pending (R340, R342, R347
to R349). -/
def Obligations.StopTakesEffect : Prop :=
  ∀ s : State,
    (s.dm.active = false → exec .dmStop s = .next (respond .ok [] s)) ∧
    (s.dm.active = true → exec .dmStop s = .next (respond .ok [] { s with dm := { s.dm with stopReq := true } })) ∧
    (s.dm.active = true → s.dm.stopReq = true → ∀ xs, exec (.dmFeed xs) s = .next (respond .idle []
      { s with
        dm := { s.dm with active := false, stopReq := false }
        io := { s.io with evt := s.io.evt ++ [.stopped .demodulation] } })) ∧
    (s.gen.active = false → exec .syStop s = .next (respond .ok [] s)) ∧
    (s.gen.active = true → exec .syStop s = .next (respond .ok [] { s with gen := { s.gen with stopReq := true } })) ∧
    (s.gen.halted = false → s.gen.active = true → s.gen.stopReq = true → ∀ i,
      (i = .syTick ∨ ∃ n, i = .syGen n) → exec i s = .next (respond .idle []
      { s with
        gen := { s.gen with active := false, stopReq := false }
        io := { s.io with evt := s.io.evt ++ [.stopped .synthesis] } }))

/-- The safe point of DM.FEED: with messages pending and the candidate's geometry legal, the block is processed as if the
candidate had been running, with the units derived from it and the synchronization state reset when any timing field
changed; with the geometry illegal the messages are dropped with EV_CFGREJ bank 4 and the block is processed with the
running configuration unchanged (R84, R216, R340, R341). -/
def Obligations.FeedAppliesPending : Prop :=
  ∀ (s : State) (xs : List Cfx) (cand : DmBanks), s.dm.active = true → s.dm.stopReq = false → s.dm.pndF.any = true →
    s.dm.val.all = true →
    cand = { atv := if s.dm.pndF.atv then s.dm.pnd.atv else s.dm.cur.atv
             rf := if s.dm.pndF.rf then s.dm.pnd.rf else s.dm.cur.rf
             stream := if s.dm.pndF.stream then s.dm.pnd.stream else s.dm.cur.stream } →
    (∀ q, dmDerive cand = .error q → ∃ c : Word, c.toNat = min (s.cfgErr.toNat + 1) (2 ^ 32 - 1) ∧
      exec (.dmFeed xs) s = exec (.dmFeed xs) { s with
        cfgErr := c
        dm := { s.dm with pndF := ⟨false, false, false⟩ }
        io := { s.io with evt := s.io.evt ++ [.cfgRej .derived q] } }) ∧
    (∀ d, dmDerive cand = .ok d → ∀ same : Bool,
      (same = true ↔ d.spl = s.dm.d.spl ∧ d.lpf = s.dm.d.lpf ∧ d.topN = s.dm.d.topN ∧ d.effRate = s.dm.d.effRate ∧
        cand.rf.modKind = s.dm.cur.rf.modKind ∧ cand.atv.hsyncEn = s.dm.cur.atv.hsyncEn ∧
        cand.atv.vsyncEn = s.dm.cur.atv.vsyncEn) →
      ∃ (inc : Word) (ratio : BitVec 64) (mode : SfMode),
        (inc.toNat : Int) = max (-2 ^ 31) (min (2 ^ 31)
          (-cand.rf.freqOffsetHz.toInt * 2 ^ 32 / cand.stream.inRateHz.toNat)) % 2 ^ 32 ∧
        ratio.toNat = cand.stream.inRateHz.toNat * 2 ^ 32 / d.effRate.toNat ∧
        (cand.rf.modKind, mode) ∈
          [(DemodKind.fm1, SfMode.dsb), (.fm2, .dsb), (.am, .dsb), (.vsbU, .upper), (.vsbL, .lower)] ∧
        exec (.dmFeed xs) s = exec (.dmFeed xs) { s with
          nco := s.nco.set (0 : Fin 3) { phase := s.nco[(0 : Fin 3)].phase, inc := inc }
          rc := { s.rc with ratio := ratio }
          sf := { s.sf with mask := sparseOfList 0#32 0 (sfMaskgen mode cand.rf.rfBwHz cand.rf.oppBwHz d.effRate) }
          sync := if same then s.sync else Sync.reset
          dm := { s.dm with cur := cand, pndF := ⟨false, false, false⟩, val := ⟨true, true, true⟩, d := d,
                            rateReported := d.effRate }
          io := { s.io with evt := s.io.evt ++
            (if same ∨ s.sync.fsm = .unsynchronized then [] else [.state s.sync.fsm .unsynchronized]) ++
            (if d.effRate = s.dm.rateReported then [] else [.rate d.effRate]) } })

/-! ## Demodulation engine: the cycle, the sample step -/

/-- DM.FEED of a running engine with nothing pending. Each input is multiplied by oscillator 0's value one increment further
on; the mixed block goes through the converter as RC.CONV would convert it, or past it, and then through the filter as
SF.APPLY would filter it, or past it; the response counts what comes out, by the converter's exact position and the filter's
whole half-blocks; and what comes out is demodulated as a block fed with both units bypassed and the oscillator at rest.
Bypassed units, ratio, mask, banks, derived record, flags, the FM history under the magnitude kinds, and the synthesis engine
stay (R164, R168, R182, R188, R216, R217, R223, R225, R226). -/
def Obligations.DmFeedCompletes : Prop :=
  ∀ (s idle : State) (xs zs : List Cfx), s.dm.active = true → s.dm.stopReq = false → s.dm.pndF.any = false →
    idle = { s with dm := { s.dm with active := false } } → zs.length = xs.length →
    (∀ (i : Nat) (x z m : Cfx), xs[i]? = some x → zs[i]? = some z →
      m = cs (s.nco[(0 : Fin 3)].phase + BitVec.ofNat 32 (i + 1) * s.nco[(0 : Fin 3)].inc) →
      z.re.toInt = max FX_MIN (min FX_MAX ((x.re.toInt * m.re.toInt - x.im.toInt * m.im.toInt) / 65536)) ∧
      z.im.toInt = max FX_MIN (min FX_MAX ((x.re.toInt * m.im.toInt + x.im.toInt * m.re.toInt) / 65536))) →
    ∃ (t v : State) (ys ws : List Cfx), exec (.dmFeed xs) s = .next t ∧
      t.io.rsp = s.io.rsp ++ [⟨.ok, [BitVec.ofNat 32 ws.length]⟩] ∧
      (s.dm.d.decimOn = false → ys = zs ∧ t.rc = s.rc) ∧
      (s.dm.d.decimOn = true →
        exec (.rcConv zs) idle = .next (respond .ok (sampleWords ys) { idle with rc := t.rc }) ∧
        (2 ^ 24 ≤ s.rc.ratio.toNat → s.rc.ratio.toNat ≤ (2 ^ 32 - 1) * 2 ^ 32 → ys.length ≤ 257 * xs.length ∧
          (t.rc.skip.toNat + xs.length) * 2 ^ 32 + t.rc.mu.toNat =
            s.rc.skip.toNat * 2 ^ 32 + s.rc.mu.toNat + ys.length * s.rc.ratio.toNat)) ∧
      (s.dm.d.filtOn = false → ws = ys ∧ t.sf = s.sf) ∧
      (s.dm.d.filtOn = true →
        exec (.sfApply ys) idle = .next (respond .ok (sampleWords ws) { idle with sf := t.sf }) ∧
        ws.length = (s.sf.fill.val + ys.length) / 1024 * 1024 ∧
        t.sf.fill.val = (s.sf.fill.val + ys.length) % 1024) ∧
      exec (.dmFeed ws) { s with
        nco := s.nco.set (0 : Fin 3) { phase := 0#32, inc := 0#32 }
        dm := { s.dm with d := { s.dm.d with decimOn := false, filtOn := false } } } = .next v ∧
      t = { v with nco := t.nco, rc := t.rc, sf := t.sf, dm := { v.dm with d := s.dm.d } } ∧
      t.rc.ratio = s.rc.ratio ∧ t.sf.mask = s.sf.mask ∧
      t.nco[(0 : Fin 3)].phase.toNat =
        (s.nco[(0 : Fin 3)].phase.toNat + xs.length * s.nco[(0 : Fin 3)].inc.toNat) % 2 ^ 32 ∧
      t.nco[(0 : Fin 3)].inc = s.nco[(0 : Fin 3)].inc ∧
      { t.dm with uh1 := s.dm.uh1, uh2 := s.dm.uh2, line := s.dm.line, frames := s.dm.frames } = s.dm ∧
      (s.dm.cur.rf.modKind ≠ .fm1 → s.dm.cur.rf.modKind ≠ .fm2 → t.dm.uh1 = s.dm.uh1 ∧ t.dm.uh2 = s.dm.uh2) ∧
      synthShare t = synthShare s ∧ t.fault = s.fault ∧ t.cfgErr = s.cfgErr ∧ t.io.timerIn = s.io.timerIn

/-- With line sync off and the state Unsynchronized the raster free-runs: every sample moves the position by one, a frame is
exactly lpf lines of spl samples, each completed frame gives one PX_FRAME record, and no event is emitted (R238, R240,
R241, R244, R245). -/
def Obligations.RasterFreeRuns : Prop :=
  ∀ (s : State) (xs : List Cfx), s.dm.active = true → s.dm.stopReq = false → s.dm.pndF.any = false →
    s.dm.d.decimOn = false → s.dm.d.filtOn = false → s.dm.cur.atv.hsyncEn = false → s.sync.fsm = .unsynchronized →
    s.sync.col.toNat < s.dm.d.spl.toNat → s.sync.row.toNat < s.dm.d.lpf.toNat →
    ∃ (t : State) (pxs : List Pixel), exec (.dmFeed xs) s = .next t ∧ t.io.pix = s.io.pix ++ pxs ∧
      t.io.evt = s.io.evt ∧ t.sync.fsm = .unsynchronized ∧ t.sync.col.toNat < s.dm.d.spl.toNat ∧
      t.sync.row.toNat < s.dm.d.lpf.toNat ∧
      (framesIn pxs * s.dm.d.lpf.toNat + t.sync.row.toNat) * s.dm.d.spl.toNat + t.sync.col.toNat =
        s.sync.row.toNat * s.dm.d.spl.toNat + s.sync.col.toNat + xs.length ∧
      t.dm.frames.toNat = (s.dm.frames.toNat + framesIn pxs) % 2 ^ 32

/-- Loss of signal: a zero sample that brings the tracker average to 0 takes any locked state to Unsynchronized with one
EV_STATE record, restarts the raster and the normaliser, and is itself sample 0 of the new raster (R220, R236, R237). -/
def Obligations.LossOfSignal : Prop :=
  ∀ s : State, s.dm.active = true → s.dm.stopReq = false → s.dm.pndF.any = false → s.dm.d.decimOn = false →
    s.dm.d.filtOn = false → s.sync.fsm ≠ .unsynchronized → s.sync.fsm ≠ .lineSyncSearching →
    s.dm.cur.atv.thrSyncTop.toInt ≤ 65536 → s.lt.sum.toInt = s.lt.win[s.lt.idx].toInt → 2 ≤ s.dm.d.spl.toNat →
    ∃ t : State, exec (.dmFeed [⟨0#32, 0#32⟩]) s = .next t ∧ t.io.rsp = s.io.rsp ++ [⟨.ok, [1#32]⟩] ∧
      t.io.evt = s.io.evt ++ [.state s.sync.fsm .unsynchronized] ∧ t.io.pix = s.io.pix ∧
      t.sync.fsm = .unsynchronized ∧ t.sync.row = 0#32 ∧ t.sync.col = 1#32 ∧ t.sync.effMin = 0#32 ∧
      t.sync.effDelta.toInt = 65536 ∧ t.dm.frames = s.dm.frames

/-- DM.FEED of one sample with converter and filter bypassed, at any phase of oscillator 0 and in every Modulation Kind. The
input is multiplied by the oscillator's value one increment further on (from phase and increment 0 it goes on unchanged). Then,
in this order: the level tracker takes the product in, the FM kinds move the history, the loss test is made, the demodulated
amplitude (the magnitude under AM) enters the amplitude statistics, the normalised sample goes to the line machine, is stored at
the column and added to the line sum which the line machine leaves, and the raster steps. The last part says it all out with
line sync off on the start-up scale: before the last column only the column moves on; at the last, the line is complete:
PX_LINE carries its row, the frame number and its samples if the row is one to display, column and line sum restart, the row
moves on; and after the last row PX_FRAME ends the frame and the statistics become the normaliser's scale (R14, R201, R217,
R220, R223, R225, R228, R236, R240 to R242, R244). -/
def Obligations.FeedOneSample : Prop :=
  ∀ (s : State) (x m z : Cfx) (raw : Fx), s.dm.active = true → s.dm.stopReq = false → s.dm.pndF.any = false →
    s.dm.d.decimOn = false → s.dm.d.filtOn = false →
    m = cs (s.nco[(0 : Fin 3)].phase + s.nco[(0 : Fin 3)].inc) →
    z.re.toInt = max FX_MIN (min FX_MAX ((x.re.toInt * m.re.toInt - x.im.toInt * m.im.toInt) / 65536)) →
    z.im.toInt = max FX_MIN (min FX_MAX ((x.re.toInt * m.im.toInt + x.im.toInt * m.re.toInt) / 65536)) →
    raw = dmRaw z s →
    (s.nco[(0 : Fin 3)].phase = 0#32 → s.nco[(0 : Fin 3)].inc = 0#32 → z = x) ∧
    (s.dm.cur.rf.modKind = .am →
      raw.toInt = min FX_MAX (Nat.sqrt (z.re.toInt * z.re.toInt + z.im.toInt * z.im.toInt).toNat : Int)) ∧
    (-2 ^ 62 ≤ s.lt.sum.toInt → s.lt.sum.toInt ≤ 2 ^ 62 →
      ∃ (e lo hi n : Fx) (l : Lt) (lost : Bool) (u v w h : State) (line : Sparse Fx) (sum : BitVec 64),
        e.toInt = min FX_MAX ((z.re.toInt * z.re.toInt + z.im.toInt * z.im.toInt) / 65536) ∧
        l.win = s.lt.win.set s.lt.idx e ∧ l.idx.val = (s.lt.idx.val + 1) % 32 ∧
        l.sum.toInt = s.lt.sum.toInt - s.lt.win[s.lt.idx].toInt + e.toInt ∧
        u = { s with
          nco := s.nco.set (0 : Fin 3)
            { phase := s.nco[(0 : Fin 3)].phase + s.nco[(0 : Fin 3)].inc, inc := s.nco[(0 : Fin 3)].inc }
          lt := l
          dm := if s.dm.cur.rf.modKind = .fm1 ∨ s.dm.cur.rf.modKind = .fm2
            then { s.dm with uh1 := unit z, uh2 := s.dm.uh1 } else s.dm } ∧
        (lost = true ↔ s.sync.fsm ≠ .unsynchronized ∧ s.sync.fsm ≠ .lineSyncSearching ∧ l.sum.toInt < 32) ∧
        v = (if lost = true then { u with
          sync := Sync.reset
          io := { s.io with evt := s.io.evt ++ [.state s.sync.fsm .unsynchronized] } } else u) ∧
        lo.toInt = min v.sync.ampMin.toInt raw.toInt ∧ hi.toInt = max v.sync.ampMax.toInt raw.toInt ∧
        w = { v with sync := { v.sync with ampMin := lo, ampMax := hi } } ∧ n = dmNorm raw w.sync ∧ h = hsStep n w ∧
        (h.sync.col.toNat < 4096 → ∀ k,
          sparseGet 0#32 line k = if k = h.sync.col.toNat then n else sparseGet 0#32 s.dm.line k) ∧
        (-2 ^ 62 ≤ h.sync.lineSum.toInt → h.sync.lineSum.toInt ≤ 2 ^ 62 →
          sum.toInt = h.sync.lineSum.toInt + n.toInt) ∧
        exec (.dmFeed [x]) s = .next (respond .ok [1#32] (rasterStep { h with
          dm := { h.dm with line := line }
          sync := { h.sync with lineSum := sum } }))) ∧
    ∀ n lo hi : Int, s.dm.cur.atv.hsyncEn = false → s.sync.fsm = .unsynchronized → s.sync.effMin = 0#32 →
      s.sync.effDelta.toInt = 65536 → s.sync.col.toNat < s.dm.d.spl.toNat → s.sync.col.toNat < 4096 →
      s.sync.row.toNat < s.dm.d.lpf.toNat → -2 ^ 62 ≤ s.sync.lineSum.toInt → s.sync.lineSum.toInt ≤ 2 ^ 62 →
      n = min 65536 raw.toInt → lo = min s.sync.ampMin.toInt raw.toInt → hi = max s.sync.ampMax.toInt raw.toInt →
      ∃ t : State, exec (.dmFeed [x]) s = .next t ∧ t.io.rsp = s.io.rsp ++ [⟨.ok, [1#32]⟩] ∧ t.io.evt = s.io.evt ∧
        (sparseGet 0#32 t.dm.line s.sync.col.toNat).toInt = n ∧
        (∀ k, k ≠ s.sync.col.toNat → sparseGet 0#32 t.dm.line k = sparseGet 0#32 s.dm.line k) ∧
        (s.dm.cur.rf.modKind = .fm1 ∨ s.dm.cur.rf.modKind = .fm2 → t.dm.uh1 = unit z ∧ t.dm.uh2 = s.dm.uh1) ∧
        (s.dm.cur.rf.modKind ≠ .fm1 → s.dm.cur.rf.modKind ≠ .fm2 → t.dm.uh1 = s.dm.uh1 ∧ t.dm.uh2 = s.dm.uh2) ∧
        (s.sync.col.toNat + 1 < s.dm.d.spl.toNat → t.sync.col.toNat = s.sync.col.toNat + 1 ∧ t.sync.row = s.sync.row ∧
          t.sync.lineSum.toInt = s.sync.lineSum.toInt + n ∧ t.io.pix = s.io.pix ∧ t.dm.frames = s.dm.frames) ∧
        (s.sync.col.toNat + 1 = s.dm.d.spl.toNat → t.sync.col = 0#32 ∧ t.sync.lineSum = 0#64 ∧
          ∃ samples : List Fx, samples.length = s.dm.d.spl.toNat ∧
            (∀ k, k < s.dm.d.spl.toNat → samples[k]? = some (sparseGet 0#32 t.dm.line k)) ∧
            t.io.pix = s.io.pix ++
              (if s.sync.row.toNat < s.dm.d.rowsDisp.toNat then [.line s.sync.row s.dm.frames samples] else []) ++
              (if s.sync.row.toNat + 1 < s.dm.d.lpf.toNat then [] else [.frame s.dm.frames s.dm.d.rowsDisp])) ∧
        (s.sync.col.toNat + 1 < s.dm.d.spl.toNat ∨ s.sync.row.toNat + 1 < s.dm.d.lpf.toNat →
          t.sync.ampMin.toInt = lo ∧ t.sync.ampMax.toInt = hi ∧ t.sync.effMin = 0#32 ∧ t.sync.effDelta.toInt = 65536 ∧
          (s.sync.col.toNat + 1 = s.dm.d.spl.toNat →
            t.sync.row.toNat = s.sync.row.toNat + 1 ∧ t.dm.frames = s.dm.frames)) ∧
        (s.sync.col.toNat + 1 = s.dm.d.spl.toNat → s.sync.row.toNat + 1 = s.dm.d.lpf.toNat →
          t.sync.row = 0#32 ∧ t.dm.frames.toNat = (s.dm.frames.toNat + 1) % 2 ^ 32 ∧ t.sync.effMin.toInt = lo ∧
          t.sync.effDelta.toInt = (if lo < hi then min FX_MAX (hi - lo) else 65536) ∧
          t.sync.ampMin.toInt = FX_MAX ∧ t.sync.ampMax.toInt = FX_MIN)

/-- Ranges and exact values of the demodulators and the normaliser: the unit vector; FM1 and FM2 as the three- and the
two-sample difference of unit vectors, in [0, ONE]; AM the saturated integer magnitude, the VSB kinds that of the recombined
sample, nothing negative; the history moved by the FM kinds alone; the amplitude statistics; the normaliser the quotient by the
span, clipped to [0, ONE] (R221 to R226, R228). For FM1 of a zero sample against a non-zero history the value is the
model's choice (log entry 18): R222 remarks that a zero sample gives mid-scale, and the model follows the pseudocode of R224,
whose formula can give another value there. -/
def Obligations.DemodRanges : Prop :=
  ∀ (s : State) (z u a b : Cfx) (sat : Int → Int) (mag : Cfx → Int), u = unit z → a = s.dm.uh1 → b = s.dm.uh2 →
    (∀ v, sat v = max FX_MIN (min FX_MAX v)) →
    (∀ w : Cfx, mag w = min FX_MAX (Nat.sqrt (w.re.toInt * w.re.toInt + w.im.toInt * w.im.toInt).toNat : Int)) →
    (mag z = 0 → u = ⟨0#32, 0#32⟩) ∧
    (mag z ≠ 0 → u.re.toInt = max (-65536) (min 65536 (sat (z.re.toInt * 65536 / mag z))) ∧
      u.im.toInt = max (-65536) (min 65536 (sat (z.im.toInt * 65536 / mag z)))) ∧
    0 ≤ (dmRaw z s).toInt ∧
    (s.dm.cur.rf.modKind = .fm1 → (dmRaw z s).toInt = max 0 (min 65536
      ((sat (sat (a.re.toInt * sat (u.im.toInt - b.im.toInt) / 65536) -
        sat (a.im.toInt * sat (u.re.toInt - b.re.toInt) / 65536)) + 2 * 65536) / 4))) ∧
    (s.dm.cur.rf.modKind = .fm2 → (dmRaw z s).toInt = max 0 (min 65536
      ((sat (sat (a.re.toInt * u.im.toInt / 65536) - sat (a.im.toInt * u.re.toInt / 65536)) + 65536) / 2))) ∧
    (s.dm.cur.rf.modKind = .fm1 ∨ s.dm.cur.rf.modKind = .fm2 → (dmRaw z s).toInt ≤ 65536 ∧
      (s.dm.uh1 = unit z → s.dm.uh2 = unit z → (dmRaw z s).toInt = 32768) ∧
      dmRawStep z s = { s with dm := { s.dm with uh1 := u, uh2 := a } }) ∧
    (s.dm.cur.rf.modKind = .am → (dmRaw z s).toInt = mag z) ∧
    (s.dm.cur.rf.modKind = .vsbU → (dmRaw z s).toInt = mag (vsbRecombine .upper z)) ∧
    (s.dm.cur.rf.modKind = .vsbL → (dmRaw z s).toInt = mag (vsbRecombine .lower z)) ∧
    (s.dm.cur.rf.modKind ≠ .fm1 → s.dm.cur.rf.modKind ≠ .fm2 → dmRawStep z s = s) ∧
    (∀ raw : Fx, ∃ lo hi : Fx, lo.toInt = min s.sync.ampMin.toInt raw.toInt ∧
      hi.toInt = max s.sync.ampMax.toInt raw.toInt ∧
      recordAmp raw s = { s with sync := { s.sync with ampMin := lo, ampMax := hi } }) ∧
    (0 < s.sync.effDelta.toInt → ∀ raw : Fx, (dmNorm raw s.sync).toInt = max 0 (min 65536
      (sat (raw.toInt - s.sync.effMin.toInt) * 65536 / s.sync.effDelta.toInt)))

/-- The sync window, the majority and the pulse length, and when a pulse is detected; with line sync off no state function
runs (R229, R230, R232, R238). The majority bridges gaps, so that a broken run of sync-level samples can be detected: there
R426's remark and R230's pseudocode differ, and the model follows R230, which is the model's choice (log entry 22). That a sample
exactly at the threshold is at sync level, as R230 says and R427's remark does not, is the model's choice too (log entry 25). -/
def Obligations.SyncWindow : Prop :=
  ∀ (s : State) (n : Fx) (win : Vector Fx 6) (cnt : Nat), win = s.sync.win.set s.sync.winIdx n →
    cnt = (Finset.univ.filter fun j : Fin 6 => win[j].toInt ≤ s.dm.cur.atv.thrSyncTop.toInt).card →
    ∃ y : Sync, y = { s.sync with
        win := win, winIdx := y.winIdx, hsNow := y.hsNow, pulseLen := y.pulseLen, sinceHs := y.sinceHs } ∧
      y.winIdx.val = (s.sync.winIdx.val + 1) % 6 ∧ (y.hsNow = true ↔ 4 ≤ cnt) ∧
      y.pulseLen.toNat = (if 4 ≤ cnt then min (s.sync.pulseLen.toNat + 1) (2 ^ 32 - 1) else 0) ∧
      y.sinceHs.toNat = min (s.sync.sinceHs.toNat + 1) (2 ^ 32 - 1) ∧
      (s.dm.cur.atv.hsyncEn = false → hsStep n s = { s with sync := y }) ∧
      (s.dm.cur.atv.hsyncEn = true → ∀ detect : Bool,
        (detect = true ↔ 4 ≤ cnt ∧ y.pulseLen.toNat + 1 = s.dm.d.topN.toNat) →
        hsStep n s = hsMachine detect { s with sync := y })

/-- The line state machine: what each state does with and without a detected pulse, on and off the line cadence, the
alignment of the column, the flywheel through missed pulses and the loss of lock at the fourth (R231 to R235, R237). That the
aligned column is narrowed to 32 bits, in states that no run reaches, is the model's choice (log entry 14). -/
def Obligations.LineMachine : Prop :=
  ∀ (s : State) (c m : Word), c.toNat = min (s.sync.hsCount.toNat + 1) (2 ^ 32 - 1) →
    m.toNat = min (s.sync.hsMiss.toNat + 1) (2 ^ 32 - 1) → ∀ cadence : Bool,
    (cadence = true ↔ s.sync.sinceHs.toNat ≤ s.dm.d.spl.toNat + 2 ∧ s.dm.d.spl.toNat ≤ s.sync.sinceHs.toNat + 2) →
    (s.sync.fsm = .unsynchronized → hsMachine false s = s ∧ hsMachine true s = { s with
      sync := { s.sync with fsm := .lineSyncSearching, hsCount := 1#32, hsMiss := 0#32, sinceHs := 0#32,
                            col := s.dm.d.topN + 1#32 }
      io := { s.io with evt := s.io.evt ++ [.state .unsynchronized .lineSyncSearching] } }) ∧
    (s.sync.fsm = .lineSyncSearching → hsMachine false s = s ∧
      (cadence = false → hsMachine true s = { s with
        sync := { s.sync with hsCount := 1#32, sinceHs := 0#32, col := s.dm.d.topN + 1#32 } }) ∧
      (cadence = true → c.toNat < 4 → hsMachine true s = { s with
        sync := { s.sync with hsCount := c, sinceHs := 0#32, col := s.dm.d.topN + 1#32 } }) ∧
      (cadence = true → 4 ≤ c.toNat → hsMachine true s = { s with
        sync := { s.sync with fsm := .lineLocked, hsCount := c, hsMiss := 0#32, sinceHs := 0#32,
                              col := s.dm.d.topN + 1#32 }
        io := { s.io with evt := s.io.evt ++ [.state .lineSyncSearching .lineLocked] } })) ∧
    (s.sync.fsm = .lineLocked ∨ s.sync.fsm = .frameSyncSearching ∨ s.sync.fsm = .frameLocked →
      (cadence = true → hsMachine true s = { s with
        sync := { s.sync with hsCount := c, hsMiss := 0#32, sinceHs := 0#32, col := s.dm.d.topN + 1#32 } }) ∧
      ∀ detect : Bool, detect = false ∨ cadence = false →
        (s.sync.sinceHs.toNat ≠ s.dm.d.spl.toNat + 3 → hsMachine detect s = s) ∧
        (s.sync.sinceHs.toNat = s.dm.d.spl.toNat + 3 → m.toNat < 4 → hsMachine detect s = { s with
          sync := { s.sync with hsCount := 0#32, hsMiss := m, sinceHs := 3#32 } }) ∧
        (s.sync.sinceHs.toNat = s.dm.d.spl.toNat + 3 → 4 ≤ m.toNat → hsMachine detect s = { s with
          sync := Sync.reset
          io := { s.io with evt := s.io.evt ++ [.state s.sync.fsm .unsynchronized] } }))

/-- The frame state machine and the end of a line. What a completed line of a given average does in each locked state,
with the frame cadence, the lock at the second frame sync and the loss of lock at the second missed one. What the raster does
with a completed line: PX_LINE for the rows to display, with the row, the frame number and the line's samples; the next row; the
frame ended by the line count or by an accepted frame sync past row 1, which up to row 1 only sets the row back; nothing more
when lock was lost. And what ending a frame does: PX_FRAME, the frame count, row 0, the amplitude statistics made the
normaliser's scale and started anew (R237, R240 to R244). Four clauses are the model's choice: that a frame sync accepted in
LineLocked or FrameSyncSearching ends the frame or sets the row back, as R241 and R243 say against R245's remark (log entry
24); that other lines than those R241 gives to `vs_step` leave `vsPrev` alone, against R41's remark (log entry 26); that column
and row saturate (log entry 13); and the average taken over spl = 0, which no run reaches (log entry 14). -/
def Obligations.FrameMachine : Prop :=
  (∀ (s : State) (avg : Int) (c m l : Word) (level cand frame : Bool),
    c.toNat = min (s.sync.vsCount.toNat + 1) (2 ^ 32 - 1) → m.toNat = min (s.sync.vsMiss.toNat + 1) (2 ^ 32 - 1) →
    l.toNat = min (s.sync.linesSinceVs.toNat + 1) (2 ^ 32 - 1) →
    (level = true ↔ avg ≤ s.dm.cur.atv.thrBlack.toInt / 2) → (cand = true ↔ level = true ∧ s.sync.vsPrev = false) →
    (frame = true ↔ l.toNat ≤ s.dm.d.lpf.toNat + 1 ∧ s.dm.d.lpf.toNat ≤ l.toNat + 1) →
    (s.sync.fsm = .lineLocked →
      (cand = false → vsStep avg s = (.none, { s with sync := { s.sync with vsPrev := level, linesSinceVs := l } })) ∧
      (cand = true → vsStep avg s = (.acc, { s with
        sync := { s.sync with fsm := .frameSyncSearching, vsPrev := level, vsCount := 1#32, vsMiss := 0#32,
                              linesSinceVs := 0#32 }
        io := { s.io with evt := s.io.evt ++ [.state .lineLocked .frameSyncSearching] } }))) ∧
    (s.sync.fsm = .frameSyncSearching →
      (cand = false → vsStep avg s = (.none, { s with sync := { s.sync with vsPrev := level, linesSinceVs := l } })) ∧
      (cand = true → frame = false → vsStep avg s = (.acc, { s with
        sync := { s.sync with vsPrev := level, vsCount := 1#32, linesSinceVs := 0#32 } })) ∧
      (cand = true → frame = true → c.toNat < 2 → vsStep avg s = (.acc, { s with
        sync := { s.sync with vsPrev := level, vsCount := c, linesSinceVs := 0#32 } })) ∧
      (cand = true → frame = true → 2 ≤ c.toNat → vsStep avg s = (.acc, { s with
        sync := { s.sync with fsm := .frameLocked, vsPrev := level, vsCount := c, vsMiss := 0#32,
                              linesSinceVs := 0#32 }
        io := { s.io with evt := s.io.evt ++ [.state .frameSyncSearching .frameLocked] } }))) ∧
    (s.sync.fsm = .frameLocked →
      (cand = true → frame = true → vsStep avg s = (.acc, { s with
        sync := { s.sync with vsPrev := level, vsCount := c, vsMiss := 0#32, linesSinceVs := 0#32 } })) ∧
      (cand = false ∨ frame = false → l.toNat ≠ s.dm.d.lpf.toNat + 2 →
        vsStep avg s = (.none, { s with sync := { s.sync with vsPrev := level, linesSinceVs := l } })) ∧
      (cand = false ∨ frame = false → l.toNat = s.dm.d.lpf.toNat + 2 → m.toNat < 2 → vsStep avg s = (.none, { s with
        sync := { s.sync with vsPrev := level, vsCount := 0#32, vsMiss := m, linesSinceVs := 2#32 } })) ∧
      (cand = false ∨ frame = false → l.toNat = s.dm.d.lpf.toNat + 2 → 2 ≤ m.toNat → vsStep avg s = (.lost, { s with
        sync := Sync.reset
        io := { s.io with evt := s.io.evt ++ [.state .frameLocked .unsynchronized] } })))) ∧
  (∀ (s : State) (c : Word), c.toNat = min (s.sync.col.toNat + 1) (2 ^ 32 - 1) →
    rasterStep s = if s.dm.d.spl.toNat ≤ c.toNat then lineDone { s with sync := { s.sync with col := c } }
      else { s with sync := { s.sync with col := c } }) ∧
  (∀ (s u : State) (r : Word) (samples : List Fx), r.toNat = min (s.sync.row.toNat + 1) (2 ^ 32 - 1) →
    samples.length = s.dm.d.spl.toNat →
    (∀ k, k < s.dm.d.spl.toNat → samples[k]? = some (sparseGet 0#32 s.dm.line k)) →
    u = { s with
      sync := { s.sync with col := 0#32, lineSum := 0#64, row := r }
      io := { s.io with pix := s.io.pix ++
        (if s.sync.row.toNat < s.dm.d.rowsDisp.toNat then [.line s.sync.row s.dm.frames samples] else []) } } →
    (s.dm.cur.atv.vsyncEn = false ∨ s.sync.fsm = .unsynchronized ∨ s.sync.fsm = .lineSyncSearching →
      lineDone s = if s.dm.d.lpf.toNat ≤ r.toNat then frameDone u else u) ∧
    (s.dm.cur.atv.vsyncEn = true → s.sync.fsm ≠ .unsynchronized → s.sync.fsm ≠ .lineSyncSearching →
      ∀ (v : VsAnswer) (w : State), vsStep (s.sync.lineSum.toInt / s.dm.d.spl.toNat) u = (v, w) →
        (v = .lost → lineDone s = w) ∧
        (v = .none → lineDone s = if s.dm.d.lpf.toNat ≤ r.toNat then frameDone w else w) ∧
        (v = .acc → lineDone s = if s.dm.d.lpf.toNat ≤ r.toNat ∨ 1 < r.toNat then frameDone w
          else { w with sync := { w.sync with row := 0#32 } }))) ∧
  (∀ s : State, ∃ (f : Word) (e : Fx), f.toNat = (s.dm.frames.toNat + 1) % 2 ^ 32 ∧
    e.toInt = (if s.sync.ampMin.toInt < s.sync.ampMax.toInt
      then min FX_MAX (s.sync.ampMax.toInt - s.sync.ampMin.toInt) else 65536) ∧
    frameDone s = { s with
      dm := { s.dm with frames := f }
      sync := { s.sync with row := 0#32, effMin := s.sync.ampMin, effDelta := e, ampMin := 0x7FFFFFFF#32,
                            ampMax := 0x80000000#32 }
      io := { s.io with pix := s.io.pix ++ [.frame s.dm.frames s.dm.d.rowsDisp] } })

/-! ## Synthesis engine -/

/-- SY.START of an engine neither halted nor active, with a message pending or an earlier one running: the pending bank, if any,
becomes running, derived parameters and increments come from it, phases and dynamic state start anew, and
TIMER is read once (R294, R343, R345, R346, R395; R123). That its readings stand in `io` (log entry 7) and the increment at
rate 0, which no run has (log entry 14), are the model's choice. -/
def Obligations.SyStartCompletes : Prop :=
  ∀ (s : State) (b : GenBank), s.gen.halted = false → s.gen.active = false → (s.gen.pndF || s.gen.val) = true →
    b = (if s.gen.pndF then s.gen.pnd else s.gen.cur) →
    ∃ (inc1 inc2 : Word) (d : GenDerived),
      (inc1.toNat : Int) = max (-2 ^ 31) (min (2 ^ 31) (b.carrierHz.toInt * 2 ^ 32 / b.sampleRateHz.toNat)) % 2 ^ 32 ∧
      (inc2.toNat : Int) =
        max (-2 ^ 31) (min (2 ^ 31) ((b.toneHz.toNat : Int) * 2 ^ 32 / b.sampleRateHz.toNat)) % 2 ^ 32 ∧
      (b.depth, d.shift, d.ampFs) ∈ [(Depth.bits8, 7, 127), (.bits12, 11, 2047), (.bits16, 15, 32767)] ∧
      d.fmD.toInt = max 0 (min 65536 ((b.fmDevHz.toNat : Int) * 2 ^ 17 / b.sampleRateHz.toNat)) ∧
      exec .syStart s = .next (respond .ok [] { timerAdvance s with
        nco := (s.nco.set (1 : Fin 3) { phase := 0#32, inc := inc1 }).set (2 : Fin 3) { phase := 0#32, inc := inc2 }
        gen := { s.gen with cur := b, pndF := false, val := true, d := d, fmDev := 0#32, toggle := false,
                            lastTime := timerNow s, active := true, stopReq := false } }) ∧
      (∀ (now : Word) (later : List Word), s.io.timerIn = now :: later →
        timerNow s = now ∧ timerAdvance s = { s with io := { s.io with timerIn := later } })

/-- The safe point of SY.TICK and SY.GEN with a message pending: the command runs as if the pending bank had been running, with
increments and derived parameters from it and the phases kept (R84, R294, R342, R343). The increment at rate 0, which no run
has, is the model's choice (log entry 14). -/
def Obligations.SyAppliesPending : Prop :=
  ∀ (s : State) (b : GenBank), s.gen.halted = false → s.gen.active = true → s.gen.stopReq = false →
    s.gen.pndF = true → b = s.gen.pnd →
    ∃ (inc1 inc2 : Word) (d : GenDerived) (u : State),
      (inc1.toNat : Int) = max (-2 ^ 31) (min (2 ^ 31) (b.carrierHz.toInt * 2 ^ 32 / b.sampleRateHz.toNat)) % 2 ^ 32 ∧
      (inc2.toNat : Int) =
        max (-2 ^ 31) (min (2 ^ 31) ((b.toneHz.toNat : Int) * 2 ^ 32 / b.sampleRateHz.toNat)) % 2 ^ 32 ∧
      (b.depth, d.shift, d.ampFs) ∈ [(Depth.bits8, 7, 127), (.bits12, 11, 2047), (.bits16, 15, 32767)] ∧
      d.fmD.toInt = max 0 (min 65536 ((b.fmDevHz.toNat : Int) * 2 ^ 17 / b.sampleRateHz.toNat)) ∧
      u = { s with
        nco := (s.nco.set (1 : Fin 3) { phase := s.nco[(1 : Fin 3)].phase, inc := inc1 }).set (2 : Fin 3)
          { phase := s.nco[(2 : Fin 3)].phase, inc := inc2 }
        gen := { s.gen with cur := b, pndF := false, val := true, d := d } } ∧
      exec .syTick s = exec .syTick u ∧ ∀ n, exec (.syGen n) s = exec (.syGen n) u

/-- SY.GEN of a running engine with nothing pending and a count both checks admit: the answer is the number of halves
pushed, the count rounded down to even; the batch is appended to the queue, is what the buffer holds from byte 0, and is
clipped to full scale; every byte past the batch stays; oscillator 1 advances once per sample, oscillator 2 too but in kind None;
the deviation moves in kind FM only; nothing else changes (R74, R75, R281 to R283, R285, R291, R293, R302). -/
def Obligations.SyGenCompletes : Prop :=
  ∀ (s : State) (count : Word) (pairs : Nat), s.gen.halted = false → s.gen.active = true → s.gen.stopReq = false →
    s.gen.pndF = false → count.toNat ≤ 65536 → pairs = count.toNat / 2 → s.syq.length + 2 * pairs ≤ 262144 →
    ∃ (t : State) (batch : List Half), exec (.syGen count) s = .next t ∧
      t.io = { s.io with rsp := s.io.rsp ++ [⟨.ok, [BitVec.ofNat 32 (2 * pairs)]⟩] } ∧
      t.syq = s.syq ++ batch ∧ batch.length = 2 * pairs ∧
      (∀ j, j < 2 * pairs → batch[j]? = some (t.sybuf.read (2 * j + 1) ++ t.sybuf.read (2 * j))) ∧
      (s.gen.d.ampFs ≤ 32767 → ∀ h ∈ batch, -(s.gen.d.ampFs : Int) ≤ h.toInt ∧ h.toInt ≤ s.gen.d.ampFs) ∧
      (∀ a, 4 * pairs ≤ a → t.sybuf.read a = s.sybuf.read a) ∧
      t.nco[(1 : Fin 3)].phase.toNat =
        (s.nco[(1 : Fin 3)].phase.toNat + pairs * s.nco[(1 : Fin 3)].inc.toNat) % 2 ^ 32 ∧
      t.nco[(1 : Fin 3)].inc = s.nco[(1 : Fin 3)].inc ∧
      (s.gen.cur.mod = .none → t.nco[(2 : Fin 3)] = s.nco[(2 : Fin 3)]) ∧
      (s.gen.cur.mod ≠ .none → t.nco[(2 : Fin 3)].phase.toNat =
        (s.nco[(2 : Fin 3)].phase.toNat + pairs * s.nco[(2 : Fin 3)].inc.toNat) % 2 ^ 32 ∧
        t.nco[(2 : Fin 3)].inc = s.nco[(2 : Fin 3)].inc) ∧
      t.gen = { s.gen with fmDev := t.gen.fmDev } ∧ (s.gen.cur.mod ≠ .fm → t.gen.fmDev = s.gen.fmDev) ∧
      demodShare t = demodShare s ∧ t.fault = s.fault ∧ t.cfgErr = s.cfgErr

/-- One sample of SY.GEN in each modulation kind, from a state of the invariants: the carrier, with the skew, under the AM
envelope, or rotated by the wrapped deviation, then scaled, biased, shifted and clipped (R144, R285, R286, R288 to R291). Where
the rotation gives a component two raw units beyond full scale, which R284 remarks does not occur, it is the model's choice to
follow R14 and R288 (log entry 23). -/
def Obligations.SyGenOneSample : Prop :=
  ∀ (s : State) (p1 p2 q ph : Word) (c : Cfx) (tone dev e re im i' q' : Int), SyInv s → s.gen.cur.Ok →
    s.gen.active = true → s.gen.stopReq = false → s.gen.pndF = false → s.syq.length + 2 ≤ 262144 →
    p1 = s.nco[(1 : Fin 3)].phase + s.nco[(1 : Fin 3)].inc → p2 = s.nco[(2 : Fin 3)].phase + s.nco[(2 : Fin 3)].inc →
    q = p1 + s.gen.cur.skew → c = cs p1 → tone = (cs p2).re.toInt →
    e = max 0 (min 65536 ((65536 + s.gen.cur.amIndex.toInt * tone / 65536) / 2)) →
    dev = (if 65536 < s.gen.fmDev.toInt + s.gen.d.fmD.toInt * tone / 65536 then
        s.gen.fmDev.toInt + s.gen.d.fmD.toInt * tone / 65536 - 131072
      else if s.gen.fmDev.toInt + s.gen.d.fmD.toInt * tone / 65536 < -65536 then
        s.gen.fmDev.toInt + s.gen.d.fmD.toInt * tone / 65536 + 131072
      else s.gen.fmDev.toInt + s.gen.d.fmD.toInt * tone / 65536) →
    (ph.toNat : Int) = dev * 2 ^ 15 % 2 ^ 32 →
    (re, im) = (match s.gen.cur.mod with
      | .none => (c.re.toInt, (cs q).im.toInt)
      | .am => (c.re.toInt * e / 65536, c.im.toInt * e / 65536)
      | .fm => ((c.re.toInt * (cs ph).re.toInt - c.im.toInt * (cs ph).im.toInt) / 65536,
                (c.re.toInt * (cs ph).im.toInt + c.im.toInt * (cs ph).re.toInt) / 65536)) →
    i' = (re * s.gen.cur.ampI.toInt / 65536 + s.gen.cur.dcI.toInt) / 2 ^ (16 - s.gen.d.shift) →
    q' = (im * s.gen.cur.ampQ.toInt / 65536 + s.gen.cur.dcQ.toInt) / 2 ^ (16 - s.gen.d.shift) →
    ∃ (t : State) (hi hq : Half), exec (.syGen 2#32) s = .next t ∧ t.syq = s.syq ++ [hi, hq] ∧
      hi.toInt = max (-(s.gen.d.ampFs : Int)) (min s.gen.d.ampFs i') ∧
      hq.toInt = max (-(s.gen.d.ampFs : Int)) (min s.gen.d.ampFs q') ∧
      (s.gen.cur.mod = .fm → t.gen.fmDev.toInt = dev)

/-- The two sizing faults, the buffer's checked before the queue's: the sticky bit, the engine halted and not active,
EV_FAULT, E_FAULT with the count 0, and nothing else; a tick that faults has read TIMER and flipped the toggle all the same
(R281, R292, R293, R295, R297, R375, R376). -/
def Obligations.SyFaults : Prop :=
  ∀ s : State, s.gen.halted = false → s.gen.active = true → s.gen.stopReq = false → s.gen.pndF = false →
    (∀ count : Word, 65536 < count.toNat → exec (.syGen count) s = .next (respond .fault [0#32] { s with
      fault := s.fault ||| 1#32
      gen := { s.gen with halted := true, active := false }
      io := { s.io with evt := s.io.evt ++ [.fault .syBufsize] } })) ∧
    (∀ count : Word, count.toNat ≤ 65536 → 262144 < s.syq.length + 2 * (count.toNat / 2) → s.syq.length ≤ 262144 →
      exec (.syGen count) s = .next (respond .fault [0#32] { s with
        fault := s.fault ||| 2#32
        gen := { s.gen with halted := true, active := false }
        io := { s.io with evt := s.io.evt ++ [.fault .syQueue] } })) ∧
    (∀ (due n : Nat), due = s.gen.cur.sampleRateHz.toNat *
        (((timerNow s).toNat + 2 ^ 32 - s.gen.lastTime.toNat) % 2 ^ 32) →
      n = (if s.gen.toggle then (due + 999999) / 1000000 else due / 1000000) →
      (65536 < 2 * n → exec .syTick s = .next (respond .fault [0#32] { timerAdvance s with
        fault := s.fault ||| 1#32
        gen := { s.gen with halted := true, active := false, toggle := !s.gen.toggle, lastTime := timerNow s }
        io := { (timerAdvance s).io with evt := s.io.evt ++ [.fault .syBufsize] } })) ∧
      (2 * n ≤ 65536 → 262144 < s.syq.length + 2 * n → s.syq.length ≤ 262144 →
        exec .syTick s = .next (respond .fault [0#32] { timerAdvance s with
          fault := s.fault ||| 2#32
          gen := { s.gen with halted := true, active := false, toggle := !s.gen.toggle, lastTime := timerNow s }
          io := { (timerAdvance s).io with evt := s.io.evt ++ [.fault .syQueue] } })))

/-- SY.TICK of a running engine with nothing pending: TIMER is read once, the elapsed count taken modulo 2^32, the due
samples rounded up when the toggle is 1 and else down, the toggle flipped, and that many samples generated exactly as SY.GEN
generates them (R281, R295 to R297). That the readings of TIMER stand in `io` is the model's choice (log entry 7). -/
def Obligations.SyTickCompletes : Prop :=
  ∀ (s : State) (due n : Nat), s.gen.halted = false → s.gen.active = true → s.gen.stopReq = false →
    s.gen.pndF = false →
    due = s.gen.cur.sampleRateHz.toNat * (((timerNow s).toNat + 2 ^ 32 - s.gen.lastTime.toNat) % 2 ^ 32) →
    n = (if s.gen.toggle then (due + 999999) / 1000000 else due / 1000000) →
    2 * n ≤ 65536 → s.syq.length + 2 * n ≤ 262144 →
    ∃ (t : State) (batch : List Half), exec .syTick s = .next t ∧ t.syq = s.syq ++ batch ∧ batch.length = 2 * n ∧
      t.io = { (timerAdvance s).io with rsp := s.io.rsp ++ [⟨.ok, [BitVec.ofNat 32 (2 * n)]⟩] } ∧
      t.gen = { s.gen with lastTime := timerNow s, toggle := !s.gen.toggle, fmDev := t.gen.fmDev } ∧
      (∀ a, 4 * n ≤ a → t.sybuf.read a = s.sybuf.read a) ∧
      demodShare t = demodShare s ∧ t.fault = s.fault ∧ t.cfgErr = s.cfgErr ∧
      exec .syTick s = exec (.syGen (BitVec.ofNat 32 (2 * n))) { timerAdvance s with
        gen := { s.gen with lastTime := timerNow s, toggle := !s.gen.toggle } }

/-- The throttle over N ticks of a fixed interval after SY.START: q samples on every even tick and, when the interval is not
a whole number of sample periods, q + 1 on every odd one; so the total over N ticks is exactly N q, or N q plus half of N
rounded down (R295, R298, R299). That the readings of TIMER stand in `io` is the model's choice (log entry 7). -/
def Obligations.ThrottleTotals : Prop :=
  ∀ (N : Nat) (s : State) (e : Word) (q : Nat), s.gen.halted = false → s.gen.active = true →
    s.gen.stopReq = false → s.gen.pndF = false → s.gen.toggle = false →
    s.io.timerIn = (List.range N).map (fun k => s.gen.lastTime + BitVec.ofNat 32 (k + 1) * e) →
    q = s.gen.cur.sampleRateHz.toNat * e.toNat / 1000000 →
    2 * (q + 1) ≤ 65536 → s.syq.length + N * (2 * (q + 1)) ≤ 262144 →
    ∃ t : State, execAll (List.replicate N .syTick) s = .next t ∧
      t.syq.length = s.syq.length + 2 * (N * q +
        (if s.gen.cur.sampleRateHz.toNat * e.toNat % 1000000 = 0 then 0 else N / 2)) ∧
      t.gen.toggle = decide (N % 2 = 1) ∧ t.gen.lastTime = s.gen.lastTime + BitVec.ofNat 32 N * e

/-- SY.POP of an even count: as many halves as asked for or held, oldest first, two to a word with the first in the low half,
removed from the queue and nothing else changed; and popping in two parts drains the same halves in the same order (R75, R76,
R301, R303). -/
def Obligations.SyPopResult : Prop :=
  ∀ (s : State) (n : Word) (m : Nat), n.toNat % 2 = 0 → s.syq.length % 2 = 0 → m = min n.toNat s.syq.length →
    ∃ ws : List Word, exec (.syPop n) s =
        .next (respond .ok (BitVec.ofNat 32 m :: ws) { s with syq := s.syq.drop m }) ∧ ws.length = m / 2 ∧
      (∀ j w, ws[j]? = some w → some (w.extractLsb' 0 16) = s.syq[2 * j]? ∧
        some (w.extractLsb' 16 16) = s.syq[2 * j + 1]?) ∧
      ∀ k : Word, k.toNat % 2 = 0 → n.toNat + k.toNat < 2 ^ 32 → ∃ (vs us : List Word) (l : Nat),
        exec (.syPop k) { s with syq := s.syq.drop m } =
          .next (respond .ok (BitVec.ofNat 32 l :: vs) { s with syq := s.syq.drop (m + l) }) ∧
        exec (.syPop (n + k)) s =
          .next (respond .ok (BitVec.ofNat 32 (m + l) :: us) { s with syq := s.syq.drop (m + l) }) ∧ us = ws ++ vs
end

