-- ==== Sys2Proof/Laws/Arith.lean ====
section
/-! SUPPORT. What the arithmetic of Machine/Arith.lean computes: the raw value of a narrowed result, the bounds of a
clamp, the integer square root. -/

namespace Sys2Proof.Machine
open Config

/-! ## The derived constants at the table's values (R9, R13, R161) -/

theorem ONE_eq : ONE = 65536 := rfl
theorem FX_MAX_eq : FX_MAX = 2147483647 := rfl
theorem FX_MIN_eq : FX_MIN = -2147483648 := rfl
theorem RC_RATIO_MIN_eq : RC_RATIO_MIN = 16777216 := rfl
theorem fxOne_eq : fxOne = 0x00010000#32 := rfl
theorem SF_L_eq : SF_L = 1024 := rfl

/-! ## Clamps and narrowing -/

theorem le_clamp {v lo hi : Int} (h : lo ≤ hi) : lo ≤ clamp v lo hi := by
  unfold clamp; split_ifs <;> omega

theorem clamp_le {v lo hi : Int} (h : lo ≤ hi) : clamp v lo hi ≤ hi := by
  unfold clamp; split_ifs <;> omega

theorem clamp_eq_self {v lo hi : Int} (h1 : lo ≤ v) (h2 : v ≤ hi) : clamp v lo hi = v := by
  unfold clamp; split_ifs <;> omega

theorem clamp_mono {v w lo hi : Int} (h : v ≤ w) (hl : lo ≤ hi) : clamp v lo hi ≤ clamp w lo hi := by
  unfold clamp; split_ifs <;> omega

/-- A clamp in terms of minimum and maximum. -/
theorem clamp_eq_max_min {v lo hi : Int} (h : lo ≤ hi) : clamp v lo hi = max lo (min hi v) := by
  unfold clamp; split_ifs <;> omega

/-- An integer in the signed 32-bit range is the raw value of its pattern. -/
theorem toInt_ofInt32 {v : Int} (h1 : FX_MIN ≤ v) (h2 : v ≤ FX_MAX) : (BitVec.ofInt FX_W v).toInt = v := by
  rw [BitVec.toInt_ofInt]
  simp only [FX_MIN_eq, FX_MAX_eq, FX_W] at *
  apply Int.bmod_eq_of_le <;> omega

theorem toInt32_bounds (x : Fx) : FX_MIN ≤ x.toInt ∧ x.toInt ≤ FX_MAX := by
  exact ⟨BitVec.le_toInt x, Int.le_sub_one_of_lt BitVec.toInt_lt⟩

/-- A clamp into a range inside the signed 32-bit range narrows without loss. -/
theorem toInt_ofInt_clamp {v lo hi : Int} (h : lo ≤ hi) (h1 : FX_MIN ≤ lo) (h2 : hi ≤ FX_MAX) :
    (BitVec.ofInt FX_W (clamp v lo hi)).toInt = clamp v lo hi :=
  toInt_ofInt32 (h1.trans (le_clamp h)) ((clamp_le h).trans h2)

theorem toInt_sat (v : Int) : (sat v).toInt = clamp v FX_MIN FX_MAX :=
  toInt_ofInt_clamp (by decide) le_rfl le_rfl

theorem toInt_clamp01 (v : Int) : (clamp01 v).toInt = clamp v 0 ONE :=
  toInt_ofInt_clamp (by decide) (by decide) (by decide)

theorem toInt_sat_of_range {v : Int} (h1 : FX_MIN ≤ v) (h2 : v ≤ FX_MAX) : (sat v).toInt = v := by
  rw [toInt_sat, clamp_eq_self h1 h2]

@[simp] theorem sat_toInt (x : Fx) : sat x.toInt = x := by
  apply BitVec.eq_of_toInt_eq
  rw [toInt_sat, clamp_eq_self (toInt32_bounds x).1 (toInt32_bounds x).2]

/-- `clamp01` answers a value in [0, ONE]. -/
theorem clamp01_range (v : Int) : 0 ≤ (clamp01 v).toInt ∧ (clamp01 v).toInt ≤ ONE := by
  rw [toInt_clamp01]
  exact ⟨le_clamp (by decide), clamp_le (by decide)⟩

theorem toInt_sat64 {v : Int} (h1 : -2 ^ 63 ≤ v) (h2 : v ≤ 2 ^ 63 - 1) :
    (sat64 v).toInt = v := by
  unfold sat64
  rw [clamp_eq_self h1 h2, BitVec.toInt_ofInt]
  apply Int.bmod_eq_of_le <;> omega

/-! ## Shifts and products -/

theorem shr_eq (a : Int) (k : Nat) : shr a k = a / 2 ^ k := rfl

/-- An fx product of two values of magnitude at most 1.0 has magnitude at most 1.0. -/
theorem fxMul_unit_range {a b : Fx} (ha : -ONE ≤ a.toInt ∧ a.toInt ≤ ONE) (hb : -ONE ≤ b.toInt ∧ b.toInt ≤ ONE) :
    -ONE ≤ (fxMul a b).toInt ∧ (fxMul a b).toInt ≤ ONE := by
  have h1 : -(ONE * ONE) ≤ a.toInt * b.toInt := by simp only [ONE_eq] at *; nlinarith
  have h2 : a.toInt * b.toInt ≤ ONE * ONE := by simp only [ONE_eq] at *; nlinarith
  have h3 : -ONE ≤ shr (a.toInt * b.toInt) FX_F ∧ shr (a.toInt * b.toInt) FX_F ≤ ONE := by
    simp only [shr_eq, ONE_eq, FX_F] at *; omega
  unfold fxMul
  rw [toInt_sat_of_range (by simp only [FX_MIN_eq, ONE_eq] at *; omega) (by simp only [FX_MAX_eq, ONE_eq] at *; omega)]
  exact h3

theorem toNat_ofInt32 (v : Int) : ((BitVec.ofInt 32 v).toNat : Int) = v % 2 ^ 32 := by
  rw [BitVec.toNat_ofInt]
  omega

/-! ## The saturating counter -/

theorem satInc_toNat (v : Word) : (satInc v).toNat = min (v.toNat + 1) 4294967295 := by
  unfold satInc
  split
  · next h => subst h; decide
  · next h =>
    have : v.toNat ≠ 4294967295 := fun e => h (BitVec.eq_of_toNat_eq (by simpa using e))
    have := v.isLt
    rw [BitVec.toNat_add, show (1 : Word).toNat = 1 from rfl]
    omega

/-! ## Integer square root -/

theorem isqrtLoop_spec (n : Nat) : ∀ (b r : Nat), r * r ≤ n → n < (r + 2 ^ b) * (r + 2 ^ b) →
    isqrtLoop n b r * isqrtLoop n b r ≤ n ∧ n < (isqrtLoop n b r + 1) * (isqrtLoop n b r + 1) := by
  intro b
  induction b with
  | zero => intro r h1 h2; exact ⟨h1, by simpa [isqrtLoop] using h2⟩
  | succ b ih =>
    intro r h1 h2
    rw [isqrtLoop]
    split_ifs with h
    · exact ih _ h (by rw [show r + 2 ^ b + 2 ^ b = r + 2 ^ (b + 1) by ring]; exact h2)
    · exact ih _ h1 (by omega)

/-- `isqrt(n)` is the greatest r with r * r ≤ n (R12). -/
theorem isqrt_spec (n : Nat) : isqrt n * isqrt n ≤ n ∧ n < (isqrt n + 1) * (isqrt n + 1) := by
  apply isqrtLoop_spec
  · simp
  · have h : n < 2 ^ (n.log2 + 1) := Nat.lt_log2_self
    have h2 : 2 ^ (n.log2 + 1) ≤ 2 ^ (2 * (n.log2 / 2 + 1)) := Nat.pow_le_pow_right (by decide) (by omega)
    calc n < 2 ^ (2 * (n.log2 / 2 + 1)) := lt_of_lt_of_le h h2
      _ = (0 + 2 ^ (n.log2 / 2 + 1)) * (0 + 2 ^ (n.log2 / 2 + 1)) := by rw [two_mul, pow_add]; ring

/-- `isqrt` is the integer square root of the library. -/
theorem isqrt_eq_sqrt (n : Nat) : isqrt n = Nat.sqrt n := Nat.eq_sqrt.2 (isqrt_spec n)

/-! ## Magnitude, unit vector, complex product (R13, R14, R222) -/

/-- `cmag(z)`: the saturated integer root of the squared magnitude (R14). -/
theorem toInt_cmag (z : Cfx) :
    (cmag z).toInt = min FX_MAX (Nat.sqrt (z.re.toInt * z.re.toInt + z.im.toInt * z.im.toInt).toNat : Int) := by
  unfold cmag normSq
  rw [toInt_sat, clamp_eq_max_min (by decide), isqrt_eq_sqrt]
  simp only [FX_MIN_eq, FX_MAX_eq]; omega

theorem cmag_nonneg (z : Cfx) : 0 ≤ (cmag z).toInt := by
  rw [toInt_cmag]; simp only [FX_MAX_eq]; omega

/-- The amplitude statistics keep the smaller and the larger value (R220). -/
theorem toInt_fxMin (a b : Fx) : (fxMin a b).toInt = min a.toInt b.toInt := by
  unfold fxMin; split <;> omega

theorem toInt_fxMax (a b : Fx) : (fxMax a b).toInt = max a.toInt b.toInt := by
  unfold fxMax; split <;> omega

/-- A component of a unit vector: the quotient by the magnitude, clamped to [-1, 1] (R222). -/
theorem toInt_unitPart (v g : Fx) :
    (unitPart v g).toInt = max (-65536) (min 65536 (sat (v.toInt * 65536 / g.toInt)).toInt) := by
  unfold unitPart fxDiv fdiv
  rw [BitVec.toInt_ofInt, clamp_eq_max_min (by decide)]
  simp only [ONE_eq, FX_F]
  rw [show (2 : Int) ^ 16 = 65536 by norm_num]
  generalize (sat (v.toInt * 65536 / g.toInt)).toInt = q
  rw [Int.bmod_eq_of_le] <;> simp only [FX_W] <;> omega

/-- The product with (1, 0), the oscillator's value at phase 0, is the sample itself (R14, R217). -/
theorem cmul_one (x : Cfx) : cmul x ⟨fxOne, 0#32⟩ = x := by
  have e : (fxOne).toInt = 65536 := by decide
  have h : ∀ a : Fx, sat (shr (a.toInt * 65536) FX_F) = a := by
    intro a
    apply BitVec.eq_of_toInt_eq
    have hb := toInt32_bounds a
    have e2 : a.toInt * 65536 / 2 ^ FX_F = a.toInt := by
      simp only [FX_F]; rw [show (2 : Int) ^ 16 = 65536 by norm_num]; omega
    rw [shr_eq, e2, sat_toInt]
  cases x with | mk re im =>
  unfold cmul
  simp [h, e]

end Sys2Proof.Machine
end

