-- ==== Sys2Proof/Laws/Memory.lean ====
section
/-! SUPPORT. Arrays and the synthesis buffer: a read after a write, the entries a write leaves alone, the canonical form
every operation keeps, and that arrays in canonical form with equal entries are equal (spec/20_memory.md R70, R74). -/

namespace Sys2Proof.Machine
open Config

variable {α : Type}

/-! ## Reading what was inserted, erased, set -/

@[simp] theorem sparseGet_nil (d : α) (i : Nat) : sparseGet d [] i = d := rfl

theorem sparseGet_cons (d : α) (k : Nat) (x : α) (a : Sparse α) (i : Nat) :
    sparseGet d ((k, x) :: a) i = if k = i then x else sparseGet d a i := rfl

theorem sparseGet_erase (d : α) (a : Sparse α) (i j : Nat) :
    sparseGet d (sparseErase i a) j = if i = j then d else sparseGet d a j := by
  unfold sparseErase
  induction a with
  | nil => simp
  | cons p a ih =>
    obtain ⟨k, x⟩ := p
    by_cases h : k = i
    · subst h
      rw [List.filter_cons_of_neg (by simp), ih, sparseGet_cons]
      split_ifs <;> rfl
    · rw [List.filter_cons_of_pos (by simpa using h), sparseGet_cons, sparseGet_cons, ih]
      split_ifs with h1 h2
      · exact absurd (h1.trans h2.symm) h
      · rfl
      · rfl
      · rfl

theorem sparseGet_insert (d : α) (a : Sparse α) (i j : Nat) (v : α) (h : sparseGet d a i = d)
    (hk : ∀ p ∈ a, p.1 ≠ i) : sparseGet d (sparseInsert i v a) j = if i = j then v else sparseGet d a j := by
  induction a with
  | nil => simp [sparseInsert, sparseGet_cons]
  | cons p a ih =>
    obtain ⟨k, x⟩ := p
    have hki : k ≠ i := hk (k, x) List.mem_cons_self
    rw [sparseInsert]
    split_ifs with h1 h2 h2
    · rw [sparseGet_cons, if_pos h2]
    · rw [sparseGet_cons, if_neg h2]
    · subst h2
      rw [sparseGet_cons, if_neg hki, ih _ (fun p hp => hk p (List.mem_cons_of_mem _ hp)), if_pos rfl]
      rw [sparseGet_cons, if_neg hki] at h
      exact h
    · rw [sparseGet_cons, sparseGet_cons, ih _ (fun p hp => hk p (List.mem_cons_of_mem _ hp)), if_neg h2]
      rw [sparseGet_cons, if_neg hki] at h
      exact h

theorem ne_of_mem_sparseErase {i : Nat} {a : Sparse α} {p : Nat × α} (h : p ∈ sparseErase i a) : p.1 ≠ i := by
  unfold sparseErase at h
  simpa using (List.mem_filter.mp h).2

/-- Reading after a write: the entry written, every other entry as before. -/
theorem sparseGet_set [DecidableEq α] (d : α) (n : Nat) (a : Sparse α) (i j : Nat) (v : α) (hi : i < n) :
    sparseGet d (sparseSet d n a i v) j = if i = j then v else sparseGet d a j := by
  unfold sparseSet
  rw [if_neg (by omega)]
  split_ifs with h1 h2 h2
  · rw [sparseGet_erase, if_pos h2, h1]
  · rw [sparseGet_erase, if_neg h2]
  · rw [sparseGet_insert, if_pos h2]
    · rw [sparseGet_erase, if_pos rfl]
    · intro p hp
      exact ne_of_mem_sparseErase hp
  · rw [sparseGet_insert, if_neg h2, sparseGet_erase, if_neg h2]
    · rw [sparseGet_erase, if_pos rfl]
    · intro p hp
      exact ne_of_mem_sparseErase hp

theorem sparseGet_set_same [DecidableEq α] (d : α) {n : Nat} (a : Sparse α) {i : Nat} (v : α) (hi : i < n) :
    sparseGet d (sparseSet d n a i v) i = v := by
  rw [sparseGet_set _ _ _ _ _ _ hi, if_pos rfl]

theorem sparseGet_set_other [DecidableEq α] (d : α) (n : Nat) (a : Sparse α) {i j : Nat} (v : α) (h : i ≠ j) :
    sparseGet d (sparseSet d n a i v) j = sparseGet d a j := by
  by_cases hi : i < n
  · rw [sparseGet_set _ _ _ _ _ _ hi, if_neg h]
  · unfold sparseSet; rw [if_pos (by omega)]

/-! ## The canonical form -/

theorem sparseWf_iff [DecidableEq α] (d : α) (n : Nat) (a : Sparse α) :
    sparseWf d n a = true ↔ (∀ p ∈ a, p.1 < n ∧ p.2 ≠ d) ∧ a.Pairwise fun p q => p.1 < q.1 := by
  simp only [sparseWf, Bool.and_eq_true, List.all_eq_true, decide_eq_true_eq]

theorem sparseWf_nil [DecidableEq α] (d : α) (n : Nat) : sparseWf d n [] = true := by
  rw [sparseWf_iff]; simp

theorem sparseWf_erase [DecidableEq α] {d : α} {n : Nat} {a : Sparse α} (h : sparseWf d n a = true) (i : Nat) :
    sparseWf d n (sparseErase i a) = true := by
  rw [sparseWf_iff] at h ⊢
  exact ⟨fun p hp => h.1 p (List.mem_of_mem_filter hp), h.2.filter _⟩

theorem mem_sparseInsert {i : Nat} {v : α} {a : Sparse α} {p : Nat × α} (h : p ∈ sparseInsert i v a) :
    p = (i, v) ∨ p ∈ a := by
  induction a with
  | nil => exact Or.inl (by simpa [sparseInsert] using h)
  | cons q a ih =>
    rw [sparseInsert] at h
    split_ifs at h
    · rcases List.mem_cons.mp h with h | h
      · exact Or.inl h
      · exact Or.inr h
    · rcases List.mem_cons.mp h with h | h
      · exact Or.inr (h ▸ List.mem_cons_self)
      · rcases ih h with h | h
        · exact Or.inl h
        · exact Or.inr (List.mem_cons_of_mem _ h)

theorem sparseWf_insert [DecidableEq α] {d : α} {n : Nat} {a : Sparse α} (h : sparseWf d n a = true) {i : Nat} {v : α} (hi : i < n)
    (hv : v ≠ d) (hk : ∀ p ∈ a, p.1 ≠ i) : sparseWf d n (sparseInsert i v a) = true := by
  rw [sparseWf_iff] at h ⊢
  refine ⟨fun p hp => ?_, ?_⟩
  · rcases mem_sparseInsert hp with rfl | hp
    · exact ⟨hi, hv⟩
    · exact h.1 p hp
  · obtain ⟨-, h⟩ := h
    induction a with
    | nil => simp [sparseInsert]
    | cons q a ih =>
      have hq : q.1 ≠ i := hk q List.mem_cons_self
      rw [List.pairwise_cons] at h
      rw [sparseInsert]
      split_ifs with h1
      · rw [List.pairwise_cons]
        refine ⟨fun p hp => ?_, List.pairwise_cons.mpr h⟩
        rcases List.mem_cons.mp hp with rfl | hp
        · exact h1
        · exact lt_trans h1 (h.1 p hp)
      · rw [List.pairwise_cons]
        refine ⟨fun p hp => ?_, ih (fun p hp => hk p (List.mem_cons_of_mem _ hp)) h.2⟩
        rcases mem_sparseInsert hp with rfl | hp
        · exact lt_of_le_of_ne (not_lt.mp h1) hq
        · exact h.1 p hp

/-- A write keeps the canonical form. -/
theorem sparseWf_set [DecidableEq α] {d : α} {n : Nat} {a : Sparse α} (h : sparseWf d n a = true) (i : Nat) (v : α) :
    sparseWf d n (sparseSet d n a i v) = true := by
  unfold sparseSet
  split_ifs with h1 h2
  · exact h
  · exact sparseWf_erase h i
  · exact sparseWf_insert (sparseWf_erase h i) (by omega) h2
      fun p hp => ne_of_mem_sparseErase hp

/-! ## Arrays made of lists, and back -/

theorem sparseOfList_index [DecidableEq α] {d : α} {i : Nat} {vs : List α} {p : Nat × α} (h : p ∈ sparseOfList d i vs) :
    i ≤ p.1 ∧ p.1 < i + vs.length ∧ p.2 ≠ d := by
  induction vs generalizing i with
  | nil => simp [sparseOfList] at h
  | cons v vs ih =>
    rw [sparseOfList] at h
    split_ifs at h with hv
    · have := ih h
      simp only [List.length_cons]
      exact ⟨by omega, by omega, this.2.2⟩
    · rcases List.mem_cons.mp h with rfl | h
      · simp only [List.length_cons]
        exact ⟨le_rfl, by omega, hv⟩
      · have := ih h
        simp only [List.length_cons]
        exact ⟨by omega, by omega, this.2.2⟩

theorem sparseWf_ofList [DecidableEq α] (d : α) (i : Nat) (vs : List α) {n : Nat} (h : i + vs.length ≤ n) :
    sparseWf d n (sparseOfList d i vs) = true := by
  rw [sparseWf_iff]
  refine ⟨fun p hp => ?_, ?_⟩
  · have := sparseOfList_index hp
    exact ⟨by omega, this.2.2⟩
  · clear h
    induction vs generalizing i with
    | nil => simp [sparseOfList]
    | cons v vs ih =>
      rw [sparseOfList]
      split_ifs
      · exact ih _
      · rw [List.pairwise_cons]
        refine ⟨fun p hp => ?_, ih _⟩
        have := sparseOfList_index hp
        show i < p.1
        omega

theorem sparseGet_ofList [DecidableEq α] (d : α) (i : Nat) (vs : List α) (j : Nat) :
    sparseGet d (sparseOfList d i vs) j = if i ≤ j then vs.getD (j - i) d else d := by
  induction vs generalizing i with
  | nil => simp [sparseOfList]
  | cons v vs ih =>
    rw [sparseOfList]
    by_cases h0 : i = j
    · subst h0
      rw [if_pos le_rfl, Nat.sub_self]
      split_ifs with hv
      · rw [ih, if_neg (by omega), hv]; rfl
      · rw [sparseGet_cons, if_pos rfl]; rfl
    · have h1 : sparseGet d (if v = d then sparseOfList d (i + 1) vs else (i, v) :: sparseOfList d (i + 1) vs) j =
          sparseGet d (sparseOfList d (i + 1) vs) j := by
        split_ifs
        · rfl
        · rw [sparseGet_cons, if_neg h0]
      rw [h1, ih]
      by_cases h2 : i ≤ j
      · rw [if_pos (by omega), if_pos h2, show j - i = (j - (i + 1)) + 1 by omega]
        rfl
      · rw [if_neg (by omega), if_neg h2]

@[simp] theorem sparseToList_length (d : α) (n : Nat) (a : Sparse α) : (sparseToList d n a).length = n := by
  simp [sparseToList]

theorem sparseToList_getElem? (d : α) {n : Nat} (a : Sparse α) {i : Nat} (h : i < n) :
    (sparseToList d n a)[i]? = some (sparseGet d a i) := by
  unfold sparseToList
  rw [List.getElem?_map, List.getElem?_range h]
  rfl

theorem sparseToList_ofList [DecidableEq α] (d : α) (vs : List α) : sparseToList d vs.length (sparseOfList d 0 vs) = vs := by
  apply List.ext_getElem?
  intro i
  by_cases h : i < vs.length
  · rw [sparseToList_getElem? _ _ h, sparseGet_ofList, if_pos (Nat.zero_le _), Nat.sub_zero,
      List.getD_eq_getElem?_getD, List.getElem?_eq_getElem h]
    rfl
  · rw [List.getElem?_eq_none (by simp; omega), List.getElem?_eq_none (by omega)]

/-! ## Equal entries, equal arrays -/

theorem sparseGet_of_lt {d : α} {a : Sparse α} {i : Nat} (h : ∀ p ∈ a, i < p.1) : sparseGet d a i = d := by
  induction a with
  | nil => rfl
  | cons q a ih =>
    have := h q List.mem_cons_self
    rw [show q = (q.1, q.2) from rfl, sparseGet_cons, if_neg (by omega)]
    exact ih fun p hp => h p (List.mem_cons_of_mem _ hp)

/-- Arrays in canonical form that read alike are equal. -/
theorem sparse_ext [DecidableEq α] {d : α} {n : Nat} {a b : Sparse α} (ha : sparseWf d n a = true) (hb : sparseWf d n b = true)
    (h : ∀ i, sparseGet d a i = sparseGet d b i) : a = b := by
  rw [sparseWf_iff] at ha hb
  obtain ⟨ha1, ha2⟩ := ha
  obtain ⟨hb1, hb2⟩ := hb
  induction a generalizing b with
  | nil =>
    cases b with
    | nil => rfl
    | cons q b =>
      have := h q.1
      rw [show q = (q.1, q.2) from rfl, sparseGet_cons, if_pos rfl] at this
      exact absurd this.symm (hb1 q List.mem_cons_self).2
  | cons p a ih =>
    cases b with
    | nil =>
      have := h p.1
      rw [show p = (p.1, p.2) from rfl, sparseGet_cons, if_pos rfl] at this
      exact absurd this (ha1 p List.mem_cons_self).2
    | cons q b =>
      obtain ⟨k, x⟩ := p
      obtain ⟨l, y⟩ := q
      rw [List.pairwise_cons] at ha2 hb2
      have hk := h k
      have hl := h l
      rw [sparseGet_cons, sparseGet_cons] at hk hl
      have hx := (ha1 (k, x) List.mem_cons_self).2
      have hy := (hb1 (l, y) List.mem_cons_self).2
      have hkl : k = l := by
        rcases lt_trichotomy k l with hlt | heq | hgt
        · rw [if_pos rfl, if_neg (by omega), sparseGet_of_lt fun p hp => lt_trans hlt (hb2.1 p hp)] at hk
          exact absurd hk hx
        · exact heq
        · rw [if_neg (by omega), if_pos rfl, sparseGet_of_lt fun p hp => lt_trans hgt (ha2.1 p hp)] at hl
          exact absurd hl.symm hy
      subst hkl
      rw [if_pos rfl, if_pos rfl] at hk
      subst hk
      congr 1
      refine ih ?_ (fun p hp => ha1 p (List.mem_cons_of_mem _ hp)) ha2.2
        (fun p hp => hb1 p (List.mem_cons_of_mem _ hp)) hb2.2
      intro i
      have hi := h i
      rw [sparseGet_cons, sparseGet_cons] at hi
      by_cases hki : k = i
      · subst hki
        rw [sparseGet_of_lt ha2.1, sparseGet_of_lt hb2.1]
      · rwa [if_neg hki, if_neg hki] at hi

/-! ## The synthesis buffer -/

@[simp] theorem Memory.read_write_same (m : Memory) {a : Nat} (b : Byte) (h : a < sybufBytes) :
    (m.write a b).read a = b := sparseGet_set_same _ _ _ h

theorem Memory.read_write_other (m : Memory) {a c : Nat} (b : Byte) (h : a ≠ c) :
    (m.write a b).read c = m.read c := sparseGet_set_other _ _ _ _ h

theorem Memory.wf_write {m : Memory} (h : m.wf = true) (a : Nat) (b : Byte) : (m.write a b).wf = true :=
  sparseWf_set h a b

/-- MemWrite keeps the canonical form. -/
theorem memWrite_wf {m : Memory} (h : m.wf = true) (a : Nat) (v : Half) : (memWrite m a v).wf = true :=
  Memory.wf_write (Memory.wf_write h _ _) _ _

/-- MemRead of a half just written (R74). -/
theorem memRead_memWrite_same (m : Memory) {a : Nat} (v : Half) (h : a + 1 < sybufBytes) :
    memRead (memWrite m a v) a = v := by
  unfold memRead memWrite
  rw [Memory.read_write_same _ _ h, Memory.read_write_other _ _ (by omega), Memory.read_write_same _ _ (by omega)]
  ext i hi
  simp only [BitVec.getElem_append, BitVec.getElem_extractLsb']
  split
  · simp [BitVec.getLsbD_eq_getElem hi]
  · rw [show 8 + (i - 8) = i by omega, BitVec.getLsbD_eq_getElem hi]

/-- MemWrite leaves every other byte alone (R74). -/
theorem memWrite_read_other (m : Memory) {a c : Nat} (v : Half) (h : c ≠ a) (h' : c ≠ a + 1) :
    (memWrite m a v).read c = m.read c := by
  unfold memWrite
  rw [Memory.read_write_other _ _ (by omega), Memory.read_write_other _ _ (by omega)]

theorem memRead_memWrite_other (m : Memory) {a c : Nat} (v : Half) (h : c + 1 < a ∨ a + 1 < c) :
    memRead (memWrite m a v) c = memRead m c := by
  unfold memRead
  rw [memWrite_read_other _ _ (by omega) (by omega), memWrite_read_other _ _ (by omega) (by omega)]

end Sys2Proof.Machine
end

