-- ==== Sys2Proof/Laws/State.lean ====
section
/-! SUPPORT. What each update of the state leaves in each field: one lemma per field and update, so that no later proof
unfolds a record update. -/

namespace Sys2Proof.Machine
open Config

/-! ## Host outcomes -/

theorem next_inj {s t : State} : (Host.Outcome.next s : Result State) = .next t ↔ s = t :=
  ⟨fun h => by injection h, fun h => h ▸ rfl⟩

@[simp] theorem finish_eq (st : Status) (ws : List Word) (s : State) : finish st ws s = .next (respond st ws s) := rfl

@[simp] theorem reject_eq (st : Status) (s : State) : reject st s = .next (respond st [] s) := rfl

@[simp] theorem cfgReject_eq (b : BankId) (r : Reason) (s : State) :
    cfgReject b r s = .next (respond .range [] (countCfgErr b r s)) := rfl

/-! ## `respond` (R17, R102) -/

@[simp] theorem respond_nco (st : Status) (ws : List Word) (s : State) : (respond st ws s).nco = s.nco := rfl
@[simp] theorem respond_rc (st : Status) (ws : List Word) (s : State) : (respond st ws s).rc = s.rc := rfl
@[simp] theorem respond_sf (st : Status) (ws : List Word) (s : State) : (respond st ws s).sf = s.sf := rfl
@[simp] theorem respond_lt (st : Status) (ws : List Word) (s : State) : (respond st ws s).lt = s.lt := rfl
@[simp] theorem respond_dm (st : Status) (ws : List Word) (s : State) : (respond st ws s).dm = s.dm := rfl
@[simp] theorem respond_sync (st : Status) (ws : List Word) (s : State) : (respond st ws s).sync = s.sync := rfl
@[simp] theorem respond_gen (st : Status) (ws : List Word) (s : State) : (respond st ws s).gen = s.gen := rfl
@[simp] theorem respond_sybuf (st : Status) (ws : List Word) (s : State) : (respond st ws s).sybuf = s.sybuf := rfl
@[simp] theorem respond_syq (st : Status) (ws : List Word) (s : State) : (respond st ws s).syq = s.syq := rfl
@[simp] theorem respond_fault (st : Status) (ws : List Word) (s : State) : (respond st ws s).fault = s.fault := rfl
@[simp] theorem respond_cfgErr (st : Status) (ws : List Word) (s : State) : (respond st ws s).cfgErr = s.cfgErr := rfl
@[simp] theorem respond_io_cmd (st : Status) (ws : List Word) (s : State) : (respond st ws s).io.cmd = s.io.cmd := rfl
@[simp] theorem respond_io_rsp (st : Status) (ws : List Word) (s : State) :
    (respond st ws s).io.rsp =
      s.io.rsp ++ [⟨st, ws⟩] := rfl
@[simp] theorem respond_io_evt (st : Status) (ws : List Word) (s : State) : (respond st ws s).io.evt = s.io.evt := rfl
@[simp] theorem respond_io_pix (st : Status) (ws : List Word) (s : State) : (respond st ws s).io.pix = s.io.pix := rfl
@[simp] theorem respond_io_timerIn (st : Status) (ws : List Word) (s : State) :
    (respond st ws s).io.timerIn =
      s.io.timerIn := rfl
@[simp] theorem respond_io_timerReads (st : Status) (ws : List Word) (s : State) :
    (respond st ws s).io.timerReads =
      s.io.timerReads := rfl
@[simp] theorem respond_io_resetIn (st : Status) (ws : List Word) (s : State) :
    (respond st ws s).io.resetIn =
      s.io.resetIn := rfl

/-! ## `emitEvt` (R17, R103) -/

@[simp] theorem emitEvt_nco (e : Event) (s : State) : (emitEvt e s).nco = s.nco := rfl
@[simp] theorem emitEvt_rc (e : Event) (s : State) : (emitEvt e s).rc = s.rc := rfl
@[simp] theorem emitEvt_sf (e : Event) (s : State) : (emitEvt e s).sf = s.sf := rfl
@[simp] theorem emitEvt_lt (e : Event) (s : State) : (emitEvt e s).lt = s.lt := rfl
@[simp] theorem emitEvt_dm (e : Event) (s : State) : (emitEvt e s).dm = s.dm := rfl
@[simp] theorem emitEvt_sync (e : Event) (s : State) : (emitEvt e s).sync = s.sync := rfl
@[simp] theorem emitEvt_gen (e : Event) (s : State) : (emitEvt e s).gen = s.gen := rfl
@[simp] theorem emitEvt_sybuf (e : Event) (s : State) : (emitEvt e s).sybuf = s.sybuf := rfl
@[simp] theorem emitEvt_syq (e : Event) (s : State) : (emitEvt e s).syq = s.syq := rfl
@[simp] theorem emitEvt_fault (e : Event) (s : State) : (emitEvt e s).fault = s.fault := rfl
@[simp] theorem emitEvt_cfgErr (e : Event) (s : State) : (emitEvt e s).cfgErr = s.cfgErr := rfl
@[simp] theorem emitEvt_io_cmd (e : Event) (s : State) : (emitEvt e s).io.cmd = s.io.cmd := rfl
@[simp] theorem emitEvt_io_rsp (e : Event) (s : State) : (emitEvt e s).io.rsp = s.io.rsp := rfl
@[simp] theorem emitEvt_io_evt (e : Event) (s : State) : (emitEvt e s).io.evt = s.io.evt ++ [e] := rfl
@[simp] theorem emitEvt_io_pix (e : Event) (s : State) : (emitEvt e s).io.pix = s.io.pix := rfl
@[simp] theorem emitEvt_io_timerIn (e : Event) (s : State) : (emitEvt e s).io.timerIn = s.io.timerIn := rfl
@[simp] theorem emitEvt_io_timerReads (e : Event) (s : State) : (emitEvt e s).io.timerReads = s.io.timerReads := rfl
@[simp] theorem emitEvt_io_resetIn (e : Event) (s : State) : (emitEvt e s).io.resetIn = s.io.resetIn := rfl

/-! ## `emitPix` (R17, R104) -/

@[simp] theorem emitPix_nco (p : Pixel) (s : State) : (emitPix p s).nco = s.nco := rfl
@[simp] theorem emitPix_rc (p : Pixel) (s : State) : (emitPix p s).rc = s.rc := rfl
@[simp] theorem emitPix_sf (p : Pixel) (s : State) : (emitPix p s).sf = s.sf := rfl
@[simp] theorem emitPix_lt (p : Pixel) (s : State) : (emitPix p s).lt = s.lt := rfl
@[simp] theorem emitPix_dm (p : Pixel) (s : State) : (emitPix p s).dm = s.dm := rfl
@[simp] theorem emitPix_sync (p : Pixel) (s : State) : (emitPix p s).sync = s.sync := rfl
@[simp] theorem emitPix_gen (p : Pixel) (s : State) : (emitPix p s).gen = s.gen := rfl
@[simp] theorem emitPix_sybuf (p : Pixel) (s : State) : (emitPix p s).sybuf = s.sybuf := rfl
@[simp] theorem emitPix_syq (p : Pixel) (s : State) : (emitPix p s).syq = s.syq := rfl
@[simp] theorem emitPix_fault (p : Pixel) (s : State) : (emitPix p s).fault = s.fault := rfl
@[simp] theorem emitPix_cfgErr (p : Pixel) (s : State) : (emitPix p s).cfgErr = s.cfgErr := rfl
@[simp] theorem emitPix_io_cmd (p : Pixel) (s : State) : (emitPix p s).io.cmd = s.io.cmd := rfl
@[simp] theorem emitPix_io_rsp (p : Pixel) (s : State) : (emitPix p s).io.rsp = s.io.rsp := rfl
@[simp] theorem emitPix_io_evt (p : Pixel) (s : State) : (emitPix p s).io.evt = s.io.evt := rfl
@[simp] theorem emitPix_io_pix (p : Pixel) (s : State) : (emitPix p s).io.pix = s.io.pix ++ [p] := rfl
@[simp] theorem emitPix_io_timerIn (p : Pixel) (s : State) : (emitPix p s).io.timerIn = s.io.timerIn := rfl
@[simp] theorem emitPix_io_timerReads (p : Pixel) (s : State) : (emitPix p s).io.timerReads = s.io.timerReads := rfl
@[simp] theorem emitPix_io_resetIn (p : Pixel) (s : State) : (emitPix p s).io.resetIn = s.io.resetIn := rfl

/-! ## `withCmd` (R101) -/

@[simp] theorem withCmd_nco (ws : List Word) (s : State) : (withCmd ws s).nco = s.nco := rfl
@[simp] theorem withCmd_rc (ws : List Word) (s : State) : (withCmd ws s).rc = s.rc := rfl
@[simp] theorem withCmd_sf (ws : List Word) (s : State) : (withCmd ws s).sf = s.sf := rfl
@[simp] theorem withCmd_lt (ws : List Word) (s : State) : (withCmd ws s).lt = s.lt := rfl
@[simp] theorem withCmd_dm (ws : List Word) (s : State) : (withCmd ws s).dm = s.dm := rfl
@[simp] theorem withCmd_sync (ws : List Word) (s : State) : (withCmd ws s).sync = s.sync := rfl
@[simp] theorem withCmd_gen (ws : List Word) (s : State) : (withCmd ws s).gen = s.gen := rfl
@[simp] theorem withCmd_sybuf (ws : List Word) (s : State) : (withCmd ws s).sybuf = s.sybuf := rfl
@[simp] theorem withCmd_syq (ws : List Word) (s : State) : (withCmd ws s).syq = s.syq := rfl
@[simp] theorem withCmd_fault (ws : List Word) (s : State) : (withCmd ws s).fault = s.fault := rfl
@[simp] theorem withCmd_cfgErr (ws : List Word) (s : State) : (withCmd ws s).cfgErr = s.cfgErr := rfl
@[simp] theorem withCmd_io_cmd (ws : List Word) (s : State) : (withCmd ws s).io.cmd = ws := rfl
@[simp] theorem withCmd_io_rsp (ws : List Word) (s : State) : (withCmd ws s).io.rsp = s.io.rsp := rfl
@[simp] theorem withCmd_io_evt (ws : List Word) (s : State) : (withCmd ws s).io.evt = s.io.evt := rfl
@[simp] theorem withCmd_io_pix (ws : List Word) (s : State) : (withCmd ws s).io.pix = s.io.pix := rfl
@[simp] theorem withCmd_io_timerIn (ws : List Word) (s : State) : (withCmd ws s).io.timerIn = s.io.timerIn := rfl
@[simp] theorem withCmd_io_timerReads (ws : List Word) (s : State) : (withCmd ws s).io.timerReads = s.io.timerReads := rfl
@[simp] theorem withCmd_io_resetIn (ws : List Word) (s : State) : (withCmd ws s).io.resetIn = s.io.resetIn := rfl

/-! ## `setNco` (R22) -/

@[simp] theorem setNco_nco (k : Fin 3) (n : Nco) (s : State) : (setNco k n s).nco = s.nco.set k n := rfl
@[simp] theorem setNco_rc (k : Fin 3) (n : Nco) (s : State) : (setNco k n s).rc = s.rc := rfl
@[simp] theorem setNco_sf (k : Fin 3) (n : Nco) (s : State) : (setNco k n s).sf = s.sf := rfl
@[simp] theorem setNco_lt (k : Fin 3) (n : Nco) (s : State) : (setNco k n s).lt = s.lt := rfl
@[simp] theorem setNco_dm (k : Fin 3) (n : Nco) (s : State) : (setNco k n s).dm = s.dm := rfl
@[simp] theorem setNco_sync (k : Fin 3) (n : Nco) (s : State) : (setNco k n s).sync = s.sync := rfl
@[simp] theorem setNco_gen (k : Fin 3) (n : Nco) (s : State) : (setNco k n s).gen = s.gen := rfl
@[simp] theorem setNco_sybuf (k : Fin 3) (n : Nco) (s : State) : (setNco k n s).sybuf = s.sybuf := rfl
@[simp] theorem setNco_syq (k : Fin 3) (n : Nco) (s : State) : (setNco k n s).syq = s.syq := rfl
@[simp] theorem setNco_fault (k : Fin 3) (n : Nco) (s : State) : (setNco k n s).fault = s.fault := rfl
@[simp] theorem setNco_cfgErr (k : Fin 3) (n : Nco) (s : State) : (setNco k n s).cfgErr = s.cfgErr := rfl
@[simp] theorem setNco_io (k : Fin 3) (n : Nco) (s : State) : (setNco k n s).io = s.io := rfl

/-! ## `setInc` (R22) -/

@[simp] theorem setInc_nco (k : Fin 3) (inc : Word) (s : State) :
    (setInc k inc s).nco =
      s.nco.set k { s.nco[k] with inc := inc } := rfl
@[simp] theorem setInc_rc (k : Fin 3) (inc : Word) (s : State) : (setInc k inc s).rc = s.rc := rfl
@[simp] theorem setInc_sf (k : Fin 3) (inc : Word) (s : State) : (setInc k inc s).sf = s.sf := rfl
@[simp] theorem setInc_lt (k : Fin 3) (inc : Word) (s : State) : (setInc k inc s).lt = s.lt := rfl
@[simp] theorem setInc_dm (k : Fin 3) (inc : Word) (s : State) : (setInc k inc s).dm = s.dm := rfl
@[simp] theorem setInc_sync (k : Fin 3) (inc : Word) (s : State) : (setInc k inc s).sync = s.sync := rfl
@[simp] theorem setInc_gen (k : Fin 3) (inc : Word) (s : State) : (setInc k inc s).gen = s.gen := rfl
@[simp] theorem setInc_sybuf (k : Fin 3) (inc : Word) (s : State) : (setInc k inc s).sybuf = s.sybuf := rfl
@[simp] theorem setInc_syq (k : Fin 3) (inc : Word) (s : State) : (setInc k inc s).syq = s.syq := rfl
@[simp] theorem setInc_fault (k : Fin 3) (inc : Word) (s : State) : (setInc k inc s).fault = s.fault := rfl
@[simp] theorem setInc_cfgErr (k : Fin 3) (inc : Word) (s : State) : (setInc k inc s).cfgErr = s.cfgErr := rfl
@[simp] theorem setInc_io (k : Fin 3) (inc : Word) (s : State) : (setInc k inc s).io = s.io := rfl

/-! ## `ncoStep` (R144) -/

@[simp] theorem ncoStep_nco (k : Fin 3) (s : State) : (ncoStep k s).nco = s.nco.set k (ncoAdvance s.nco[k]) := rfl
@[simp] theorem ncoStep_rc (k : Fin 3) (s : State) : (ncoStep k s).rc = s.rc := rfl
@[simp] theorem ncoStep_sf (k : Fin 3) (s : State) : (ncoStep k s).sf = s.sf := rfl
@[simp] theorem ncoStep_lt (k : Fin 3) (s : State) : (ncoStep k s).lt = s.lt := rfl
@[simp] theorem ncoStep_dm (k : Fin 3) (s : State) : (ncoStep k s).dm = s.dm := rfl
@[simp] theorem ncoStep_sync (k : Fin 3) (s : State) : (ncoStep k s).sync = s.sync := rfl
@[simp] theorem ncoStep_gen (k : Fin 3) (s : State) : (ncoStep k s).gen = s.gen := rfl
@[simp] theorem ncoStep_sybuf (k : Fin 3) (s : State) : (ncoStep k s).sybuf = s.sybuf := rfl
@[simp] theorem ncoStep_syq (k : Fin 3) (s : State) : (ncoStep k s).syq = s.syq := rfl
@[simp] theorem ncoStep_fault (k : Fin 3) (s : State) : (ncoStep k s).fault = s.fault := rfl
@[simp] theorem ncoStep_cfgErr (k : Fin 3) (s : State) : (ncoStep k s).cfgErr = s.cfgErr := rfl
@[simp] theorem ncoStep_io (k : Fin 3) (s : State) : (ncoStep k s).io = s.io := rfl

/-! ## `countCfgErr` (R335) -/

@[simp] theorem countCfgErr_nco (b : BankId) (r : Reason) (s : State) : (countCfgErr b r s).nco = s.nco := rfl
@[simp] theorem countCfgErr_rc (b : BankId) (r : Reason) (s : State) : (countCfgErr b r s).rc = s.rc := rfl
@[simp] theorem countCfgErr_sf (b : BankId) (r : Reason) (s : State) : (countCfgErr b r s).sf = s.sf := rfl
@[simp] theorem countCfgErr_lt (b : BankId) (r : Reason) (s : State) : (countCfgErr b r s).lt = s.lt := rfl
@[simp] theorem countCfgErr_dm (b : BankId) (r : Reason) (s : State) : (countCfgErr b r s).dm = s.dm := rfl
@[simp] theorem countCfgErr_sync (b : BankId) (r : Reason) (s : State) : (countCfgErr b r s).sync = s.sync := rfl
@[simp] theorem countCfgErr_gen (b : BankId) (r : Reason) (s : State) : (countCfgErr b r s).gen = s.gen := rfl
@[simp] theorem countCfgErr_sybuf (b : BankId) (r : Reason) (s : State) : (countCfgErr b r s).sybuf = s.sybuf := rfl
@[simp] theorem countCfgErr_syq (b : BankId) (r : Reason) (s : State) : (countCfgErr b r s).syq = s.syq := rfl
@[simp] theorem countCfgErr_fault (b : BankId) (r : Reason) (s : State) : (countCfgErr b r s).fault = s.fault := rfl
@[simp] theorem countCfgErr_cfgErr (b : BankId) (r : Reason) (s : State) :
    (countCfgErr b r s).cfgErr =
      satInc s.cfgErr := rfl
@[simp] theorem countCfgErr_io_cmd (b : BankId) (r : Reason) (s : State) : (countCfgErr b r s).io.cmd = s.io.cmd := rfl
@[simp] theorem countCfgErr_io_rsp (b : BankId) (r : Reason) (s : State) : (countCfgErr b r s).io.rsp = s.io.rsp := rfl
@[simp] theorem countCfgErr_io_evt (b : BankId) (r : Reason) (s : State) :
    (countCfgErr b r s).io.evt =
      s.io.evt ++ [.cfgRej b r] := rfl
@[simp] theorem countCfgErr_io_pix (b : BankId) (r : Reason) (s : State) : (countCfgErr b r s).io.pix = s.io.pix := rfl
@[simp] theorem countCfgErr_io_timerIn (b : BankId) (r : Reason) (s : State) :
    (countCfgErr b r s).io.timerIn =
      s.io.timerIn := rfl
@[simp] theorem countCfgErr_io_timerReads (b : BankId) (r : Reason) (s : State) :
    (countCfgErr b r s).io.timerReads =
      s.io.timerReads := rfl
@[simp] theorem countCfgErr_io_resetIn (b : BankId) (r : Reason) (s : State) :
    (countCfgErr b r s).io.resetIn =
      s.io.resetIn := rfl

/-! ## `raiseFault` (R376) -/

@[simp] theorem raiseFault_nco (b : FaultBit) (s : State) : (raiseFault b s).nco = s.nco := rfl
@[simp] theorem raiseFault_rc (b : FaultBit) (s : State) : (raiseFault b s).rc = s.rc := rfl
@[simp] theorem raiseFault_sf (b : FaultBit) (s : State) : (raiseFault b s).sf = s.sf := rfl
@[simp] theorem raiseFault_lt (b : FaultBit) (s : State) : (raiseFault b s).lt = s.lt := rfl
@[simp] theorem raiseFault_dm (b : FaultBit) (s : State) : (raiseFault b s).dm = s.dm := rfl
@[simp] theorem raiseFault_sync (b : FaultBit) (s : State) : (raiseFault b s).sync = s.sync := rfl
@[simp] theorem raiseFault_gen (b : FaultBit) (s : State) :
    (raiseFault b s).gen =
      { s.gen with halted := true, active := false } := rfl
@[simp] theorem raiseFault_sybuf (b : FaultBit) (s : State) : (raiseFault b s).sybuf = s.sybuf := rfl
@[simp] theorem raiseFault_syq (b : FaultBit) (s : State) : (raiseFault b s).syq = s.syq := rfl
@[simp] theorem raiseFault_fault (b : FaultBit) (s : State) :
    (raiseFault b s).fault =
      s.fault ||| (1#32 <<< b.code) := rfl
@[simp] theorem raiseFault_cfgErr (b : FaultBit) (s : State) : (raiseFault b s).cfgErr = s.cfgErr := rfl
@[simp] theorem raiseFault_io_cmd (b : FaultBit) (s : State) : (raiseFault b s).io.cmd = s.io.cmd := rfl
@[simp] theorem raiseFault_io_rsp (b : FaultBit) (s : State) : (raiseFault b s).io.rsp = s.io.rsp := rfl
@[simp] theorem raiseFault_io_evt (b : FaultBit) (s : State) : (raiseFault b s).io.evt = s.io.evt ++ [.fault b] := rfl
@[simp] theorem raiseFault_io_pix (b : FaultBit) (s : State) : (raiseFault b s).io.pix = s.io.pix := rfl
@[simp] theorem raiseFault_io_timerIn (b : FaultBit) (s : State) : (raiseFault b s).io.timerIn = s.io.timerIn := rfl
@[simp] theorem raiseFault_io_timerReads (b : FaultBit) (s : State) :
    (raiseFault b s).io.timerReads =
      s.io.timerReads := rfl
@[simp] theorem raiseFault_io_resetIn (b : FaultBit) (s : State) : (raiseFault b s).io.resetIn = s.io.resetIn := rfl

/-! ## `syncReset` (R247) -/

@[simp] theorem syncReset_nco (s : State) : (syncReset s).nco = s.nco := rfl
@[simp] theorem syncReset_rc (s : State) : (syncReset s).rc = s.rc := rfl
@[simp] theorem syncReset_sf (s : State) : (syncReset s).sf = s.sf := rfl
@[simp] theorem syncReset_lt (s : State) : (syncReset s).lt = s.lt := rfl
@[simp] theorem syncReset_dm (s : State) : (syncReset s).dm = s.dm := rfl
@[simp] theorem syncReset_sync (s : State) : (syncReset s).sync = .reset := rfl
@[simp] theorem syncReset_gen (s : State) : (syncReset s).gen = s.gen := rfl
@[simp] theorem syncReset_sybuf (s : State) : (syncReset s).sybuf = s.sybuf := rfl
@[simp] theorem syncReset_syq (s : State) : (syncReset s).syq = s.syq := rfl
@[simp] theorem syncReset_fault (s : State) : (syncReset s).fault = s.fault := rfl
@[simp] theorem syncReset_cfgErr (s : State) : (syncReset s).cfgErr = s.cfgErr := rfl
@[simp] theorem syncReset_io (s : State) : (syncReset s).io = s.io := rfl

/-! ## `setFsm` (R246) -/

@[simp] theorem setFsm_nco (new : Fsm) (s : State) : (setFsm new s).nco = s.nco := by unfold setFsm; split <;> rfl
@[simp] theorem setFsm_rc (new : Fsm) (s : State) : (setFsm new s).rc = s.rc := by unfold setFsm; split <;> rfl
@[simp] theorem setFsm_sf (new : Fsm) (s : State) : (setFsm new s).sf = s.sf := by unfold setFsm; split <;> rfl
@[simp] theorem setFsm_lt (new : Fsm) (s : State) : (setFsm new s).lt = s.lt := by unfold setFsm; split <;> rfl
@[simp] theorem setFsm_dm (new : Fsm) (s : State) : (setFsm new s).dm = s.dm := by unfold setFsm; split <;> rfl
@[simp] theorem setFsm_sync (new : Fsm) (s : State) : (setFsm new s).sync = { s.sync with fsm := new } := by
  unfold setFsm; split
  · next h => subst h; simp
  · simp_all
@[simp] theorem setFsm_gen (new : Fsm) (s : State) : (setFsm new s).gen = s.gen := by unfold setFsm; split <;> rfl
@[simp] theorem setFsm_sybuf (new : Fsm) (s : State) : (setFsm new s).sybuf = s.sybuf := by unfold setFsm; split <;> rfl
@[simp] theorem setFsm_syq (new : Fsm) (s : State) : (setFsm new s).syq = s.syq := by unfold setFsm; split <;> rfl
@[simp] theorem setFsm_fault (new : Fsm) (s : State) : (setFsm new s).fault = s.fault := by unfold setFsm; split <;> rfl
@[simp] theorem setFsm_cfgErr (new : Fsm) (s : State) : (setFsm new s).cfgErr = s.cfgErr := by unfold setFsm; split <;> rfl
@[simp] theorem setFsm_io_cmd (new : Fsm) (s : State) : (setFsm new s).io.cmd = s.io.cmd := by unfold setFsm; split <;> rfl
@[simp] theorem setFsm_io_rsp (new : Fsm) (s : State) : (setFsm new s).io.rsp = s.io.rsp := by unfold setFsm; split <;> rfl
@[simp] theorem setFsm_io_evt (new : Fsm) (s : State) :
    (setFsm new s).io.evt =
      s.io.evt ++ (if s.sync.fsm = new then [] else [.state s.sync.fsm new]) := by
  unfold setFsm; split
  · next h => subst h; simp
  · simp_all
@[simp] theorem setFsm_io_pix (new : Fsm) (s : State) : (setFsm new s).io.pix = s.io.pix := by unfold setFsm; split <;> rfl
@[simp] theorem setFsm_io_timerIn (new : Fsm) (s : State) : (setFsm new s).io.timerIn = s.io.timerIn := by unfold setFsm; split <;> rfl
@[simp] theorem setFsm_io_timerReads (new : Fsm) (s : State) : (setFsm new s).io.timerReads = s.io.timerReads := by unfold setFsm; split <;> rfl
@[simp] theorem setFsm_io_resetIn (new : Fsm) (s : State) : (setFsm new s).io.resetIn = s.io.resetIn := by unfold setFsm; split <;> rfl

/-! ## `toUnsync` (R237) -/

@[simp] theorem toUnsync_nco (s : State) : (toUnsync s).nco = s.nco := by unfold toUnsync; split <;> rfl
@[simp] theorem toUnsync_rc (s : State) : (toUnsync s).rc = s.rc := by unfold toUnsync; split <;> rfl
@[simp] theorem toUnsync_sf (s : State) : (toUnsync s).sf = s.sf := by unfold toUnsync; split <;> rfl
@[simp] theorem toUnsync_lt (s : State) : (toUnsync s).lt = s.lt := by unfold toUnsync; split <;> rfl
@[simp] theorem toUnsync_dm (s : State) : (toUnsync s).dm = s.dm := by unfold toUnsync; split <;> rfl
@[simp] theorem toUnsync_sync (s : State) : (toUnsync s).sync = .reset := by
  unfold toUnsync; split <;> simp_all
@[simp] theorem toUnsync_gen (s : State) : (toUnsync s).gen = s.gen := by unfold toUnsync; split <;> rfl
@[simp] theorem toUnsync_sybuf (s : State) : (toUnsync s).sybuf = s.sybuf := by unfold toUnsync; split <;> rfl
@[simp] theorem toUnsync_syq (s : State) : (toUnsync s).syq = s.syq := by unfold toUnsync; split <;> rfl
@[simp] theorem toUnsync_fault (s : State) : (toUnsync s).fault = s.fault := by unfold toUnsync; split <;> rfl
@[simp] theorem toUnsync_cfgErr (s : State) : (toUnsync s).cfgErr = s.cfgErr := by unfold toUnsync; split <;> rfl
@[simp] theorem toUnsync_io_cmd (s : State) : (toUnsync s).io.cmd = s.io.cmd := by unfold toUnsync; split <;> rfl
@[simp] theorem toUnsync_io_rsp (s : State) : (toUnsync s).io.rsp = s.io.rsp := by unfold toUnsync; split <;> rfl
@[simp] theorem toUnsync_io_evt (s : State) :
    (toUnsync s).io.evt =
      s.io.evt ++ (if s.sync.fsm = .unsynchronized then [] else [.state s.sync.fsm .unsynchronized]) := by
  unfold toUnsync; split <;> simp_all
@[simp] theorem toUnsync_io_pix (s : State) : (toUnsync s).io.pix = s.io.pix := by unfold toUnsync; split <;> rfl
@[simp] theorem toUnsync_io_timerIn (s : State) : (toUnsync s).io.timerIn = s.io.timerIn := by unfold toUnsync; split <;> rfl
@[simp] theorem toUnsync_io_timerReads (s : State) : (toUnsync s).io.timerReads = s.io.timerReads := by unfold toUnsync; split <;> rfl
@[simp] theorem toUnsync_io_resetIn (s : State) : (toUnsync s).io.resetIn = s.io.resetIn := by unfold toUnsync; split <;> rfl

/-! ## `pushHistory` (R223) -/

@[simp] theorem pushHistory_nco (u : Cfx) (s : State) : (pushHistory u s).nco = s.nco := rfl
@[simp] theorem pushHistory_rc (u : Cfx) (s : State) : (pushHistory u s).rc = s.rc := rfl
@[simp] theorem pushHistory_sf (u : Cfx) (s : State) : (pushHistory u s).sf = s.sf := rfl
@[simp] theorem pushHistory_lt (u : Cfx) (s : State) : (pushHistory u s).lt = s.lt := rfl
@[simp] theorem pushHistory_dm (u : Cfx) (s : State) :
    (pushHistory u s).dm =
      { s.dm with uh2 := s.dm.uh1, uh1 := u } := rfl
@[simp] theorem pushHistory_sync (u : Cfx) (s : State) : (pushHistory u s).sync = s.sync := rfl
@[simp] theorem pushHistory_gen (u : Cfx) (s : State) : (pushHistory u s).gen = s.gen := rfl
@[simp] theorem pushHistory_sybuf (u : Cfx) (s : State) : (pushHistory u s).sybuf = s.sybuf := rfl
@[simp] theorem pushHistory_syq (u : Cfx) (s : State) : (pushHistory u s).syq = s.syq := rfl
@[simp] theorem pushHistory_fault (u : Cfx) (s : State) : (pushHistory u s).fault = s.fault := rfl
@[simp] theorem pushHistory_cfgErr (u : Cfx) (s : State) : (pushHistory u s).cfgErr = s.cfgErr := rfl
@[simp] theorem pushHistory_io (u : Cfx) (s : State) : (pushHistory u s).io = s.io := rfl

/-! ## `hsAlign` (R231) -/

@[simp] theorem hsAlign_nco (s : State) : (hsAlign s).nco = s.nco := rfl
@[simp] theorem hsAlign_rc (s : State) : (hsAlign s).rc = s.rc := rfl
@[simp] theorem hsAlign_sf (s : State) : (hsAlign s).sf = s.sf := rfl
@[simp] theorem hsAlign_lt (s : State) : (hsAlign s).lt = s.lt := rfl
@[simp] theorem hsAlign_dm (s : State) : (hsAlign s).dm = s.dm := rfl
@[simp] theorem hsAlign_sync (s : State) :
    (hsAlign s).sync =
      { s.sync with col := BitVec.ofInt 32 (s.dm.d.topN.toNat - 2 + HS_DELAY) } := rfl
@[simp] theorem hsAlign_gen (s : State) : (hsAlign s).gen = s.gen := rfl
@[simp] theorem hsAlign_sybuf (s : State) : (hsAlign s).sybuf = s.sybuf := rfl
@[simp] theorem hsAlign_syq (s : State) : (hsAlign s).syq = s.syq := rfl
@[simp] theorem hsAlign_fault (s : State) : (hsAlign s).fault = s.fault := rfl
@[simp] theorem hsAlign_cfgErr (s : State) : (hsAlign s).cfgErr = s.cfgErr := rfl
@[simp] theorem hsAlign_io (s : State) : (hsAlign s).io = s.io := rfl

/-! ## `setHs` (R32) -/

@[simp] theorem setHs_nco (c m n : Word) (s : State) : (setHs c m n s).nco = s.nco := rfl
@[simp] theorem setHs_rc (c m n : Word) (s : State) : (setHs c m n s).rc = s.rc := rfl
@[simp] theorem setHs_sf (c m n : Word) (s : State) : (setHs c m n s).sf = s.sf := rfl
@[simp] theorem setHs_lt (c m n : Word) (s : State) : (setHs c m n s).lt = s.lt := rfl
@[simp] theorem setHs_dm (c m n : Word) (s : State) : (setHs c m n s).dm = s.dm := rfl
@[simp] theorem setHs_sync (c m n : Word) (s : State) :
    (setHs c m n s).sync =
      { s.sync with hsCount := c, hsMiss := m, sinceHs := n } := rfl
@[simp] theorem setHs_gen (c m n : Word) (s : State) : (setHs c m n s).gen = s.gen := rfl
@[simp] theorem setHs_sybuf (c m n : Word) (s : State) : (setHs c m n s).sybuf = s.sybuf := rfl
@[simp] theorem setHs_syq (c m n : Word) (s : State) : (setHs c m n s).syq = s.syq := rfl
@[simp] theorem setHs_fault (c m n : Word) (s : State) : (setHs c m n s).fault = s.fault := rfl
@[simp] theorem setHs_cfgErr (c m n : Word) (s : State) : (setHs c m n s).cfgErr = s.cfgErr := rfl
@[simp] theorem setHs_io (c m n : Word) (s : State) : (setHs c m n s).io = s.io := rfl

/-! ## `setVs` (R32) -/

@[simp] theorem setVs_nco (c m n : Word) (s : State) : (setVs c m n s).nco = s.nco := rfl
@[simp] theorem setVs_rc (c m n : Word) (s : State) : (setVs c m n s).rc = s.rc := rfl
@[simp] theorem setVs_sf (c m n : Word) (s : State) : (setVs c m n s).sf = s.sf := rfl
@[simp] theorem setVs_lt (c m n : Word) (s : State) : (setVs c m n s).lt = s.lt := rfl
@[simp] theorem setVs_dm (c m n : Word) (s : State) : (setVs c m n s).dm = s.dm := rfl
@[simp] theorem setVs_sync (c m n : Word) (s : State) :
    (setVs c m n s).sync =
      { s.sync with vsCount := c, vsMiss := m, linesSinceVs := n } := rfl
@[simp] theorem setVs_gen (c m n : Word) (s : State) : (setVs c m n s).gen = s.gen := rfl
@[simp] theorem setVs_sybuf (c m n : Word) (s : State) : (setVs c m n s).sybuf = s.sybuf := rfl
@[simp] theorem setVs_syq (c m n : Word) (s : State) : (setVs c m n s).syq = s.syq := rfl
@[simp] theorem setVs_fault (c m n : Word) (s : State) : (setVs c m n s).fault = s.fault := rfl
@[simp] theorem setVs_cfgErr (c m n : Word) (s : State) : (setVs c m n s).cfgErr = s.cfgErr := rfl
@[simp] theorem setVs_io (c m n : Word) (s : State) : (setVs c m n s).io = s.io := rfl

/-! ## `recordAmp` (R220) -/

@[simp] theorem recordAmp_nco (raw : Fx) (s : State) : (recordAmp raw s).nco = s.nco := rfl
@[simp] theorem recordAmp_rc (raw : Fx) (s : State) : (recordAmp raw s).rc = s.rc := rfl
@[simp] theorem recordAmp_sf (raw : Fx) (s : State) : (recordAmp raw s).sf = s.sf := rfl
@[simp] theorem recordAmp_lt (raw : Fx) (s : State) : (recordAmp raw s).lt = s.lt := rfl
@[simp] theorem recordAmp_dm (raw : Fx) (s : State) : (recordAmp raw s).dm = s.dm := rfl
@[simp] theorem recordAmp_sync (raw : Fx) (s : State) :
    (recordAmp raw s).sync =
      { s.sync with ampMin := fxMin s.sync.ampMin raw, ampMax := fxMax s.sync.ampMax raw } := rfl
@[simp] theorem recordAmp_gen (raw : Fx) (s : State) : (recordAmp raw s).gen = s.gen := rfl
@[simp] theorem recordAmp_sybuf (raw : Fx) (s : State) : (recordAmp raw s).sybuf = s.sybuf := rfl
@[simp] theorem recordAmp_syq (raw : Fx) (s : State) : (recordAmp raw s).syq = s.syq := rfl
@[simp] theorem recordAmp_fault (raw : Fx) (s : State) : (recordAmp raw s).fault = s.fault := rfl
@[simp] theorem recordAmp_cfgErr (raw : Fx) (s : State) : (recordAmp raw s).cfgErr = s.cfgErr := rfl
@[simp] theorem recordAmp_io (raw : Fx) (s : State) : (recordAmp raw s).io = s.io := rfl

/-! ## `storeSample` (R220) -/

@[simp] theorem storeSample_nco (n : Fx) (s : State) : (storeSample n s).nco = s.nco := rfl
@[simp] theorem storeSample_rc (n : Fx) (s : State) : (storeSample n s).rc = s.rc := rfl
@[simp] theorem storeSample_sf (n : Fx) (s : State) : (storeSample n s).sf = s.sf := rfl
@[simp] theorem storeSample_lt (n : Fx) (s : State) : (storeSample n s).lt = s.lt := rfl
@[simp] theorem storeSample_dm (n : Fx) (s : State) :
    (storeSample n s).dm =
      { s.dm with line := sparseSet 0#32 SPL_MAX s.dm.line s.sync.col.toNat n } := rfl
@[simp] theorem storeSample_sync (n : Fx) (s : State) :
    (storeSample n s).sync =
      { s.sync with lineSum := sat64 (s.sync.lineSum.toInt + n.toInt) } := rfl
@[simp] theorem storeSample_gen (n : Fx) (s : State) : (storeSample n s).gen = s.gen := rfl
@[simp] theorem storeSample_sybuf (n : Fx) (s : State) : (storeSample n s).sybuf = s.sybuf := rfl
@[simp] theorem storeSample_syq (n : Fx) (s : State) : (storeSample n s).syq = s.syq := rfl
@[simp] theorem storeSample_fault (n : Fx) (s : State) : (storeSample n s).fault = s.fault := rfl
@[simp] theorem storeSample_cfgErr (n : Fx) (s : State) : (storeSample n s).cfgErr = s.cfgErr := rfl
@[simp] theorem storeSample_io (n : Fx) (s : State) : (storeSample n s).io = s.io := rfl

/-! ## `nextRow` (R241) -/

@[simp] theorem nextRow_nco (s : State) : (nextRow s).nco = s.nco := rfl
@[simp] theorem nextRow_rc (s : State) : (nextRow s).rc = s.rc := rfl
@[simp] theorem nextRow_sf (s : State) : (nextRow s).sf = s.sf := rfl
@[simp] theorem nextRow_lt (s : State) : (nextRow s).lt = s.lt := rfl
@[simp] theorem nextRow_dm (s : State) : (nextRow s).dm = s.dm := rfl
@[simp] theorem nextRow_sync (s : State) :
    (nextRow s).sync =
      { s.sync with col := 0#32, lineSum := 0#64, row := satInc s.sync.row } := rfl
@[simp] theorem nextRow_gen (s : State) : (nextRow s).gen = s.gen := rfl
@[simp] theorem nextRow_sybuf (s : State) : (nextRow s).sybuf = s.sybuf := rfl
@[simp] theorem nextRow_syq (s : State) : (nextRow s).syq = s.syq := rfl
@[simp] theorem nextRow_fault (s : State) : (nextRow s).fault = s.fault := rfl
@[simp] theorem nextRow_cfgErr (s : State) : (nextRow s).cfgErr = s.cfgErr := rfl
@[simp] theorem nextRow_io (s : State) : (nextRow s).io = s.io := rfl

/-! ## `emitLine` (R241, R242) -/

@[simp] theorem emitLine_nco (s : State) : (emitLine s).nco = s.nco := by unfold emitLine; split <;> rfl
@[simp] theorem emitLine_rc (s : State) : (emitLine s).rc = s.rc := by unfold emitLine; split <;> rfl
@[simp] theorem emitLine_sf (s : State) : (emitLine s).sf = s.sf := by unfold emitLine; split <;> rfl
@[simp] theorem emitLine_lt (s : State) : (emitLine s).lt = s.lt := by unfold emitLine; split <;> rfl
@[simp] theorem emitLine_dm (s : State) : (emitLine s).dm = s.dm := by unfold emitLine; split <;> rfl
@[simp] theorem emitLine_sync (s : State) : (emitLine s).sync = s.sync := by unfold emitLine; split <;> rfl
@[simp] theorem emitLine_gen (s : State) : (emitLine s).gen = s.gen := by unfold emitLine; split <;> rfl
@[simp] theorem emitLine_sybuf (s : State) : (emitLine s).sybuf = s.sybuf := by unfold emitLine; split <;> rfl
@[simp] theorem emitLine_syq (s : State) : (emitLine s).syq = s.syq := by unfold emitLine; split <;> rfl
@[simp] theorem emitLine_fault (s : State) : (emitLine s).fault = s.fault := by unfold emitLine; split <;> rfl
@[simp] theorem emitLine_cfgErr (s : State) : (emitLine s).cfgErr = s.cfgErr := by unfold emitLine; split <;> rfl
@[simp] theorem emitLine_io_cmd (s : State) : (emitLine s).io.cmd = s.io.cmd := by unfold emitLine; split <;> rfl
@[simp] theorem emitLine_io_rsp (s : State) : (emitLine s).io.rsp = s.io.rsp := by unfold emitLine; split <;> rfl
@[simp] theorem emitLine_io_evt (s : State) : (emitLine s).io.evt = s.io.evt := by unfold emitLine; split <;> rfl
@[simp] theorem emitLine_io_pix (s : State) :
    (emitLine s).io.pix =
      s.io.pix ++ (if s.sync.row.toNat < s.dm.d.rowsDisp.toNat then [.line s.sync.row s.dm.frames (lineSamples s)] else []) := by
  unfold emitLine; split <;> simp_all
@[simp] theorem emitLine_io_timerIn (s : State) : (emitLine s).io.timerIn = s.io.timerIn := by unfold emitLine; split <;> rfl
@[simp] theorem emitLine_io_timerReads (s : State) : (emitLine s).io.timerReads = s.io.timerReads := by unfold emitLine; split <;> rfl
@[simp] theorem emitLine_io_resetIn (s : State) : (emitLine s).io.resetIn = s.io.resetIn := by unfold emitLine; split <;> rfl

/-! ## `frameDone` (R244) -/

@[simp] theorem frameDone_nco (s : State) : (frameDone s).nco = s.nco := rfl
@[simp] theorem frameDone_rc (s : State) : (frameDone s).rc = s.rc := rfl
@[simp] theorem frameDone_sf (s : State) : (frameDone s).sf = s.sf := rfl
@[simp] theorem frameDone_lt (s : State) : (frameDone s).lt = s.lt := rfl
@[simp] theorem frameDone_dm (s : State) : (frameDone s).dm = { s.dm with frames := s.dm.frames + 1 } := rfl
@[simp] theorem frameDone_gen (s : State) : (frameDone s).gen = s.gen := rfl
@[simp] theorem frameDone_sybuf (s : State) : (frameDone s).sybuf = s.sybuf := rfl
@[simp] theorem frameDone_syq (s : State) : (frameDone s).syq = s.syq := rfl
@[simp] theorem frameDone_fault (s : State) : (frameDone s).fault = s.fault := rfl
@[simp] theorem frameDone_cfgErr (s : State) : (frameDone s).cfgErr = s.cfgErr := rfl
@[simp] theorem frameDone_io_cmd (s : State) : (frameDone s).io.cmd = s.io.cmd := rfl
@[simp] theorem frameDone_io_rsp (s : State) : (frameDone s).io.rsp = s.io.rsp := rfl
@[simp] theorem frameDone_io_evt (s : State) : (frameDone s).io.evt = s.io.evt := rfl
@[simp] theorem frameDone_io_pix (s : State) :
    (frameDone s).io.pix =
      s.io.pix ++ [.frame s.dm.frames s.dm.d.rowsDisp] := rfl
@[simp] theorem frameDone_io_timerIn (s : State) : (frameDone s).io.timerIn = s.io.timerIn := rfl
@[simp] theorem frameDone_io_timerReads (s : State) : (frameDone s).io.timerReads = s.io.timerReads := rfl
@[simp] theorem frameDone_io_resetIn (s : State) : (frameDone s).io.resetIn = s.io.resetIn := rfl

/-! ## `reportRate` (R341) -/

@[simp] theorem reportRate_nco (s : State) : (reportRate s).nco = s.nco := by unfold reportRate; split <;> rfl
@[simp] theorem reportRate_rc (s : State) : (reportRate s).rc = s.rc := by unfold reportRate; split <;> rfl
@[simp] theorem reportRate_sf (s : State) : (reportRate s).sf = s.sf := by unfold reportRate; split <;> rfl
@[simp] theorem reportRate_lt (s : State) : (reportRate s).lt = s.lt := by unfold reportRate; split <;> rfl
@[simp] theorem reportRate_dm (s : State) : (reportRate s).dm = { s.dm with rateReported := s.dm.d.effRate } := by
  unfold reportRate; split <;> simp_all
@[simp] theorem reportRate_sync (s : State) : (reportRate s).sync = s.sync := by unfold reportRate; split <;> rfl
@[simp] theorem reportRate_gen (s : State) : (reportRate s).gen = s.gen := by unfold reportRate; split <;> rfl
@[simp] theorem reportRate_sybuf (s : State) : (reportRate s).sybuf = s.sybuf := by unfold reportRate; split <;> rfl
@[simp] theorem reportRate_syq (s : State) : (reportRate s).syq = s.syq := by unfold reportRate; split <;> rfl
@[simp] theorem reportRate_fault (s : State) : (reportRate s).fault = s.fault := by unfold reportRate; split <;> rfl
@[simp] theorem reportRate_cfgErr (s : State) : (reportRate s).cfgErr = s.cfgErr := by unfold reportRate; split <;> rfl
@[simp] theorem reportRate_io_cmd (s : State) : (reportRate s).io.cmd = s.io.cmd := by unfold reportRate; split <;> rfl
@[simp] theorem reportRate_io_rsp (s : State) : (reportRate s).io.rsp = s.io.rsp := by unfold reportRate; split <;> rfl
@[simp] theorem reportRate_io_evt (s : State) :
    (reportRate s).io.evt =
      s.io.evt ++ (if s.dm.d.effRate = s.dm.rateReported then [] else [.rate s.dm.d.effRate]) := by
  unfold reportRate; split <;> simp_all
@[simp] theorem reportRate_io_pix (s : State) : (reportRate s).io.pix = s.io.pix := by unfold reportRate; split <;> rfl
@[simp] theorem reportRate_io_timerIn (s : State) : (reportRate s).io.timerIn = s.io.timerIn := by unfold reportRate; split <;> rfl
@[simp] theorem reportRate_io_timerReads (s : State) : (reportRate s).io.timerReads = s.io.timerReads := by unfold reportRate; split <;> rfl
@[simp] theorem reportRate_io_resetIn (s : State) : (reportRate s).io.resetIn = s.io.resetIn := by unfold reportRate; split <;> rfl

/-! ## `dmProgramUnits` (R341) -/

@[simp] theorem dmProgramUnits_rc (s : State) :
    (dmProgramUnits s).rc =
      rcSetRatio (rcRatio s.dm.cur.stream.inRateHz.toNat s.dm.d.effRate.toNat) s.rc := rfl
@[simp] theorem dmProgramUnits_sf (s : State) :
    (dmProgramUnits s).sf =
      sfSetMask (sfMaskgen s.dm.cur.rf.modKind.sfMode s.dm.cur.rf.rfBwHz s.dm.cur.rf.oppBwHz s.dm.d.effRate) s.sf := rfl
@[simp] theorem dmProgramUnits_lt (s : State) : (dmProgramUnits s).lt = s.lt := rfl
@[simp] theorem dmProgramUnits_dm (s : State) : (dmProgramUnits s).dm = s.dm := rfl
@[simp] theorem dmProgramUnits_sync (s : State) : (dmProgramUnits s).sync = s.sync := rfl
@[simp] theorem dmProgramUnits_gen (s : State) : (dmProgramUnits s).gen = s.gen := rfl
@[simp] theorem dmProgramUnits_sybuf (s : State) : (dmProgramUnits s).sybuf = s.sybuf := rfl
@[simp] theorem dmProgramUnits_syq (s : State) : (dmProgramUnits s).syq = s.syq := rfl
@[simp] theorem dmProgramUnits_fault (s : State) : (dmProgramUnits s).fault = s.fault := rfl
@[simp] theorem dmProgramUnits_cfgErr (s : State) : (dmProgramUnits s).cfgErr = s.cfgErr := rfl
@[simp] theorem dmProgramUnits_io (s : State) : (dmProgramUnits s).io = s.io := rfl

/-! ## `syProgram` (R294, R343) -/

@[simp] theorem syProgram_rc (b : GenBank) (s : State) : (syProgram b s).rc = s.rc := rfl
@[simp] theorem syProgram_sf (b : GenBank) (s : State) : (syProgram b s).sf = s.sf := rfl
@[simp] theorem syProgram_lt (b : GenBank) (s : State) : (syProgram b s).lt = s.lt := rfl
@[simp] theorem syProgram_dm (b : GenBank) (s : State) : (syProgram b s).dm = s.dm := rfl
@[simp] theorem syProgram_sync (b : GenBank) (s : State) : (syProgram b s).sync = s.sync := rfl
@[simp] theorem syProgram_gen (b : GenBank) (s : State) : (syProgram b s).gen = { s.gen with d := syDerive b } := rfl
@[simp] theorem syProgram_sybuf (b : GenBank) (s : State) : (syProgram b s).sybuf = s.sybuf := rfl
@[simp] theorem syProgram_syq (b : GenBank) (s : State) : (syProgram b s).syq = s.syq := rfl
@[simp] theorem syProgram_fault (b : GenBank) (s : State) : (syProgram b s).fault = s.fault := rfl
@[simp] theorem syProgram_cfgErr (b : GenBank) (s : State) : (syProgram b s).cfgErr = s.cfgErr := rfl
@[simp] theorem syProgram_io (b : GenBank) (s : State) : (syProgram b s).io = s.io := rfl

/-! ## `syApply` (R343) -/

@[simp] theorem syApply_rc (s : State) : (syApply s).rc = s.rc := rfl
@[simp] theorem syApply_sf (s : State) : (syApply s).sf = s.sf := rfl
@[simp] theorem syApply_lt (s : State) : (syApply s).lt = s.lt := rfl
@[simp] theorem syApply_dm (s : State) : (syApply s).dm = s.dm := rfl
@[simp] theorem syApply_sync (s : State) : (syApply s).sync = s.sync := rfl
@[simp] theorem syApply_gen (s : State) :
    (syApply s).gen =
      { s.gen with pndF := false, cur := s.gen.pnd, val := true, d := syDerive s.gen.pnd } := rfl
@[simp] theorem syApply_sybuf (s : State) : (syApply s).sybuf = s.sybuf := rfl
@[simp] theorem syApply_syq (s : State) : (syApply s).syq = s.syq := rfl
@[simp] theorem syApply_fault (s : State) : (syApply s).fault = s.fault := rfl
@[simp] theorem syApply_cfgErr (s : State) : (syApply s).cfgErr = s.cfgErr := rfl
@[simp] theorem syApply_io (s : State) : (syApply s).io = s.io := rfl

/-! ## `timerAdvance` (R395) -/

@[simp] theorem timerAdvance_nco (s : State) : (timerAdvance s).nco = s.nco := by unfold timerAdvance; split <;> rfl
@[simp] theorem timerAdvance_rc (s : State) : (timerAdvance s).rc = s.rc := by unfold timerAdvance; split <;> rfl
@[simp] theorem timerAdvance_sf (s : State) : (timerAdvance s).sf = s.sf := by unfold timerAdvance; split <;> rfl
@[simp] theorem timerAdvance_lt (s : State) : (timerAdvance s).lt = s.lt := by unfold timerAdvance; split <;> rfl
@[simp] theorem timerAdvance_dm (s : State) : (timerAdvance s).dm = s.dm := by unfold timerAdvance; split <;> rfl
@[simp] theorem timerAdvance_sync (s : State) : (timerAdvance s).sync = s.sync := by unfold timerAdvance; split <;> rfl
@[simp] theorem timerAdvance_gen (s : State) : (timerAdvance s).gen = s.gen := by unfold timerAdvance; split <;> rfl
@[simp] theorem timerAdvance_sybuf (s : State) : (timerAdvance s).sybuf = s.sybuf := by unfold timerAdvance; split <;> rfl
@[simp] theorem timerAdvance_syq (s : State) : (timerAdvance s).syq = s.syq := by unfold timerAdvance; split <;> rfl
@[simp] theorem timerAdvance_fault (s : State) : (timerAdvance s).fault = s.fault := by unfold timerAdvance; split <;> rfl
@[simp] theorem timerAdvance_cfgErr (s : State) : (timerAdvance s).cfgErr = s.cfgErr := by unfold timerAdvance; split <;> rfl
@[simp] theorem timerAdvance_io_cmd (s : State) : (timerAdvance s).io.cmd = s.io.cmd := by unfold timerAdvance; split <;> rfl
@[simp] theorem timerAdvance_io_rsp (s : State) : (timerAdvance s).io.rsp = s.io.rsp := by unfold timerAdvance; split <;> rfl
@[simp] theorem timerAdvance_io_evt (s : State) : (timerAdvance s).io.evt = s.io.evt := by unfold timerAdvance; split <;> rfl
@[simp] theorem timerAdvance_io_pix (s : State) : (timerAdvance s).io.pix = s.io.pix := by unfold timerAdvance; split <;> rfl
@[simp] theorem timerAdvance_io_timerIn (s : State) : (timerAdvance s).io.timerIn = s.io.timerIn.tail := by
  unfold timerAdvance; split <;> simp_all
@[simp] theorem timerAdvance_io_resetIn (s : State) : (timerAdvance s).io.resetIn = s.io.resetIn := by unfold timerAdvance; split <;> rfl

/-! ## `syTickAdvance` (R295) -/

@[simp] theorem syTickAdvance_nco (s : State) : (syTickAdvance s).nco = s.nco := by
  unfold syTickAdvance; simp
@[simp] theorem syTickAdvance_rc (s : State) : (syTickAdvance s).rc = s.rc := by
  unfold syTickAdvance; simp
@[simp] theorem syTickAdvance_sf (s : State) : (syTickAdvance s).sf = s.sf := by
  unfold syTickAdvance; simp
@[simp] theorem syTickAdvance_lt (s : State) : (syTickAdvance s).lt = s.lt := by
  unfold syTickAdvance; simp
@[simp] theorem syTickAdvance_dm (s : State) : (syTickAdvance s).dm = s.dm := by
  unfold syTickAdvance; simp
@[simp] theorem syTickAdvance_sync (s : State) : (syTickAdvance s).sync = s.sync := by
  unfold syTickAdvance; simp
@[simp] theorem syTickAdvance_gen (s : State) :
    (syTickAdvance s).gen =
      { s.gen with lastTime := timerNow s, toggle := !s.gen.toggle } := by
  unfold syTickAdvance; simp
@[simp] theorem syTickAdvance_sybuf (s : State) : (syTickAdvance s).sybuf = s.sybuf := by
  unfold syTickAdvance; simp
@[simp] theorem syTickAdvance_syq (s : State) : (syTickAdvance s).syq = s.syq := by
  unfold syTickAdvance; simp
@[simp] theorem syTickAdvance_fault (s : State) : (syTickAdvance s).fault = s.fault := by
  unfold syTickAdvance; simp
@[simp] theorem syTickAdvance_cfgErr (s : State) : (syTickAdvance s).cfgErr = s.cfgErr := by
  unfold syTickAdvance; simp
@[simp] theorem syTickAdvance_io_cmd (s : State) : (syTickAdvance s).io.cmd = s.io.cmd := by
  unfold syTickAdvance; simp
@[simp] theorem syTickAdvance_io_rsp (s : State) : (syTickAdvance s).io.rsp = s.io.rsp := by
  unfold syTickAdvance; simp
@[simp] theorem syTickAdvance_io_evt (s : State) : (syTickAdvance s).io.evt = s.io.evt := by
  unfold syTickAdvance; simp
@[simp] theorem syTickAdvance_io_pix (s : State) : (syTickAdvance s).io.pix = s.io.pix := by
  unfold syTickAdvance; simp
@[simp] theorem syTickAdvance_io_timerIn (s : State) : (syTickAdvance s).io.timerIn = s.io.timerIn.tail := by
  unfold syTickAdvance; simp
@[simp] theorem syTickAdvance_io_resetIn (s : State) : (syTickAdvance s).io.resetIn = s.io.resetIn := by
  unfold syTickAdvance; simp

/-! ## `syCreate` (R346) -/

@[simp] theorem syCreate_rc (s : State) : (syCreate s).rc = s.rc := by
  unfold syCreate; simp
@[simp] theorem syCreate_sf (s : State) : (syCreate s).sf = s.sf := by
  unfold syCreate; simp
@[simp] theorem syCreate_lt (s : State) : (syCreate s).lt = s.lt := by
  unfold syCreate; simp
@[simp] theorem syCreate_dm (s : State) : (syCreate s).dm = s.dm := by
  unfold syCreate; simp
@[simp] theorem syCreate_sync (s : State) : (syCreate s).sync = s.sync := by
  unfold syCreate; simp
@[simp] theorem syCreate_gen (s : State) :
    (syCreate s).gen =
      { s.gen with d := syDerive s.gen.cur, fmDev := 0#32, toggle := false, lastTime := timerNow s } := by
  unfold syCreate; simp
@[simp] theorem syCreate_sybuf (s : State) : (syCreate s).sybuf = s.sybuf := by
  unfold syCreate; simp
@[simp] theorem syCreate_syq (s : State) : (syCreate s).syq = s.syq := by
  unfold syCreate; simp
@[simp] theorem syCreate_fault (s : State) : (syCreate s).fault = s.fault := by
  unfold syCreate; simp
@[simp] theorem syCreate_cfgErr (s : State) : (syCreate s).cfgErr = s.cfgErr := by
  unfold syCreate; simp
@[simp] theorem syCreate_io_cmd (s : State) : (syCreate s).io.cmd = s.io.cmd := by
  unfold syCreate; simp
@[simp] theorem syCreate_io_rsp (s : State) : (syCreate s).io.rsp = s.io.rsp := by
  unfold syCreate; simp
@[simp] theorem syCreate_io_evt (s : State) : (syCreate s).io.evt = s.io.evt := by
  unfold syCreate; simp
@[simp] theorem syCreate_io_pix (s : State) : (syCreate s).io.pix = s.io.pix := by
  unfold syCreate; simp
@[simp] theorem syCreate_io_timerIn (s : State) : (syCreate s).io.timerIn = s.io.timerIn.tail := by
  unfold syCreate; simp
@[simp] theorem syCreate_io_resetIn (s : State) : (syCreate s).io.resetIn = s.io.resetIn := by
  unfold syCreate; simp

/-! ## Reset (R353, R410) -/

@[simp] theorem resetCore_io (s : State) : (resetCore s).io = s.io := rfl

theorem resetCore_eq (s : State) : resetCore s = { State.reset with io := s.io } := rfl

end Sys2Proof.Machine
end

