-- ==== Sys2Proof/Laws/Ports.lean ====
section
/-! SUPPORT. The ports: every shared operation only appends to the histories and never reads them or CMD (spec/10_state.md
R40; spec/20_memory.md R85), one lemma per operation. -/

namespace Sys2Proof.Machine
open Config

/-- The state with the words waiting on CMD and the three histories replaced. -/
def ports (c : List Word) (r : List Response) (e : List Event) (p : List Pixel) (s : State) : State :=
  { s with io := { s.io with cmd := c, rsp := r, evt := e, pix := p } }

theorem ports_self (s : State) : ports s.io.cmd s.io.rsp s.io.evt s.io.pix s = s := rfl

/-- Replacing CMD and the histories commutes with an operation but for the records it appends. -/
def Appends (f : State → State) : Prop :=
  ∀ s, ∃ (evs : List Event) (pxs : List Pixel), ∀ c r e p,
    f (ports c r e p s) = ports c r (e ++ evs) (p ++ pxs) (f s)

theorem Appends.of_none {f : State → State} (h : ∀ c r e p s, f (ports c r e p s) = ports c r e p (f s)) :
    Appends f := fun s => ⟨[], [], fun c r e p => by rw [h, List.append_nil, List.append_nil]⟩

theorem Appends.id : Appends fun s => s := .of_none fun _ _ _ _ _ => rfl

theorem Appends.comp {f g : State → State} (hf : Appends f) (hg : Appends g) : Appends fun s => g (f s) := by
  intro s
  obtain ⟨e1, p1, h1⟩ := hf s
  obtain ⟨e2, p2, h2⟩ := hg (f s)
  refine ⟨e1 ++ e2, p1 ++ p2, fun c r e p => ?_⟩
  dsimp only
  rw [h1, h2, List.append_assoc, List.append_assoc]

theorem Appends.ite {f g : State → State} (hf : Appends f) (hg : Appends g) (b : State → Prop) [DecidablePred b]
    (hb : ∀ c r e p s, b (ports c r e p s) ↔ b s) : Appends fun s => if b s then f s else g s := by
  intro s
  by_cases h : b s
  · obtain ⟨e1, p1, h1⟩ := hf s
    refine ⟨e1, p1, fun c r e p => ?_⟩
    dsimp only
    rw [if_pos h, if_pos ((hb c r e p s).2 h), h1]
  · obtain ⟨e1, p1, h1⟩ := hg s
    refine ⟨e1, p1, fun c r e p => ?_⟩
    dsimp only
    rw [if_neg h, if_neg (fun h' => h ((hb c r e p s).1 h')), h1]

/-- The histories after an operation that appends. -/
theorem Appends.io {f : State → State} (hf : Appends f) (s : State) :
    ∃ (evs : List Event) (pxs : List Pixel), (f s).io.cmd = s.io.cmd ∧ (f s).io.rsp = s.io.rsp ∧
      (f s).io.evt = s.io.evt ++ evs ∧ (f s).io.pix = s.io.pix ++ pxs ∧
      ∀ c r e p, f (ports c r e p s) = ports c r (e ++ evs) (p ++ pxs) (f s) := by
  obtain ⟨e1, p1, h⟩ := hf s
  have h0 := h s.io.cmd s.io.rsp s.io.evt s.io.pix
  rw [ports_self] at h0
  exact ⟨e1, p1, by rw [h0]; rfl, by rw [h0]; rfl, by rw [h0]; rfl, by rw [h0]; rfl, h⟩

/-! ## Shared operations -/

theorem appends_emitEvt (ev : State → Event) (h : ∀ c r e p s, ev (ports c r e p s) = ev s) :
    Appends fun s => emitEvt (ev s) s := by
  intro s
  refine ⟨[ev s], [], fun c r e p => ?_⟩
  dsimp only
  rw [h]
  simp [emitEvt, ports]

theorem appends_emitPix (px : State → Pixel) (h : ∀ c r e p s, px (ports c r e p s) = px s) :
    Appends fun s => emitPix (px s) s := by
  intro s
  refine ⟨[], [px s], fun c r e p => ?_⟩
  dsimp only
  rw [h]
  simp [emitPix, ports]

theorem appends_setFsm (new : Fsm) : Appends (setFsm new) :=
  Appends.ite Appends.id ((appends_emitEvt (fun s => .state s.sync.fsm new) fun _ _ _ _ _ => rfl).comp
    (g := fun s => { s with sync := { s.sync with fsm := new } }) (.of_none fun _ _ _ _ _ => rfl)) _
    fun _ _ _ _ _ => Iff.rfl

theorem appends_toUnsync : Appends toUnsync :=
  Appends.ite (f := syncReset) (.of_none fun _ _ _ _ _ => rfl)
    ((appends_emitEvt (fun s => .state s.sync.fsm .unsynchronized) fun _ _ _ _ _ => rfl).comp
      (g := syncReset) (.of_none fun _ _ _ _ _ => rfl)) _ fun _ _ _ _ _ => Iff.rfl

theorem appends_countCfgErr (b : BankId) (q : Reason) : Appends (countCfgErr b q) :=
  Appends.comp (f := fun s => { s with cfgErr := satInc s.cfgErr }) (.of_none fun _ _ _ _ _ => rfl)
    (appends_emitEvt (fun _ => .cfgRej b q) fun _ _ _ _ _ => rfl)

theorem appends_raiseFault (b : FaultBit) : Appends (raiseFault b) :=
  Appends.comp
    (f := fun s => { s with fault := s.fault ||| (1#32 <<< b.code), gen := { s.gen with halted := true, active := false } })
    (.of_none fun _ _ _ _ _ => rfl) (appends_emitEvt (fun _ => .fault b) fun _ _ _ _ _ => rfl)

/-! ## Demodulation engine -/

theorem appends_reportRate : Appends reportRate :=
  Appends.ite Appends.id ((appends_emitEvt (fun s => .rate s.dm.d.effRate) fun _ _ _ _ _ => rfl).comp
    (g := fun s => { s with dm := { s.dm with rateReported := s.dm.d.effRate } }) (.of_none fun _ _ _ _ _ => rfl)) _
    fun _ _ _ _ _ => Iff.rfl

theorem dmProgramUnits_ports (c : List Word) (r : List Response) (e : List Event) (p : List Pixel) (s : State) :
    dmProgramUnits (ports c r e p s) = ports c r e p (dmProgramUnits s) := by
  simp only [ports, dmProgramUnits, setInc, setNco]

theorem appends_dmCommit (cand : DmBanks) (d : DmDerived) : Appends (dmCommit cand d) := by
  have hp : Appends fun s => dmProgramUnits { s with dm := { s.dm with cur := cand, val := .full, d := d } } :=
    Appends.comp (f := fun s => { s with dm := { s.dm with cur := cand, val := .full, d := d } })
      (.of_none fun _ _ _ _ _ => rfl) (.of_none dmProgramUnits_ports)
  exact (Appends.ite hp (hp.comp appends_toUnsync)
    (fun s => (s.dm.val.all && decide (timingKey d cand = timingKey s.dm.d s.dm.cur)) = true)
    fun _ _ _ _ _ => Iff.rfl).comp appends_reportRate

theorem appends_dmApply : Appends dmApply := by
  intro s
  unfold dmApply
  dsimp only [ports]
  by_cases h : (s.dm.val.or s.dm.pndF).all = true
  · simp only [h, if_true]
    cases hd : dmDerive (dmCandidate s.dm) with
    | error q => exact appends_countCfgErr .derived q { s with dm := { s.dm with pndF := .clear } }
    | ok d => exact appends_dmCommit (dmCandidate s.dm) d { s with dm := { s.dm with pndF := .clear } }
  · refine ⟨[], [], fun c r e p => ?_⟩
    rw [if_neg h, if_neg h, List.append_nil, List.append_nil]

theorem appends_dmSafePoint : Appends dmSafePoint :=
  Appends.ite (Appends.comp (f := fun s => { s with dm := { s.dm with active := false, stopReq := false } })
    (.of_none fun _ _ _ _ _ => rfl) (appends_emitEvt (fun _ => .stopped .demodulation) fun _ _ _ _ _ => rfl))
    (Appends.ite appends_dmApply Appends.id (fun s => s.dm.pndF.any = true) fun _ _ _ _ _ => Iff.rfl)
    (fun s => s.dm.stopReq = true) fun _ _ _ _ _ => Iff.rfl

theorem appends_dmCreate : Appends dmCreate :=
  (Appends.comp
    (f := fun s => { dmProgramUnits s with
      nco := (dmProgramUnits s).nco.set 0 { (dmProgramUnits s).nco[0] with phase := 0#32 }
      rc := rcReset (dmProgramUnits s).rc
      sf := sfClear (dmProgramUnits s).sf
      lt := .reset }) (.of_none fun c r e p s => by rw [dmProgramUnits_ports]; rfl) appends_toUnsync).comp
    (g := fun u => { u with dm := { u.dm with uh1 := cfxZero, uh2 := cfxZero, line := [], frames := 0#32 } })
    (.of_none fun _ _ _ _ _ => rfl)

theorem appends_dmRawStep (z : Cfx) : Appends (dmRawStep z) := by
  refine .of_none fun c r e p s => ?_
  unfold dmRawStep
  show (match s.dm.cur.rf.modKind with | .fm1 => _ | .fm2 => _ | .am => _ | .vsbU => _ | .vsbL => _) = _
  cases s.dm.cur.rf.modKind <;> rfl

theorem appends_hsUnsync (b : Bool) : Appends (hsUnsync b) := by
  cases b
  · exact Appends.id
  · exact (appends_setFsm .lineSyncSearching).comp (g := fun s => hsAlign (setHs 1#32 0#32 0#32 s))
      (.of_none fun _ _ _ _ _ => rfl)

theorem appends_hsSearch (b : Bool) : Appends (hsSearch b) := by
  cases b
  · exact Appends.id
  · refine Appends.ite ?_ (.of_none fun _ _ _ _ _ => rfl) (fun s => onCadence s.dm.d s.sync = true)
      fun _ _ _ _ _ => Iff.rfl
    have h1 : Appends fun s => hsAlign (setHs (satInc s.sync.hsCount) s.sync.hsMiss 0#32 s) :=
      .of_none fun _ _ _ _ _ => rfl
    have h2 : Appends fun t => setHs t.sync.hsCount 0#32 t.sync.sinceHs (setFsm .lineLocked t) := by
      intro t
      obtain ⟨evs, pxs, h⟩ := appends_setFsm .lineLocked t
      exact ⟨evs, pxs, fun c r e p =>
        congrArg (fun u : State => setHs t.sync.hsCount 0#32 t.sync.sinceHs u) (h c r e p)⟩
    exact h1.comp (Appends.ite h2 Appends.id (fun t => HS_LOCK_COUNT ≤ t.sync.hsCount.toNat) fun _ _ _ _ _ => Iff.rfl)

theorem appends_hsLocked (b : Bool) : Appends (hsLocked b) := by
  refine Appends.ite (.of_none fun _ _ _ _ _ => rfl) (Appends.ite ?_ Appends.id
    (fun s => s.sync.sinceHs.toNat = s.dm.d.spl.toNat + HS_TOL + 1) fun _ _ _ _ _ => Iff.rfl)
    (fun s => (b && onCadence s.dm.d s.sync) = true) fun _ _ _ _ _ => Iff.rfl
  have h1 : Appends fun s => setHs 0#32 (satInc s.sync.hsMiss) (s.sync.sinceHs - s.dm.d.spl) s :=
    .of_none fun _ _ _ _ _ => rfl
  exact h1.comp (Appends.ite appends_toUnsync Appends.id (fun t => HS_LOSS_COUNT ≤ t.sync.hsMiss.toNat)
    fun _ _ _ _ _ => Iff.rfl)

theorem appends_hsMachine (b : Bool) : Appends (hsMachine b) := by
  intro s
  unfold hsMachine
  dsimp only [ports]
  cases s.sync.fsm
  · exact appends_hsUnsync b s
  · exact appends_hsSearch b s
  · exact appends_hsLocked b s
  · exact appends_hsLocked b s
  · exact appends_hsLocked b s

theorem appends_hsStep (n : Fx) : Appends (hsStep n) := by
  intro s
  unfold hsStep
  dsimp only [ports]
  by_cases h : s.dm.cur.atv.hsyncEn = true
  swap
  · exact ⟨[], [], fun c r e p => by simp [h]⟩
  · simp only [h, if_true]
    exact appends_hsMachine (hsDetect s.dm.d (hsMajority s.dm.cur.atv.thrSyncTop (hsWindow n s.sync)))
      { s with sync := hsMajority s.dm.cur.atv.thrSyncTop (hsWindow n s.sync) }

/-- The same of an operation that also answers a value, which does not depend on the ports. -/
def AppendsV {α : Type} (f : State → α × State) : Prop :=
  ∀ s, ∃ (evs : List Event) (pxs : List Pixel), ∀ c r e p,
    f (ports c r e p s) = ((f s).1, ports c r (e ++ evs) (p ++ pxs) (f s).2)

theorem Appends.answer {α : Type} {f : State → State} (hf : Appends f) (a : α) : AppendsV fun s => (a, f s) := by
  intro s
  obtain ⟨evs, pxs, h⟩ := hf s
  exact ⟨evs, pxs, fun c r e p => congrArg (Prod.mk a) (h c r e p)⟩

theorem AppendsV.ite {α : Type} {f g : State → α × State} (hf : AppendsV f) (hg : AppendsV g) (b : State → Prop)
    [DecidablePred b] (hb : ∀ c r e p s, b (ports c r e p s) ↔ b s) : AppendsV fun s => if b s then f s else g s := by
  intro s
  by_cases h : b s
  · obtain ⟨e1, p1, h1⟩ := hf s
    refine ⟨e1, p1, fun c r e p => ?_⟩
    dsimp only
    rw [if_pos h, if_pos ((hb c r e p s).2 h), h1]
  · obtain ⟨e1, p1, h1⟩ := hg s
    refine ⟨e1, p1, fun c r e p => ?_⟩
    dsimp only
    rw [if_neg h, if_neg (fun h' => h ((hb c r e p s).1 h')), h1]

theorem appends_vsLineLocked (cand : Bool) : AppendsV (vsLineLocked cand) := by
  cases cand
  · exact Appends.id.answer _
  · exact ((appends_setFsm .frameSyncSearching).comp (g := setVs 1#32 0#32 0#32)
      (.of_none fun _ _ _ _ _ => rfl)).answer _

theorem appends_vsSearching (cand : Bool) : AppendsV (vsSearching cand) := by
  cases cand
  · exact Appends.id.answer _
  · have h1 : AppendsV fun s =>
        (VsAnswer.acc, setVs (satInc s.sync.vsCount) 0#32 0#32 (setFsm .frameLocked s)) := by
      intro s
      obtain ⟨evs, pxs, h⟩ := appends_setFsm .frameLocked s
      exact ⟨evs, pxs, fun c r e p => congrArg (fun t => (VsAnswer.acc, setVs (satInc s.sync.vsCount) 0#32 0#32 t))
        (h c r e p)⟩
    have h2 : AppendsV fun s => (VsAnswer.acc, setVs (satInc s.sync.vsCount) s.sync.vsMiss 0#32 s) :=
      Appends.answer (.of_none fun _ _ _ _ _ => rfl) _
    have h3 : AppendsV fun s => (VsAnswer.acc, setVs 1#32 s.sync.vsMiss 0#32 s) :=
      Appends.answer (.of_none fun _ _ _ _ _ => rfl) _
    exact AppendsV.ite (AppendsV.ite h1 h2 (fun s => VS_LOCK_COUNT ≤ (satInc s.sync.vsCount).toNat)
      fun _ _ _ _ _ => Iff.rfl) h3 (fun s => onFrame s.dm.d s.sync = true) fun _ _ _ _ _ => Iff.rfl

theorem appends_vsFrameLocked (cand : Bool) : AppendsV (vsFrameLocked cand) := by
  have h0 : AppendsV fun s => (VsAnswer.acc, setVs (satInc s.sync.vsCount) 0#32 0#32 s) :=
    Appends.answer (.of_none fun _ _ _ _ _ => rfl) _
  have h1 : Appends fun s => setVs 0#32 (satInc s.sync.vsMiss) (s.sync.linesSinceVs - s.dm.d.lpf) s :=
    .of_none fun _ _ _ _ _ => rfl
  exact AppendsV.ite h0 (AppendsV.ite (AppendsV.ite ((h1.comp appends_toUnsync).answer _) (h1.answer _)
    (fun s => VS_LOSS_COUNT ≤ (satInc s.sync.vsMiss).toNat) fun _ _ _ _ _ => Iff.rfl) (Appends.id.answer _)
    (fun s => s.sync.linesSinceVs.toNat = s.dm.d.lpf.toNat + VS_TOL + 1) fun _ _ _ _ _ => Iff.rfl)
    (fun s => (cand && onFrame s.dm.d s.sync) = true) fun _ _ _ _ _ => Iff.rfl

/-- The state `vs_step` decides in: the line counted and its level kept (R243). -/
def vsCounted (avg : Int) (s : State) : State :=
  { s with sync := { s.sync with vsPrev := vsLevel avg s.dm.cur.atv.thrBlack, linesSinceVs := satInc s.sync.linesSinceVs } }

theorem vsStep_eq (avg : Int) (s : State) :
    vsStep avg s = match s.sync.fsm with
      | .unsynchronized => (.none, vsCounted avg s)
      | .lineSyncSearching => (.none, vsCounted avg s)
      | .lineLocked => vsLineLocked (vsLevel avg s.dm.cur.atv.thrBlack && !s.sync.vsPrev) (vsCounted avg s)
      | .frameSyncSearching => vsSearching (vsLevel avg s.dm.cur.atv.thrBlack && !s.sync.vsPrev) (vsCounted avg s)
      | .frameLocked => vsFrameLocked (vsLevel avg s.dm.cur.atv.thrBlack && !s.sync.vsPrev) (vsCounted avg s) := rfl

theorem appends_vsStep (avg : Int) : AppendsV (vsStep avg) := by
  intro s
  rw [vsStep_eq]
  have hs : ∀ c r e p, vsStep avg (ports c r e p s) = match s.sync.fsm with
      | .unsynchronized => (.none, ports c r e p (vsCounted avg s))
      | .lineSyncSearching => (.none, ports c r e p (vsCounted avg s))
      | .lineLocked =>
        vsLineLocked (vsLevel avg s.dm.cur.atv.thrBlack && !s.sync.vsPrev) (ports c r e p (vsCounted avg s))
      | .frameSyncSearching =>
        vsSearching (vsLevel avg s.dm.cur.atv.thrBlack && !s.sync.vsPrev) (ports c r e p (vsCounted avg s))
      | .frameLocked =>
        vsFrameLocked (vsLevel avg s.dm.cur.atv.thrBlack && !s.sync.vsPrev) (ports c r e p (vsCounted avg s)) :=
    fun _ _ _ _ => rfl
  simp only [hs]
  cases s.sync.fsm
  · exact Appends.id.answer VsAnswer.none (vsCounted avg s)
  · exact Appends.id.answer VsAnswer.none (vsCounted avg s)
  · exact appends_vsLineLocked _ _
  · exact appends_vsSearching _ _
  · exact appends_vsFrameLocked _ _

theorem appends_frameDone : Appends frameDone := by
  refine (appends_emitPix (fun s => .frame s.dm.frames s.dm.d.rowsDisp) fun _ _ _ _ _ => rfl).comp
    (g := fun t => { t with
      dm := { t.dm with frames := t.dm.frames + 1 }
      sync := { t.sync with
        row := 0#32
        effMin := t.sync.ampMin
        effDelta := if 0 < t.sync.ampMax.toInt - t.sync.ampMin.toInt then
          sat (t.sync.ampMax.toInt - t.sync.ampMin.toInt) else BitVec.ofInt FX_W ONE
        ampMin := BitVec.ofInt FX_W FX_MAX
        ampMax := BitVec.ofInt FX_W FX_MIN } }) (.of_none fun _ _ _ _ _ => rfl)

theorem appends_emitLine : Appends emitLine :=
  Appends.ite (appends_emitPix (fun s => .line s.sync.row s.dm.frames (lineSamples s)) fun _ _ _ _ _ => rfl)
    Appends.id (fun s => s.sync.row.toNat < s.dm.d.rowsDisp.toNat) fun _ _ _ _ _ => Iff.rfl

theorem appends_lineEnd (v : VsAnswer) : Appends (lineEnd v) :=
  Appends.ite Appends.id (Appends.ite appends_frameDone
    (Appends.ite (.of_none fun _ _ _ _ _ => rfl) Appends.id (fun _ => v = .acc) fun _ _ _ _ _ => Iff.rfl)
    (fun s => s.dm.d.lpf.toNat ≤ s.sync.row.toNat ∨ (v = .acc ∧ VS_TOL < s.sync.row.toNat)) fun _ _ _ _ _ => Iff.rfl)
    (fun _ => v = .lost) fun _ _ _ _ _ => Iff.rfl

theorem appends_lineDone : Appends lineDone := by
  intro s
  obtain ⟨e1, p1, h1⟩ := (appends_emitLine.comp (g := nextRow) (.of_none fun _ _ _ _ _ => rfl)) s
  obtain ⟨e2, p2, h2⟩ := appends_vsStep (lineAverage s) (nextRow (emitLine s))
  obtain ⟨e3, p3, h3⟩ := appends_lineEnd (vsStep (lineAverage s) (nextRow (emitLine s))).1
    (vsStep (lineAverage s) (nextRow (emitLine s))).2
  obtain ⟨e4, p4, h4⟩ := appends_lineEnd .none (nextRow (emitLine s))
  by_cases h : (s.dm.cur.atv.vsyncEn && s.sync.fsm.locked) = true
  · refine ⟨e1 ++ e2 ++ e3, p1 ++ p2 ++ p3, fun c r e p => ?_⟩
    have ha : lineAverage (ports c r e p s) = lineAverage s := rfl
    have hb : ((ports c r e p s).dm.cur.atv.vsyncEn && (ports c r e p s).sync.fsm.locked) = true := h
    unfold lineDone
    dsimp only at h1 h2 h3 ⊢
    rw [if_pos hb, if_pos h, ha, h1, h2]
    dsimp only
    rw [h3]
    simp only [List.append_assoc]
  · refine ⟨e1 ++ e4, p1 ++ p4, fun c r e p => ?_⟩
    have hb : ¬ ((ports c r e p s).dm.cur.atv.vsyncEn && (ports c r e p s).sync.fsm.locked) = true := h
    unfold lineDone
    dsimp only at h1 h4 ⊢
    rw [if_neg hb, if_neg h, h1, h4]
    simp only [List.append_assoc]

theorem appends_rasterStep : Appends rasterStep :=
  Appends.comp (f := fun s => { s with sync := { s.sync with col := satInc s.sync.col } })
    (.of_none fun _ _ _ _ _ => rfl)
    (Appends.ite appends_lineDone Appends.id (fun t => t.dm.d.spl.toNat ≤ t.sync.col.toNat) fun _ _ _ _ _ => Iff.rfl)

theorem appends_checkSignal : Appends checkSignal :=
  Appends.ite appends_toUnsync Appends.id
    (fun s => (s.sync.fsm.locked && decide ((ltAvg s.lt).toInt < LT_FLOOR)) = true) fun _ _ _ _ _ => Iff.rfl

/-- The state at which `dm_sample` reads the normaliser: tracker, history, signal test and statistics done (R220). -/
def sampleMid (z : Cfx) (s : State) : State :=
  let s1 : State := { s with lt := ltUpdate z s.lt }
  recordAmp (dmRaw z s1) (checkSignal (dmRawStep z s1))

theorem dmSample_eq (z : Cfx) (s : State) :
    dmSample z s = rasterStep (storeSample (dmNorm (dmRaw z s) (sampleMid z s).sync)
      (hsStep (dmNorm (dmRaw z s) (sampleMid z s).sync) (sampleMid z s))) := rfl

theorem appends_sampleMid (z : Cfx) : Appends (sampleMid z) := by
  intro s
  obtain ⟨evs, pxs, h⟩ := ((appends_dmRawStep z).comp appends_checkSignal) { s with lt := ltUpdate z s.lt }
  exact ⟨evs, pxs, fun c r e p => congrArg (recordAmp (dmRaw z { s with lt := ltUpdate z s.lt })) (h c r e p)⟩

theorem appends_dmSample (z : Cfx) : Appends (dmSample z) := by
  intro s
  obtain ⟨e1, p1, h1⟩ := appends_sampleMid z s
  let n := dmNorm (dmRaw z s) (sampleMid z s).sync
  obtain ⟨e2, p2, h2⟩ := ((appends_hsStep n).comp (g := fun t => rasterStep (storeSample n t))
    (Appends.comp (f := storeSample n) (.of_none fun _ _ _ _ _ => rfl) appends_rasterStep)) (sampleMid z s)
  refine ⟨e1 ++ e2, p1 ++ p2, fun c r e p => ?_⟩
  have hn : dmNorm (dmRaw z (ports c r e p s)) (sampleMid z (ports c r e p s)).sync = n := by rw [h1]; rfl
  rw [dmSample_eq, hn, h1]
  exact (h2 c r (e ++ e1) (p ++ p1)).trans (by rw [List.append_assoc, List.append_assoc]; rfl)

theorem appends_dmSamples (zs : List Cfx) : Appends (dmSamples zs) := by
  induction zs with
  | nil => exact Appends.id
  | cons z zs ih => exact (appends_dmSample z).comp ih

/-- `dm_front` never touches the ports, and its output does not depend on them. -/
theorem dmFront_ports (x : Cfx) (c : List Word) (r : List Response) (e : List Event) (p : List Pixel) (s : State) :
    dmFront x (ports c r e p s) = ((dmFront x s).1, ports c r e p (dmFront x s).2) := by
  have hc : ∀ (z : Cfx) (t : State), frontConvert z (ports c r e p t) =
      ((frontConvert z t).1, ports c r e p (frontConvert z t).2) := by
    intro z t; unfold frontConvert
    show (if t.dm.d.decimOn = true then _ else _) = _
    cases t.dm.d.decimOn <;> rfl
  have hf : ∀ (zs : List Cfx) (t : State), frontFilter zs (ports c r e p t) =
      ((frontFilter zs t).1, ports c r e p (frontFilter zs t).2) := by
    intro zs t; unfold frontFilter
    show (if t.dm.d.filtOn = true then _ else _) = _
    cases t.dm.d.filtOn <;> rfl
  unfold dmFront
  have h := hc (cmul x (ncoOut s.nco[(0 : Fin 3)] 0)) (ncoStep 0 s)
  dsimp only
  exact (congrArg (fun a : List Cfx × State => frontFilter a.1 a.2) h).trans (hf _ _)

/-- The block of DM.FEED appends, and its count does not depend on the ports. -/
theorem appends_dmBlock (xs : List Cfx) (s : State) : ∃ (evs : List Event) (pxs : List Pixel), ∀ c r e p,
    dmBlock xs (ports c r e p s) = ((dmBlock xs s).1, ports c r (e ++ evs) (p ++ pxs) (dmBlock xs s).2) := by
  induction xs generalizing s with
  | nil => exact ⟨[], [], fun c r e p => by simp [dmBlock]⟩
  | cons x xs ih =>
    obtain ⟨e1, p1, h1⟩ := appends_dmSamples (dmFront x s).1 (dmFront x s).2
    obtain ⟨e2, p2, h2⟩ := ih (dmSamples (dmFront x s).1 (dmFront x s).2)
    refine ⟨e1 ++ e2, p1 ++ p2, fun c r e p => ?_⟩
    simp only [dmBlock, dmFront_ports, h1, h2, List.append_assoc]

/-! ## Synthesis engine -/

theorem appends_sySafePoint : Appends sySafePoint :=
  Appends.ite (Appends.comp (f := fun s => { s with gen := { s.gen with active := false, stopReq := false } })
    (.of_none fun _ _ _ _ _ => rfl) (appends_emitEvt (fun _ => .stopped .synthesis) fun _ _ _ _ _ => rfl))
    (Appends.ite (f := syApply) (.of_none fun _ _ _ _ _ => rfl) Appends.id (fun s => s.gen.pndF = true)
      fun _ _ _ _ _ => Iff.rfl)
    (fun s => s.gen.stopReq = true) fun _ _ _ _ _ => Iff.rfl

theorem timerAdvance_ports (c : List Word) (r : List Response) (e : List Event) (p : List Pixel) (s : State) :
    timerAdvance (ports c r e p s) = ports c r e p (timerAdvance s) := by
  unfold timerAdvance
  show (match s.io.timerIn with | _ :: ts => _ | [] => _) = _
  cases s.io.timerIn <;> rfl

theorem syCreate_ports (c : List Word) (r : List Response) (e : List Event) (p : List Pixel) (s : State) :
    syCreate (ports c r e p s) = ports c r e p (syCreate s) := by
  unfold syCreate
  dsimp only
  rw [← timerAdvance_ports]
  rfl

theorem syTickAdvance_ports (c : List Word) (r : List Response) (e : List Event) (p : List Pixel) (s : State) :
    syTickAdvance (ports c r e p s) = ports c r e p (syTickAdvance s) := by
  unfold syTickAdvance
  dsimp only
  rw [← timerAdvance_ports]
  rfl

theorem sySample_ports (c : List Word) (r : List Response) (e : List Event) (p : List Pixel) (s : State) :
    sySample (ports c r e p s) = ((sySample s).1, ports c r e p (sySample s).2) := by
  unfold sySample
  show (match s.gen.cur.mod with | .none => _ | .am => _ | .fm => _) = _
  cases s.gen.cur.mod <;> rfl

theorem syOne_ports (i : Nat) (c : List Word) (r : List Response) (e : List Event) (p : List Pixel) (s : State) :
    syOne i (ports c r e p s) = ports c r e p (syOne i s) := by
  unfold syOne
  rw [sySample_ports]
  rfl

theorem syFill_ports (n i : Nat) (c : List Word) (r : List Response) (e : List Event) (p : List Pixel) (s : State) :
    syFill n i (ports c r e p s) = ports c r e p (syFill n i s) := by
  induction n generalizing i s with
  | zero => rfl
  | succ n ih => simp only [syFill, syOne_ports, ih]

theorem syBatch_ports (n : Nat) (c : List Word) (r : List Response) (e : List Event) (p : List Pixel) (s : State) :
    syBatch n (ports c r e p s) = ports c r e p (syBatch n s) := by
  unfold syBatch
  rw [syFill_ports]
  rfl

end Sys2Proof.Machine
end

