-- ==== Sys2Proof/Laws/ConfigFns.lean ====
section
/-! SUPPORT. The properties the spec names of the five configuration functions (spec/00_scope.md R10), each proved
whatever the free parts of Config are: CS_CARD, CS_RANGE, CS_UNIT (R143), SFK_FUN, SFK_ZERO, SFK_ID, SFK_DC (R184), MG_FUN,
MG_RANGE, MG_DC, MG_ALL, MG_MIRROR (R186), DB_ONE, DB_MONO, DB_RANGE (R206). -/

namespace Sys2Proof.Machine
open Config

/-! ## Lists -/

@[simp] theorem tabulate_length {α : Type} (n : Nat) (f : Nat → α) : (tabulate n f).length = n := by
  simp [tabulate]

@[simp] theorem tabulate_getElem? {α : Type} (n : Nat) (f : Nat → α) (i : Nat) :
    (tabulate n f)[i]? = if i < n then some (f i) else none := by
  unfold tabulate
  by_cases h : i < n
  · simp [h]
  · simp [h]

theorem tabulate_getElem?_lt {α : Type} {n : Nat} (f : Nat → α) {i : Nat} (h : i < n) :
    (tabulate n f)[i]? = some (f i) := by
  rw [tabulate_getElem?, if_pos h]

theorem tabulate_getD {α : Type} {n : Nat} (f : Nat → α) {i : Nat} (d : α) (h : i < n) :
    (tabulate n f).getD i d = f i := by
  rw [List.getD_eq_getElem?_getD, tabulate_getElem?, if_pos h, Option.getD_some]

theorem tabulate_mem {α : Type} {n : Nat} {f : Nat → α} {x : α} (h : x ∈ tabulate n f) : ∃ i, i < n ∧ f i = x := by
  simpa [tabulate] using h

theorem tabulate_congr {α : Type} {n : Nat} {f g : Nat → α} (h : ∀ i, i < n → f i = g i) :
    tabulate n f = tabulate n g := by
  apply List.ext_getElem?
  intro i
  rw [tabulate_getElem?, tabulate_getElem?]
  split_ifs with hi
  · rw [h i hi]
  · rfl

/-! ## cs (R143) -/

/-- CS_CARD. -/
theorem cs_card : cs 0x00000000#32 = ⟨0x00010000#32, 0#32⟩ ∧ cs 0x40000000#32 = ⟨0#32, 0x00010000#32⟩ ∧
    cs 0x80000000#32 = ⟨0xFFFF0000#32, 0#32⟩ ∧ cs 0xC0000000#32 = ⟨0#32, 0xFFFF0000#32⟩ :=
  ⟨rfl, rfl, rfl, rfl⟩

/-- A pair `nearUnit` accepts has CS_RANGE and CS_UNIT. -/
theorem nearUnit_spec {z : Cfx} (h : nearUnit z = true) :
    (-ONE ≤ z.re.toInt ∧ z.re.toInt ≤ ONE) ∧ (-ONE ≤ z.im.toInt ∧ z.im.toInt ≤ ONE) ∧
      (normSq z - 2 ^ 32).natAbs ≤ 2 ^ 17 := by
  simp only [nearUnit, inUnitRange, Bool.and_eq_true, decide_eq_true_eq] at h
  exact ⟨h.1.1, h.1.2, h.2⟩

theorem cs_nearUnit (ph : Phase) : nearUnit (cs ph) = true := by
  unfold cs
  split_ifs with h1 h2 h3 h4 h5
  · decide
  · decide
  · decide
  · decide
  · exact h5
  · decide

/-- CS_RANGE of the cosine. -/
theorem cs_re_range (ph : Phase) : -ONE ≤ (cs ph).re.toInt ∧ (cs ph).re.toInt ≤ ONE :=
  (nearUnit_spec (cs_nearUnit ph)).1

/-- CS_RANGE of the sine. -/
theorem cs_im_range (ph : Phase) : -ONE ≤ (cs ph).im.toInt ∧ (cs ph).im.toInt ≤ ONE :=
  (nearUnit_spec (cs_nearUnit ph)).2.1

/-- CS_UNIT. -/
theorem cs_unit (ph : Phase) : (normSq (cs ph) - 2 ^ 32).natAbs ≤ 2 ^ 17 :=
  (nearUnit_spec (cs_nearUnit ph)).2.2

/-! ## sf_kernel (R184) -/

/-- SFK_FUN: SF_N entries. -/
@[simp] theorem sfKernel_length (mask : List Fx) (block : List Cfx) : (sfKernel mask block).length = SF_N := by
  unfold sfKernel; split_ifs <;> simp

/-- SFK_ZERO. -/
theorem sfKernel_zero {mask : List Fx} {block : List Cfx}
    (h : (∀ z ∈ block, z = ⟨0#32, 0#32⟩) ∨ (∀ m ∈ mask, m = 0#32)) {i : Nat} (hi : i < SF_N) :
    (sfKernel mask block)[i]? = some ⟨0#32, 0#32⟩ := by
  have hc : (block.all (fun z => decide (z = ⟨0#32, 0#32⟩)) || mask.all (fun m => decide (m = 0#32))) = true := by
    simpa [List.all_eq_true] using h
  unfold sfKernel
  rw [if_pos hc, tabulate_getElem?, if_pos hi]

theorem nearFx_near (v raw : Fx) : ((nearFx v raw).toInt - v.toInt).natAbs ≤ SF_EPS := by
  have h1 := toInt32_bounds v
  unfold nearFx
  rw [toInt_sat, clamp_eq_self]
  · have := le_clamp (v := raw.toInt) (lo := v.toInt - SF_EPS) (hi := v.toInt + SF_EPS) (by omega)
    have := clamp_le (v := raw.toInt) (lo := v.toInt - SF_EPS) (hi := v.toInt + SF_EPS) (by omega)
    omega
  · have := le_clamp (v := raw.toInt) (lo := v.toInt - SF_EPS) (hi := v.toInt + SF_EPS) (by omega)
    simp only [SF_EPS] at *; omega
  · have := clamp_le (v := raw.toInt) (lo := v.toInt - SF_EPS) (hi := v.toInt + SF_EPS) (by omega)
    simp only [SF_EPS] at *; omega

/-- With SF_EPS = 0, R9's value, near means equal. -/
theorem nearCfx_eq (v raw : Cfx) : nearCfx v raw = v := by
  have h : ∀ a b : Fx, nearFx a b = a := by
    intro a b
    apply BitVec.eq_of_toInt_eq
    have := nearFx_near a b
    simp only [SF_EPS] at this
    omega
  cases v
  simp [nearCfx, h]

/-- SFK_ID, with SF_EPS = 0: under an all-ONE mask the result is the block. -/
theorem sfKernel_id {mask : List Fx} {block : List Cfx} (hm : ∀ m ∈ mask, m = fxOne)
    (hn : mask ≠ []) (hl : block.length = SF_N) : sfKernel mask block = block := by
  apply List.ext_getElem?
  intro i
  by_cases hi : i < SF_N
  swap
  · rw [List.getElem?_eq_none (by simp; omega), List.getElem?_eq_none (by omega)]
  by_cases hz : (block.all (fun z => decide (z = ⟨0#32, 0#32⟩)) || mask.all (fun m => decide (m = 0#32))) = true
  · have hz' : (∀ z ∈ block, z = ⟨0#32, 0#32⟩) ∨ (∀ m ∈ mask, m = 0#32) := by
      simpa [List.all_eq_true] using hz
    rw [sfKernel_zero hz' hi]
    have hmem : block[i]'(by omega) ∈ block := List.getElem_mem _
    rw [List.getElem?_eq_getElem (by omega)]
    congr 1
    rcases hz' with h | h
    · exact (h _ hmem).symm
    · obtain ⟨m, hmm⟩ := List.exists_mem_of_ne_nil mask hn
      have := (hm m hmm).symm.trans (h m hmm)
      exact absurd this (by decide)
  · have h1 : mask.all (fun m => decide (m = fxOne)) = true := by
      simpa [List.all_eq_true] using hm
    unfold sfKernel
    rw [if_neg hz, if_pos (by simp [h1]), tabulate_getElem?, if_pos hi, nearCfx_eq]
    simp [List.getD, List.getElem?_eq_getElem (show i < block.length by omega)]

theorem replicate_getElem? {α : Type} (n : Nat) (c : α) {i : Nat} (h : i < n) : (List.replicate n c)[i]? = some c := by
  rw [List.getElem?_replicate, if_pos h]

/-- SFK_DC, with SF_EPS = 0: a constant block passes a mask whose bin 0 is ONE. -/
theorem sfKernel_dc {mask : List Fx} {block : List Cfx} {c : Cfx} (hm : mask.head? = some fxOne)
    (hb : ∀ z ∈ block, z = c) (hl : block.length = SF_N) : sfKernel mask block = block := by
  apply List.ext_getElem?
  intro i
  by_cases hi : i < SF_N
  swap
  · rw [List.getElem?_eq_none (by simp; omega), List.getElem?_eq_none (by omega)]
  have hr : block[i]? = some c := by
    rw [List.getElem?_eq_getElem (by omega)]
    exact congrArg some (hb _ (List.getElem_mem _))
  have hh : block.head? = some c := by
    cases block with
    | nil => simp at hl
    | cons z zs => exact congrArg some (hb z List.mem_cons_self)
  by_cases hz : (block.all (fun z => decide (z = ⟨0#32, 0#32⟩)) || mask.all (fun m => decide (m = 0#32))) = true
  · have hz' : (∀ z ∈ block, z = ⟨0#32, 0#32⟩) ∨ (∀ m ∈ mask, m = 0#32) := by
      rw [Bool.or_eq_true] at hz
      simpa only [List.all_eq_true, decide_eq_true_eq] using hz
    rw [sfKernel_zero hz' hi, hr]
    rcases hz' with h | h
    · rw [h c (List.mem_of_getElem? hr)]
    · have := h _ (List.mem_of_mem_head? (Option.mem_def.mpr hm))
      exact absurd this (by decide)
  · unfold sfKernel
    rw [if_neg hz, if_pos, tabulate_getElem?, if_pos hi, nearCfx_eq, hr]
    · rw [List.getD_eq_getElem?_getD, hr, Option.getD_some]
    · rw [Bool.or_eq_true, Bool.and_eq_true]
      refine Or.inr ⟨decide_eq_true hm, ?_⟩
      rw [List.all_eq_true]
      intro z hz
      rw [hh, hb z hz]
      exact decide_eq_true rfl

/-! ## sf_maskgen (R186) -/

theorem sfMaskgen_eq (m : SfMode) (bw opp rate : Word) :
    ∃ f, sfMaskgen m bw opp rate = tabulate SF_N f := by
  cases m
  · exact ⟨maskEntry .dsb bw opp rate, rfl⟩
  · exact ⟨maskEntry .upper bw opp rate, rfl⟩
  · exact ⟨fun k => if k = SF_N / 2 then maskEntry .lower bw opp rate k
      else maskEntry .upper bw opp rate ((SF_N - k) % SF_N), rfl⟩

/-- MG_FUN: SF_N entries. -/
@[simp] theorem sfMaskgen_length (m : SfMode) (bw opp rate : Word) : (sfMaskgen m bw opp rate).length = SF_N := by
  obtain ⟨f, h⟩ := sfMaskgen_eq m bw opp rate
  rw [h, tabulate_length]

theorem maskEntry_range (m : SfMode) (bw opp rate : Word) (k : Nat) :
    0 ≤ (maskEntry m bw opp rate k).toInt ∧ (maskEntry m bw opp rate k).toInt ≤ ONE := by
  unfold maskEntry
  split_ifs
  · decide
  · decide
  · exact clamp01_range _

/-- MG_RANGE. -/
theorem sfMaskgen_range {m : SfMode} {bw opp rate : Word} {v : Fx} (h : v ∈ sfMaskgen m bw opp rate) :
    0 ≤ v.toInt ∧ v.toInt ≤ ONE := by
  cases m
  · obtain ⟨i, -, rfl⟩ := tabulate_mem h
    exact maskEntry_range ..
  · obtain ⟨i, -, rfl⟩ := tabulate_mem h
    exact maskEntry_range ..
  · obtain ⟨i, -, rfl⟩ := tabulate_mem h
    split_ifs <;> exact maskEntry_range ..

/-- MG_DC. -/
theorem sfMaskgen_dc (m : SfMode) (bw opp rate : Word) :
    (sfMaskgen m bw opp rate)[0]? = some fxOne := by
  have h : ∀ m', maskEntry m' bw opp rate 0 = fxOne := by
    intro m'; unfold maskEntry; rw [if_pos rfl, ite_self]
  have hp : 0 < SF_N := by decide
  have h0 : (SF_N - 0) % SF_N = 0 := by decide
  have h1 : ¬ 0 = SF_N / 2 := by decide
  cases m
  · exact (tabulate_getElem?_lt _ hp).trans (congrArg some (h _))
  · exact (tabulate_getElem?_lt _ hp).trans (congrArg some (h _))
  · refine (tabulate_getElem?_lt _ hp).trans (congrArg some ?_)
    rw [if_neg h1, h0, h]

theorem passesAll_swap (bw opp rate : Word) : passesAll .lower bw opp rate = passesAll .upper bw opp rate :=
  Bool.and_comm _ _

/-- MG_ALL. -/
theorem sfMaskgen_all {m : SfMode} {bw opp rate : Word} (h : passesAll m bw opp rate = true) {v : Fx}
    (hv : v ∈ sfMaskgen m bw opp rate) : v = fxOne := by
  have hE : ∀ m', passesAll m' bw opp rate = true → ∀ k, maskEntry m' bw opp rate k = fxOne := by
    intro m' h' k; unfold maskEntry; rw [if_pos h']
  cases m
  · obtain ⟨i, -, rfl⟩ := tabulate_mem hv
    exact hE _ h _
  · obtain ⟨i, -, rfl⟩ := tabulate_mem hv
    exact hE _ h _
  · obtain ⟨i, -, rfl⟩ := tabulate_mem hv
    have h' : passesAll .upper bw opp rate = true := by rw [← passesAll_swap]; exact h
    split_ifs
    · exact hE _ h _
    · exact hE _ h' _

/-- MG_MIRROR: mode 2 mirrors mode 1 at every bin but SF_N / 2. -/
theorem sfMaskgen_mirror (bw opp rate : Word) {k : Nat} (hk : k < SF_N) (hn : k ≠ SF_N / 2) :
    (sfMaskgen .lower bw opp rate)[k]? = (sfMaskgen .upper bw opp rate)[(SF_N - k) % SF_N]? := by
  have hp : 0 < SF_N := by decide
  refine (tabulate_getElem?_lt _ hk).trans (Eq.trans ?_ (tabulate_getElem?_lt _ (Nat.mod_lt _ hp)).symm)
  rw [if_neg hn]

/-! ## db10 (R206) -/

/-- DB_ONE. -/
theorem db10_one : db10 65536 = 0#32 := if_pos rfl

theorem stepsUpTo_mono {a b : Nat} (h : a ≤ b) : stepsUpTo a ≤ stepsUpTo b := by
  unfold stepsUpTo
  rw [← List.countP_eq_length_filter, ← List.countP_eq_length_filter]
  apply List.countP_mono_left
  intro x _ hx
  simp only [decide_eq_true_eq] at *
  omega

theorem toInt_db10 (a : Nat) :
    (db10 a).toInt = clamp ((stepsUpTo a : Int) - stepsUpTo 65536) (DB_FLOOR + 1) (50 * ONE - 1) := by
  unfold db10
  split
  · next h =>
    have h' : a = 65536 := by rw [ONE_eq] at h; omega
    subst h'; rw [Int.sub_self]; rfl
  · exact toInt_ofInt_clamp (by decide) (by decide) (by decide)

/-- DB_MONO. -/
theorem db10_mono {a b : Nat} (h : a ≤ b) : (db10 a).toInt ≤ (db10 b).toInt := by
  rw [toInt_db10, toInt_db10]
  apply clamp_mono _ (by decide)
  have := stepsUpTo_mono h
  omega

/-- DB_RANGE. -/
theorem db10_range (a : Nat) : DB_FLOOR < (db10 a).toInt ∧ (db10 a).toInt < 50 * ONE := by
  rw [toInt_db10]
  have h1 := le_clamp (v := (stepsUpTo a : Int) - stepsUpTo 65536)
    (show DB_FLOOR + 1 ≤ 50 * ONE - 1 by decide)
  have h2 := clamp_le (v := (stepsUpTo a : Int) - stepsUpTo 65536)
    (show DB_FLOOR + 1 ≤ 50 * ONE - 1 by decide)
  omega

end Sys2Proof.Machine
end

