-- ==== Sys2Proof/Laws/Units.lean ====
section
/-! SUPPORT. What the functions of the units do: the oscillators (spec/40_nco.md), the rate converter
(spec/41_rate_converter.md), the spectral filter (spec/42_spectral_filter.md), the level tracker (spec/43_level_tracker.md). -/

namespace Sys2Proof.Machine
open Config

/-! ## Oscillators -/

/-- The increment of a normalized frequency: clamped to half a turn, modulo a turn (R141). -/
theorem toNat_ncoInc (n : Int) : ((ncoInc n).toNat : Int) = max (-2 ^ 31) (min (2 ^ 31) n) % 2 ^ 32 := by
  unfold ncoInc
  rw [toNat_ofInt32, clamp_eq_max_min (by decide)]
  rfl

/-- The increment of a frequency in hertz (R142). -/
theorem toNat_ncoIncHz (f : Int) (r : Nat) :
    ((ncoIncHz f r).toNat : Int) = max (-2 ^ 31) (min (2 ^ 31) (f * 2 ^ 32 / r)) % 2 ^ 32 := by
  unfold ncoIncHz fdiv
  exact toNat_ncoInc _

theorem ncoIndex_eq {k : Word} {j : Fin 3} (h : k.toNat = j.val) : ncoIndex k = some j := by
  unfold ncoIndex
  rw [dif_pos (by have := j.isLt; omega)]
  congr 1
  exact Fin.ext h

theorem ncoIndex_none {k : Word} (h : 2 < k.toNat) : ncoIndex k = none := by
  unfold ncoIndex
  rw [dif_neg (by omega)]

/-! ## Rate converter -/

/-- Interpolation is exact: the weighted sum lies between the two samples (R163). -/
theorem toInt_rcMix {p : Nat} (hp : p < 65536) (a b : Fx) :
    (rcMix p a b).toInt = ((p : Int) * a.toInt + (65536 - (p : Int)) * b.toInt) / 65536 := by
  have ha := toInt32_bounds a
  have hb := toInt32_bounds b
  unfold rcMix
  rw [shr_eq]
  simp only [FX_MIN_eq, FX_MAX_eq, RC_CF] at *
  rw [show (2 : Int) ^ 16 = 65536 by norm_num]
  have h1 : -2147483648 * 65536 ≤ (p : Int) * a.toInt + (65536 - (p : Int)) * b.toInt := by nlinarith
  have h2 : (p : Int) * a.toInt + (65536 - (p : Int)) * b.toInt ≤ 2147483647 * 65536 := by nlinarith
  apply toInt_ofInt32 <;> simp only [FX_MIN_eq, FX_MAX_eq] <;> omega

/-- A constant input gives that constant (R163, R169). -/
theorem rcInterp_const (mu : Word) (v : Cfx) : rcInterp mu v v = v := by
  have h : ∀ x : Fx, rcMix (mu.toNat / 2 ^ (RC_FRAC - RC_CF)) x x = x := by
    intro x
    apply BitVec.eq_of_toInt_eq
    rw [toInt_rcMix (by have := mu.isLt; simp only [RC_FRAC, RC_CF]; omega)]
    rw [← add_mul]
    rw [show ((mu.toNat / 2 ^ (RC_FRAC - RC_CF) : Nat) : Int) + (65536 - ((mu.toNat / 2 ^ (RC_FRAC - RC_CF) : Nat) : Int))
      = 65536 by omega]
    omega
  unfold rcInterp
  simp only [h]

/-- The distance is below one input period (R23). -/
theorem mu_lt (c : Rc) : c.mu.toNat < 2 ^ 32 := c.mu.isLt

/-- One output moves the position on by the ratio (R164). -/
theorem rcAdvance_position {c : Rc} (h : c.ratio.toNat ≤ (2 ^ 32 - 1) * 2 ^ 32) :
    (rcAdvance c).skip.toNat * 2 ^ 32 + (rcAdvance c).mu.toNat = c.mu.toNat + c.ratio.toNat := by
  have := mu_lt c
  simp only [rcAdvance, BitVec.toNat_ofNat, RC_FRAC]
  omega

@[simp] theorem rcAdvance_ratio (c : Rc) : (rcAdvance c).ratio = c.ratio := rfl
@[simp] theorem rcAdvance_hist (c : Rc) : (rcAdvance c).hist = c.hist := rfl
@[simp] theorem rcConsume_ratio (c : Rc) : (rcConsume c).ratio = c.ratio := rfl
@[simp] theorem rcConsume_mu (c : Rc) : (rcConsume c).mu = c.mu := rfl
@[simp] theorem rcConsume_skip (c : Rc) : (rcConsume c).skip = c.skip - 1 := rfl
@[simp] theorem rcConsume_hist (c : Rc) : (rcConsume c).hist = c.hist := rfl
@[simp] theorem rcShift_ratio (x : Cfx) (c : Rc) : (rcShift x c).ratio = c.ratio := rfl
@[simp] theorem rcShift_mu (x : Cfx) (c : Rc) : (rcShift x c).mu = c.mu := rfl
@[simp] theorem rcShift_skip (x : Cfx) (c : Rc) : (rcShift x c).skip = c.skip := rfl
@[simp] theorem rcShift_hist (x : Cfx) (c : Rc) : (rcShift x c).hist = (c.hist.set 1 c.hist[0]).set 0 x := rfl
@[simp] theorem rcReset_ratio (c : Rc) : (rcReset c).ratio = c.ratio := rfl
@[simp] theorem rcSetRatio_mu (r : Nat) (c : Rc) : (rcSetRatio r c).mu = c.mu := rfl
@[simp] theorem rcSetRatio_skip (r : Nat) (c : Rc) : (rcSetRatio r c).skip = c.skip := rfl
@[simp] theorem rcSetRatio_hist (r : Nat) (c : Rc) : (rcSetRatio r c).hist = c.hist := rfl
@[simp] theorem rcSetRatio_ratio (r : Nat) (c : Rc) : (rcSetRatio r c).ratio = BitVec.ofNat 64 r := rfl

@[simp] theorem rcLoop_ratio (n : Nat) (c : Rc) : (rcLoop n c).2.ratio = c.ratio := by
  induction n generalizing c with
  | zero => rfl
  | succ n ih =>
    rw [rcLoop]
    split
    · exact (ih _).trans (rcAdvance_ratio c)
    · rfl

@[simp] theorem rcLoop_hist (n : Nat) (c : Rc) : (rcLoop n c).2.hist = c.hist := by
  induction n generalizing c with
  | zero => rfl
  | succ n ih =>
    rw [rcLoop]
    split
    · exact (ih _).trans (rcAdvance_hist c)
    · rfl

/-- The outputs of one input move the position on by the ratio each (R164, R170). -/
theorem rcLoop_position (n : Nat) {c : Rc} (h : c.ratio.toNat ≤ (2 ^ 32 - 1) * 2 ^ 32) :
    (rcLoop n c).2.skip.toNat * 2 ^ 32 + (rcLoop n c).2.mu.toNat =
      c.skip.toNat * 2 ^ 32 + c.mu.toNat + (rcLoop n c).1.length * c.ratio.toNat := by
  induction n generalizing c with
  | zero => simp [rcLoop]
  | succ n ih =>
    rw [rcLoop]
    split
    · next hs =>
      have h1 := ih (c := rcAdvance c) h
      have h2 := rcAdvance_position h
      simp only [rcAdvance_ratio] at h1
      simp only [hs, List.length_cons, BitVec.toNat_zero]
      rw [h1, h2]
      ring
    · simp

theorem rcLoop_length (n : Nat) (c : Rc) : (rcLoop n c).1.length ≤ n := by
  induction n generalizing c with
  | zero => simp [rcLoop]
  | succ n ih =>
    rw [rcLoop]
    split
    · simpa using ih (rcAdvance c)
    · simp

/-- The loop ends: rounds enough to reach a position beyond the newest input leave skip above 0 (R164). -/
theorem rcLoop_ends {n r : Nat} {c : Rc} (h1 : r ≤ c.ratio.toNat) (h2 : c.ratio.toNat ≤ (2 ^ 32 - 1) * 2 ^ 32)
    (hn : 2 ^ 32 ≤ c.skip.toNat * 2 ^ 32 + c.mu.toNat + n * r) : (rcLoop (n + 1) c).2.skip ≠ 0#32 := by
  induction n generalizing c with
  | zero =>
    have := mu_lt c
    have hs : c.skip ≠ 0#32 := by
      intro hs
      rw [hs] at hn
      simp at hn
      omega
    rw [rcLoop, if_neg hs]
    exact hs
  | succ n ih =>
    rw [rcLoop]
    split
    · next hs =>
      refine ih (c := rcAdvance c) h1 h2 ?_
      rw [rcAdvance_position h2]
      rw [hs, BitVec.toNat_zero, Nat.succ_mul, Nat.zero_mul, Nat.zero_add] at hn
      exact hn.trans (by clear hn; rw [Nat.add_assoc]; exact Nat.add_le_add_left (by omega) _)
    · next hs => exact hs

/-- What one input does to the converter (R164): its outputs, and the position accounted for exactly. -/
theorem rcPush_spec (x : Cfx) {c : Rc} (h1 : RC_RATIO_MIN ≤ c.ratio.toNat)
    (h2 : c.ratio.toNat ≤ (2 ^ 32 - 1) * 2 ^ 32) :
    (rcPush x c).2.ratio = c.ratio ∧ (rcPush x c).2.hist = (c.hist.set 1 c.hist[0]).set 0 x ∧
      (rcPush x c).1.length ≤ 257 ∧
      ((rcPush x c).2.skip.toNat + 1) * 2 ^ 32 + (rcPush x c).2.mu.toNat =
        c.skip.toNat * 2 ^ 32 + c.mu.toNat + (rcPush x c).1.length * c.ratio.toNat := by
  unfold rcPush rcFuel
  refine ⟨by simp, by simp, rcLoop_length _ _, ?_⟩
  have hp := rcLoop_position (RC_MAX_UP + 1) (c := rcShift x c) h2
  have he := rcLoop_ends (n := RC_MAX_UP) (c := rcShift x c) h1 h2
    (le_trans (by decide) (Nat.le_add_left (RC_MAX_UP * RC_RATIO_MIN) _))
  simp only [rcShift_skip, rcShift_mu, rcShift_ratio] at hp
  simp only [rcConsume_skip, rcConsume_mu]
  rw [← hp]
  congr 2
  have hz : (rcLoop (RC_MAX_UP + 1) (rcShift x c)).2.skip.toNat ≠ 0 := by
    intro h
    exact he (BitVec.eq_of_toNat_eq (by simpa using h))
  have hlt := (rcLoop (RC_MAX_UP + 1) (rcShift x c)).2.skip.isLt
  rw [BitVec.toNat_sub, show (1 : Word).toNat = 1 from rfl]
  omega

@[simp] theorem rcPush_ratio (x : Cfx) (c : Rc) : (rcPush x c).2.ratio = c.ratio := by
  unfold rcPush; simp

@[simp] theorem rcPushAll_ratio (xs : List Cfx) (c : Rc) : (rcPushAll xs c).2.ratio = c.ratio := by
  induction xs generalizing c with
  | nil => rfl
  | cons x xs ih => exact (ih _).trans (rcPush_ratio x c)

/-- Splitting a stream gives the same outputs and the same converter (R166). -/
theorem rcPushAll_append (xs ys : List Cfx) (c : Rc) :
    rcPushAll (xs ++ ys) c =
      ((rcPushAll xs c).1 ++ (rcPushAll ys (rcPushAll xs c).2).1, (rcPushAll ys (rcPushAll xs c).2).2) := by
  induction xs generalizing c with
  | nil => simp [rcPushAll]
  | cons x xs ih => simp only [List.cons_append, rcPushAll, ih, List.append_assoc]

theorem sampleWords_append (a b : List Cfx) : sampleWords (a ++ b) = sampleWords a ++ sampleWords b := by
  induction a with
  | nil => rfl
  | cons z a ih => simp only [List.cons_append, sampleWords, ih]

@[simp] theorem sampleWords_length (a : List Cfx) : (sampleWords a).length = 2 * a.length := by
  induction a with
  | nil => rfl
  | cons z a ih => simp only [sampleWords, List.length_cons, ih]; omega

/-! ## Spectral filter -/

@[simp] theorem sfSetMask_inb (m : List Fx) (f : Sf) : (sfSetMask m f).inb = f.inb := rfl
@[simp] theorem sfSetMask_fill (m : List Fx) (f : Sf) : (sfSetMask m f).fill = f.fill := rfl
@[simp] theorem sfSetMask_mask (m : List Fx) (f : Sf) : (sfSetMask m f).mask = sparseOfList 0#32 0 m := rfl
@[simp] theorem sfClear_mask (f : Sf) : (sfClear f).mask = f.mask := rfl
@[simp] theorem sfClear_inb (f : Sf) : (sfClear f).inb = [] := rfl
@[simp] theorem sfClear_fill (f : Sf) : (sfClear f).fill = 0 := rfl

theorem eq_of_not_succ_lt {n m : Nat} (h : ¬ n + 1 < m) (h1 : n < m) : n + 1 = m := by omega

/-- An input that does not fill the block is stored and counted (R182). -/
theorem sfPush_collect (z : Cfx) (f : Sf) (h : f.fill.val + 1 < SF_L) :
    sfPush z f = ([], { f with inb := sfStore z f, fill := ⟨f.fill.val + 1, h⟩ }) := by
  unfold sfPush
  exact dif_pos h

/-- An input that fills the block releases its half and keeps the tail (R182). -/
theorem sfPush_release (z : Cfx) (f : Sf) (h : ¬ f.fill.val + 1 < SF_L) :
    sfPush z f = ((sfResult f (sfStore z f)).drop SF_L, { f with inb := sfKeepTail (sfStore z f), fill := 0 }) := by
  unfold sfPush
  exact dif_neg h

/-- What one input does to the filter (R182): it is stored, and either counted or the block is released. -/
theorem sfPush_spec (z : Cfx) (f : Sf) :
    (sfPush z f).2.mask = f.mask ∧
      ((f.fill.val + 1 < SF_L ∧ (sfPush z f).1 = [] ∧ (sfPush z f).2.fill.val = f.fill.val + 1 ∧
          (sfPush z f).2.inb = sfStore z f) ∨
        (f.fill.val + 1 = SF_L ∧ (sfPush z f).1 = (sfResult f (sfStore z f)).drop SF_L ∧
          (sfPush z f).2.fill.val = 0 ∧ (sfPush z f).2.inb = sfKeepTail (sfStore z f))) := by
  by_cases h : f.fill.val + 1 < SF_L
  · rw [sfPush_collect z f h]
    exact ⟨rfl, Or.inl ⟨h, rfl, rfl, rfl⟩⟩
  · rw [sfPush_release z f h]
    dsimp only
    exact ⟨rfl, Or.inr ⟨eq_of_not_succ_lt h f.fill.isLt, rfl, Fin.val_zero _, rfl⟩⟩

@[simp] theorem sfPush_mask (z : Cfx) (f : Sf) : (sfPush z f).2.mask = f.mask := (sfPush_spec z f).1

@[simp] theorem sfPushAll_mask (xs : List Cfx) (f : Sf) : (sfPushAll xs f).2.mask = f.mask := by
  induction xs generalizing f with
  | nil => rfl
  | cons x xs ih => exact (ih _).trans (sfPush_mask x f)

/-- Splitting a stream gives the same outputs and the same filter (R191). -/
theorem sfPushAll_append (xs ys : List Cfx) (f : Sf) :
    sfPushAll (xs ++ ys) f =
      ((sfPushAll xs f).1 ++ (sfPushAll ys (sfPushAll xs f).2).1, (sfPushAll ys (sfPushAll xs f).2).2) := by
  induction xs generalizing f with
  | nil => simp [sfPushAll]
  | cons x xs ih => simp only [List.cons_append, sfPushAll, ih, List.append_assoc]

@[simp] theorem sfResult_length (f : Sf) (inb : Sparse Cfx) : (sfResult f inb).length = SF_N := by
  unfold sfResult; simp

/-- One input releases SF_L samples or none, and fill counts modulo SF_L (R182). -/
theorem sfPush_count (z : Cfx) (f : Sf) :
    (sfPush z f).1.length = (f.fill.val + 1) / 1024 * 1024 ∧ (sfPush z f).2.fill.val = (f.fill.val + 1) % 1024 := by
  have := f.fill.isLt
  rcases (sfPush_spec z f).2 with ⟨h, h1, h2, -⟩ | ⟨h, h1, h2, -⟩
  · simp only [SF_L] at *
    rw [h1, h2]
    simp only [List.length_nil]
    omega
  · rw [h1, h2, List.length_drop, sfResult_length, h]
    exact ⟨rfl, rfl⟩

/-- The count of returned samples and of collected ones over a list of inputs (R191). -/
theorem sfPushAll_count (xs : List Cfx) (f : Sf) :
    (sfPushAll xs f).1.length = (f.fill.val + xs.length) / 1024 * 1024 ∧
      (sfPushAll xs f).2.fill.val = (f.fill.val + xs.length) % 1024 := by
  induction xs generalizing f with
  | nil =>
    have := f.fill.isLt
    simp only [sfPushAll, List.length_nil, SF_L] at *
    omega
  | cons x xs ih =>
    have h1 := sfPush_count x f
    have h2 := ih (sfPush x f).2
    simp only [sfPushAll, List.length_append, List.length_cons]
    rw [h2.1, h2.2, h1.1, h1.2]
    omega

/-- Samples that do not fill the block are stored in order and nothing is returned (R182, R191). -/
theorem sfPushAll_collect (xs : List Cfx) (f : Sf) (h : f.fill.val + xs.length < 1024) :
    (sfPushAll xs f).1 = [] ∧ (sfPushAll xs f).2.fill.val = f.fill.val + xs.length ∧
      ∀ k, sparseGet cfxZero (sfPushAll xs f).2.inb k =
        if 1024 + f.fill.val ≤ k ∧ k < 1024 + f.fill.val + xs.length then xs.getD (k - (1024 + f.fill.val)) cfxZero
        else sparseGet cfxZero f.inb k := by
  induction xs generalizing f with
  | nil =>
    refine ⟨rfl, rfl, fun k => ?_⟩
    rw [if_neg]
    · rfl
    · simp
  | cons x xs ih =>
    simp only [List.length_cons] at h
    have hc := sfPush_collect x f (by show _ < 1024; omega)
    have hfill : (sfPush x f).2.fill.val = f.fill.val + 1 := by rw [hc]
    have hinb : (sfPush x f).2.inb = sfStore x f := by rw [hc]
    have h1 : (sfPush x f).1 = [] := by rw [hc]
    obtain ⟨i1, i3, i4⟩ := ih (sfPush x f).2 (by omega)
    refine ⟨by simp only [sfPushAll, h1, i1, List.append_nil], ?_, fun k => ?_⟩
    · simp only [sfPushAll, i3, hfill, List.length_cons]; omega
    · simp only [sfPushAll, i4, hfill, hinb, sfStore, List.length_cons]
      rw [sparseGet_set _ _ _ _ _ _ (by show 1024 + _ < 2048; omega)]
      have e1 : SF_L + f.fill.val = 1024 + f.fill.val := rfl
      rw [e1]
      by_cases hk : k = 1024 + f.fill.val
      · subst hk
        rw [if_neg (by omega), if_pos (by omega), if_pos (by omega)]
        simp
      · by_cases hk2 : 1024 + (f.fill.val + 1) ≤ k ∧ k < 1024 + (f.fill.val + 1) + xs.length
        · rw [if_pos hk2, if_pos (by omega)]
          obtain ⟨m, hm⟩ : ∃ m, k - (1024 + f.fill.val) = m + 1 := ⟨k - (1024 + f.fill.val) - 1, by omega⟩
          rw [hm, show k - (1024 + (f.fill.val + 1)) = m by omega]
          simp
        · rw [if_neg hk2, if_neg (by omega), if_neg (by omega)]

/-! ## Level tracker -/

theorem toInt_magsq (z : Cfx) :
    (magsq z).toInt = min FX_MAX ((z.re.toInt * z.re.toInt + z.im.toInt * z.im.toInt) / 65536) := by
  unfold magsq normSq
  rw [toInt_sat, clamp_eq_max_min (by decide), shr_eq]
  have : 0 ≤ (z.re.toInt * z.re.toInt + z.im.toInt * z.im.toInt) := by nlinarith
  simp only [FX_MIN_eq, FX_MAX_eq, FX_F]
  rw [show (2 : Int) ^ 16 = 65536 by norm_num]
  omega

theorem magsq_range (z : Cfx) : 0 ≤ (magsq z).toInt ∧ (magsq z).toInt ≤ FX_MAX := by
  rw [toInt_magsq]
  have : 0 ≤ (z.re.toInt * z.re.toInt + z.im.toInt * z.im.toInt) := by nlinarith
  simp only [FX_MAX_eq]
  omega

@[simp] theorem ltUpdate_win (z : Cfx) (l : Lt) : (ltUpdate z l).win = l.win.set l.idx (magsq z) := rfl
@[simp] theorem ltUpdate_idx (z : Cfx) (l : Lt) : (ltUpdate z l).idx = ltNext l.idx := rfl

/-- The tracker's sum moves by the exact difference (R201). -/
theorem ltUpdate_sum (z : Cfx) {l : Lt} (h1 : 0 ≤ l.sum.toInt) (h2 : l.sum.toInt ≤ 32 * FX_MAX) :
    (ltUpdate z l).sum.toInt = l.sum.toInt + (magsq z).toInt - l.win[l.idx].toInt := by
  have h3 := magsq_range z
  have h4 := toInt32_bounds l.win[l.idx]
  simp only [FX_MIN_eq, FX_MAX_eq] at *
  exact toInt_sat64 (by omega) (by omega)

/-- The average is the sum over LT_N, rounded down (R202). -/
theorem toInt_ltAvg {l : Lt} (h1 : 0 ≤ l.sum.toInt) (h2 : l.sum.toInt ≤ 32 * FX_MAX) :
    (ltAvg l).toInt = l.sum.toInt / 32 := by
  unfold ltAvg fdiv
  rw [show ((LT_N : Nat) : Int) = 32 from rfl]
  simp only [FX_MAX_eq] at h2
  rw [toInt_sat_of_range] <;> simp only [FX_MIN_eq, FX_MAX_eq] <;> omega

end Sys2Proof.Machine
end

