-- ==== Sys2Proof/Laws/Demod.lean ====
section
/-! SUPPORT. What the steps of the demodulation state machine can do (spec/44_atv_demod.md R215 to R249): a frame that every one
of them keeps, with the arcs of R248, and the raster's ranges (spec/10_state.md R44). -/

namespace Sys2Proof.Machine
open Config

/-! ## EV_STATE records -/

theorem statePath_append {es fs : List Event} {a b c : Fsm} (h1 : statePath es a b = true)
    (h2 : statePath fs b c = true) : statePath (es ++ fs) a c = true := by
  induction es generalizing a with
  | nil =>
    have : a = b := of_decide_eq_true h1
    exact this ▸ h2
  | cons e es ih =>
    cases e with
    | state old new =>
      simp only [statePath, List.cons_append, Bool.and_eq_true] at h1 ⊢
      exact ⟨h1.1, ih h1.2⟩
    | rate _ => exact ih h1
    | cfgRej _ _ => exact ih h1
    | fault _ => exact ih h1
    | stopped _ => exact ih h1

theorem rejections_append (es fs : List Event) : rejections (es ++ fs) = rejections es + rejections fs := by
  induction es with
  | nil => simp [rejections]
  | cons e es ih =>
    cases e <;> simp only [List.cons_append, rejections, ih]
    omega

theorem framesIn_append (ps qs : List Pixel) : framesIn (ps ++ qs) = framesIn ps + framesIn qs := by
  induction ps with
  | nil => simp [framesIn]
  | cons p ps ih =>
    cases p <;> simp only [List.cons_append, framesIn, ih]
    omega

/-- No state but Unsynchronized is without the arc down to it (R248). -/
theorem fsmArc_down {a : Fsm} (h : a ≠ .unsynchronized) : fsmArc a .unsynchronized = true := by
  cases a <;> first | exact absurd rfl h | rfl

/-! ## The frame -/

/-- What a step of the demodulation state machine may change: the tracker, the synchronization state, the FM history, the line
buffer and the frame count; it appends only EV_STATE records, along the arcs of R248. -/
structure SampleFrame (s t : State) : Prop where
  nco : t.nco = s.nco
  rc : t.rc = s.rc
  sf : t.sf = s.sf
  gen : t.gen = s.gen
  sybuf : t.sybuf = s.sybuf
  syq : t.syq = s.syq
  fault : t.fault = s.fault
  cfgErr : t.cfgErr = s.cfgErr
  dm : { t.dm with uh1 := s.dm.uh1, uh2 := s.dm.uh2, line := s.dm.line, frames := s.dm.frames } = s.dm
  timerIn : t.io.timerIn = s.io.timerIn
  timerReads : t.io.timerReads = s.io.timerReads
  resetIn : t.io.resetIn = s.io.resetIn
  events : ∃ evs, t.io.evt = s.io.evt ++ evs ∧ statePath evs s.sync.fsm t.sync.fsm = true ∧ rejections evs = 0

theorem SampleFrame.cur {s t : State} (h : SampleFrame s t) : t.dm.cur = s.dm.cur := (congrArg Dm.cur h.dm :)
theorem SampleFrame.d {s t : State} (h : SampleFrame s t) : t.dm.d = s.dm.d := (congrArg Dm.d h.dm :)
theorem SampleFrame.val {s t : State} (h : SampleFrame s t) : t.dm.val = s.dm.val := (congrArg Dm.val h.dm :)
theorem SampleFrame.pnd {s t : State} (h : SampleFrame s t) : t.dm.pnd = s.dm.pnd := (congrArg Dm.pnd h.dm :)
theorem SampleFrame.pndF {s t : State} (h : SampleFrame s t) : t.dm.pndF = s.dm.pndF := (congrArg Dm.pndF h.dm :)
theorem SampleFrame.active {s t : State} (h : SampleFrame s t) : t.dm.active = s.dm.active := (congrArg Dm.active h.dm :)

theorem SampleFrame.refl (s : State) : SampleFrame s s :=
  ⟨rfl, rfl, rfl, rfl, rfl, rfl, rfl, rfl, rfl, rfl, rfl, rfl, [], by simp, decide_eq_true rfl, rfl⟩

theorem SampleFrame.trans {s t u : State} (h : SampleFrame s t) (k : SampleFrame t u) : SampleFrame s u := by
  obtain ⟨es, h1, h2, h3⟩ := h.events
  obtain ⟨fs, k1, k2, k3⟩ := k.events
  have hd : ({ u.dm with uh1 := s.dm.uh1, uh2 := s.dm.uh2, line := s.dm.line, frames := s.dm.frames } : Dm) = s.dm := by
    refine Eq.trans ?_ h.dm
    exact congrArg (fun d : Dm =>
      { d with uh1 := s.dm.uh1, uh2 := s.dm.uh2, line := s.dm.line, frames := s.dm.frames }) k.dm
  exact ⟨k.nco.trans h.nco, k.rc.trans h.rc, k.sf.trans h.sf, k.gen.trans h.gen, k.sybuf.trans h.sybuf,
    k.syq.trans h.syq, k.fault.trans h.fault, k.cfgErr.trans h.cfgErr, hd, k.timerIn.trans h.timerIn,
    k.timerReads.trans h.timerReads, k.resetIn.trans h.resetIn, es ++ fs,
    by rw [k1, h1, List.append_assoc], statePath_append h2 k2, by rw [rejections_append, h3, k3]⟩

/-- An update of the synchronization state that keeps the state code, of the tracker, the history, the line buffer and the frame
count, and of PIX. -/
theorem SampleFrame.quiet (s : State) (l : Lt) (y : Sync) (u1 u2 : Cfx) (line : Sparse Fx) (n : Word)
    (px : List Pixel) (hy : y.fsm = s.sync.fsm) :
    SampleFrame s { s with
      lt := l
      sync := y
      dm := { s.dm with uh1 := u1, uh2 := u2, line := line, frames := n }
      io := { s.io with pix := px } } :=
  ⟨rfl, rfl, rfl, rfl, rfl, rfl, rfl, rfl, rfl, rfl, rfl, rfl, [], by simp, decide_eq_true hy.symm, rfl⟩

theorem SampleFrame.sync (s : State) (y : Sync) (hy : y.fsm = s.sync.fsm) : SampleFrame s { s with sync := y } :=
  .quiet s s.lt y s.dm.uh1 s.dm.uh2 s.dm.line s.dm.frames s.io.pix hy

theorem setFsm_frame (new : Fsm) (s : State) (h : s.sync.fsm = new ∨ fsmArc s.sync.fsm new = true) :
    SampleFrame s (setFsm new s) := by
  unfold setFsm
  split
  · exact .refl s
  · next hne =>
    have ha := h.resolve_left hne
    exact ⟨rfl, rfl, rfl, rfl, rfl, rfl, rfl, rfl, rfl, rfl, rfl, rfl, [.state s.sync.fsm new], rfl,
      by simp [statePath, ha], rfl⟩

theorem toUnsync_frame (s : State) : SampleFrame s (toUnsync s) := by
  unfold toUnsync
  split
  · next h => exact .sync s _ h.symm
  · next h =>
    exact ⟨rfl, rfl, rfl, rfl, rfl, rfl, rfl, rfl, rfl, rfl, rfl, rfl, [.state s.sync.fsm .unsynchronized], rfl,
      by simp [statePath, fsmArc_down h, Sync.reset, emitEvt, syncReset], rfl⟩

/-! ## Line sync -/

theorem hsAlign_frame (s : State) : SampleFrame s (hsAlign s) := .sync s _ rfl

theorem setHs_frame (a b c : Word) (s : State) : SampleFrame s (setHs a b c s) := .sync s _ rfl

theorem setVs_frame (a b c : Word) (s : State) : SampleFrame s (setVs a b c s) := .sync s _ rfl

theorem hsUnsync_frame (b : Bool) {s : State} (h : s.sync.fsm = .unsynchronized) : SampleFrame s (hsUnsync b s) := by
  unfold hsUnsync
  split
  · exact ((setFsm_frame _ s (Or.inr (by rw [h]; rfl))).trans (setHs_frame _ _ _ _)).trans (hsAlign_frame _)
  · exact .refl s

theorem hsSearch_frame (b : Bool) {s : State} (h : s.sync.fsm = .lineSyncSearching) : SampleFrame s (hsSearch b s) := by
  unfold hsSearch
  have h1 := fun a b c => (setHs_frame a b c s).trans (hsAlign_frame (setHs a b c s))
  split
  · split
    · dsimp only
      split
      · exact ((h1 _ _ _).trans (setFsm_frame _ _ (Or.inr (by simp [h, fsmArc])))).trans (setHs_frame _ _ _ _)
      · exact h1 _ _ _
    · exact h1 _ _ _
  · exact .refl s

theorem hsLocked_frame (b : Bool) (s : State) : SampleFrame s (hsLocked b s) := by
  unfold hsLocked
  split
  · exact (setHs_frame _ _ _ s).trans (hsAlign_frame _)
  · split
    · dsimp only
      split
      · exact (setHs_frame _ _ _ s).trans (toUnsync_frame _)
      · exact setHs_frame _ _ _ s
    · exact .refl s

theorem hsMachine_frame (b : Bool) (s : State) : SampleFrame s (hsMachine b s) := by
  unfold hsMachine
  split
  · next h => exact hsUnsync_frame b h
  · next h => exact hsSearch_frame b h
  · exact hsLocked_frame b s
  · exact hsLocked_frame b s
  · exact hsLocked_frame b s

/-- With line sync off only the window and the counters of R229 and R230 move. -/
theorem hsStep_off (n : Fx) {s : State} (h : s.dm.cur.atv.hsyncEn = false) :
    hsStep n s = { s with sync := hsMajority s.dm.cur.atv.thrSyncTop (hsWindow n s.sync) } := by
  unfold hsStep; dsimp only; rw [h]; rfl

theorem hsStep_frame (n : Fx) (s : State) : SampleFrame s (hsStep n s) := by
  have h1 : SampleFrame s { s with sync := hsMajority s.dm.cur.atv.thrSyncTop (hsWindow n s.sync) } := .sync s _ rfl
  unfold hsStep
  dsimp only
  split
  · exact h1.trans (hsMachine_frame _ _)
  · exact h1

/-! ## Frame sync and raster -/

theorem vsLineLocked_frame (b : Bool) {s : State} (h : s.sync.fsm = .lineLocked) :
    SampleFrame s (vsLineLocked b s).2 := by
  unfold vsLineLocked
  split
  · exact (setFsm_frame _ s (Or.inr (by rw [h]; rfl))).trans (setVs_frame _ _ _ _)
  · exact .refl s

theorem vsSearching_frame (b : Bool) {s : State} (h : s.sync.fsm = .frameSyncSearching) :
    SampleFrame s (vsSearching b s).2 := by
  unfold vsSearching
  split
  · split
    · dsimp only
      split
      · exact (setFsm_frame _ s (Or.inr (by rw [h]; rfl))).trans (setVs_frame _ _ _ _)
      · exact setVs_frame _ _ _ s
    · exact setVs_frame _ _ _ s
  · exact .refl s

theorem vsFrameLocked_frame (b : Bool) (s : State) : SampleFrame s (vsFrameLocked b s).2 := by
  unfold vsFrameLocked
  split
  · exact setVs_frame _ _ _ s
  · split
    · dsimp only
      split
      · exact (setVs_frame _ _ _ s).trans (toUnsync_frame _)
      · exact setVs_frame _ _ _ s
    · exact .refl s

theorem vsStep_frame (avg : Int) (s : State) : SampleFrame s (vsStep avg s).2 := by
  have h0 : SampleFrame s (vsCounted avg s) := .sync s _ rfl
  have hf : (vsCounted avg s).sync.fsm = s.sync.fsm := rfl
  rw [vsStep_eq]
  split
  · exact h0
  · exact h0
  · next h => exact h0.trans (vsLineLocked_frame _ (hf.trans h))
  · next h => exact h0.trans (vsSearching_frame _ (hf.trans h))
  · exact h0.trans (vsFrameLocked_frame _ _)

theorem frameDone_frame (s : State) : SampleFrame s (frameDone s) :=
  .quiet s s.lt _ s.dm.uh1 s.dm.uh2 s.dm.line _ _ rfl

theorem emitLine_frame (s : State) : SampleFrame s (emitLine s) := by
  unfold emitLine
  split
  · exact .quiet s s.lt s.sync s.dm.uh1 s.dm.uh2 s.dm.line s.dm.frames _ rfl
  · exact .refl s

theorem nextRow_frame (s : State) : SampleFrame s (nextRow s) := .sync s _ rfl

theorem lineEnd_frame (v : VsAnswer) (s : State) : SampleFrame s (lineEnd v s) := by
  unfold lineEnd
  split
  · exact .refl s
  · split
    · exact frameDone_frame s
    · split
      · exact .sync s _ rfl
      · exact .refl s

theorem lineDone_frame (s : State) : SampleFrame s (lineDone s) := by
  have h1 := (emitLine_frame s).trans (nextRow_frame (emitLine s))
  unfold lineDone
  dsimp only
  split
  · exact (h1.trans (vsStep_frame _ _)).trans (lineEnd_frame _ _)
  · exact h1.trans (lineEnd_frame _ _)

theorem rasterStep_frame (s : State) : SampleFrame s (rasterStep s) := by
  have h1 : SampleFrame s { s with sync := { s.sync with col := satInc s.sync.col } } := .sync s _ rfl
  unfold rasterStep
  dsimp only
  split
  · exact h1.trans (lineDone_frame _)
  · exact h1

/-! ## The sample step and the block -/

theorem dmRawStep_frame (z : Cfx) (s : State) : SampleFrame s (dmRawStep z s) := by
  unfold dmRawStep pushHistory
  split
  · exact .quiet s s.lt s.sync _ _ s.dm.line s.dm.frames s.io.pix rfl
  · exact .quiet s s.lt s.sync _ _ s.dm.line s.dm.frames s.io.pix rfl
  · exact .refl s
  · exact .refl s
  · exact .refl s

theorem checkSignal_frame (s : State) : SampleFrame s (checkSignal s) := by
  unfold checkSignal
  split
  · exact toUnsync_frame s
  · exact .refl s

/-- The middle of the sample step while Unsynchronized: history, tracker and amplitude statistics (R220, R236). -/
theorem sampleMid_unsync (z : Cfx) {s : State} (h : s.sync.fsm = .unsynchronized) :
    sampleMid z s = recordAmp (dmRaw z s) { dmRawStep z s with lt := ltUpdate z s.lt } := by
  have e1 : dmRawStep z { s with lt := ltUpdate z s.lt } = { dmRawStep z s with lt := ltUpdate z s.lt } := by
    unfold dmRawStep pushHistory
    dsimp only; split <;> rfl
  have e2 : (dmRawStep z s).sync = s.sync := by unfold dmRawStep pushHistory; split <;> rfl
  have e3 : checkSignal { dmRawStep z s with lt := ltUpdate z s.lt } = { dmRawStep z s with lt := ltUpdate z s.lt } := by
    unfold checkSignal; dsimp only; rw [e2, h]; rfl
  unfold sampleMid
  dsimp only
  rw [e1, e3]; rfl

theorem sampleMid_frame (z : Cfx) (s : State) : SampleFrame s (sampleMid z s) := by
  have h1 : SampleFrame s { s with lt := ltUpdate z s.lt } :=
    .quiet s _ s.sync s.dm.uh1 s.dm.uh2 s.dm.line s.dm.frames s.io.pix rfl
  exact ((h1.trans (dmRawStep_frame _ _)).trans (checkSignal_frame _)).trans (.sync _ _ rfl)

theorem storeSample_frame (n : Fx) (s : State) : SampleFrame s (storeSample n s) :=
  .quiet s s.lt _ s.dm.uh1 s.dm.uh2 _ s.dm.frames s.io.pix rfl

/-- What `dm_sample` can change (R220). -/
theorem dmSample_frame (z : Cfx) (s : State) : SampleFrame s (dmSample z s) := by
  rw [dmSample_eq]
  exact (((sampleMid_frame z s).trans (hsStep_frame _ _)).trans (storeSample_frame _ _)).trans (rasterStep_frame _)

theorem dmSamples_frame (zs : List Cfx) (s : State) : SampleFrame s (dmSamples zs s) := by
  induction zs generalizing s with
  | nil => exact .refl s
  | cons z zs ih => exact (dmSample_frame z s).trans (ih _)

/-- The rate converter's place in the path (R168, R217). -/
theorem frontConvert_spec (z : Cfx) (s : State) : ∃ c : Rc, (frontConvert z s).2 = { s with rc := c } ∧
    c.ratio = s.rc.ratio ∧ (s.dm.d.decimOn = false → c = s.rc ∧ (frontConvert z s).1 = [z]) := by
  unfold frontConvert
  split
  · next h => exact ⟨_, rfl, rcPush_ratio _ _, fun h' => absurd (h.symm.trans h') (by decide)⟩
  · exact ⟨s.rc, rfl, rfl, fun _ => ⟨rfl, rfl⟩⟩

/-- The spectral filter's place in the path (R188, R217). -/
theorem frontFilter_spec (zs : List Cfx) (s : State) : ∃ f : Sf, (frontFilter zs s).2 = { s with sf := f } ∧
    f.mask = s.sf.mask ∧ (s.dm.d.filtOn = false → f = s.sf ∧ (frontFilter zs s).1 = zs) ∧
    (s.dm.d.filtOn = true → (frontFilter zs s).1.length = (s.sf.fill.val + zs.length) / 1024 * 1024 ∧
      f.fill.val = (s.sf.fill.val + zs.length) % 1024) := by
  unfold frontFilter
  split
  · next h => exact ⟨_, rfl, sfPushAll_mask _ _, fun h' => absurd (h.symm.trans h') (by decide),
      fun _ => sfPushAll_count zs s.sf⟩
  · next h => exact ⟨s.sf, rfl, rfl, fun _ => ⟨rfl, rfl⟩, fun h' => absurd h' h⟩

/-- The front end (R217): oscillator 0 advanced, converter and filter moved where they are in the path, and the count of samples
it passes on. -/
theorem dmFront_spec (x : Cfx) (s : State) : ∃ (c : Rc) (f : Sf),
    (dmFront x s).2 = { s with nco := s.nco.set 0 (ncoAdvance s.nco[(0 : Fin 3)]), rc := c, sf := f } ∧
      c.ratio = s.rc.ratio ∧ f.mask = s.sf.mask ∧ (s.dm.d.decimOn = false → c = s.rc) ∧
      (s.dm.d.filtOn = false → f = s.sf) ∧
      (s.dm.d.decimOn = false → s.dm.d.filtOn = false →
        (dmFront x s).1 = [cmul x (ncoOut s.nco[(0 : Fin 3)] 0)]) ∧
      (s.dm.d.decimOn = false → s.dm.d.filtOn = true → (dmFront x s).1.length = (s.sf.fill.val + 1) / 1024 * 1024 ∧
        f.fill.val = (s.sf.fill.val + 1) % 1024) := by
  obtain ⟨c, hc1, hc2, hc3⟩ := frontConvert_spec (cmul x (ncoOut s.nco[(0 : Fin 3)] 0)) (ncoStep 0 s)
  obtain ⟨f, hf1, hf2, hf3, hf4⟩ := frontFilter_spec
    (frontConvert (cmul x (ncoOut s.nco[(0 : Fin 3)] 0)) (ncoStep 0 s)).1
    (frontConvert (cmul x (ncoOut s.nco[(0 : Fin 3)] 0)) (ncoStep 0 s)).2
  rw [hc1] at hf1 hf2 hf3 hf4
  refine ⟨c, f, ?_, hc2, hf2, fun h => (hc3 h).1, fun h => (hf3 h).1, fun h h' => ?_, fun h h' => ?_⟩
  · unfold dmFront
    dsimp only
    rw [hc1, hf1]
    rfl
  · unfold dmFront
    dsimp only
    rw [hc1, (hf3 h').2, (hc3 h).2]
  · have := hf4 h'
    rw [(hc3 h).2] at this
    unfold dmFront
    dsimp only
    rw [hc1, (hc3 h).2]
    exact this

/-! ## DM.FEED with nothing to apply -/

/-- A block fed to an active engine with neither a stop nor a message pending (R216). -/
theorem execDmFeed_running {s : State} (xs : List Cfx) (ha : s.dm.active = true) (hs : s.dm.stopReq = false)
    (hp : s.dm.pndF.any = false) :
    execDmFeed xs s = .next (respond .ok [BitVec.ofNat 32 (dmBlock xs s).1] (dmBlock xs s).2) := by
  have h : dmSafePoint s = s := by unfold dmSafePoint; simp [hs, hp]
  unfold execDmFeed
  rw [if_pos ha, h]; dsimp only; rw [if_pos ha]; rfl

end Sys2Proof.Machine
end

