-- ==== Sys2Proof/Laws/Bypass.lean ====
section
/-! SUPPORT. The sample step reads nothing of the front end: not the oscillators, the converter, the filter or the two flags
that put these in the path (spec/44_atv_demod.md R217, R220). One lemma per operation, and what a block of DM.FEED is from
them: the mixed block through the units, then the sample steps (R216). -/

namespace Sys2Proof.Machine
open Config

/-- The state with the oscillators, the converter, the filter and the two path flags replaced. -/
def units (n : Vector Nco 3) (c : Rc) (f : Sf) (a b : Bool) (s : State) : State :=
  { s with nco := n, rc := c, sf := f, dm := { s.dm with d := { s.dm.d with decimOn := a, filtOn := b } } }

theorem units_self (s : State) : units s.nco s.rc s.sf s.dm.d.decimOn s.dm.d.filtOn s = s := rfl

/-- Replacing the front end commutes with an operation. -/
def Blind (g : State → State) : Prop := ∀ n c f a b s, g (units n c f a b s) = units n c f a b (g s)

theorem Blind.comp {g h : State → State} (hg : Blind g) (hh : Blind h) : Blind fun s => h (g s) := by
  intro n c f a b s; dsimp only; rw [hg, hh]

theorem Blind.id : Blind fun s => s := fun _ _ _ _ _ _ => rfl

theorem Blind.ite {g h : State → State} (hg : Blind g) (hh : Blind h) (p : State → Prop) [DecidablePred p]
    (hp : ∀ n c f a b s, p (units n c f a b s) ↔ p s) : Blind fun s => if p s then g s else h s := by
  intro n c f a b s
  by_cases k : p s
  · dsimp only; rw [if_pos k, if_pos ((hp n c f a b s).2 k), hg]
  · dsimp only; rw [if_neg k, if_neg fun k' => k ((hp n c f a b s).1 k'), hh]

/-! ## Line sync (R229 to R237) -/

theorem blind_setFsm (new : Fsm) : Blind (setFsm new) :=
  Blind.ite (fun _ _ _ _ _ _ => rfl) (fun _ _ _ _ _ _ => rfl) (fun s => s.sync.fsm = new)
    fun _ _ _ _ _ _ => Iff.rfl

theorem blind_toUnsync : Blind toUnsync := by
  intro n c f a b s
  unfold toUnsync
  show (if s.sync.fsm = .unsynchronized then _ else _) = _
  split <;> rfl

theorem blind_hsLocked (d : Bool) : Blind (hsLocked d) := by
  intro n c f a b s
  unfold hsLocked
  show (if (d && onCadence s.dm.d s.sync) = true then _ else if s.sync.sinceHs.toNat = s.dm.d.spl.toNat + HS_TOL + 1
    then if HS_LOSS_COUNT ≤ (satInc s.sync.hsMiss).toNat then _ else _ else _) = units n c f a b (if _ then _ else if _
    then if HS_LOSS_COUNT ≤ (satInc s.sync.hsMiss).toNat then _ else _ else _)
  by_cases h1 : (d && onCadence s.dm.d s.sync) = true
  · rw [if_pos h1, if_pos h1]; rfl
  · rw [if_neg h1, if_neg h1]
    by_cases h2 : s.sync.sinceHs.toNat = s.dm.d.spl.toNat + HS_TOL + 1
    · rw [if_pos h2, if_pos h2]
      by_cases h3 : HS_LOSS_COUNT ≤ (satInc s.sync.hsMiss).toNat
      · rw [if_pos h3, if_pos h3]; exact blind_toUnsync _ _ _ _ _ _
      · rw [if_neg h3, if_neg h3]; rfl
    · rw [if_neg h2, if_neg h2]

theorem blind_hsSearch (d : Bool) : Blind (hsSearch d) := by
  intro n c f a b s
  cases d
  · rfl
  · unfold hsSearch
    show (if onCadence s.dm.d s.sync = true
      then if HS_LOCK_COUNT ≤ (satInc s.sync.hsCount).toNat then _ else _ else _) = units n c f a b
        (if _ then if HS_LOCK_COUNT ≤ (satInc s.sync.hsCount).toNat then _ else _ else _)
    by_cases h1 : onCadence s.dm.d s.sync = true
    · rw [if_pos h1, if_pos h1]
      by_cases h2 : HS_LOCK_COUNT ≤ (satInc s.sync.hsCount).toNat
      · rw [if_pos h2, if_pos h2]
        exact congrArg (setHs (satInc s.sync.hsCount) 0#32 0#32) (blind_setFsm .lineLocked n c f a b
          (hsAlign (setHs (satInc s.sync.hsCount) s.sync.hsMiss 0#32 s)))
      · rw [if_neg h2, if_neg h2]; rfl
    · rw [if_neg h1, if_neg h1]; rfl

theorem blind_hsUnsync (d : Bool) : Blind (hsUnsync d) := by
  cases d
  · exact fun _ _ _ _ _ _ => rfl
  · exact (blind_setFsm .lineSyncSearching).comp (h := fun t => hsAlign (setHs 1#32 0#32 0#32 t)) fun _ _ _ _ _ _ => rfl

theorem blind_hsMachine (d : Bool) : Blind (hsMachine d) := by
  intro n c f a b s
  have e : (units n c f a b s).sync.fsm = s.sync.fsm := rfl
  unfold hsMachine
  rw [e]
  cases s.sync.fsm
  · exact blind_hsUnsync d n c f a b s
  · exact blind_hsSearch d n c f a b s
  · exact blind_hsLocked d n c f a b s
  · exact blind_hsLocked d n c f a b s
  · exact blind_hsLocked d n c f a b s

theorem blind_hsStep (v : Fx) : Blind (hsStep v) := by
  intro n c f a b s
  unfold hsStep
  show (if s.dm.cur.atv.hsyncEn = true then _ else _) = units n c f a b (if s.dm.cur.atv.hsyncEn = true then _ else _)
  by_cases h : s.dm.cur.atv.hsyncEn = true
  · rw [if_pos h, if_pos h]
    exact blind_hsMachine _ n c f a b { s with sync := hsMajority s.dm.cur.atv.thrSyncTop (hsWindow v s.sync) }
  · rw [if_neg h, if_neg h]; rfl

/-! ## Frame sync and raster (R240 to R244) -/

/-- The same for an operation that answers as well. -/
def BlindV (g : State → VsAnswer × State) : Prop :=
  ∀ n c f a b s, g (units n c f a b s) = ((g s).1, units n c f a b (g s).2)

theorem blind_vsLineLocked (cand : Bool) : BlindV (vsLineLocked cand) := by
  intro n c f a b s
  cases cand
  · rfl
  · exact congrArg (fun t => (VsAnswer.acc, setVs 1#32 0#32 0#32 t)) (blind_setFsm .frameSyncSearching n c f a b s)

theorem blind_vsSearching (cand : Bool) : BlindV (vsSearching cand) := by
  intro n c f a b s
  cases cand
  · rfl
  · have e : ∀ t : State, vsSearching true t = if onFrame t.dm.d t.sync = true
        then if VS_LOCK_COUNT ≤ (satInc t.sync.vsCount).toNat
          then (.acc, setVs (satInc t.sync.vsCount) 0#32 0#32 (setFsm .frameLocked t))
          else (.acc, setVs (satInc t.sync.vsCount) t.sync.vsMiss 0#32 t)
        else (.acc, setVs 1#32 t.sync.vsMiss 0#32 t) := fun t => rfl
    have h1 : onFrame (units n c f a b s).dm.d (units n c f a b s).sync = onFrame s.dm.d s.sync := rfl
    have h2 : (units n c f a b s).sync.vsCount = s.sync.vsCount := rfl
    rw [e, e, h1, h2]
    by_cases k1 : onFrame s.dm.d s.sync = true
    · rw [if_pos k1, if_pos k1]
      by_cases k2 : VS_LOCK_COUNT ≤ (satInc s.sync.vsCount).toNat
      · rw [if_pos k2, if_pos k2, blind_setFsm]; rfl
      · rw [if_neg k2, if_neg k2]; rfl
    · rw [if_neg k1, if_neg k1]; rfl

theorem blind_vsFrameLocked (cand : Bool) : BlindV (vsFrameLocked cand) := by
  intro n c f a b s
  have e : ∀ t : State, vsFrameLocked cand t = if (cand && onFrame t.dm.d t.sync) = true
      then (.acc, setVs (satInc t.sync.vsCount) 0#32 0#32 t)
      else if t.sync.linesSinceVs.toNat = t.dm.d.lpf.toNat + VS_TOL + 1
        then if VS_LOSS_COUNT ≤ (satInc t.sync.vsMiss).toNat
          then (.lost, toUnsync (setVs 0#32 (satInc t.sync.vsMiss) (t.sync.linesSinceVs - t.dm.d.lpf) t))
          else (.none, setVs 0#32 (satInc t.sync.vsMiss) (t.sync.linesSinceVs - t.dm.d.lpf) t)
        else (.none, t) := fun t => rfl
  have h1 : onFrame (units n c f a b s).dm.d (units n c f a b s).sync = onFrame s.dm.d s.sync := rfl
  have h2 : (units n c f a b s).sync = s.sync := rfl
  have h3 : (units n c f a b s).dm.d.lpf = s.dm.d.lpf := rfl
  rw [e, e, h1, h2, h3]
  by_cases k1 : (cand && onFrame s.dm.d s.sync) = true
  · rw [if_pos k1, if_pos k1]; rfl
  · rw [if_neg k1, if_neg k1]
    by_cases k2 : s.sync.linesSinceVs.toNat = s.dm.d.lpf.toNat + VS_TOL + 1
    · rw [if_pos k2, if_pos k2]
      by_cases k3 : VS_LOSS_COUNT ≤ (satInc s.sync.vsMiss).toNat
      · rw [if_pos k3, if_pos k3]
        exact congrArg (Prod.mk VsAnswer.lost) (blind_toUnsync n c f a b
          (setVs 0#32 (satInc s.sync.vsMiss) (s.sync.linesSinceVs - s.dm.d.lpf) s))
      · rw [if_neg k3, if_neg k3]; rfl
    · rw [if_neg k2, if_neg k2]

theorem blind_vsStep (avg : Int) : BlindV (vsStep avg) := by
  intro n c f a b s
  have e : (units n c f a b s).sync = s.sync := rfl
  have e2 : (units n c f a b s).dm.cur = s.dm.cur := rfl
  have e3 : vsCounted avg (units n c f a b s) = units n c f a b (vsCounted avg s) := rfl
  rw [vsStep_eq, vsStep_eq, e, e2, e3]
  cases s.sync.fsm
  · rfl
  · rfl
  · exact blind_vsLineLocked _ _ _ _ _ _ _
  · exact blind_vsSearching _ _ _ _ _ _ _
  · exact blind_vsFrameLocked _ _ _ _ _ _ _

theorem blind_frameDone : Blind frameDone := fun _ _ _ _ _ _ => rfl

theorem blind_emitLine : Blind emitLine := by
  intro n c f a b s
  unfold emitLine
  show (if s.sync.row.toNat < s.dm.d.rowsDisp.toNat then _ else _) = units n c f a b (if _ then _ else _)
  by_cases h : s.sync.row.toNat < s.dm.d.rowsDisp.toNat
  · rw [if_pos h, if_pos h]; rfl
  · rw [if_neg h, if_neg h]

theorem blind_lineEnd (v : VsAnswer) : Blind (lineEnd v) :=
  Blind.ite (fun _ _ _ _ _ _ => rfl) (Blind.ite blind_frameDone
    (Blind.ite (fun _ _ _ _ _ _ => rfl) (fun _ _ _ _ _ _ => rfl) (fun _ => v = .acc) fun _ _ _ _ _ _ => Iff.rfl)
    (fun s => s.dm.d.lpf.toNat ≤ s.sync.row.toNat ∨ (v = .acc ∧ VS_TOL < s.sync.row.toNat)) fun _ _ _ _ _ _ => Iff.rfl)
    (fun _ => v = .lost) fun _ _ _ _ _ _ => Iff.rfl

theorem blind_lineDone : Blind lineDone := by
  intro n c f a b s
  have e : ∀ t : State, lineDone t = if (t.dm.cur.atv.vsyncEn && t.sync.fsm.locked) = true
      then lineEnd (vsStep (lineAverage t) (nextRow (emitLine t))).1 (vsStep (lineAverage t) (nextRow (emitLine t))).2
      else lineEnd .none (nextRow (emitLine t)) := fun t => rfl
  have e1 : (units n c f a b s).dm.cur = s.dm.cur := rfl
  have e2 : (units n c f a b s).sync = s.sync := rfl
  have e3 : lineAverage (units n c f a b s) = lineAverage s := rfl
  have e4 : nextRow (emitLine (units n c f a b s)) = units n c f a b (nextRow (emitLine s)) := by
    rw [blind_emitLine]; rfl
  rw [e, e, e1, e2, e3, e4, blind_vsStep]
  dsimp only
  rw [blind_lineEnd, blind_lineEnd]
  split <;> rfl

theorem blind_rasterStep : Blind rasterStep :=
  Blind.comp (g := fun s => { s with sync := { s.sync with col := satInc s.sync.col } }) (fun _ _ _ _ _ _ => rfl)
    (Blind.ite blind_lineDone Blind.id (fun t => t.dm.d.spl.toNat ≤ t.sync.col.toNat)
      fun _ _ _ _ _ _ => Iff.rfl)

/-! ## The sample step and the block (R216, R217, R220) -/

theorem blind_dmRawStep (z : Cfx) : Blind (dmRawStep z) := by
  intro n c f a b s
  have e : (units n c f a b s).dm.cur = s.dm.cur := rfl
  unfold dmRawStep
  rw [e]
  cases s.dm.cur.rf.modKind <;> rfl

theorem blind_checkSignal : Blind checkSignal :=
  Blind.ite blind_toUnsync (fun _ _ _ _ _ _ => rfl)
    (fun s => (s.sync.fsm.locked && decide ((ltAvg s.lt).toInt < LT_FLOOR)) = true) fun _ _ _ _ _ _ => Iff.rfl

theorem blind_sampleMid (z : Cfx) : Blind (sampleMid z) := by
  intro n c f a b s
  have h := ((blind_dmRawStep z).comp blind_checkSignal) n c f a b { s with lt := ltUpdate z s.lt }
  exact congrArg (recordAmp (dmRaw z { s with lt := ltUpdate z s.lt })) h

/-- The sample step reads nothing of the front end and leaves it (R220). -/
theorem blind_dmSample (z : Cfx) : Blind (dmSample z) := by
  intro n c f a b s
  have e : dmRaw z (units n c f a b s) = dmRaw z s := rfl
  have e2 : (units n c f a b (sampleMid z s)).sync = (sampleMid z s).sync := rfl
  rw [dmSample_eq, dmSample_eq, e, blind_sampleMid, e2, blind_hsStep]
  exact blind_rasterStep n c f a b (storeSample _ (hsStep _ (sampleMid z s)))

theorem blind_dmSamples (zs : List Cfx) : Blind (dmSamples zs) := by
  induction zs with
  | nil => exact fun _ _ _ _ _ _ => rfl
  | cons z zs ih => exact (blind_dmSample z).comp ih

theorem dmSamples_append (xs ys : List Cfx) (s : State) : dmSamples (xs ++ ys) s = dmSamples ys (dmSamples xs s) := by
  induction xs generalizing s with
  | nil => rfl
  | cons x xs ih => exact ih (dmSample x s)

/-- The mixed samples of a block and the oscillator after it (R217). -/
def mixBlock : List Cfx → Nco → List Cfx × Nco
  | [], o => ([], o)
  | x :: xs, o => (cmul x (ncoOut o 0) :: (mixBlock xs (ncoAdvance o)).1, (mixBlock xs (ncoAdvance o)).2)

@[simp] theorem mixBlock_length (xs : List Cfx) (o : Nco) : (mixBlock xs o).1.length = xs.length := by
  induction xs generalizing o with
  | nil => rfl
  | cons x xs ih => simp only [mixBlock, List.length_cons, ih]

/-- The oscillator after a block: one increment further for each input (R144). -/
theorem mixBlock_snd (xs : List Cfx) (o : Nco) :
    (mixBlock xs o).2 = { phase := o.phase + BitVec.ofNat P xs.length * o.inc, inc := o.inc } := by
  induction xs generalizing o with
  | nil => simp [mixBlock]
  | cons x xs ih =>
    have h : BitVec.ofNat P (xs.length + 1) * o.inc = o.inc + BitVec.ofNat P xs.length * o.inc := by
      rw [BitVec.ofNat_add, BitVec.add_mul, BitVec.one_mul, BitVec.add_comm]
    simp only [mixBlock, ih, ncoAdvance, List.length_cons, h, BitVec.add_assoc]

/-- Input i is multiplied by the oscillator's value i + 1 increments further on (R144, R217). -/
theorem mixBlock_getElem? (xs : List Cfx) (o : Nco) (i : Nat) (x : Cfx) (h : xs[i]? = some x) :
    (mixBlock xs o).1[i]? = some (cmul x (cs (o.phase + BitVec.ofNat P (i + 1) * o.inc))) := by
  induction xs generalizing o i with
  | nil => simp at h
  | cons y xs ih =>
    cases i with
    | zero =>
      obtain rfl : y = x := by simpa using h
      simp [mixBlock, ncoOut, ncoValue, ncoAdvance]
    | succ i =>
      have e : BitVec.ofNat P (i + 1 + 1) * o.inc = o.inc + BitVec.ofNat P (i + 1) * o.inc := by
        rw [BitVec.ofNat_add (i + 1), BitVec.add_mul, BitVec.one_mul, BitVec.add_comm]
      have := ih (ncoAdvance o) i (by simpa using h)
      simpa only [mixBlock, List.getElem?_cons_succ, ncoAdvance, e, BitVec.add_assoc] using this

/-- The oscillator at rest at phase 0 leaves a block as it is (R217). -/
theorem mixBlock_rest (xs : List Cfx) : mixBlock xs ⟨0#32, 0#32⟩ = (xs, ⟨0#32, 0#32⟩) := by
  induction xs with
  | nil => rfl
  | cons x xs ih =>
    have e : ncoAdvance ⟨0#32, 0#32⟩ = ⟨0#32, 0#32⟩ := rfl
    have o : ncoOut ⟨0#32, 0#32⟩ 0 = ⟨fxOne, 0#32⟩ := rfl
    simp only [mixBlock, e, ih, o, cmul_one]

/-- The converter over a block, in the path or past it (R168, R217). -/
def convBlock (on : Bool) (zs : List Cfx) (c : Rc) : List Cfx × Rc := if on then rcPushAll zs c else (zs, c)

/-- The filter over a block, in the path or past it (R188, R217). -/
def filtBlock (on : Bool) (zs : List Cfx) (f : Sf) : List Cfx × Sf := if on then sfPushAll zs f else (zs, f)

theorem convBlock_append (on : Bool) (xs ys : List Cfx) (c : Rc) : convBlock on (xs ++ ys) c =
    ((convBlock on xs c).1 ++ (convBlock on ys (convBlock on xs c).2).1, (convBlock on ys (convBlock on xs c).2).2) := by
  cases on
  · rfl
  · exact rcPushAll_append xs ys c

theorem filtBlock_append (on : Bool) (xs ys : List Cfx) (f : Sf) : filtBlock on (xs ++ ys) f =
    ((filtBlock on xs f).1 ++ (filtBlock on ys (filtBlock on xs f).2).1, (filtBlock on ys (filtBlock on xs f).2).2) := by
  cases on
  · rfl
  · exact sfPushAll_append xs ys f

/-- The front end of one input: mixer, converter, filter (R217). -/
theorem dmFront_eq (x : Cfx) (s : State) :
    let y := convBlock s.dm.d.decimOn [cmul x (ncoOut s.nco[(0 : Fin 3)] 0)] s.rc
    let w := filtBlock s.dm.d.filtOn y.1 s.sf
    dmFront x s = (w.1, units (s.nco.set (0 : Fin 3) (ncoAdvance s.nco[(0 : Fin 3)])) y.2 w.2
      s.dm.d.decimOn s.dm.d.filtOn s) := by
  have h1 : ∀ (z : Cfx) (c : Rc), rcPushAll [z] c = rcPush z c := fun z c => by
    simp only [rcPushAll, List.append_nil]
  have e1 : (ncoStep 0 s).dm = s.dm := rfl
  have hs : ∀ (a b : Bool), s.dm.d.decimOn = a → s.dm.d.filtOn = b →
      ∀ n c f, units n c f a b s = { s with nco := n, rc := c, sf := f } := by
    rintro a b rfl rfl n c f; rfl
  unfold dmFront frontConvert frontFilter convBlock filtBlock
  dsimp only
  rw [e1]
  cases hd : s.dm.d.decimOn <;> cases hf : s.dm.d.filtOn <;>
    simp only [h1, hs _ _ hd hf, Bool.false_eq_true, if_true, if_false] <;> simp only [e1, hf, Bool.false_eq_true, if_true, if_false] <;> rfl

/-- A block of DM.FEED: the mixed block goes through converter and filter, and the sample step takes what comes out (R216,
R217). -/
theorem dmBlock_eq (xs : List Cfx) (s : State) :
    let m := mixBlock xs s.nco[(0 : Fin 3)]
    let y := convBlock s.dm.d.decimOn m.1 s.rc
    let w := filtBlock s.dm.d.filtOn y.1 s.sf
    dmBlock xs s = (w.1.length, units (s.nco.set (0 : Fin 3) m.2) y.2 w.2 s.dm.d.decimOn s.dm.d.filtOn
      (dmSamples w.1 s)) := by
  induction xs generalizing s with
  | nil =>
    have h1 : convBlock s.dm.d.decimOn [] s.rc = ([], s.rc) := by cases s.dm.d.decimOn <;> rfl
    have h2 : filtBlock s.dm.d.filtOn [] s.sf = ([], s.sf) := by cases s.dm.d.filtOn <;> rfl
    simp only [mixBlock, h1, h2, dmBlock, dmSamples, List.length_nil]
    simp [units]
  | cons x xs ih =>
    have hf := dmFront_eq x s
    dsimp only at hf ih ⊢
    rw [dmBlock, hf]
    dsimp only
    rw [blind_dmSamples, ih]
    have q : ∀ (n : Vector Nco 3) (c : Rc) (f : Sf) (a b : Bool) (t : State), (units n c f a b t).nco = n ∧
        (units n c f a b t).rc = c ∧ (units n c f a b t).sf = f ∧ (units n c f a b t).dm.d.decimOn = a ∧
        (units n c f a b t).dm.d.filtOn = b := fun _ _ _ _ _ _ => ⟨rfl, rfl, rfl, rfl, rfl⟩
    rw [(q _ _ _ _ _ _).1, (q _ _ _ _ _ _).2.1, (q _ _ _ _ _ _).2.2.1, (q _ _ _ _ _ _).2.2.2.1,
      (q _ _ _ _ _ _).2.2.2.2]
    have hm : mixBlock (x :: xs) s.nco[(0 : Fin 3)] = (cmul x (ncoOut s.nco[(0 : Fin 3)] 0) ::
      (mixBlock xs (ncoAdvance s.nco[(0 : Fin 3)])).1, (mixBlock xs (ncoAdvance s.nco[(0 : Fin 3)])).2) := rfl
    have hn : (s.nco.set (0 : Fin 3) (ncoAdvance s.nco[(0 : Fin 3)]))[(0 : Fin 3)] = ncoAdvance s.nco[(0 : Fin 3)] := by
      simp
    rw [hm, hn]
    dsimp only
    rw [show convBlock s.dm.d.decimOn (cmul x (ncoOut s.nco[(0 : Fin 3)] 0) ::
      (mixBlock xs (ncoAdvance s.nco[(0 : Fin 3)])).1) s.rc = _ from convBlock_append _ [_] _ _]
    dsimp only
    rw [filtBlock_append]
    dsimp only
    rw [blind_dmSamples, dmSamples_append, List.length_append]
    simp [units]

/-- A block in two parts (R216). -/
theorem dmBlock_append (xs ys : List Cfx) (s : State) : dmBlock (xs ++ ys) s =
    ((dmBlock xs s).1 + (dmBlock ys (dmBlock xs s).2).1, (dmBlock ys (dmBlock xs s).2).2) := by
  induction xs generalizing s with
  | nil => simp [dmBlock]
  | cons x xs ih => simp only [List.cons_append, dmBlock, ih, Nat.add_assoc]

/-- A response given before a block does not change it (R40). -/
theorem dmBlock_respond (st : Status) (ws : List Word) (xs : List Cfx) (s : State) :
    dmBlock xs (respond st ws s) = ((dmBlock xs s).1, respond st ws (dmBlock xs s).2) := by
  obtain ⟨e, p, h⟩ := appends_dmBlock xs s
  have h0 := h s.io.cmd s.io.rsp s.io.evt s.io.pix
  rw [ports_self] at h0
  have hr : respond st ws s = ports s.io.cmd (s.io.rsp ++ [⟨st, ws⟩]) s.io.evt s.io.pix s := rfl
  have h1 := h s.io.cmd (s.io.rsp ++ [⟨st, ws⟩]) s.io.evt s.io.pix
  have h2 : (dmBlock xs s).2 = _ := congrArg Prod.snd h0
  rw [hr, h1]
  congr 1
  rw [h2]
  rfl

end Sys2Proof.Machine
end

