-- ==== Sys2Proof/Laws/Raster.lean ====
section
/-! SUPPORT. The ranges of spec/10_state.md R44 through the sample step: the raster position, the normaliser span, the tracker's sum. -/

namespace Sys2Proof.Machine
open Config

/-! ## Level tracker (R44) -/

theorem sum_set_add (l : List Fx) (i : Nat) (m : Fx) (h : i < l.length) :
    ((l.set i m).map BitVec.toInt).sum + (l[i]).toInt = (l.map BitVec.toInt).sum + m.toInt := by
  induction l generalizing i with
  | nil => exact absurd h (Nat.not_lt_zero _)
  | cons x l ih =>
    cases i with
    | zero => simp only [List.set_cons_zero, List.map_cons, List.sum_cons, List.getElem_cons_zero]; omega
    | succ i =>
      have := ih i (Nat.lt_of_succ_lt_succ h)
      simp only [List.set_cons_succ, List.map_cons, List.sum_cons, List.getElem_cons_succ]
      omega

theorem sum_bounds (l : List Fx) (h : ∀ m ∈ l, 0 ≤ BitVec.toInt m) :
    0 ≤ (l.map BitVec.toInt).sum ∧ (l.map BitVec.toInt).sum ≤ l.length * FX_MAX := by
  induction l with
  | nil => simp
  | cons x l ih =>
    have h1 := ih fun m hm => h m (List.mem_cons_of_mem _ hm)
    have h2 := h x List.mem_cons_self
    have h3 := (toInt32_bounds x).2
    simp only [List.map_cons, List.sum_cons, List.length_cons, Nat.cast_succ, add_mul, one_mul]
    omega

/-- R44 of the tracker: every window entry non-negative, the sum theirs. -/
structure Lt.Ok (l : Lt) : Prop where
  win_nonneg : ∀ m ∈ l.win.toList, 0 ≤ BitVec.toInt m
  sum_eq : l.sum.toInt = (l.win.toList.map BitVec.toInt).sum

theorem Lt.Ok.bounds {l : Lt} (h : l.Ok) : 0 ≤ l.sum.toInt ∧ l.sum.toInt ≤ 32 * FX_MAX := by
  have := sum_bounds l.win.toList h.win_nonneg
  rw [h.sum_eq]
  rw [Vector.length_toList] at this
  simp only [LT_N] at this
  omega

theorem Lt.Ok.reset : Lt.reset.Ok := by
  have h : Lt.reset.win.toList = List.replicate 32 0#32 := rfl
  refine ⟨fun m hm => ?_, by rw [h]; rfl⟩
  rw [h] at hm
  rw [(List.mem_replicate.1 hm).2]
  decide

theorem ltUpdate_ok (z : Cfx) {l : Lt} (h : l.Ok) : (ltUpdate z l).Ok := by
  have hb := h.bounds
  constructor
  · intro m hm
    rw [ltUpdate_win, Vector.toList_set] at hm
    rcases List.mem_or_eq_of_mem_set hm with h' | h'
    · exact h.win_nonneg m h'
    · exact h' ▸ (magsq_range z).1
  · have hl : l.idx.val < l.win.toList.length := by rw [Vector.length_toList]; exact l.idx.isLt
    have hs := sum_set_add l.win.toList l.idx.val (magsq z) hl
    rw [ltUpdate_sum z hb.1 hb.2, ltUpdate_win, Vector.toList_set, h.sum_eq]
    have hg : l.win.toList[l.idx.val] = l.win[l.idx] := by rw [Vector.getElem_toList]; rfl
    rw [hg] at hs
    omega

/-! ## Raster position and normaliser span (R44) -/

/-- R44 of the raster, for a legal geometry. -/
structure RasterOk (s : State) : Prop where
  geometry : s.dm.d.Ok
  col : s.sync.col.toNat < s.dm.d.spl.toNat
  row : s.sync.row.toNat < s.dm.d.lpf.toNat
  delta : 0 < s.sync.effDelta.toInt

/-- The same with the row of the next line counted and not yet wrapped. -/
structure RowDone (s : State) : Prop where
  geometry : s.dm.d.Ok
  col : s.sync.col.toNat < s.dm.d.spl.toNat
  row : s.sync.row.toNat ≤ s.dm.d.lpf.toNat
  delta : 0 < s.sync.effDelta.toInt

theorem RasterOk.rowDone {s : State} (h : RasterOk s) : RowDone s := ⟨h.geometry, h.col, Nat.le_of_lt h.row, h.delta⟩

/-- A sync reset establishes the ranges (R32, R247). -/
theorem toUnsync_raster {s : State} (h : s.dm.d.Ok) : RasterOk (toUnsync s) := by
  have h1 := h.spl_min
  have h2 := h.lpf_min
  simp only [SPL_MIN] at h1
  refine ⟨by rw [toUnsync_dm]; exact h, ?_, ?_, ?_⟩ <;> rw [toUnsync_sync] <;> try rw [toUnsync_dm]
  · show (0#32).toNat < _; simp only [BitVec.toNat_zero]; omega
  · show (0#32).toNat < _; simp only [BitVec.toNat_zero]; omega
  · decide

/-- The column an aligned line sync sets lies within the line (R231). -/
theorem align_col {d : DmDerived} (h : d.Ok) :
    (BitVec.ofInt 32 (d.topN.toNat - 2 + HS_DELAY : Int)).toNat < d.spl.toNat := by
  have h1 := h.top_min
  have h2 := h.top_max
  have h3 := h.spl_max
  simp only [HS_DELAY, SPL_MAX] at *
  have := toNat_ofInt32 ((d.topN.toNat : Int) - 2 + ((3 : Nat) : Int))
  omega

theorem hsAlign_raster {s : State} (h : RasterOk s) : RasterOk (hsAlign s) :=
  ⟨h.geometry, align_col h.geometry, h.row, h.delta⟩

theorem setHs_raster (a b c : Word) {s : State} (h : RasterOk s) : RasterOk (setHs a b c s) :=
  ⟨h.geometry, h.col, h.row, h.delta⟩

theorem setFsm_raster (new : Fsm) {s : State} (h : RasterOk s) : RasterOk (setFsm new s) :=
  ⟨by rw [setFsm_dm]; exact h.geometry, by rw [setFsm_dm, setFsm_sync]; exact h.col,
    by rw [setFsm_dm, setFsm_sync]; exact h.row, by rw [setFsm_sync]; exact h.delta⟩

theorem hsMachine_raster (b : Bool) {s : State} (h : RasterOk s) : RasterOk (hsMachine b s) := by
  have hl : RasterOk (hsLocked b s) := by
    unfold hsLocked
    split
    · exact hsAlign_raster (setHs_raster _ _ _ h)
    · split
      · dsimp only
        split
        · exact toUnsync_raster (setHs_raster _ _ _ h).geometry
        · exact setHs_raster _ _ _ h
      · exact h
  unfold hsMachine
  split
  · unfold hsUnsync
    split
    · exact hsAlign_raster (setHs_raster _ _ _ (setFsm_raster _ h))
    · exact h
  · unfold hsSearch
    have h1 := fun a c d => hsAlign_raster (setHs_raster a c d h)
    split
    · split
      · dsimp only
        split
        · exact setHs_raster _ _ _ (setFsm_raster _ (h1 _ _ _))
        · exact h1 _ _ _
      · exact h1 _ _ _
    · exact h
  · exact hl
  · exact hl
  · exact hl

theorem hsStep_raster (n : Fx) {s : State} (h : RasterOk s) : RasterOk (hsStep n s) := by
  have h1 : RasterOk { s with sync := hsMajority s.dm.cur.atv.thrSyncTop (hsWindow n s.sync) } :=
    ⟨h.geometry, h.col, h.row, h.delta⟩
  unfold hsStep
  dsimp only
  split
  · exact hsMachine_raster _ h1
  · exact h1

theorem setVs_rowDone (a b c : Word) {s : State} (h : RowDone s) : RowDone (setVs a b c s) :=
  ⟨h.geometry, h.col, h.row, h.delta⟩

theorem setFsm_rowDone (new : Fsm) {s : State} (h : RowDone s) : RowDone (setFsm new s) :=
  ⟨by rw [setFsm_dm]; exact h.geometry, by rw [setFsm_dm, setFsm_sync]; exact h.col,
    by rw [setFsm_dm, setFsm_sync]; exact h.row, by rw [setFsm_sync]; exact h.delta⟩

/-- `vs_step` keeps the ranges; an answer of lost lock leaves a fresh raster (R243). -/
theorem vsStep_rowDone (avg : Int) {s : State} (h : RowDone s) :
    RowDone (vsStep avg s).2 ∧ ((vsStep avg s).1 = .lost → RasterOk (vsStep avg s).2) := by
  have h0 : RowDone (vsCounted avg s) := ⟨h.geometry, h.col, h.row, h.delta⟩
  generalize hb : (vsLevel avg s.dm.cur.atv.thrBlack && !s.sync.vsPrev) = b
  rw [vsStep_eq, hb]
  split
  · exact ⟨h0, fun h => by cases h⟩
  · exact ⟨h0, fun h => by cases h⟩
  · unfold vsLineLocked
    split
    · exact ⟨setVs_rowDone _ _ _ (setFsm_rowDone _ h0), fun h => by cases h⟩
    · exact ⟨h0, fun h => by cases h⟩
  · unfold vsSearching
    split
    · split
      · dsimp only
        split
        · exact ⟨setVs_rowDone _ _ _ (setFsm_rowDone _ h0), fun h => by cases h⟩
        · exact ⟨setVs_rowDone _ _ _ h0, fun h => by cases h⟩
      · exact ⟨setVs_rowDone _ _ _ h0, fun h => by cases h⟩
    · exact ⟨h0, fun h => by cases h⟩
  · unfold vsFrameLocked
    split
    · exact ⟨setVs_rowDone _ _ _ h0, fun h => by cases h⟩
    · split
      · dsimp only
        split
        · have h2 := toUnsync_raster (setVs_rowDone 0#32 (satInc (vsCounted avg s).sync.vsMiss)
            ((vsCounted avg s).sync.linesSinceVs - (vsCounted avg s).dm.d.lpf) h0).geometry
          exact ⟨h2.rowDone, fun _ => h2⟩
        · exact ⟨setVs_rowDone _ _ _ h0, fun h => by cases h⟩
      · exact ⟨h0, fun h => by cases h⟩

theorem frameDone_raster {s : State} (h : RowDone s) : RasterOk (frameDone s) := by
  refine ⟨h.geometry, h.col, ?_, ?_⟩
  · show (0#32).toNat < s.dm.d.lpf.toNat
    have := h.geometry.lpf_min
    simp only [BitVec.toNat_zero]; omega
  · show 0 < (if 0 < s.sync.ampMax.toInt - s.sync.ampMin.toInt then
      sat (s.sync.ampMax.toInt - s.sync.ampMin.toInt) else BitVec.ofInt FX_W ONE).toInt
    split
    · next hd =>
      rw [toInt_sat, clamp_eq_max_min (by decide)]
      simp only [FX_MIN_eq, FX_MAX_eq]
      omega
    · decide

theorem lineEnd_raster (v : VsAnswer) {s : State} (h : RowDone s) (hl : v = .lost → RasterOk s) :
    RasterOk (lineEnd v s) := by
  unfold lineEnd
  split
  · next hv => exact hl hv
  · split
    · exact frameDone_raster h
    · next hn =>
      have hrow : s.sync.row.toNat < s.dm.d.lpf.toNat := Nat.lt_of_not_le fun h' => hn (Or.inl h')
      split
      · refine ⟨h.geometry, h.col, ?_, h.delta⟩
        show (0#32).toNat < s.dm.d.lpf.toNat
        simp only [BitVec.toNat_zero]; omega
      · exact ⟨h.geometry, h.col, hrow, h.delta⟩

theorem lineDone_raster {s : State} (hg : s.dm.d.Ok) (hr : s.sync.row.toNat < s.dm.d.lpf.toNat)
    (hd : 0 < s.sync.effDelta.toInt) : RasterOk (lineDone s) := by
  have h1 : RowDone (nextRow (emitLine s)) := by
    have h2 := hg.spl_min
    simp only [SPL_MIN] at h2
    refine ⟨by rw [nextRow_dm, emitLine_dm]; exact hg, ?_, ?_, ?_⟩
    · rw [nextRow_sync, nextRow_dm, emitLine_dm]
      show (0#32).toNat < _
      simp only [BitVec.toNat_zero]; omega
    · rw [nextRow_sync, nextRow_dm, emitLine_dm, emitLine_sync]
      show (satInc s.sync.row).toNat ≤ _
      rw [satInc_toNat]; omega
    · rw [nextRow_sync, emitLine_sync]; exact hd
  unfold lineDone
  dsimp only
  split
  · have h2 := vsStep_rowDone (lineAverage s) h1
    exact lineEnd_raster _ h2.1 h2.2
  · exact lineEnd_raster _ h1 fun h => by cases h

theorem rasterStep_raster {s : State} (h : RasterOk s) : RasterOk (rasterStep s) := by
  unfold rasterStep
  dsimp only
  split
  · exact lineDone_raster h.geometry h.row h.delta
  · next hn => exact ⟨h.geometry, Nat.lt_of_not_le hn, h.row, h.delta⟩

theorem checkSignal_raster {s : State} (h : RasterOk s) : RasterOk (checkSignal s) := by
  unfold checkSignal
  split
  · exact toUnsync_raster h.geometry
  · exact h

theorem dmRawStep_raster (z : Cfx) {s : State} (h : RasterOk s) : RasterOk (dmRawStep z s) := by
  unfold dmRawStep
  split
  · exact ⟨h.geometry, h.col, h.row, h.delta⟩
  · exact ⟨h.geometry, h.col, h.row, h.delta⟩
  · exact h
  · exact h
  · exact h

/-- `dm_sample` keeps the raster's ranges (R44). -/
theorem dmSample_raster (z : Cfx) {s : State} (h : RasterOk s) : RasterOk (dmSample z s) := by
  have h1 : RasterOk { s with lt := ltUpdate z s.lt } := ⟨h.geometry, h.col, h.row, h.delta⟩
  have h2 := checkSignal_raster (dmRawStep_raster z h1)
  have h3 : RasterOk (sampleMid z s) := ⟨h2.geometry, h2.col, h2.row, h2.delta⟩
  have h4 := hsStep_raster (dmNorm (dmRaw z s) (sampleMid z s).sync) h3
  rw [dmSample_eq]
  exact rasterStep_raster (s := storeSample _ _) ⟨h4.geometry, h4.col, h4.row, h4.delta⟩

/-! ## The tracker and the line buffer through the sample step -/

@[simp] theorem hsUnsync_lt (b : Bool) (s : State) : (hsUnsync b s).lt = s.lt := by
  unfold hsUnsync; split <;> simp
@[simp] theorem hsSearch_lt (b : Bool) (s : State) : (hsSearch b s).lt = s.lt := by
  unfold hsSearch; dsimp only; split_ifs <;> simp
@[simp] theorem hsLocked_lt (b : Bool) (s : State) : (hsLocked b s).lt = s.lt := by
  unfold hsLocked; dsimp only; split_ifs <;> simp
@[simp] theorem hsMachine_lt (b : Bool) (s : State) : (hsMachine b s).lt = s.lt := by
  unfold hsMachine; split <;> simp
@[simp] theorem hsStep_lt (n : Fx) (s : State) : (hsStep n s).lt = s.lt := by
  unfold hsStep; dsimp only; split <;> simp
@[simp] theorem hsUnsync_dm (b : Bool) (s : State) : (hsUnsync b s).dm = s.dm := by
  unfold hsUnsync; split <;> simp
@[simp] theorem hsSearch_dm (b : Bool) (s : State) : (hsSearch b s).dm = s.dm := by
  unfold hsSearch; dsimp only; split_ifs <;> simp
@[simp] theorem hsLocked_dm (b : Bool) (s : State) : (hsLocked b s).dm = s.dm := by
  unfold hsLocked; dsimp only; split_ifs <;> simp
@[simp] theorem hsMachine_dm (b : Bool) (s : State) : (hsMachine b s).dm = s.dm := by
  unfold hsMachine; split <;> simp
@[simp] theorem hsStep_dm (n : Fx) (s : State) : (hsStep n s).dm = s.dm := by
  unfold hsStep; dsimp only; split <;> simp
@[simp] theorem vsStep_lt (avg : Int) (s : State) : (vsStep avg s).2.lt = s.lt := by
  rw [vsStep_eq]; unfold vsLineLocked vsSearching vsFrameLocked vsCounted; dsimp only
  split <;> (try split_ifs) <;> simp
@[simp] theorem vsStep_dm (avg : Int) (s : State) : (vsStep avg s).2.dm = s.dm := by
  rw [vsStep_eq]; unfold vsLineLocked vsSearching vsFrameLocked vsCounted; dsimp only
  split <;> (try split_ifs) <;> simp
@[simp] theorem lineEnd_lt (v : VsAnswer) (s : State) : (lineEnd v s).lt = s.lt := by
  unfold lineEnd; split_ifs <;> simp
@[simp] theorem lineEnd_line (v : VsAnswer) (s : State) : (lineEnd v s).dm.line = s.dm.line := by
  unfold lineEnd; split_ifs <;> simp
@[simp] theorem lineDone_lt (s : State) : (lineDone s).lt = s.lt := by
  unfold lineDone; dsimp only; split <;> simp
@[simp] theorem lineDone_line (s : State) : (lineDone s).dm.line = s.dm.line := by
  unfold lineDone; dsimp only; split <;> simp
@[simp] theorem rasterStep_lt (s : State) : (rasterStep s).lt = s.lt := by
  unfold rasterStep; dsimp only; split <;> simp
@[simp] theorem rasterStep_line (s : State) : (rasterStep s).dm.line = s.dm.line := by
  unfold rasterStep; dsimp only; split <;> simp
@[simp] theorem dmRawStep_lt (z : Cfx) (s : State) : (dmRawStep z s).lt = s.lt := by
  unfold dmRawStep; split <;> simp
@[simp] theorem dmRawStep_line (z : Cfx) (s : State) : (dmRawStep z s).dm.line = s.dm.line := by
  unfold dmRawStep; split <;> simp
@[simp] theorem checkSignal_lt (s : State) : (checkSignal s).lt = s.lt := by
  unfold checkSignal; split <;> simp
@[simp] theorem checkSignal_dm (s : State) : (checkSignal s).dm = s.dm := by
  unfold checkSignal; split <;> simp
@[simp] theorem sampleMid_lt (z : Cfx) (s : State) : (sampleMid z s).lt = ltUpdate z s.lt := by
  unfold sampleMid; simp
@[simp] theorem sampleMid_line (z : Cfx) (s : State) : (sampleMid z s).dm.line = s.dm.line := by
  unfold sampleMid; simp

/-- The tracker after a sample (R220). -/
@[simp] theorem dmSample_lt (z : Cfx) (s : State) : (dmSample z s).lt = ltUpdate z s.lt := by
  rw [dmSample_eq]; simp

/-- The line buffer after a sample: the normalised value stored at the column the line sync left (R220). -/
theorem dmSample_line (z : Cfx) (s : State) : ∃ (col : Nat) (n : Fx),
    (dmSample z s).dm.line = sparseSet 0#32 SPL_MAX s.dm.line col n := by
  rw [dmSample_eq, rasterStep_line, storeSample_dm]
  dsimp only
  rw [hsStep_dm, sampleMid_line]
  exact ⟨_, _, rfl⟩

/-- The line buffer stays in canonical form (R70). -/
theorem dmSample_line_wf (z : Cfx) {s : State} (h : sparseWf 0#32 SPL_MAX s.dm.line = true) :
    sparseWf 0#32 SPL_MAX (dmSample z s).dm.line = true := by
  obtain ⟨c, n, hl⟩ := dmSample_line z s
  rw [hl]
  exact sparseWf_set h c n

/-! ## The block of DM.FEED (R216) -/

/-- An induction over the block: a property that the front end and every sample keep, the block keeps. -/
theorem dmBlock_induction {P : State → Prop} (hf : ∀ (x : Cfx) (s : State), P s → P (dmFront x s).2)
    (hs : ∀ (z : Cfx) (s : State), P s → P (dmSample z s)) (xs : List Cfx) {s : State} (h : P s) :
    P (dmBlock xs s).2 := by
  have hss : ∀ (zs : List Cfx) (s : State), P s → P (dmSamples zs s) := by
    intro zs
    induction zs with
    | nil => intro s h; exact h
    | cons z zs ih => intro s h; exact ih _ (hs z s h)
  induction xs generalizing s with
  | nil => exact h
  | cons x xs ih => exact ih (hss _ _ (hf x s h))

/-- What the block can change (R216, R217): as a sample step, and oscillator 0, the converter's position and the filter's block. -/
structure BlockFrame (s t : State) : Prop where
  nco1 : t.nco[(1 : Fin 3)] = s.nco[(1 : Fin 3)]
  nco2 : t.nco[(2 : Fin 3)] = s.nco[(2 : Fin 3)]
  inc : t.nco[(0 : Fin 3)].inc = s.nco[(0 : Fin 3)].inc
  ratio : t.rc.ratio = s.rc.ratio
  mask : t.sf.mask = s.sf.mask
  rc : s.dm.d.decimOn = false → t.rc = s.rc
  sf : s.dm.d.filtOn = false → t.sf = s.sf
  gen : t.gen = s.gen
  sybuf : t.sybuf = s.sybuf
  syq : t.syq = s.syq
  fault : t.fault = s.fault
  cfgErr : t.cfgErr = s.cfgErr
  dm : { t.dm with uh1 := s.dm.uh1, uh2 := s.dm.uh2, line := s.dm.line, frames := s.dm.frames } = s.dm
  timerIn : t.io.timerIn = s.io.timerIn
  timerReads : t.io.timerReads = s.io.timerReads
  resetIn : t.io.resetIn = s.io.resetIn
  events : ∃ evs, t.io.evt = s.io.evt ++ evs ∧ statePath evs s.sync.fsm t.sync.fsm = true ∧ rejections evs = 0

theorem BlockFrame.d {s t : State} (h : BlockFrame s t) : t.dm.d = s.dm.d := (congrArg Dm.d h.dm :)
theorem BlockFrame.cur {s t : State} (h : BlockFrame s t) : t.dm.cur = s.dm.cur := (congrArg Dm.cur h.dm :)
theorem BlockFrame.val {s t : State} (h : BlockFrame s t) : t.dm.val = s.dm.val := (congrArg Dm.val h.dm :)
theorem BlockFrame.active {s t : State} (h : BlockFrame s t) : t.dm.active = s.dm.active := (congrArg Dm.active h.dm :)

theorem BlockFrame.refl (s : State) : BlockFrame s s :=
  ⟨rfl, rfl, rfl, rfl, rfl, fun _ => rfl, fun _ => rfl, rfl, rfl, rfl, rfl, rfl, rfl, rfl, rfl, rfl, [], by simp,
    decide_eq_true rfl, rfl⟩

theorem BlockFrame.sample {s t u : State} (h : BlockFrame s t) (k : SampleFrame t u) : BlockFrame s u := by
  obtain ⟨es, h1, h2, h3⟩ := h.events
  obtain ⟨fs, k1, k2, k3⟩ := k.events
  have hd : ({ u.dm with uh1 := s.dm.uh1, uh2 := s.dm.uh2, line := s.dm.line, frames := s.dm.frames } : Dm) = s.dm := by
    refine Eq.trans ?_ h.dm
    exact congrArg (fun d : Dm =>
      { d with uh1 := s.dm.uh1, uh2 := s.dm.uh2, line := s.dm.line, frames := s.dm.frames }) k.dm
  exact ⟨by rw [k.nco, h.nco1], by rw [k.nco, h.nco2], by rw [k.nco, h.inc], by rw [k.rc, h.ratio],
    by rw [k.sf, h.mask], fun hh => k.rc.trans (h.rc hh), fun hh => k.sf.trans (h.sf hh), k.gen.trans h.gen,
    k.sybuf.trans h.sybuf, k.syq.trans h.syq, k.fault.trans h.fault, k.cfgErr.trans h.cfgErr, hd,
    k.timerIn.trans h.timerIn, k.timerReads.trans h.timerReads, k.resetIn.trans h.resetIn, es ++ fs,
    by rw [k1, h1, List.append_assoc], statePath_append h2 k2, by rw [rejections_append, h3, k3]⟩

theorem BlockFrame.front {s t : State} (x : Cfx) (h : BlockFrame s t) : BlockFrame s (dmFront x t).2 := by
  obtain ⟨c, f, he, h1, h2, h3, h4, -, -⟩ := dmFront_spec x t
  have hd := h.d
  rw [he]
  refine ⟨?_, ?_, ?_, h1.trans h.ratio, h2.trans h.mask, fun hh => (h3 (by rw [hd]; exact hh)).trans (h.rc hh),
    fun hh => (h4 (by rw [hd]; exact hh)).trans (h.sf hh), h.gen, h.sybuf, h.syq, h.fault, h.cfgErr, h.dm, h.timerIn,
    h.timerReads, h.resetIn, h.events⟩
  · exact Eq.trans (by simp) h.nco1
  · exact Eq.trans (by simp) h.nco2
  · exact Eq.trans (by simp [ncoAdvance]) h.inc

/-- What DM.FEED's block can change (R216). -/
theorem dmBlock_frame (xs : List Cfx) (s : State) : BlockFrame s (dmBlock xs s).2 :=
  dmBlock_induction (P := BlockFrame s) (fun x _ h => h.front x) (fun z t h => h.sample (dmSample_frame z t)) xs
    (.refl s)

end Sys2Proof.Machine
end

