-- ==== Sys2Proof/Laws/Control.lean ====
section
/-! SUPPORT. Configuration, start and stop (spec/46_control.md): what staged values read as, the derived geometry of R218, what the
safe points, applying and starting can do. -/

namespace Sys2Proof.Machine
open Config

/-! ## Operands -/

theorem eq_zero_iff (w : Word) : w = 0#32 ↔ w.toNat = 0 :=
  ⟨fun h => by rw [h]; rfl, fun h => BitVec.eq_of_toNat_eq h⟩

/-- A clamped field (R334). -/
theorem toInt_clampField (w : Word) {lo hi : Int} (h : lo ≤ hi) (h1 : FX_MIN ≤ lo) (h2 : hi ≤ FX_MAX) :
    (clampField w lo hi).toInt = max lo (min hi w.toInt) := by
  unfold clampField
  rw [toInt_ofInt_clamp h h1 h2, clamp_eq_max_min h]

theorem demodKind_none {n : Nat} (h : 4 < n) : DemodKind.ofCode? n = none := by
  obtain ⟨m, rfl⟩ : ∃ m, n = m + 5 := ⟨n - 5, by omega⟩
  rfl

theorem depth_none {n : Nat} (h : 2 < n) : Depth.ofCode? n = none := by
  obtain ⟨m, rfl⟩ : ∃ m, n = m + 3 := ⟨n - 3, by omega⟩
  rfl

theorem synthKind_none {n : Nat} (h : 2 < n) : SynthKind.ofCode? n = none := by
  obtain ⟨m, rfl⟩ : ∃ m, n = m + 3 := ⟨n - 3, by omega⟩
  rfl

theorem sfModeOf_none {w : Word} (h : 2 < w.toNat) : sfModeOf w = none := by
  unfold sfModeOf
  obtain ⟨m, hm⟩ : ∃ m, w.toNat = m + 3 := ⟨w.toNat - 3, by omega⟩
  rw [hm]
  rfl

/-! ## Geometry (R218) -/

/-- The numbers of a legal geometry: what `dm_derive` answers, with every check it passed (R218). -/
theorem dmDerive_spec {b : DmBanks} {d : DmDerived} (h : dmDerive b = .ok d) :
    ∃ lpf spl lps eff top : Nat,
      lpf = nsPerSecond / (b.atv.fps.toNat * b.atv.lineNs.toNat) ∧ lps = lpf * b.atv.fps.toNat ∧
      spl = b.stream.inRateHz.toNat / lps ∧ eff = (if b.rf.decimEn then spl * lps else b.stream.inRateHz.toNat) ∧
      top = max 2 (b.atv.topNs.toNat * eff / nsPerSecond) ∧
      1 ≤ lpf ∧ lpf ≤ LPF_MAX ∧ 1 ≤ b.atv.fps.toNat ∧ lps ≤ b.stream.inRateHz.toNat ∧ SPL_MIN ≤ spl ∧ spl ≤ SPL_MAX ∧
      top + HS_DELAY < spl ∧ 1 ≤ eff ∧ eff ≤ b.stream.inRateHz.toNat ∧
      d.lpf.toNat = lpf ∧ d.lps.toNat = lps ∧ d.spl.toNat = spl ∧ d.effRate.toNat = eff ∧ d.topN.toNat = top ∧
      d.rowsDisp = rowsDispOf b.atv.rowsRatio lpf ∧ d.filtOn = (b.rf.filterEn || b.rf.modKind.isVsb) ∧
      d.decimOn = b.rf.decimEn := by
  unfold dmDerive at h
  dsimp only at h
  split at h
  · cases h
  next h1 =>
  split at h
  · cases h
  next h2 =>
  split at h
  · cases h
  next h3 =>
  split at h
  · cases h
  next h4 =>
  generalize hE : (if b.rf.decimEn = true then _ else _) = eff at h
  split at h
  · cases h
  next h5 =>
  cases h
  have hden : 0 < b.atv.fps.toNat * b.atv.lineNs.toNat := by omega
  have hlpf : 1 ≤ nsPerSecond / (b.atv.fps.toNat * b.atv.lineNs.toNat) :=
    (Nat.one_le_div_iff hden).2 (by omega)
  have hfps : 1 ≤ b.atv.fps.toNat := Nat.pos_of_mul_pos_right hden
  generalize hL : nsPerSecond / (b.atv.fps.toNat * b.atv.lineNs.toNat) = lpf at *
  have hlps : 1 ≤ lpf * b.atv.fps.toNat := Nat.mul_pos hlpf hfps
  have hspl : b.stream.inRateHz.toNat / (lpf * b.atv.fps.toNat) * (lpf * b.atv.fps.toNat) ≤ b.stream.inRateHz.toNat :=
    Nat.div_mul_le_self _ _
  have hin := b.stream.inRateHz.isLt
  generalize hS : b.stream.inRateHz.toNat / (lpf * b.atv.fps.toNat) = spl at *
  have heff1 : 1 ≤ eff := by
    rw [← hE]
    split
    · exact Nat.mul_pos (by simp only [SPL_MIN] at h4; omega) hlps
    · omega
  have heff2 : eff ≤ b.stream.inRateHz.toNat := by
    rw [← hE]
    split
    · exact hspl
    · exact Nat.le_refl _
  have h2' := h2
  simp only [LPF_MAX, SPL_MIN, SPL_MAX, HS_DELAY] at h2' h4 h5
  refine ⟨lpf, spl, _, eff, _, rfl, rfl, hS.symm, hE.symm, rfl, hlpf, by omega, hfps, by omega,
    by simp only [SPL_MIN]; omega, by simp only [SPL_MAX]; omega, by simp only [HS_DELAY]; omega, heff1, heff2, ?_, ?_, ?_, ?_, ?_, rfl, rfl, rfl⟩ <;>
  · rw [BitVec.toNat_ofNat]
    exact Nat.mod_eq_of_lt (by omega)

/-- A legal geometry is one of R44's. -/
theorem dmDerive_ok {b : DmBanks} {d : DmDerived} (h : dmDerive b = .ok d) : d.Ok := by
  obtain ⟨lpf, spl, lps, eff, top, -, -, -, -, ht, h1, h2, -, -, h3, h4, h5, -, -, e1, -, e2, -, e3, e4, -⟩ :=
    dmDerive_spec h
  have hr : 1 ≤ d.rowsDisp.toNat ∧ d.rowsDisp.toNat ≤ lpf := by
    rw [e4]
    unfold rowsDispOf
    have hc1 := le_clamp (v := shr (b.atv.rowsRatio.toInt * (lpf : Int)) FX_F) (lo := 1) (hi := (lpf : Int)) (by omega)
    have hc2 := clamp_le (v := shr (b.atv.rowsRatio.toInt * (lpf : Int)) FX_F) (lo := 1) (hi := (lpf : Int)) (by omega)
    have := toNat_ofInt32 (clamp (shr (b.atv.rowsRatio.toInt * (lpf : Int)) FX_F) 1 lpf)
    simp only [LPF_MAX] at h2
    omega
  exact ⟨by omega, by omega, by omega, by omega, by omega, by omega, hr.1, by omega⟩

/-- A ratio that `dm_program_units` sets lies in R44's range. -/
theorem rcRatio_range {i o : Nat} (h1 : 1 ≤ o) (h2 : o ≤ i) (h3 : i < 2 ^ 32) :
    (BitVec.ofNat 64 (rcRatio i o)).toNat = rcRatio i o ∧ RC_RATIO_MIN ≤ rcRatio i o ∧
      rcRatio i o ≤ (2 ^ 32 - 1) * 2 ^ 32 := by
  have hle : rcRatio i o ≤ (2 ^ 32 - 1) * 2 ^ 32 := by
    unfold rcRatio
    refine (Nat.div_le_self _ _).trans (Nat.mul_le_mul ?_ (Nat.le_refl _))
    omega
  have hge : 2 ^ 32 ≤ rcRatio i o := by
    unfold rcRatio
    rw [Nat.le_div_iff_mul_le (by omega), Nat.mul_comm]
    exact Nat.mul_le_mul h2 (Nat.le_refl _)
  refine ⟨?_, ?_, hle⟩
  · rw [BitVec.toNat_ofNat]
    exact Nat.mod_eq_of_lt (lt_of_le_of_lt hle (by norm_num))
  · exact le_trans (by simp only [RC_RATIO_MIN_eq]; norm_num) hge

/-! ## Applying and starting, demodulation engine -/

/-- What `dm_apply` can do (R341): stage what is there and wait for the rest, drop an illegal candidate, or commit. -/
theorem dmApply_cases (s : State) :
    ((s.dm.val.or s.dm.pndF).all = false ∧ dmApply s =
        { s with dm := { s.dm with cur := dmCandidate s.dm, val := s.dm.val.or s.dm.pndF, pndF := .clear } }) ∨
      ((s.dm.val.or s.dm.pndF).all = true ∧ ∃ q, dmDerive (dmCandidate s.dm) = .error q ∧ dmApply s =
        countCfgErr .derived q { s with dm := { s.dm with pndF := .clear } }) ∨
      ((s.dm.val.or s.dm.pndF).all = true ∧ ∃ d, dmDerive (dmCandidate s.dm) = .ok d ∧ dmApply s =
        dmCommit (dmCandidate s.dm) d { s with dm := { s.dm with pndF := .clear } }) := by
  unfold dmApply
  dsimp only
  by_cases h : (s.dm.val.or s.dm.pndF).all = true
  · rw [if_pos h]
    refine Or.inr ?_
    cases hd : dmDerive (dmCandidate s.dm) with
    | error q => exact Or.inl ⟨h, q, rfl, rfl⟩
    | ok d => exact Or.inr ⟨h, d, rfl, rfl⟩
  · rw [if_neg h]
    exact Or.inl ⟨Bool.eq_false_iff.2 h, rfl⟩

/-- Whether a commit keeps the synchronization state's timing (R341). -/
def sameTiming (cand : DmBanks) (d : DmDerived) (s : State) : Bool :=
  s.dm.val.all && decide (timingKey d cand = timingKey s.dm.d s.dm.cur)

/-- The state a commit leaves (R341). -/
theorem dmCommit_eq (cand : DmBanks) (d : DmDerived) (s : State) : dmCommit cand d s = { s with
    nco := s.nco.set 0 { s.nco[(0 : Fin 3)] with
      inc := ncoIncHz (-cand.rf.freqOffsetHz.toInt) cand.stream.inRateHz.toNat }
    rc := rcSetRatio (rcRatio cand.stream.inRateHz.toNat d.effRate.toNat) s.rc
    sf := sfSetMask (sfMaskgen cand.rf.modKind.sfMode cand.rf.rfBwHz cand.rf.oppBwHz d.effRate) s.sf
    sync := if sameTiming cand d s then s.sync else .reset
    dm := { s.dm with cur := cand, val := .full, d := d, rateReported := d.effRate }
    io := { s.io with evt := s.io.evt ++
      (if sameTiming cand d s = true ∨ s.sync.fsm = .unsynchronized then [] else
        [.state s.sync.fsm .unsynchronized]) ++
      (if d.effRate = s.dm.rateReported then [] else [.rate d.effRate]) } } := by
  unfold dmCommit
  change reportRate (if sameTiming cand d s = true then _ else _) = _
  generalize sameTiming cand d s = k
  cases k
  · rw [if_neg (by decide)]
    unfold toUnsync reportRate
    by_cases h1 : s.sync.fsm = .unsynchronized <;> by_cases h2 : d.effRate = s.dm.rateReported
    all_goals simp [h1, h2, dmProgramUnits, setInc, setNco, syncReset, emitEvt]
  · rw [if_pos rfl]
    unfold reportRate
    by_cases h2 : d.effRate = s.dm.rateReported
    all_goals simp [h2, dmProgramUnits, setInc, setNco, emitEvt]

/-- The state `dm_create` leaves (R346). -/
theorem dmCreate_eq (s : State) : dmCreate s = { s with
    nco := s.nco.set 0
      { phase := 0#32, inc := ncoIncHz (-s.dm.cur.rf.freqOffsetHz.toInt) s.dm.cur.stream.inRateHz.toNat }
    rc := rcReset (rcSetRatio (rcRatio s.dm.cur.stream.inRateHz.toNat s.dm.d.effRate.toNat) s.rc)
    sf := sfClear (sfSetMask (sfMaskgen s.dm.cur.rf.modKind.sfMode s.dm.cur.rf.rfBwHz s.dm.cur.rf.oppBwHz
      s.dm.d.effRate) s.sf)
    lt := .reset
    sync := .reset
    dm := { s.dm with uh1 := cfxZero, uh2 := cfxZero, line := [], frames := 0#32 }
    io := { s.io with evt := s.io.evt ++
      (if s.sync.fsm = .unsynchronized then [] else [.state s.sync.fsm .unsynchronized]) } } := by
  unfold dmCreate toUnsync
  by_cases h1 : s.sync.fsm = .unsynchronized
  all_goals simp [h1, dmProgramUnits, setInc, setNco, syncReset, emitEvt]

/-! ## Applying and starting, synthesis engine -/

/-- The state `sy_program` leaves (R294): increments and derived record, phases kept. -/
theorem syProgram_eq (b : GenBank) (s : State) : syProgram b s = { s with
    nco := (s.nco.set 1 { s.nco[(1 : Fin 3)] with inc := ncoIncHz b.carrierHz.toInt b.sampleRateHz.toNat }).set 2
      { s.nco[(2 : Fin 3)] with inc := ncoIncHz b.toneHz.toNat b.sampleRateHz.toNat }
    gen := { s.gen with d := syDerive b } } := by
  unfold syProgram setInc setNco
  simp

/-- What the safe point of the synthesis engine can do (R342). -/
theorem sySafePoint_cases (s : State) :
    (s.gen.stopReq = true ∧ sySafePoint s =
        emitEvt (.stopped .synthesis) { s with gen := { s.gen with active := false, stopReq := false } }) ∨
      (s.gen.stopReq = false ∧ s.gen.pndF = true ∧ sySafePoint s = syApply s) ∨
      (s.gen.stopReq = false ∧ s.gen.pndF = false ∧ sySafePoint s = s) := by
  unfold sySafePoint
  cases h1 : s.gen.stopReq <;> cases h2 : s.gen.pndF <;> simp

/-- What the safe point of the demodulation engine can do (R340). -/
theorem dmSafePoint_cases (s : State) :
    (s.dm.stopReq = true ∧ dmSafePoint s =
        emitEvt (.stopped .demodulation) { s with dm := { s.dm with active := false, stopReq := false } }) ∨
      (s.dm.stopReq = false ∧ s.dm.pndF.any = true ∧ dmSafePoint s = dmApply s) ∨
      (s.dm.stopReq = false ∧ s.dm.pndF.any = false ∧ dmSafePoint s = s) := by
  unfold dmSafePoint
  cases h1 : s.dm.stopReq <;> cases h2 : s.dm.pndF.any <;> simp

end Sys2Proof.Machine
end

