-- ==== Sys2Proof/Laws/Decode.lean ====
section
/-! SUPPORT. The pieces of the decoder and the encoder and how they meet: headers, sample blocks, flags, counting words
(spec/30_encoding.md R101, R105 to R107). -/

namespace Sys2Proof

/-! ## Headers -/

theorem headerOpc_eq (h : Word) : headerOpc h = (h.extractLsb' 24 8).toNat := by
  have := h.isLt
  simp [headerOpc, Nat.shiftRight_eq_div_pow]
  omega

theorem headerLen_eq (h : Word) : headerLen h = (h.extractLsb' 0 24).toNat := by
  simp [headerLen]

theorem headerWord_toNat {o n : Nat} (ho : o < 2 ^ 8) (hn : n < 2 ^ 24) : (headerWord o n).toNat = o * 2 ^ 24 + n := by
  unfold headerWord
  rw [BitVec.toNat_append, BitVec.toNat_ofNat, BitVec.toNat_ofNat, Nat.mod_eq_of_lt ho, Nat.mod_eq_of_lt hn,
    Nat.shiftLeft_eq, Nat.mul_comm, ← Nat.two_pow_add_eq_or_of_lt hn]

theorem headerOpc_headerWord {o n : Nat} (ho : o < 2 ^ 8) (hn : n < 2 ^ 24) : headerOpc (headerWord o n) = o := by
  unfold headerOpc
  rw [headerWord_toNat ho hn]
  omega

theorem headerLen_headerWord {o n : Nat} (ho : o < 2 ^ 8) (hn : n < 2 ^ 24) : headerLen (headerWord o n) = n := by
  unfold headerLen
  rw [headerWord_toNat ho hn]
  omega

/-- A header word is made of its two fields. -/
theorem headerWord_fields (h : Word) : headerWord (headerOpc h) (headerLen h) = h := by
  have := h.isLt
  apply BitVec.eq_of_toNat_eq
  rw [headerWord_toNat] <;> simp only [headerOpc, headerLen] <;> omega

/-! ## Two words as one -/

theorem extract_append_high {n m : Nat} (hi : BitVec n) (lo : BitVec m) : (hi ++ lo).extractLsb' m n = hi := by
  ext j hj
  simp [BitVec.getLsbD_append, BitVec.getLsbD_eq_getElem hj]

theorem extract_append_low {n m : Nat} (hi : BitVec n) (lo : BitVec m) : (hi ++ lo).extractLsb' 0 m = lo := by
  ext j hj
  simp [BitVec.getLsbD_append, hj]

/-! ## Counting words -/

theorem hasAtLeast_iff (n : Nat) (ws : List Word) : hasAtLeast n ws = true ↔ n ≤ ws.length := by
  induction n generalizing ws with
  | zero => simp [hasAtLeast]
  | succ n ih =>
    cases ws with
    | nil => simp [hasAtLeast]
    | cons w ws => simp [hasAtLeast, ih]

/-! ## Sample blocks -/

@[simp] theorem unpair_length (zs : List Cfx) : (unpair zs).length = 2 * zs.length := by
  induction zs with
  | nil => rfl
  | cons z zs ih => simp only [unpair, List.length_cons, ih]; omega

@[simp] theorem pairUp_unpair (zs : List Cfx) : pairUp (unpair zs) = zs := by
  induction zs with
  | nil => rfl
  | cons z zs ih => simp only [unpair, pairUp, ih]

theorem unpair_pairUp (ws : List Word) (h : ws.length % 2 = 0) : unpair (pairUp ws) = ws := by
  induction ws using pairUp.induct with
  | case1 re im rest ih =>
    simp only [pairUp, unpair]
    rw [ih (by simp only [List.length_cons] at h; omega)]
  | case2 ws hne =>
    match ws, hne, h with
    | [], _, _ => rfl
    | [w], _, h => simp at h
    | a :: b :: r, hne, _ => exact absurd rfl (hne a b r)

theorem pairUp_length (ws : List Word) : (pairUp ws).length = ws.length / 2 := by
  induction ws using pairUp.induct with
  | case1 re im rest ih => simp only [pairUp, List.length_cons, ih]; omega
  | case2 ws hne =>
    match ws, hne with
    | [], _ => rfl
    | [w], _ => simp [pairUp]
    | a :: b :: r, hne => exact absurd rfl (hne a b r)

/-! ## Flags -/

theorem flagsOk_flagsWord (a b : Bool) : flagsOk 2 (flagsWord a b) = true := by
  cases a <;> cases b <;> decide

theorem flagsOk_flagsWord_one (a : Bool) : flagsOk 1 (flagsWord a false) = true := by
  cases a <;> decide

@[simp] theorem flagBit_flagsWord_zero (a b : Bool) : flagBit (flagsWord a b) 0 = a := by
  cases a <;> cases b <;> decide

@[simp] theorem flagBit_flagsWord_one (a b : Bool) : flagBit (flagsWord a b) 1 = b := by
  cases a <;> cases b <;> decide

theorem flagsWord_flagBit {f : Word} (h : flagsOk 2 f = true) : flagsWord (flagBit f 0) (flagBit f 1) = f := by
  have h' : f.toNat < 4 := by simpa [flagsOk] using h
  rw [show f = BitVec.ofNat 32 f.toNat by simp]
  generalize f.toNat = n at h'
  interval_cases n <;> decide

theorem flagsWord_flagBit_one {f : Word} (h : flagsOk 1 f = true) : flagsWord (flagBit f 0) false = f := by
  have h' : f.toNat < 2 := by simpa [flagsOk] using h
  rw [show f = BitVec.ofNat 32 f.toNat by simp]
  generalize f.toNat = n at h'
  interval_cases n <;> decide

/-! ## The decoder's shape -/

/-- What the decoder answers of a whole command: its header and LEN operand words, and the words after them. -/
theorem decode_cons (h : Word) (ws : List Word) (hn : headerLen h ≤ ws.length) :
    decode (h :: ws) = some (decodeCommand h (ws.take (headerLen h)), ws.drop (headerLen h)) := by
  exact if_pos ((hasAtLeast_iff _ _).mpr hn)

theorem decode_short (h : Word) (ws : List Word) (hn : ws.length < headerLen h) : decode (h :: ws) = none := by
  refine if_neg ?_
  rw [hasAtLeast_iff]
  omega

/-- Every answer of the decoder is that of a whole command. -/
theorem decode_some {cmd rest : List Word} {r : Except Illegal Instr} (h : decode cmd = some (r, rest)) :
    ∃ hd ws, cmd = hd :: ws ∧ headerLen hd ≤ ws.length ∧ r = decodeCommand hd (ws.take (headerLen hd)) ∧
      rest = ws.drop (headerLen hd) := by
  cases cmd with
  | nil => simp [decode] at h
  | cons hd ws =>
    by_cases hn : headerLen hd ≤ ws.length
    · rw [decode_cons _ _ hn] at h
      simp only [Option.some.injEq, Prod.mk.injEq] at h
      exact ⟨hd, ws, rfl, hn, h.1.symm, h.2.symm⟩
    · rw [decode_short _ _ (by omega)] at h
      simp at h

theorem decode0_ok {i j : Instr} {ops : List Word} (h : decode0 i ops = .ok j) : j = i ∧ ops = [] := by
  unfold decode0 at h
  split at h <;> simp_all

theorem decode1_ok {mk : Word → Instr} {j : Instr} {ops : List Word} (h : decode1 mk ops = .ok j) :
    ∃ a, j = mk a ∧ ops = [a] := by
  unfold decode1 at h
  split at h
  · exact ⟨_, by simpa using h.symm, rfl⟩
  · simp at h

theorem decodeBlock_ok {mk : List Cfx → Instr} {j : Instr} {ops : List Word}
    (h : decodeBlock ops.length ops mk = .ok j) : ∃ xs, j = mk xs ∧ ops = unpair xs ∧ blockOk xs = true := by
  unfold decodeBlock at h
  split at h
  · simp at h
  · refine ⟨pairUp ops, by simpa using h.symm, (unpair_pairUp ops (by omega)).symm, ?_⟩
    simp only [blockOk, pairUp_length, Bool.and_eq_true, decide_eq_true_eq, Config.DM_BLOCK_MAX] at *
    omega

/-- The operand words of a well-formed command fit the LEN field. -/
theorem operandsOf_length {i : Instr} (h : WellFormed i = true) : (operandsOf i).length < 2 ^ 24 := by
  cases i <;> simp_all [WellFormed, operandsOf, blockOk, Config.DM_BLOCK_MAX] <;> omega

theorem opcodeOf_lt (i : Instr) : opcodeOf i < 2 ^ 8 := by
  cases i <;> simp [opcodeOf]

end Sys2Proof
end

