-- ==== Sys2Proof/Laws/Fetch.lean ====
section
/-! SUPPORT. What the reset input leaves of CMD: the leading whole commands, a partly arrived one discarded
(spec/30_encoding.md R101; spec/70_reset_and_hazards.md R410). -/

namespace Sys2Proof.Machine

theorem wholeCommands_spec (n : Nat) (cmd : List Word) (h : cmd.length ≤ n) :
    ∃ (whole : List (List Word)) (part : List Word), cmd = whole.flatten ++ part ∧
      (∀ c ∈ whole, ∃ h ws, c = h :: ws ∧ ws.length = headerLen h) ∧ decode part = none ∧
      wholeCommands n cmd = whole.flatten := by
  induction n generalizing cmd with
  | zero =>
    rw [List.eq_nil_of_length_eq_zero (Nat.le_zero.1 h)]
    exact ⟨[], [], rfl, by simp, rfl, rfl⟩
  | succ n ih =>
    rcases cmd with - | ⟨w, ws⟩
    · exact ⟨[], [], rfl, by simp, rfl, rfl⟩
    · by_cases hl : headerLen w ≤ ws.length
      · obtain ⟨whole, part, h1, h2, h3, h4⟩ := ih (ws.drop (headerLen w)) (by
          simp only [List.length_cons, List.length_drop] at h ⊢; omega)
        refine ⟨(w :: ws.take (headerLen w)) :: whole, part, ?_, ?_, h3, ?_⟩
        · rw [List.flatten_cons, List.append_assoc, ← h1, List.cons_append, List.take_append_drop]
        · intro c hc
          rcases List.mem_cons.1 hc with rfl | hc
          · exact ⟨w, _, rfl, by rw [List.length_take]; omega⟩
          · exact h2 c hc
        · rw [wholeCommands, if_pos ((hasAtLeast_iff _ _).2 hl), h4]; rfl
      · refine ⟨[], w :: ws, rfl, by simp, decode_short w ws (by omega), ?_⟩
        rw [wholeCommands, if_neg (by rw [hasAtLeast_iff]; exact hl)]; rfl

/-- CMD is whole commands and a part of one; the reset input discards the part (R410). -/
theorem dropPartial_spec (cmd : List Word) :
    ∃ (whole : List (List Word)) (part : List Word), cmd = whole.flatten ++ part ∧
      (∀ c ∈ whole, ∃ h ws, c = h :: ws ∧ ws.length = headerLen h) ∧ decode part = none ∧
      dropPartial cmd = whole.flatten :=
  wholeCommands_spec _ _ (Nat.le_refl _)

end Sys2Proof.Machine
end

