-- ==== Sys2Proof/Laws/PerInstr.lean ====
section
/-! SUPPORT. Laws with one lemma per command. EncodingFits: every well-formed command has a header that R101 can carry and
R109 does not reserve, and at most the operand words of the longest block (spec/30_encoding.md R101, R106, R109). -/

namespace Sys2Proof.Laws.EncodingFits
open Sys2Proof.Machine

/-- The opcode is one byte and not reserved, the operand count at most that of a full block. -/
def Statement (i : Instr) : Prop :=
  WellFormed i = true → opcodeOf i < 2 ^ 8 ∧ ¬ reservedOpcode (opcodeOf i) ∧ (operandsOf i).length ≤ maxOperandWords

theorem unpair_fits {xs : List Cfx} (h : blockOk xs = true) : (unpair xs).length ≤ maxOperandWords := by
  unfold blockOk at h
  simp only [Bool.and_eq_true, decide_eq_true_eq] at h
  rw [unpair_length]
  exact Nat.mul_le_mul_left 2 h.2

theorem nop : Statement (.nop) :=
  fun _ => ⟨by simp only [opcodeOf]; omega, by simp only [reservedOpcode, opcodeOf]; omega, by simp [operandsOf, maxOperandWords, Config.DM_BLOCK_MAX]⟩

theorem ncoSetf (k : Word) (nf : BitVec 64) : Statement (.ncoSetf k nf) :=
  fun _ => ⟨by simp only [opcodeOf]; omega, by simp only [reservedOpcode, opcodeOf]; omega, by simp [operandsOf, maxOperandWords, Config.DM_BLOCK_MAX]⟩

theorem ncoNext (k : Word) : Statement (.ncoNext k) :=
  fun _ => ⟨by simp only [opcodeOf]; omega, by simp only [reservedOpcode, opcodeOf]; omega, by simp [operandsOf, maxOperandWords, Config.DM_BLOCK_MAX]⟩

theorem ncoNexti (k : Word) (w : Word) : Statement (.ncoNexti k w) :=
  fun _ => ⟨by simp only [opcodeOf]; omega, by simp only [reservedOpcode, opcodeOf]; omega, by simp [operandsOf, maxOperandWords, Config.DM_BLOCK_MAX]⟩

theorem ncoRdph (k : Word) : Statement (.ncoRdph k) :=
  fun _ => ⟨by simp only [opcodeOf]; omega, by simp only [reservedOpcode, opcodeOf]; omega, by simp [operandsOf, maxOperandWords, Config.DM_BLOCK_MAX]⟩

theorem rcCfg (a b : Word) (r : Bool) : Statement (.rcCfg a b r) :=
  fun _ => ⟨by simp only [opcodeOf]; omega, by simp only [reservedOpcode, opcodeOf]; omega, by simp [operandsOf, maxOperandWords, Config.DM_BLOCK_MAX]⟩

theorem rcConv (xs : List Cfx) : Statement (.rcConv xs) :=
  fun h => ⟨by simp only [opcodeOf]; omega, by simp only [reservedOpcode, opcodeOf]; omega, unpair_fits h⟩

theorem sfCfg (a b c d : Word) : Statement (.sfCfg a b c d) :=
  fun _ => ⟨by simp only [opcodeOf]; omega, by simp only [reservedOpcode, opcodeOf]; omega, by simp [operandsOf, maxOperandWords, Config.DM_BLOCK_MAX]⟩

theorem sfApply (xs : List Cfx) : Statement (.sfApply xs) :=
  fun h => ⟨by simp only [opcodeOf]; omega, by simp only [reservedOpcode, opcodeOf]; omega, unpair_fits h⟩

theorem ltUpd (z : Cfx) : Statement (.ltUpd z) :=
  fun _ => ⟨by simp only [opcodeOf]; omega, by simp only [reservedOpcode, opcodeOf]; omega, by simp [operandsOf, maxOperandWords, Config.DM_BLOCK_MAX]⟩

theorem ltAvg : Statement (.ltAvg) :=
  fun _ => ⟨by simp only [opcodeOf]; omega, by simp only [reservedOpcode, opcodeOf]; omega, by simp [operandsOf, maxOperandWords, Config.DM_BLOCK_MAX]⟩

theorem ltPwr : Statement (.ltPwr) :=
  fun _ => ⟨by simp only [opcodeOf]; omega, by simp only [reservedOpcode, opcodeOf]; omega, by simp [operandsOf, maxOperandWords, Config.DM_BLOCK_MAX]⟩

theorem dmCfgatv (a b c d e f : Word) (g h : Bool) : Statement (.dmCfgatv a b c d e f g h) :=
  fun _ => ⟨by simp only [opcodeOf]; omega, by simp only [reservedOpcode, opcodeOf]; omega, by simp [operandsOf, maxOperandWords, Config.DM_BLOCK_MAX]⟩

theorem dmCfgrf (a b c d : Word) (e f : Bool) : Statement (.dmCfgrf a b c d e f) :=
  fun _ => ⟨by simp only [opcodeOf]; omega, by simp only [reservedOpcode, opcodeOf]; omega, by simp [operandsOf, maxOperandWords, Config.DM_BLOCK_MAX]⟩

theorem dmCfgstream (a : Word) : Statement (.dmCfgstream a) :=
  fun _ => ⟨by simp only [opcodeOf]; omega, by simp only [reservedOpcode, opcodeOf]; omega, by simp [operandsOf, maxOperandWords, Config.DM_BLOCK_MAX]⟩

theorem dmStart : Statement (.dmStart) :=
  fun _ => ⟨by simp only [opcodeOf]; omega, by simp only [reservedOpcode, opcodeOf]; omega, by simp [operandsOf, maxOperandWords, Config.DM_BLOCK_MAX]⟩

theorem dmStop : Statement (.dmStop) :=
  fun _ => ⟨by simp only [opcodeOf]; omega, by simp only [reservedOpcode, opcodeOf]; omega, by simp [operandsOf, maxOperandWords, Config.DM_BLOCK_MAX]⟩

theorem dmFeed (xs : List Cfx) : Statement (.dmFeed xs) :=
  fun h => ⟨by simp only [opcodeOf]; omega, by simp only [reservedOpcode, opcodeOf]; omega, unpair_fits h⟩

theorem dmStatus : Statement (.dmStatus) :=
  fun _ => ⟨by simp only [opcodeOf]; omega, by simp only [reservedOpcode, opcodeOf]; omega, by simp [operandsOf, maxOperandWords, Config.DM_BLOCK_MAX]⟩

theorem syCfg (a b c d e f g h i j k l : Word) : Statement (.syCfg a b c d e f g h i j k l) :=
  fun _ => ⟨by simp only [opcodeOf]; omega, by simp only [reservedOpcode, opcodeOf]; omega, by simp [operandsOf, maxOperandWords, Config.DM_BLOCK_MAX]⟩

theorem syStart : Statement (.syStart) :=
  fun _ => ⟨by simp only [opcodeOf]; omega, by simp only [reservedOpcode, opcodeOf]; omega, by simp [operandsOf, maxOperandWords, Config.DM_BLOCK_MAX]⟩

theorem syStop : Statement (.syStop) :=
  fun _ => ⟨by simp only [opcodeOf]; omega, by simp only [reservedOpcode, opcodeOf]; omega, by simp [operandsOf, maxOperandWords, Config.DM_BLOCK_MAX]⟩

theorem syTick : Statement (.syTick) :=
  fun _ => ⟨by simp only [opcodeOf]; omega, by simp only [reservedOpcode, opcodeOf]; omega, by simp [operandsOf, maxOperandWords, Config.DM_BLOCK_MAX]⟩

theorem syGen (n : Word) : Statement (.syGen n) :=
  fun _ => ⟨by simp only [opcodeOf]; omega, by simp only [reservedOpcode, opcodeOf]; omega, by simp [operandsOf, maxOperandWords, Config.DM_BLOCK_MAX]⟩

theorem syPop (n : Word) : Statement (.syPop n) :=
  fun _ => ⟨by simp only [opcodeOf]; omega, by simp only [reservedOpcode, opcodeOf]; omega, by simp [operandsOf, maxOperandWords, Config.DM_BLOCK_MAX]⟩

theorem syStatus : Statement (.syStatus) :=
  fun _ => ⟨by simp only [opcodeOf]; omega, by simp only [reservedOpcode, opcodeOf]; omega, by simp [operandsOf, maxOperandWords, Config.DM_BLOCK_MAX]⟩

theorem faultRd : Statement (.faultRd) :=
  fun _ => ⟨by simp only [opcodeOf]; omega, by simp only [reservedOpcode, opcodeOf]; omega, by simp [operandsOf, maxOperandWords, Config.DM_BLOCK_MAX]⟩

theorem reset : Statement (.reset) :=
  fun _ => ⟨by simp only [opcodeOf]; omega, by simp only [reservedOpcode, opcodeOf]; omega, by simp [operandsOf, maxOperandWords, Config.DM_BLOCK_MAX]⟩

end Sys2Proof.Laws.EncodingFits
end

