-- ==== Sys2Proof/Laws/Synthesis.lean ====
section
/-! SUPPORT. What the synthesis engine can do (spec/45_synthesis.md R280 to R303): one sample, a batch, the size checks, the
throttle, the consumer. -/

namespace Sys2Proof.Machine
open Config

/-! ## One sample -/

/-- The FM deviation stays in [-ONE, ONE] (R44, R289). -/
theorem fmNext_range {dev fmD : Fx} (t : Fx) (h1 : -ONE ≤ dev.toInt ∧ dev.toInt ≤ ONE)
    (h2 : -ONE ≤ fmD.toInt ∧ fmD.toInt ≤ ONE) (h3 : -ONE ≤ t.toInt ∧ t.toInt ≤ ONE) :
    -ONE ≤ (fmNext dev fmD t).toInt ∧ (fmNext dev fmD t).toInt ≤ ONE := by
  have h4 := fxMul_unit_range h2 h3
  have hw : -ONE ≤ fmWrap (dev.toInt + (fxMul fmD t).toInt) ∧ fmWrap (dev.toInt + (fxMul fmD t).toInt) ≤ ONE := by
    unfold fmWrap
    simp only [ONE_eq] at *
    split_ifs <;> omega
  unfold fmNext
  rw [toInt_sat_of_range (by simp only [ONE_eq, FX_MIN_eq] at *; omega) (by simp only [ONE_eq, FX_MAX_eq] at *; omega)]
  exact hw

/-- A stored half lies within full scale (R291). -/
theorem syHalf_range {d : GenDerived} (h : d.ampFs ≤ 32767) (v : Fx) :
    -(d.ampFs : Int) ≤ (syHalf d v).toInt ∧ (syHalf d v).toInt ≤ d.ampFs := by
  have h1 := le_clamp (v := shr v.toInt (FX_F - d.shift)) (lo := -(d.ampFs : Int)) (hi := (d.ampFs : Int)) (by omega)
  have h2 := clamp_le (v := shr v.toInt (FX_F - d.shift)) (lo := -(d.ampFs : Int)) (hi := (d.ampFs : Int)) (by omega)
  unfold syHalf syConv
  rw [BitVec.toInt_ofInt, Int.bmod_eq_of_le (by omega) (by omega)]
  exact ⟨h1, h2⟩

/-- The oscillators after one sample (R285, R286, R288): 1 advanced, 2 too but in kind None. -/
def syNcos (k : SynthKind) (v : Vector Nco 3) : Vector Nco 3 :=
  match k with
  | .none => v.set 1 (ncoAdvance v[(1 : Fin 3)])
  | .am => (v.set 1 (ncoAdvance v[(1 : Fin 3)])).set 2 (ncoAdvance v[(2 : Fin 3)])
  | .fm => (v.set 1 (ncoAdvance v[(1 : Fin 3)])).set 2 (ncoAdvance v[(2 : Fin 3)])

/-- The deviation after one sample (R288): only kind FM moves it. -/
def syDev (s : State) : Fx :=
  match s.gen.cur.mod with
  | .none => s.gen.fmDev
  | .am => s.gen.fmDev
  | .fm => fmNext s.gen.fmDev s.gen.d.fmD (ncoOut s.nco[(2 : Fin 3)] 0).re

/-- The state one sample leaves (R284). -/
theorem sySample_state (s : State) : (sySample s).2 =
    { s with nco := syNcos s.gen.cur.mod s.nco, gen := { s.gen with fmDev := syDev s } } := by
  unfold sySample syNcos syDev
  cases h : s.gen.cur.mod
  · rfl
  · simp [syAm, ncoStep, setNco]
  · simp only [syFm, ncoStep, setNco]
    congr 1
    ext i hi
    have : i = 0 ∨ i = 1 ∨ i = 2 := by omega
    all_goals rcases this with rfl | rfl | rfl <;> simp

/-- One sample generated and stored (R281): the two halves at bytes 4i and 4i+2, all else as `sySample_state` says. -/
theorem syOne_eq (i : Nat) (s : State) : ∃ hi hq : Half,
    syOne i s = { s with
      nco := syNcos s.gen.cur.mod s.nco
      gen := { s.gen with fmDev := syDev s }
      sybuf := memWrite (memWrite s.sybuf (4 * i) hi) (4 * i + 2) hq } ∧
    hi = syHalf s.gen.d (syScale s.gen.cur (sySample s).1).re ∧
    hq = syHalf s.gen.d (syScale s.gen.cur (sySample s).1).im := by
  refine ⟨_, _, ?_, rfl, rfl⟩
  unfold syOne
  dsimp only
  rw [sySample_state]

/-! ## A batch -/

/-- What generating n samples from sample i on can do (R281): the kept fields, the oscillators advanced n times, the bytes
outside the samples unchanged, every half within full scale, the buffer's canonical form kept. -/
structure FillSpec (n i : Nat) (s t : State) : Prop where
  kept : ∃ nco dev buf, t = { s with nco := nco, gen := { s.gen with fmDev := dev }, sybuf := buf }
  nco0 : t.nco[(0 : Fin 3)] = s.nco[(0 : Fin 3)]
  phase1 : t.nco[(1 : Fin 3)].phase.toNat =
    (s.nco[(1 : Fin 3)].phase.toNat + n * s.nco[(1 : Fin 3)].inc.toNat) % 2 ^ 32
  inc1 : t.nco[(1 : Fin 3)].inc = s.nco[(1 : Fin 3)].inc
  none2 : s.gen.cur.mod = .none → t.nco[(2 : Fin 3)] = s.nco[(2 : Fin 3)]
  phase2 : s.gen.cur.mod ≠ .none → t.nco[(2 : Fin 3)].phase.toNat =
    (s.nco[(2 : Fin 3)].phase.toNat + n * s.nco[(2 : Fin 3)].inc.toNat) % 2 ^ 32
  inc2 : t.nco[(2 : Fin 3)].inc = s.nco[(2 : Fin 3)].inc
  dev : s.gen.cur.mod ≠ .fm → t.gen.fmDev = s.gen.fmDev
  outside : ∀ a, a < 4 * i ∨ 4 * (i + n) ≤ a → t.sybuf.read a = s.sybuf.read a
  halves : s.gen.d.ampFs ≤ 32767 → 4 * (i + n) ≤ sybufBytes → ∀ k, 2 * i ≤ k → k < 2 * (i + n) →
    -(s.gen.d.ampFs : Int) ≤ (memRead t.sybuf (2 * k)).toInt ∧ (memRead t.sybuf (2 * k)).toInt ≤ s.gen.d.ampFs
  wf : s.sybuf.wf = true → t.sybuf.wf = true

theorem memRead_congr {m m' : Memory} {a : Nat} (h1 : m.read a = m'.read a) (h2 : m.read (a + 1) = m'.read (a + 1)) :
    memRead m a = memRead m' a := by
  unfold memRead
  rw [h1, h2]

theorem syFill_spec (n i : Nat) (s : State) : FillSpec n i s (syFill n i s) := by
  induction n generalizing i s with
  | zero =>
    have h1 := s.nco[(1 : Fin 3)].phase.isLt
    have h2 := s.nco[(2 : Fin 3)].phase.isLt
    exact ⟨⟨_, _, _, rfl⟩, rfl, by rw [Nat.zero_mul, Nat.add_zero, Nat.mod_eq_of_lt h1]; rfl, rfl, fun _ => rfl,
      fun _ => by rw [Nat.zero_mul, Nat.add_zero, Nat.mod_eq_of_lt h2]; rfl, rfl, fun _ => rfl, fun _ _ => rfl,
      fun _ _ k h h' => absurd h' (by omega), fun h => h⟩
  | succ n ih =>
    obtain ⟨hi, hq, he, hhi, hhq⟩ := syOne_eq i s
    have g := ih (i + 1) (syOne i s)
    have hn1 : (syOne i s).nco[(1 : Fin 3)] = ncoAdvance s.nco[(1 : Fin 3)] := by
      rw [he]; unfold syNcos; cases s.gen.cur.mod <;> simp
    have hn0 : (syOne i s).nco[(0 : Fin 3)] = s.nco[(0 : Fin 3)] := by
      rw [he]; unfold syNcos; cases s.gen.cur.mod <;> simp
    have hn2 : s.gen.cur.mod ≠ .none → (syOne i s).nco[(2 : Fin 3)] = ncoAdvance s.nco[(2 : Fin 3)] := by
      intro h; rw [he]; unfold syNcos; cases hk : s.gen.cur.mod <;> simp_all
    have hn2' : s.gen.cur.mod = .none → (syOne i s).nco[(2 : Fin 3)] = s.nco[(2 : Fin 3)] := by
      intro h; rw [he]; unfold syNcos; rw [h]; simp
    have hcur : (syOne i s).gen.cur = s.gen.cur := by rw [he]
    have hd : (syOne i s).gen.d = s.gen.d := by rw [he]
    have hbuf : (syOne i s).sybuf = memWrite (memWrite s.sybuf (4 * i) hi) (4 * i + 2) hq := by rw [he]
    have hphase : ∀ p c : Word, ∀ k : Nat, ((p + c).toNat + k * c.toNat) % 2 ^ 32 =
        (p.toNat + (k + 1) * c.toNat) % 2 ^ 32 := by
      intro p c k
      rw [BitVec.toNat_add, Nat.mod_add_mod]
      congr 1
      ring
    show FillSpec (n + 1) i s (syFill n (i + 1) (syOne i s))
    constructor
    · obtain ⟨a, b, c, h⟩ := g.kept
      rw [h, he]
      exact ⟨a, b, c, rfl⟩
    · rw [g.nco0, hn0]
    · rw [g.phase1, hn1]
      exact hphase _ _ _
    · rw [g.inc1, hn1]; rfl
    · intro h
      rw [g.none2 (by rw [hcur]; exact h), hn2' h]
    · intro h
      rw [g.phase2 (by rw [hcur]; exact h), hn2 h]
      exact hphase _ _ _
    · rw [g.inc2]
      by_cases h : s.gen.cur.mod = .none
      · rw [hn2' h]
      · rw [hn2 h]; rfl
    · intro h
      rw [g.dev (by rw [hcur]; exact h), he]
      show syDev s = _
      unfold syDev
      cases hk : s.gen.cur.mod <;> simp_all
    · intro a ha
      rw [g.outside a (by omega), hbuf, memWrite_read_other _ _ (by omega) (by omega),
        memWrite_read_other _ _ (by omega) (by omega)]
    · intro hf hb k h1 h2
      by_cases hk : 2 * (i + 1) ≤ k
      · have := g.halves (by rw [hd]; exact hf) (by omega) k hk (by omega)
        rw [hd] at this
        exact this
      · have hr : memRead (syFill n (i + 1) (syOne i s)).sybuf (2 * k) = memRead (syOne i s).sybuf (2 * k) :=
          memRead_congr (g.outside _ (by omega)) (g.outside _ (by omega))
        rw [hr, hbuf]
        have hk' : k = 2 * i ∨ k = 2 * i + 1 := by omega
        rcases hk' with rfl | rfl
        · rw [show 2 * (2 * i) = 4 * i by omega, memRead_memWrite_other _ _ (by omega),
            memRead_memWrite_same _ _ (by omega), hhi]
          exact syHalf_range hf _
        · rw [show 2 * (2 * i + 1) = 4 * i + 2 by omega, memRead_memWrite_same _ _ (by omega), hhq]
          exact syHalf_range hf _
    · intro h
      refine g.wf ?_
      rw [hbuf]
      exact memWrite_wf (memWrite_wf h _ _) _ _

/-- The deviation's range through a batch (R44, R289). -/
theorem syFill_dev (n i : Nat) {s : State} (h1 : -ONE ≤ s.gen.fmDev.toInt ∧ s.gen.fmDev.toInt ≤ ONE)
    (h2 : -ONE ≤ s.gen.d.fmD.toInt ∧ s.gen.d.fmD.toInt ≤ ONE) :
    -ONE ≤ (syFill n i s).gen.fmDev.toInt ∧ (syFill n i s).gen.fmDev.toInt ≤ ONE := by
  induction n generalizing i s with
  | zero => exact h1
  | succ n ih =>
    obtain ⟨hi, hq, he, -, -⟩ := syOne_eq i s
    refine ih (i + 1) ?_ ?_
    · rw [he]
      show -ONE ≤ (syDev s).toInt ∧ (syDev s).toInt ≤ ONE
      unfold syDev
      split
      · exact h1
      · exact h1
      · exact fmNext_range _ h1 h2 (cs_re_range _)
    · rw [he]; exact h2

@[simp] theorem batchHalves_length (n : Nat) (m : Memory) : (batchHalves n m).length = n := by
  simp [batchHalves]

theorem batchHalves_getElem? (n : Nat) (m : Memory) {j : Nat} (h : j < n) :
    (batchHalves n m)[j]? = some (memRead m (2 * j)) := by
  unfold batchHalves
  rw [List.getElem?_map, List.getElem?_range h]
  rfl

/-- The halves n samples give, one sample after the other, I before Q (R281). -/
def syHalves : Nat → State → List Half
  | 0, _ => []
  | n + 1, s => syHalf s.gen.d (syScale s.gen.cur (sySample s).1).re ::
      syHalf s.gen.d (syScale s.gen.cur (sySample s).1).im :: syHalves n (sySample s).2

/-- The state after n samples, none of them stored. -/
def syAfter : Nat → State → State
  | 0, s => s
  | n + 1, s => syAfter n (sySample s).2

/-- A sample does not depend on the buffer, the queue or the ports. -/
theorem sySample_blind (s : State) (buf : Memory) (q : List Half) (io : Io) :
    sySample { s with sybuf := buf, syq := q, io := io } =
      ((sySample s).1, { (sySample s).2 with sybuf := buf, syq := q, io := io }) := by
  unfold sySample
  dsimp only
  cases s.gen.cur.mod <;> rfl

theorem syHalves_blind (n : Nat) (s : State) (buf : Memory) (q : List Half) (io : Io) :
    syHalves n { s with sybuf := buf, syq := q, io := io } = syHalves n s := by
  induction n generalizing s with
  | zero => rfl
  | succ n ih => rw [syHalves, sySample_blind, syHalves, ih]

theorem syAfter_blind (n : Nat) (s : State) (buf : Memory) (q : List Half) (io : Io) :
    syAfter n { s with sybuf := buf, syq := q, io := io } = { syAfter n s with sybuf := buf, syq := q, io := io } := by
  induction n generalizing s with
  | zero => rfl
  | succ n ih => rw [syAfter, sySample_blind, syAfter, ih]

theorem syHalves_add (m n : Nat) (s : State) : syHalves (m + n) s = syHalves m s ++ syHalves n (syAfter m s) := by
  induction m generalizing s with
  | zero => rw [Nat.zero_add]; rfl
  | succ m ih => rw [Nat.succ_add, syHalves, ih]; rfl

theorem syAfter_add (m n : Nat) (s : State) : syAfter (m + n) s = syAfter n (syAfter m s) := by
  induction m generalizing s with
  | zero => rw [Nat.zero_add]; rfl
  | succ m ih => rw [Nat.succ_add, syAfter, ih]; rfl

@[simp] theorem syHalves_length (n : Nat) (s : State) : (syHalves n s).length = 2 * n := by
  induction n generalizing s with
  | zero => rfl
  | succ n ih => simp only [syHalves, List.length_cons, ih]; omega

@[simp] theorem syAfter_syq (n : Nat) (s : State) : (syAfter n s).syq = s.syq := by
  induction n generalizing s with
  | zero => rfl
  | succ n ih => exact (ih _).trans (by rw [sySample_state])

@[simp] theorem syAfter_io (n : Nat) (s : State) : (syAfter n s).io = s.io := by
  induction n generalizing s with
  | zero => rfl
  | succ n ih => exact (ih _).trans (by rw [sySample_state])

@[simp] theorem syAfter_gen (n : Nat) (s : State) : (syAfter n s).gen = { s.gen with fmDev := (syAfter n s).gen.fmDev } := by
  induction n generalizing s with
  | zero => rfl
  | succ n ih =>
    rw [syAfter, ih, sySample_state]

theorem syHalves_buf (n : Nat) (s : State) (buf : Memory) : syHalves n { s with sybuf := buf } = syHalves n s :=
  syHalves_blind n s buf s.syq s.io

theorem syAfter_buf (n : Nat) (s : State) (buf : Memory) :
    syAfter n { s with sybuf := buf } = { syAfter n s with sybuf := buf } := by
  rw [show ({ s with sybuf := buf } : State) = { s with sybuf := buf, syq := s.syq, io := s.io } from rfl, syAfter_blind]
  conv_rhs => rw [show syAfter n s = { syAfter n s with syq := s.syq, io := s.io } by
    conv_rhs => rw [← syAfter_syq n s, ← syAfter_io n s]]

/-- Generating n samples from sample i on leaves the state after n samples, and their halves in the buffer (R281). -/
theorem syFill_halves (n i : Nat) (s : State) (h : 4 * (i + n) ≤ sybufBytes) :
    (∃ buf, syFill n i s = { syAfter n s with sybuf := buf }) ∧
      ∀ j, j < 2 * n → some (memRead (syFill n i s).sybuf (2 * (2 * i + j))) = (syHalves n s)[j]? := by
  induction n generalizing i s with
  | zero => exact ⟨⟨_, rfl⟩, fun j hj => absurd hj (by omega)⟩
  | succ n ih =>
    obtain ⟨hi, hq, he, hhi, hhq⟩ := syOne_eq i s
    have hb : syOne i s = { (sySample s).2 with sybuf := memWrite (memWrite s.sybuf (4 * i) hi) (4 * i + 2) hq } := by
      rw [he, sySample_state]
    obtain ⟨⟨buf, h1⟩, h2⟩ := ih (i + 1) (syOne i s) (by omega)
    refine ⟨⟨buf, ?_⟩, fun j hj => ?_⟩
    · rw [syFill, h1, hb, syAfter_buf]; rfl
    · have hr : ∀ k, k < 2 * (2 * (i + 1)) → memRead (syFill n (i + 1) (syOne i s)).sybuf (2 * k) =
          memRead (syOne i s).sybuf (2 * k) ∨ 2 * (i + 1) ≤ k := by
        intro k _
        by_cases hk : 2 * (i + 1) ≤ k
        · exact Or.inr hk
        · exact Or.inl (memRead_congr ((syFill_spec n (i + 1) (syOne i s)).outside _ (by omega))
            ((syFill_spec n (i + 1) (syOne i s)).outside _ (by omega)))
      rw [syFill, syHalves]
      match j, hj with
      | 0, _ =>
        rcases hr (2 * i + 0) (by omega) with h3 | h3
        · rw [h3, hb, List.getElem?_cons_zero]
          dsimp only
          rw [show 2 * (2 * i + 0) = 4 * i by omega, memRead_memWrite_other _ _ (by omega),
            memRead_memWrite_same _ _ (by omega), hhi]
        · omega
      | 1, _ =>
        rcases hr (2 * i + 1) (by omega) with h3 | h3
        · rw [h3, hb, List.getElem?_cons_succ, List.getElem?_cons_zero]
          dsimp only
          rw [show 2 * (2 * i + 1) = 4 * i + 2 by omega, memRead_memWrite_same _ _ (by omega), hhq]
        · omega
      | j + 2, hj =>
        rw [List.getElem?_cons_succ, List.getElem?_cons_succ, ← syHalves_buf n (sySample s).2
          (memWrite (memWrite s.sybuf (4 * i) hi) (4 * i + 2) hq), ← hb, ← h2 j (by omega)]
        congr 3
        omega

/-- What a batch pushes and leaves (R281): the halves of its samples behind the queue, the state after them. -/
theorem syBatch_halves (count : Nat) (s : State) (h : count ≤ SY_BUF_WORDS) : ∃ buf,
    syBatch count s = { syAfter (count / 2) s with sybuf := buf, syq := s.syq ++ syHalves (count / 2) s } := by
  have hs : 4 * (0 + count / 2) ≤ sybufBytes := by
    unfold sybufBytes; simp only [SY_BUF_WORDS] at *; omega
  obtain ⟨⟨buf, h1⟩, h2⟩ := syFill_halves (count / 2) 0 s hs
  have hb : batchHalves (2 * (count / 2)) (syFill (count / 2) 0 s).sybuf = syHalves (count / 2) s := by
    apply List.ext_getElem?
    intro j
    by_cases hj : j < 2 * (count / 2)
    · rw [batchHalves_getElem? _ _ hj, ← h2 j hj]
      congr 3
      omega
    · rw [List.getElem?_eq_none (by rw [batchHalves_length]; omega),
        List.getElem?_eq_none (by rw [syHalves_length]; omega)]
  refine ⟨buf, ?_⟩
  unfold syBatch syPush
  rw [hb, h1]
  dsimp only
  rw [syAfter_syq]

/-- The size checks of a batch (R292, R293): no fault exactly when both sizes are respected, the buffer's asked first. -/
theorem syCheck_cases (count : Nat) (s : State) :
    (SY_BUF_WORDS < count ∧ syCheck count s = some .syBufsize) ∨
      (count ≤ SY_BUF_WORDS ∧ SY_Q_WORDS - s.syq.length < 2 * (count / 2) ∧ syCheck count s = some .syQueue) ∨
      (count ≤ SY_BUF_WORDS ∧ 2 * (count / 2) ≤ SY_Q_WORDS - s.syq.length ∧ syCheck count s = none) := by
  unfold syCheck syqFree
  split_ifs with h1 h2
  · exact Or.inl ⟨h1, rfl⟩
  · exact Or.inr (Or.inl ⟨Nat.le_of_not_lt h1, h2, rfl⟩)
  · exact Or.inr (Or.inr ⟨Nat.le_of_not_lt h1, Nat.le_of_not_lt h2, rfl⟩)

/-- What a command that generates can answer (R281, R282, R295): one of the two faults, or the batch. -/
theorem syGenerate_cases (count : Nat) (s : State) :
    (∃ b, syCheck count s = some b ∧ syGenerate count s = .next (respond .fault [0#32] (raiseFault b s))) ∨
      (syCheck count s = none ∧
        syGenerate count s = .next (respond .ok [BitVec.ofNat 32 (2 * (count / 2))] (syBatch count s))) := by
  unfold syGenerate
  cases syCheck count s with
  | some b => exact Or.inl ⟨b, rfl, rfl⟩
  | none => exact Or.inr ⟨rfl, rfl⟩

/-! ## TIMER (R395) -/

/-- What one read of TIMER changes: the reading is used up, or counted (log entry 7). -/
theorem timerAdvance_eq (s : State) : ∃ ts k, timerAdvance s = { s with io := { s.io with timerIn := ts, timerReads := k } } := by
  unfold timerAdvance
  cases s.io.timerIn
  · exact ⟨_, _, rfl⟩
  · exact ⟨_, _, rfl⟩

/-- The elapsed count modulo 2^32 (R297). -/
theorem syElapsed_eq (s : State) : syElapsed s = ((timerNow s).toNat + 2 ^ 32 - s.gen.lastTime.toNat) % 2 ^ 32 := by
  unfold syElapsed
  rw [BitVec.toNat_sub]
  have h : s.gen.lastTime.toNat < 2 ^ 32 := s.gen.lastTime.isLt
  show (2 ^ 32 - _ + _) % 2 ^ 32 = _
  congr 1
  omega

/-! ## The consumer (R301) -/

@[simp] theorem packHalves_length (hs : List Half) : (packHalves hs).length = hs.length / 2 := by
  induction hs using packHalves.induct with
  | case1 a b rest ih => simp only [packHalves, List.length_cons, ih]; omega
  | case2 hs h =>
    match hs with
    | [] => rfl
    | [a] => simp [packHalves]
    | a :: b :: rest => exact absurd rfl (h a b rest)

/-- Packing an even number of halves and then others packs both (R303). -/
theorem packHalves_append (hs ks : List Half) (h : hs.length % 2 = 0) :
    packHalves (hs ++ ks) = packHalves hs ++ packHalves ks := by
  induction hs using packHalves.induct with
  | case1 a b rest ih =>
    simp only [List.cons_append, packHalves]
    rw [ih (by simp only [List.length_cons] at h; omega)]
  | case2 hs hn =>
    match hs with
    | [] => rfl
    | [a] => simp at h
    | a :: b :: rest => exact absurd rfl (hn a b rest)

/-- Word j of a packing holds halves 2j and 2j+1, the first in bits 15:0 (R76). -/
theorem packHalves_getElem? (hs : List Half) (j : Nat) {w : Word} (h : (packHalves hs)[j]? = some w) :
    hs[2 * j]? = some (w.extractLsb' 0 16) ∧ hs[2 * j + 1]? = some (w.extractLsb' 16 16) := by
  induction hs using packHalves.induct generalizing j with
  | case1 a b rest ih =>
    cases j with
    | zero =>
      simp only [packHalves, List.getElem?_cons_zero, Option.some.injEq] at h
      subst h
      constructor
      · simp only [Nat.mul_zero, List.getElem?_cons_zero]
        congr 1
        apply BitVec.eq_of_getLsbD_eq
        intro i hi
        simp only [BitVec.getLsbD_extractLsb', BitVec.getLsbD_append]
        simp [hi]
      · simp only [Nat.mul_zero, Nat.zero_add, List.getElem?_cons_succ, List.getElem?_cons_zero]
        congr 1
        apply BitVec.eq_of_getLsbD_eq
        intro i hi
        simp only [BitVec.getLsbD_extractLsb', BitVec.getLsbD_append]
        simp [hi]
    | succ j =>
      simp only [packHalves, List.getElem?_cons_succ] at h
      have := ih j h
      rw [show 2 * (j + 1) = 2 * j + 1 + 1 by omega]
      simpa using this
  | case2 hs hn =>
    match hs with
    | [] => simp [packHalves] at h
    | [a] => simp [packHalves] at h
    | a :: b :: rest => exact absurd rfl (hn a b rest)

end Sys2Proof.Machine
end

