-- ==== Sys2Proof/Tests/Slice0.lean ====
section
/-! SUPPORT. Tests of the model: ill-formed terms refused, words written out from the encoding rules decoded, single steps with
the values of spec/95_test_vectors.md or of a rule's example, and for every obligation with hypotheses a state that meets them.
A vector is one that rests on no free part of a configuration function. -/

namespace Sys2Proof.Tests
open Sys2Proof.Machine Sys2Proof.Config

-- The tests are checked one after another: each kernel evaluation waits for all that stands before it, and a thread for each
-- that waits would not fit beside the package as one text.
set_option Elab.async false

/-! ## Helpers -/

/-- The state with words on CMD. -/
def atCmd (ws : List Word) (s : State) : State := withCmd ws s

/-- The state after one step with words on CMD. -/
def stepTo (ws : List Word) (s : State) : State :=
  match step (atCmd ws s) with
  | .next t => t
  | .fault f => nomatch f
  | .refused _ => s

/-- The words on RSP after one step. -/
def answer (ws : List Word) (s : State) : List (List Word) := (stepTo ws s).io.rsp.map Response.toWords

/-- The words on EVT after one step. -/
def events (ws : List Word) (s : State) : List (List Word) := (stepTo ws s).io.evt.map Event.toWords

/-- The words on PIX after one step. -/
def pixels (ws : List Word) (s : State) : List (List Word) := (stepTo ws s).io.pix.map Pixel.toWords

/-- A real sample. -/
def re (w : Word) : Cfx := ⟨w, 0#32⟩

/-- The banks of program P3 (spec/95_test_vectors.md; R219 (c)). -/
def p3Banks : DmBanks :=
  { atv := { lineNs := 100000#32, topNs := 31250#32, fps := 1000#32, rowsRatio := 0x10000#32, thrSyncTop := 0x199A#32,
             thrBlack := 0x4CCD#32, hsyncEn := true, vsyncEn := true }
    rf := { freqOffsetHz := 0#32, modKind := .am, rfBwHz := 0#32, oppBwHz := 0#32, filterEn := false, decimEn := false }
    stream := { inRateHz := 160000#32 } }

/-- The derived record of P3 (R219 (c)). -/
def p3Geometry : DmDerived :=
  { effRate := 160000#32, lpf := 10#32, lps := 10000#32, spl := 16#32, topN := 5#32, rowsDisp := 10#32,
    filtOn := false, decimOn := false }

/-- The demodulation engine running as in P3. -/
def dmOn : State :=
  { State.reset with
    dm := { Dm.reset with cur := p3Banks, val := .full, d := p3Geometry, rateReported := 160000#32, active := true } }

/-- The same in another state of the demodulation state machine and on another raster position. -/
def dmAt (f : Fsm) (col row : Word) : State :=
  { dmOn with sync := { Sync.reset with fsm := f, col := col, row := row } }

/-- P2's bank with another carrier, so that every phase is a cardinal one. -/
def p2Bank : GenBank :=
  { GenBank.reset with sampleRateHz := 8000#32, carrierHz := 2000#32, ampI := 0x10000#32, ampQ := 0x8000#32,
                       dcQ := 0x4000#32 }

/-- The synthesis engine running that bank, a quarter of a turn per sample. -/
def syOn : State :=
  { State.reset with
    nco := #v[⟨0#32, 0#32⟩, ⟨0#32, 0x40000000#32⟩, ⟨0#32, 0x40000000#32⟩]
    gen := { Gen.reset with cur := p2Bank, val := true, d := { shift := 7, ampFs := 127, fmD := 0#32 }, active := true } }

/-- The same with another bank and derived record. -/
def syWith (b : GenBank) (d : GenDerived) : State := { syOn with gen := { syOn.gen with cur := b, d := d } }

/-- The synthesis engine halted by a sizing fault. -/
def syHalted : State := { State.reset with fault := 1#32, gen := { Gen.reset with halted := true } }

/-! ## Well-formedness: an ill-formed term for each check -/

theorem test_wf_rcConv_empty : WellFormed (.rcConv []) = false := rfl
theorem test_wf_sfApply_empty : WellFormed (.sfApply []) = false := rfl
theorem test_wf_dmFeed_empty : WellFormed (.dmFeed []) = false := rfl
theorem blockOk_replicate (n : Nat) (z : Cfx) : blockOk (List.replicate n z) = (decide (1 ≤ n) && decide (n ≤ 4096)) := by
  unfold blockOk
  rw [List.length_replicate]
theorem test_wf_rcConv_long : WellFormed (.rcConv (List.replicate 4097 cfxZero)) = false := blockOk_replicate _ _
theorem test_wf_sfApply_long : WellFormed (.sfApply (List.replicate 4097 cfxZero)) = false := blockOk_replicate _ _
theorem test_wf_dmFeed_long : WellFormed (.dmFeed (List.replicate 4097 cfxZero)) = false := blockOk_replicate _ _

/-! ## Decoding: the word of every command written out from R101, R105, R106, R112 to R114 -/

theorem test_decode_nop : decode [0x00000000#32] = some (.ok .nop, []) := rfl
theorem test_decode_ncoSetf :
    decode [0x10000003#32, 2#32, 0xFFFFFFFF#32, 0xE0000001#32] = some (.ok (.ncoSetf 2#32 0xFFFFFFFFE0000001#64), []) := rfl
theorem test_decode_ncoNext : decode [0x11000001#32, 1#32] = some (.ok (.ncoNext 1#32), []) := rfl
theorem test_decode_ncoNexti :
    decode [0x12000002#32, 1#32, 0x40000000#32] = some (.ok (.ncoNexti 1#32 0x40000000#32), []) := rfl
theorem test_decode_ncoRdph : decode [0x13000001#32, 2#32] = some (.ok (.ncoRdph 2#32), []) := rfl
theorem test_decode_rcCfg : decode [0x20000003#32, 5#32, 2#32, 1#32] = some (.ok (.rcCfg 5#32 2#32 true), []) := rfl
theorem test_decode_rcConv :
    decode [0x21000002#32, 7#32, 8#32, 9#32] = some (.ok (.rcConv [⟨7#32, 8#32⟩]), [9#32]) := rfl
theorem test_decode_sfCfg :
    decode [0x30000004#32, 2#32, 250000#32, 50000#32, 1000000#32] =
      some (.ok (.sfCfg 2#32 250000#32 50000#32 1000000#32), []) := rfl
theorem test_decode_sfApply :
    decode [0x31000004#32, 1#32, 2#32, 3#32, 4#32] = some (.ok (.sfApply [⟨1#32, 2#32⟩, ⟨3#32, 4#32⟩]), []) := rfl
theorem test_decode_ltUpd : decode [0x40000002#32, 1#32, 2#32] = some (.ok (.ltUpd ⟨1#32, 2#32⟩), []) := rfl
theorem test_decode_ltAvg : decode [0x41000000#32] = some (.ok .ltAvg, []) := rfl
theorem test_decode_ltPwr : decode [0x42000000#32] = some (.ok .ltPwr, []) := rfl
theorem test_decode_dmCfgatv :
    decode [0x50000007#32, 1#32, 2#32, 3#32, 4#32, 5#32, 6#32, 2#32] =
      some (.ok (.dmCfgatv 1#32 2#32 3#32 4#32 5#32 6#32 false true), []) := rfl
theorem test_decode_dmCfgrf :
    decode [0x51000005#32, 1#32, 2#32, 3#32, 4#32, 1#32] =
      some (.ok (.dmCfgrf 1#32 2#32 3#32 4#32 true false), []) := rfl
theorem test_decode_dmCfgstream : decode [0x52000001#32, 1#32] = some (.ok (.dmCfgstream 1#32), []) := rfl
theorem test_decode_dmStart : decode [0x53000000#32] = some (.ok .dmStart, []) := rfl
theorem test_decode_dmStop : decode [0x54000000#32] = some (.ok .dmStop, []) := rfl
theorem test_decode_dmFeed :
    decode [0x55000004#32, 1#32, 2#32, 3#32, 4#32] = some (.ok (.dmFeed [⟨1#32, 2#32⟩, ⟨3#32, 4#32⟩]), []) := rfl
theorem test_decode_dmStatus : decode [0x56000000#32] = some (.ok .dmStatus, []) := rfl
theorem test_decode_syCfg :
    decode [0x6000000C#32, 1#32, 2#32, 3#32, 4#32, 5#32, 6#32, 7#32, 8#32, 9#32, 10#32, 11#32, 12#32] =
      some (.ok (.syCfg 1#32 2#32 3#32 4#32 5#32 6#32 7#32 8#32 9#32 10#32 11#32 12#32), []) := rfl
theorem test_decode_syStart : decode [0x61000000#32] = some (.ok .syStart, []) := rfl
theorem test_decode_syStop : decode [0x62000000#32] = some (.ok .syStop, []) := rfl
theorem test_decode_syTick : decode [0x63000000#32] = some (.ok .syTick, []) := rfl
theorem test_decode_syGen : decode [0x64000001#32, 8#32] = some (.ok (.syGen 8#32), []) := rfl
theorem test_decode_syPop : decode [0x65000001#32, 4#32] = some (.ok (.syPop 4#32), []) := rfl
theorem test_decode_syStatus : decode [0x66000000#32] = some (.ok .syStatus, []) := rfl
theorem test_decode_faultRd : decode [0x70000000#32] = some (.ok .faultRd, []) := rfl
theorem test_decode_reset : decode [0x7F000000#32] = some (.ok .reset, []) := rfl

/-- V-CT-2, V-NCO-6, V-RC-7 and R107: reserved opcode, LEN not the row's, odd and zero block LEN, unnamed flag bits. -/
theorem test_decode_illegal :
    decode [0x05000000#32] = some (.error .reservedOpcode, []) ∧
    decode [0x11000002#32, 0#32, 0#32] = some (.error .badLength, []) ∧
    decode [0x55000003#32, 0#32, 0#32, 0#32] = some (.error .badLength, []) ∧
    decode [0x55000000#32] = some (.error .badLength, []) ∧
    decode [0x20000003#32, 1#32, 2#32, 2#32] = some (.error .reservedFlag, []) ∧
    decode [0x50000007#32, 1#32, 1#32, 1#32, 1#32, 1#32, 1#32, 4#32] = some (.error .reservedFlag, []) :=
  ⟨rfl, rfl, rfl, rfl, rfl, rfl⟩

/-- An opcode-table word of a row that fixes the whole header, and of a block row with a LEN of 2. -/
theorem test_decodeTableWord :
    decodeTableWord 32 0x6000000C = some (.syCfg 0#32 0#32 0#32 0#32 0#32 0#32 0#32 0#32 0#32 0#32 0#32 0#32) ∧
    decodeTableWord 32 0x55000002 = some (.dmFeed [⟨0#32, 0#32⟩]) ∧ decodeTableWord 32 0x55000000 = none := by
  decide +kernel

/-- A table word placed by `withFetchWord` is the first command after reset. -/
theorem test_withFetchWord :
    (match step (State.reset.withFetchWord 32 0x66000000) with | .next t => t.io.rsp.map Response.toWords | _ => []) =
      [[0x00000004#32, 0#32, 0#32, 0x00040000#32, 0#32]] := by decide +kernel

/-! ## Single steps -/

/-- V-CT-1: the status reads and the refusals after reset. -/
theorem test_after_reset :
    answer [0x56000000#32] .reset = [[6#32, 0#32, 0#32, 0#32, 0xFF9C0000#32, 0#32, 0#32]] ∧
    answer [0x70000000#32] .reset = [[2#32, 0#32, 0#32]] ∧ answer [0#32] .reset = [[0#32]] ∧
    answer [0x53000000#32] .reset = [[0x05000000#32]] ∧ answer [0x61000000#32] .reset = [[0x05000000#32]] ∧
    answer [0x55000002#32, 0#32, 0#32] .reset = [[0x04000000#32]] ∧ answer [0x63000000#32] .reset = [[0x04000000#32]] := by
  decide +kernel

/-- V-CT-2: an illegal command is consumed with its operands and answered E_ILLEGAL. -/
theorem test_illegal : answer [0x55000003#32, 0#32, 0#32, 0#32, 7#32] .reset = [[0x01000000#32]] ∧
    (stepTo [0x55000003#32, 0#32, 0#32, 0#32, 7#32] .reset).io.cmd = [7#32] := by decide +kernel

/-- V-NCO-1: a frequency of 2^31 + 1 is clamped to half a turn; -1 is 0xFFFFFFFF. -/
theorem test_ncoSetf_clamped :
    (stepTo [0x10000003#32, 1#32, 0#32, 0x80000001#32] .reset).nco[(1 : Fin 3)] = ⟨0#32, 0x80000000#32⟩ ∧
    (stepTo [0x10000003#32, 2#32, 0xFFFFFFFF#32, 0xFFFFFFFF#32] .reset).nco[(2 : Fin 3)] = ⟨0#32, 0xFFFFFFFF#32⟩ := by
  decide +kernel

/-- R144 at a cardinal phase: advance, then output (oscillator 1 at a quarter of a turn per sample), engine idle. -/
theorem test_ncoNext : answer [0x11000001#32, 1#32] { syOn with gen := Gen.reset } = [[2#32, 0#32, 0x10000#32]] ∧
    answer [0x11000001#32, 3#32] .reset = [[0x02000000#32]] := by decide +kernel

/-- R147: the quadrature component is looked up half a turn further. -/
theorem test_ncoNexti :
    answer [0x12000002#32, 1#32, 0x80000000#32] { syOn with gen := Gen.reset } = [[2#32, 0#32, 0xFFFF0000#32]] := by
  decide +kernel

/-- V-NCO-6: NCO.RDPH of a busy oscillator answers. -/
theorem test_ncoRdph : answer [0x13000001#32, 1#32] syOn = [[2#32, 0#32, 0x40000000#32]] ∧
    answer [0x11000001#32, 1#32] syOn = [[0x03000000#32]] := by decide +kernel

/-- V-RC-1, V-RC-7: ratios, the smallest legal one and one below it. -/
theorem test_rcCfg : (stepTo [0x20000003#32, 48000#32, 44100#32, 0#32] .reset).rc.ratio = 0x0000000116A3B35F#64 ∧
    (stepTo [0x20000003#32, 1#32, 256#32, 0#32] .reset).rc.ratio = 0x01000000#64 ∧
    answer [0x20000003#32, 1#32, 257#32, 0#32] .reset = [[0x02000000#32]] := by decide +kernel

/-- V-RC-3: interpolation by 2. -/
theorem test_rcConv :
    answer [0x21000008#32, 0x10000#32, 0xFFFF0000#32, 0x20000#32, 0xFFFE0000#32, 0x40000#32, 0xFFFC0000#32, 0xFFFF0000#32,
        0x10000#32] { State.reset with rc := { Rc.reset with ratio := 0x80000000#64 } } =
      [[0x10#32, 0#32, 0#32, 0x8000#32, 0xFFFF8000#32, 0x10000#32, 0xFFFF0000#32, 0x18000#32, 0xFFFE8000#32, 0x20000#32,
        0xFFFE0000#32, 0x30000#32, 0xFFFD0000#32, 0x40000#32, 0xFFFC0000#32, 0x18000#32, 0xFFFE8000#32]] := by
  decide +kernel

/-- V-SF-2: a mode above 2 and a zero rate. -/
theorem test_sfCfg_range : answer [0x30000004#32, 3#32, 1#32, 1#32, 1#32] .reset = [[0x02000000#32]] ∧
    answer [0x30000004#32, 0#32, 1#32, 1#32, 0#32] .reset = [[0x02000000#32]] := by decide +kernel

/-- R182: a sample that does not fill the block is counted and nothing is returned. -/
theorem test_sfApply : answer [0x31000002#32, 1#32, 2#32] .reset = [[0#32]] ∧
    (stepTo [0x31000002#32, 1#32, 2#32] .reset).sf.fill.val = 1 := by decide +kernel

/-- V-LT-1: LT.UPD (1q, 0). -/
theorem test_ltUpd : (stepTo [0x40000002#32, 0x10000#32, 0#32] .reset).lt.sum = 65536#64 ∧
    (stepTo [0x40000002#32, 0x10000#32, 0#32] .reset).lt.idx = 1 := by decide +kernel

/-- V-LT-1: the saturated sum's average; DB_ONE at an average of 1.0. -/
theorem test_ltAvg : answer [0x41000000#32] { State.reset with lt := { Lt.reset with sum := 2149515263#64 } } =
      [[1#32, 0x0400F7FF#32]] ∧
    answer [0x42000000#32] { State.reset with lt := { Lt.reset with sum := 2097152#64 } } = [[1#32, 0#32]] ∧
    answer [0x42000000#32] .reset = [[1#32, 0xFF9C0000#32]] := by decide +kernel

/-- V-DM-1: geometry (a) of R219, the decimated one, and the failing ones. -/
theorem test_dmDerive :
    dmDerive p3Banks = .ok p3Geometry ∧
    (dmDerive { p3Banks with stream := ⟨15#32⟩ } = .error .badLps) ∧
    (dmDerive { p3Banks with stream := ⟨70000#32⟩ } = .error .badSpl) ∧
    (dmDerive { p3Banks with atv := { p3Banks.atv with lineNs := 1#32, fps := 1#32 } } = .error .badLpf) ∧
    (dmDerive { p3Banks with atv := { p3Banks.atv with topNs := 99999#32 } } = .error .badTop) := ⟨rfl, rfl, rfl, rfl, rfl⟩

/-- P3: the configuration messages, and one of them with a zero field (V-CT-4's kind). -/
theorem test_dmCfg :
    (stepTo [0x50000007#32, 100000#32, 31250#32, 1000#32, 0x10000#32, 0x199A#32, 0x4CCD#32, 3#32] .reset).dm.pnd.atv =
      p3Banks.atv ∧
    (stepTo [0x51000005#32, 0#32, 2#32, 0#32, 0#32, 0#32] .reset).dm.pnd.rf = p3Banks.rf ∧
    (stepTo [0x52000001#32, 160000#32] .reset).dm.pndF = ⟨false, false, true⟩ ∧
    answer [0x52000001#32, 0#32] .reset = [[0x02000000#32]] ∧
    events [0x52000001#32, 0#32] .reset = [[0x03000002#32, 2#32, 1#32]] ∧
    (stepTo [0x52000001#32, 0#32] .reset).cfgErr = 1#32 := by decide +kernel

/-- P3: DM.START with the three messages pending reports the rate. -/
theorem test_dmStart :
    answer [0x53000000#32] { State.reset with dm := { Dm.reset with pnd := p3Banks, pndF := .full } } = [[0#32]] ∧
    events [0x53000000#32] { State.reset with dm := { Dm.reset with pnd := p3Banks, pndF := .full } } =
      [[0x01000001#32, 0x00027100#32]] := by decide +kernel

/-- P3: line 0 (VS) of the running engine: one EV_STATE U -> LSS and the line on PIX. -/
theorem test_dmFeed_line0 :
    events (encode (.dmFeed (List.replicate 13 (re 0#32) ++ List.replicate 3 (re 0x8000#32)))) dmOn =
      [[0x02000002#32, 0#32, 1#32]] ∧
    pixels (encode (.dmFeed (List.replicate 13 (re 0#32) ++ List.replicate 3 (re 0x8000#32)))) dmOn =
      [[0x01000012#32, 0#32, 0#32] ++ List.replicate 13 0#32 ++ List.replicate 3 0x8000#32] := by decide +kernel

/-- P3: DM.STATUS of the running engine, DM.START and LT.UPD refused, DM.STOP, and the stop taken by DM.FEED. -/
theorem test_dmRunning :
    answer [0x56000000#32] dmOn = [[6#32, 0x0001C048#32, 0x00027100#32, 0#32, 0xFF9C0000#32, 0#32, 0#32]] ∧
    answer [0x53000000#32] dmOn = [[0x03000000#32]] ∧ answer [0x40000002#32, 0#32, 0#32] dmOn = [[0x03000000#32]] ∧
    (stepTo [0x54000000#32] dmOn).dm.stopReq = true ∧
    answer [0x55000002#32, 0#32, 0#32] { dmOn with dm := { dmOn.dm with stopReq := true } } = [[0x04000000#32]] ∧
    events [0x55000002#32, 0#32, 0#32] { dmOn with dm := { dmOn.dm with stopReq := true } } =
      [[0x05000001#32, 0#32]] := by decide +kernel

/-- V-DM-2: magnitude and unit vector. -/
theorem test_unit : cmag ⟨3#32, 4#32⟩ = 5#32 ∧ cmag ⟨65536#32, 65536#32⟩ = 92681#32 ∧
    cmag ⟨0x80000000#32, 0x80000000#32⟩ = 0x7FFFFFFF#32 ∧ unit ⟨3#32, 4#32⟩ = ⟨39321#32, 52428#32⟩ ∧
    unit ⟨30000#32, BitVec.ofInt 32 (-40000)⟩ = ⟨39321#32, BitVec.ofInt 32 (-52429)⟩ ∧
    unit ⟨0x80000000#32, 0x80000000#32⟩ = ⟨0xFFFF0000#32, 0xFFFF0000#32⟩ := by decide +kernel

/-- V-DM-4: the normaliser. -/
theorem test_dmNorm : dmNorm 0x8000#32 { Sync.reset with effDelta := 0xE000#32 } = 0x9249#32 ∧
    dmNorm 0xF000#32 { Sync.reset with effDelta := 0xE000#32 } = 0x10000#32 := by decide +kernel

/-- P2: SY.CFG staged, SY.START with TIMER at 0x1000. -/
theorem test_syCfg :
    answer [0x6000000C#32, 8000#32, 1000#32, 0#32, 0#32, 0#32, 0#32, 0#32, 0x10000#32, 0x8000#32, 0#32, 0x4000#32, 0#32]
      .reset = [[0#32]] ∧
    answer [0x66000000#32] { State.reset with gen := { Gen.reset with pndF := true } } =
      [[4#32, 8#32, 0#32, 0x40000#32, 0#32]] := by decide +kernel

theorem test_syStart :
    (stepTo [0x61000000#32] { State.reset with
      gen := { Gen.reset with pnd := { p2Bank with carrierHz := 1000#32 }, pndF := true }
      io := { Io.reset with timerIn := [0x1000#32] } }).gen.lastTime = 0x1000#32 ∧
    (stepTo [0x61000000#32] { State.reset with
      gen := { Gen.reset with pnd := { p2Bank with carrierHz := 1000#32 }, pndF := true }
      io := { Io.reset with timerIn := [0x1000#32] } }).nco[(1 : Fin 3)] = ⟨0#32, 0x20000000#32⟩ := by decide +kernel

/-- P2's samples at 90 and 180 degrees: (0, 96) and (-127, 32); bytes and queue. -/
theorem test_syGen : answer [0x64000001#32, 5#32] syOn = [[1#32, 4#32]] ∧
    (stepTo [0x64000001#32, 5#32] syOn).syq = [0#16, 96#16, 0xFF81#16, 32#16] ∧
    (stepTo [0x64000001#32, 5#32] syOn).sybuf = [(2, 96#8), (4, 0x81#8), (5, 0xFF#8), (6, 32#8)] := by decide +kernel

/-- V-SY-7: with fm_d = ONE and a constant tone the deviation goes 65536, 0 and the output alternates. -/
theorem test_syGen_fm :
    (stepTo [0x64000001#32, 4#32] { syWith
        { p2Bank with mod := .fm, depth := .bits16, carrierHz := 0#32, ampQ := 0x10000#32, dcQ := 0#32 } ⟨15, 32767, 0x10000#32⟩ with
        nco := #v[⟨0#32, 0#32⟩, ⟨0#32, 0#32⟩, ⟨0#32, 0#32⟩] }).syq =
      [0x8001#16, 0#16, 0x7FFF#16, 0#16] := by decide +kernel

/-- R286 at cardinal phases: tone 0 gives half the carrier, tone -1.0 at index 1.0 gives 0. -/
theorem test_syGen_am :
    (stepTo [0x64000001#32, 4#32] (syWith
        { p2Bank with mod := .am, depth := .bits16, amIndex := 0x10000#32, ampQ := 0x10000#32, dcQ := 0#32 }
        ⟨15, 32767, 0#32⟩)).syq = [0#16, 16384#16, 0#16, 0#16] := by decide +kernel

/-- V-SY-1: conversion to 8, 12 and 16 bits. -/
theorem test_syConv : syConv ⟨7, 127, 0#32⟩ 0xFFFF0000#32 = -127 ∧ syConv ⟨7, 127, 0#32⟩ 0xFFFFFFFF#32 = -1 ∧
    syConv ⟨11, 2047, 0#32⟩ 512#32 = 16 ∧ syConv ⟨15, 32767, 0#32⟩ (BitVec.ofInt 32 (-513)) = -257 := by decide +kernel

/-- V-SY-9: SY.TICK over a TIMER wrap, 512 elapsed at 1 MHz (the count word only: no sample is inspected). -/
theorem test_syTick_wrap : syDueSamples { syOn with
      gen := { syOn.gen with cur := { p2Bank with sampleRateHz := 1000000#32 }, lastTime := 0xFFFFFF00#32 }
      io := { Io.reset with timerIn := [0x100#32] } } = 512 := by decide +kernel

/-- P2: a tick of 1300 at 8000 Hz with the toggle at 1 gives 11 samples, with it at 0 10. -/
theorem test_syTick_rounding : syDueSamples { syOn with
      gen := { syOn.gen with toggle := true }, io := { Io.reset with timerIn := [1300#32] } } = 11 ∧
    syDueSamples { syOn with io := { Io.reset with timerIn := [1300#32] } } = 10 := by decide +kernel

/-- P2: SY.POP 4, and an odd count. -/
theorem test_syPop : answer [0x65000001#32, 4#32] { State.reset with syq := [0x5A#16, 0x4D#16, 0#16, 0x60#16, 1#16, 2#16] } =
      [[3#32, 4#32, 0x004D005A#32, 0x00600000#32]] ∧
    answer [0x65000001#32, 3#32] syOn = [[0x02000000#32]] := by decide +kernel

/-- P4: SY.GEN 65537 is the buffer fault; a halted engine refuses. -/
theorem test_syFault : answer [0x64000001#32, 0x10001#32] syOn = [[0x07000001#32, 0#32]] ∧
    events [0x64000001#32, 0x10001#32] syOn = [[0x04000001#32, 0#32]] ∧
    answer [0x70000000#32] syHalted = [[2#32, 1#32, 0#32]] ∧ answer [0x63000000#32] syHalted = [[0x06000000#32]] := by
  decide +kernel

/-- P4: RESET after the fault. -/
theorem test_reset : answer [0x7F000000#32] syHalted = [[0#32]] ∧ (stepTo [0x7F000000#32] syHalted).fault = 0#32 ∧
    (stepTo [0x7F000000#32] syHalted).gen.halted = false := by decide +kernel

/-- P2: SY.STOP requests, and the next SY.TICK takes the stop without reading TIMER. -/
theorem test_syStop : (stepTo [0x62000000#32] syOn).gen.stopReq = true ∧
    events [0x63000000#32] { syOn with gen := { syOn.gen with stopReq := true } } = [[0x05000001#32, 1#32]] ∧
    (stepTo [0x63000000#32] { syOn with gen := { syOn.gen with stopReq := true } }).io.timerReads = 0 := by decide +kernel

/-! ## Witnesses: for every obligation with hypotheses, states and operands that meet them

Each names its obligation. A clause with a range of its own has a witness at a boundary of that range. -/

theorem ltOk_reset : (∀ m ∈ Lt.reset.win.toList, 0 ≤ BitVec.toInt m) ∧
    Lt.reset.sum.toInt = (Lt.reset.win.toList.map BitVec.toInt).sum := ⟨Lt.Ok.reset.1, Lt.Ok.reset.2⟩

theorem p3Geometry_ok : p3Geometry.Ok :=
  ⟨by decide, by decide, by decide, by decide, by decide, by decide, by decide, by decide⟩

theorem dmOn_inv : DmInv dmOn :=
  ⟨by decide, by decide, ltOk_reset.1, ltOk_reset.2, fun _ => rfl, fun _ => rfl, fun _ => p3Geometry_ok,
    fun _ => by decide, fun _ => by decide, by decide⟩

theorem syOn_inv : SyInv syOn :=
  ⟨by decide, by decide, by decide, by decide, fun _ => ⟨rfl, rfl⟩, fun _ => rfl, fun h => absurd h (by decide),
    ⟨fun h => absurd h (by decide), fun h => absurd rfl h⟩, by decide, by decide, by decide⟩

theorem p3Atv_ok : p3Banks.atv.Ok := ⟨by decide, by decide, by decide, by decide, by decide, by decide, by decide⟩

theorem p2Bank_ok : p2Bank.Ok := ⟨by decide, by decide, by decide, by decide, by decide, by decide⟩

theorem dmOn_data : DataInv dmOn :=
  ⟨fun h => absurd h (by decide), fun _ => p3Atv_ok, fun h => absurd h (by decide), fun _ => by decide,
    fun h => absurd h (by decide), fun h => absurd h (by decide), by decide, by decide, by decide, by decide⟩

/-- DecodeOfEncode: a command without operands, and blocks of the least and the greatest length. -/
theorem witness_DecodeOfEncode : WellFormed .nop = true ∧ WellFormed (.dmFeed (List.replicate 1 cfxZero)) = true ∧
    WellFormed (.dmFeed (List.replicate 4096 cfxZero)) = true := ⟨rfl, blockOk_replicate _ _, blockOk_replicate _ _⟩

/-- EncodeOfDecode. -/
theorem witness_EncodeOfDecode : decode [0x65000001#32, 4#32, 9#32] = some (.ok (.syPop 4#32), [9#32]) := rfl

theorem nop_len_one (i : Instr) : [0x00000001#32, 0#32] ≠ encode i := by
  intro h
  have h3 : (0x00000001#32 : Word) = headerWord (opcodeOf i) (operandsOf i).length := by
    have := congrArg List.head? h
    simpa [encode] using this
  have h4 : operandsOf i = [0#32] := by
    have := congrArg List.tail h
    simpa [encode] using this.symm
  rw [h4] at h3
  have h5 : opcodeOf i = 0 := by
    cases i <;> first | rfl | exact absurd h3 (by simp only [opcodeOf]; decide)
  cases i <;> first | (simp [opcodeOf] at h5; done) | exact absurd h4 (by simp [operandsOf])

/-- IllegalAnswered: a LEN that is not the opcode's, and the reserved opcodes at both ends of a range. -/
theorem witness_IllegalAnswered :
    ((atCmd [0x00000001#32, 0#32] .reset).io.resetIn = false ∧
      ((0x00000001#32 : Word).extractLsb' 0 24).toNat ≤ [0#32].length ∧
      ∀ i, WellFormed i = true → 0x00000001#32 :: [(0#32 : Word)].take ((0x00000001#32 : Word).extractLsb' 0 24).toNat ≠
        encode i) ∧
    reservedOpcode ((0x01000000#32 : Word).extractLsb' 24 8).toNat ∧
    reservedOpcode ((0x80000000#32 : Word).extractLsb' 24 8).toNat ∧
    reservedOpcode ((0xFF000000#32 : Word).extractLsb' 24 8).toNat := by
  refine ⟨⟨rfl, by decide, fun i _ => nop_len_one i⟩, ?_, ?_, ?_⟩ <;> unfold reservedOpcode <;> decide

/-- PortFormats: the longest line record. -/
theorem witness_PortFormats : (⟨.ok, []⟩ : Response).words.length < 2 ^ 24 ∧
    (List.replicate SPL_MAX (0#32 : Fx)).length ≤ SPL_MAX := ⟨by decide, by rw [List.length_replicate]⟩

/-- StepRunsCommand: a command waiting, and part of one. -/
theorem witness_StepRunsCommand :
    State.reset.io.resetIn = false ∧ WellFormed (.syPop 4#32) = true ∧
    (atCmd [0x65000001#32, 4#32] .reset).io.cmd = encode (.syPop 4#32) ++ [] ∧
    decode (atCmd [0x65000001#32, 4#32] .reset).io.cmd = some (.ok (.syPop 4#32), []) ∧
    decode (atCmd [0x65000001#32] .reset).io.cmd = none ∧ decode (atCmd [] .reset).io.cmd = none :=
  ⟨rfl, rfl, by decide, rfl, rfl, rfl⟩

/-- ResetEffect: reset asserted with a command waiting, and in the middle of one. -/
theorem witness_ResetEffect : ∃ s : State, s.io.resetIn = true ∧ s.io.rsp = [⟨.ok, []⟩] ∧
    s.io.cmd = [[0#32], [0x65000001#32, 2#32]].flatten ++ [0x65000001#32] ∧ decode [0x65000001#32] = none :=
  ⟨{ dmOn with io := { Io.reset with resetIn := true, rsp := [⟨.ok, []⟩],
                                     cmd := [0#32, 0x65000001#32, 2#32, 0x65000001#32] } }, rfl, rfl, rfl, rfl⟩

/-- R410, R411: the reset input with two whole commands and a part of a third on CMD, a response, a state event and a frame
record emitted. -/
theorem test_reset_input :
    step { dmOn with io := { Io.reset with resetIn := true, timerIn := [7#32], rsp := [⟨.ok, []⟩],
                                           evt := [.state .lineLocked .unsynchronized], pix := [.frame 0#32 10#32],
                                           cmd := [0#32, 0x65000001#32, 2#32, 0x65000001#32] } } =
      .next { State.reset with io := { Io.reset with timerIn := [7#32], cmd := [0#32, 0x65000001#32, 2#32] } } := rfl

/-- StepKeepsDmInv. -/
theorem witness_StepKeepsDmInv : DmInv dmOn ∧ step (atCmd [0#32] dmOn) = .next (stepTo [0#32] dmOn) ∧
    (stepTo [0#32] dmOn).io.rsp = [⟨.ok, []⟩] := ⟨dmOn_inv, rfl, rfl⟩

/-- StepKeepsSyInv. -/
theorem witness_StepKeepsSyInv : SyInv syOn ∧ step (atCmd [0x62000000#32] syOn) = .next (stepTo [0x62000000#32] syOn) :=
  ⟨syOn_inv, rfl⟩

/-- StepKeepsDataInv. -/
theorem witness_StepKeepsDataInv : DataInv dmOn ∧ step (atCmd [0x54000000#32] dmOn) =
    .next (stepTo [0x54000000#32] dmOn) := ⟨dmOn_data, rfl⟩

/-- ControlOwnsPending. -/
theorem witness_ControlOwnsPending : isControl .dmStop = true ∧
    exec .dmStop dmOn = .next (respond .ok [] { dmOn with dm := { dmOn.dm with stopReq := true } }) := ⟨rfl, rfl⟩

/-- EnginesIndependent: a command of each engine. -/
theorem witness_EnginesIndependent : isDemod .dmStop = true ∧ isSynth .syStop = true ∧
    exec .dmStop dmOn = .next (respond .ok [] { dmOn with dm := { dmOn.dm with stopReq := true } }) ∧
    exec .syStop syOn = .next (respond .ok [] { syOn with gen := { syOn.gen with stopReq := true } }) :=
  ⟨rfl, rfl, rfl, rfl⟩

/-- FaultsSticky: a set bit, a halted engine, a command that does not store. -/
theorem witness_FaultsSticky : Instr.nop ≠ .reset ∧ exec .nop syHalted = .next (respond .ok [] syHalted) ∧
    syHalted.fault.getLsbD 0 = true ∧ syHalted.gen.halted = true ∧ storesToBuffer .nop = false :=
  ⟨by decide, rfl, by decide, rfl, rfl⟩

/-- RefusalsChangeNothing: each clause; index 3 and count 1 are the least refused. -/
theorem witness_RefusalsChangeNothing : unitOwnerActive (.ltUpd cfxZero) dmOn = true ∧
    unitOwnerActive (.ncoNext 2#32) syOn = true ∧ dmOn.dm.active = true ∧ syOn.gen.active = true ∧
    syHalted.gen.halted = true ∧ State.reset.dm.active = false ∧
    State.reset.gen.halted = false ∧ State.reset.gen.active = false ∧ 2 < (3#32 : Word).toNat ∧
    (1#32 : Word).toNat % 2 = 1 := by decide

/-- CfgErrCounts: from 0 and at the greatest count. -/
theorem witness_CfgErrCounts : Instr.dmCfgstream 0#32 ≠ .reset ∧
    exec (.dmCfgstream 0#32) .reset = .next (respond .range [] (countCfgErr .stream .zeroField .reset)) ∧
    exec (.dmCfgstream 0#32) { State.reset with cfgErr := 0xFFFFFFFF#32 } =
      .next (respond .range [] (countCfgErr .stream .zeroField { State.reset with cfgErr := 0xFFFFFFFF#32 })) :=
  ⟨by decide, rfl, rfl⟩

/-- FsmFollowsArcs: line 0 of program P3 (`test_dmFeed_line0` shows its event). -/
theorem witness_FsmFollowsArcs : Instr.dmFeed [re 0#32] ≠ .reset ∧
    exec (.dmFeed [re 0#32]) dmOn = .next (respond .ok [1#32] (dmBlock [re 0#32] dmOn).2) := ⟨by decide, rfl⟩

/-- BufferFrame. -/
theorem witness_BufferFrame : storesToBuffer (.syPop 2#32) = false ∧ storesToBuffer .nop = false ∧
    exec .nop syOn = .next (respond .ok [] syOn) ∧ ∀ n, Instr.nop ≠ .syPop n := ⟨rfl, rfl, rfl, fun _ h => by cases h⟩

/-- SnapshotReports: the greatest oscillator index, a full queue. -/
theorem witness_SnapshotReports : (2#32 : Word).toNat = (2 : Fin 3).val ∧
    (List.replicate 262144 (0#16 : Half)).length ≤ 262144 := ⟨by decide, by rw [List.length_replicate]⟩

/-- LevelReports: an average of 0 and one of 1.0, in order. -/
theorem witness_LevelReports : 0 ≤ State.reset.lt.sum.toInt ∧ State.reset.lt.sum.toInt ≤ 32 * FX_MAX ∧
    State.reset.lt.sum.toInt ≤ ({ State.reset with lt := { Lt.reset with sum := 2097152#64 } } : State).lt.sum.toInt ∧
    ({ State.reset with lt := { Lt.reset with sum := 2097152#64 } } : State).lt.sum.toInt ≤ 32 * FX_MAX ∧
    ({ State.reset with lt := { Lt.reset with sum := 2097152#64 } } : State).lt.sum.toInt / 32 = 65536 := by decide

/-- NcoSetfResult, NcoNextResult and NcoNoDrift: every oscillator of idle engines, and one of an idle engine beside a running
one. -/
theorem witness_Nco : (0#32 : Word).toNat = (0 : Fin 3).val ∧ (2#32 : Word).toNat = (2 : Fin 3).val ∧
    ownerActive 0 .reset = false ∧ ownerActive 2 .reset = false ∧ ownerActive 0 syOn = false ∧
    ownerActive 2 dmOn = false := by decide

/-- RcCfgResult: the smallest legal ratio, one below it, and a zero rate. -/
theorem witness_RcCfgResult : State.reset.dm.active = false ∧ 0 < (1#32 : Word).toNat ∧
    (256#32 : Word).toNat ≤ 256 * (1#32 : Word).toNat ∧ 256 * (1#32 : Word).toNat < (257#32 : Word).toNat ∧
    (0#32 : Word).toNat = 0 := by decide

/-- RcConvPositions: the smallest legal ratio and the greatest. -/
theorem witness_RcConvPositions : State.reset.dm.active = false ∧ 2 ^ 24 ≤ (0x01000000#64).toNat ∧
    (0x01000000#64).toNat ≤ (2 ^ 32 - 1) * 2 ^ 32 ∧ 2 ^ 24 ≤ (0xFFFFFFFF00000000#64).toNat ∧
    (0xFFFFFFFF00000000#64).toNat ≤ (2 ^ 32 - 1) * 2 ^ 32 := by decide

/-- RcConvInterpolates: from reset one output; at ratio 1/256, the least premise met exactly, 256 of them; and with a period
to skip none. -/
theorem witness_RcConvInterpolates : ∃ t u : State,
    (State.reset.dm.active = false ∧ State.reset.rc.ratio.toNat ≤ (2 ^ 32 - 1) * 2 ^ 32 ∧
      2 ^ 32 ≤ (State.reset.rc.skip.toNat * 2 ^ 32 + State.reset.rc.mu.toNat) + 256 * State.reset.rc.ratio.toNat) ∧
    (t.dm.active = false ∧ t.rc.ratio.toNat ≤ (2 ^ 32 - 1) * 2 ^ 32 ∧ t.rc.skip = 0#32 ∧
      2 ^ 32 = (t.rc.skip.toNat * 2 ^ 32 + t.rc.mu.toNat) + 256 * t.rc.ratio.toNat ∧
      ∀ j, j < 256 ↔ 0 + j * t.rc.ratio.toNat < 2 ^ 32) ∧
    u.dm.active = false ∧ u.rc.ratio.toNat = (2 ^ 32 - 1) * 2 ^ 32 ∧ u.rc.skip ≠ 0#32 ∧
      2 ^ 32 ≤ (u.rc.skip.toNat * 2 ^ 32 + u.rc.mu.toNat) + 256 * u.rc.ratio.toNat := by
  refine ⟨{ State.reset with rc := { Rc.reset with ratio := 0x1000000#64 } },
    { State.reset with rc := { Rc.reset with ratio := 0xFFFFFFFF00000000#64, skip := 1#32 } },
    by decide, ⟨rfl, by decide, rfl, by decide, fun j => ?_⟩, by decide⟩
  show j < 256 ↔ 0 + j * 16777216 < 2 ^ 32
  omega

/-- Three outputs of one sample, at 0, 2/5 and 4/5 of the way from the last sample 0 to 1.0 (R163, R164). -/
theorem test_rcConv_several : answer (encode (.rcConv [re 0x10000#32]))
    { State.reset with rc := { Rc.reset with ratio := 0x66666666#64 } } =
      [6#32 :: [0#32, 0#32, 0x6666#32, 0#32, 0xCCCC#32, 0#32]] := by decide +kernel

/-- RcDcExact: three equal samples, the history at the same value. -/
theorem witness_RcDcExact : State.reset.dm.active = false ∧ State.reset.rc.hist[0] = cfxZero ∧
    ∀ x ∈ [cfxZero, cfxZero, cfxZero], x = cfxZero := by decide

/-- StreamsSplit: an idle engine, and a running one with nothing pending; a running generator with the longest batch, split
after its first sample, and an odd second part; SfApplyCount. -/
theorem witness_StreamsSplit : State.reset.dm.active = false ∧ (dmOn.dm.active = true ∧ dmOn.dm.stopReq = false ∧
    dmOn.dm.pndF.any = false) ∧ (syOn.gen.halted = false ∧ syOn.gen.active = true ∧ syOn.gen.stopReq = false ∧
      syOn.gen.pndF = false) ∧
    ((2#32 : Word).toNat % 2 = 0 ∧ (65536#32 : Word).toNat = (2#32 : Word).toNat + (65534#32 : Word).toNat ∧
      (65536#32 : Word).toNat ≤ 65536 ∧ syOn.syq.length + (65536#32 : Word).toNat ≤ 262144) ∧
    (7#32 : Word).toNat = (4#32 : Word).toNat + (3#32 : Word).toNat := by decide

/-- The rotation of `sy_fm` with the reference values of cs at phases 0x7E5E8000 and 0x01A18000 (R143): the floor of R14 gives
two raw units below -ONE (log entry 23). -/
theorem test_fmBeyondOne : (cmul ⟨0xFFFF0034#32, 0xA3F#32⟩ ⟨0xFFCC#32, 0xA3F#32⟩).re.toInt = -65538 := by decide

/-- A batch of two samples is two batches of one: the same values in the queue, the same oscillators (R281). -/
theorem test_syGen_batch : (stepTo [0x64000001#32, 2#32] (stepTo [0x64000001#32, 2#32] syOn)).syq =
      (stepTo [0x64000001#32, 4#32] syOn).syq ∧
    (stepTo [0x64000001#32, 2#32] (stepTo [0x64000001#32, 2#32] syOn)).gen = (stepTo [0x64000001#32, 4#32] syOn).gen := by
  decide +kernel

/-- SfCfgResult: mode 1 with a passband as wide as the spectrum exactly; the first refused mode; rate 0. -/
theorem witness_SfCfgResult : State.reset.dm.active = false ∧ (1#32 : Word).toNat = 1 ∧ (1#32 : Word).toNat ≤ 2 ∧
    (1000000#32 : Word).toNat ≠ 0 ∧ (1000000#32 : Word).toNat ≤ 2 * (500000#32 : Word).toNat ∧
    2 < (3#32 : Word).toNat ∧ (0#32 : Word).toNat = 0 := by decide

/-- SfApplyIdentity: a block not filled and one filled exactly from reset, whose mask is all 0; a block and an all-ONE mask
that are constant; and the all-ONE mask with an empty block. -/
theorem witness_SfApplyIdentity :
    (State.reset.dm.active = false ∧ State.reset.sf.fill.val + (List.replicate 1023 cfxZero).length < 1024) ∧
    (∃ (s : State) (xs block : List Cfx) (mask : List Fx), s.dm.active = false ∧ s.sf.fill.val + xs.length = 1024 ∧
      mask.length = 2048 ∧ (∀ k, k < 2048 → mask[k]? = some (sparseGet 0#32 s.sf.mask k)) ∧ block.length = 2048 ∧
      (∀ k, k < 2048 → block[k]? = some (if k < 1024 + s.sf.fill.val then sparseGet cfxZero s.sf.inb k
        else xs.getD (k - (1024 + s.sf.fill.val)) cfxZero)) ∧ (∀ m ∈ mask, m = 0#32) ∧ ∀ z ∈ block, z = ⟨0#32, 0#32⟩) ∧
    (∃ s : State, s.dm.active = false ∧ s.sf.fill.val = 0 ∧
      (List.replicate 1024 cfxZero).length = 1024 ∧ ∀ k, k < 2048 → (sparseGet 0#32 s.sf.mask k).toInt = 65536) := by
  refine ⟨⟨rfl, by rw [List.length_replicate]; decide⟩, ⟨State.reset, List.replicate 1024 cfxZero, List.replicate 2048 cfxZero,
    List.replicate 2048 0#32, rfl, by rw [List.length_replicate]; rfl, List.length_replicate, fun k hk => ?_,
    List.length_replicate, fun k hk => ?_, fun m hm => (List.mem_replicate.1 hm).2, fun z hz => (List.mem_replicate.1 hz).2⟩,
    { State.reset with sf := { Sf.reset with mask := sparseOfList 0#32 0 (List.replicate 2048 0x10000#32) } },
    rfl, rfl, List.length_replicate, fun k hk => ?_⟩
  · rw [List.getElem?_replicate, if_pos hk]; rfl
  · rw [List.getElem?_replicate, if_pos hk]
    split
    · rfl
    · rw [List.getD_eq_getElem?_getD, List.getElem?_replicate]; split <;> rfl
  · rw [sparseGet_ofList, if_pos (Nat.zero_le k), List.getD_eq_getElem?_getD, List.getElem?_replicate, if_pos (by omega)]
    decide

/-- SfApplyIdentity, the constant block under an all-ONE mask: the overlap tail and the new samples at 1.0. -/
theorem witness_SfApplyConst : ∃ (s : State) (xs block : List Cfx) (mask : List Fx), s.dm.active = false ∧
    s.sf.fill.val + xs.length = 1024 ∧ mask.length = 2048 ∧
    (∀ k, k < 2048 → mask[k]? = some (sparseGet 0#32 s.sf.mask k)) ∧ block.length = 2048 ∧
    (∀ k, k < 2048 → block[k]? = some (if k < 1024 + s.sf.fill.val then sparseGet cfxZero s.sf.inb k
      else xs.getD (k - (1024 + s.sf.fill.val)) cfxZero)) ∧ (∀ m ∈ mask, m.toInt = 65536) ∧
    (sparseGet 0#32 s.sf.mask 0).toInt = 65536 ∧ ∀ z ∈ block, z = re 0x10000#32 := by
  refine ⟨{ State.reset with sf := { Sf.reset with
      mask := sparseOfList 0#32 0 (List.replicate 2048 0x10000#32)
      inb := sparseOfList cfxZero 0 (List.replicate 1024 (re 0x10000#32)) } },
    List.replicate 1024 (re 0x10000#32), List.replicate 2048 (re 0x10000#32), List.replicate 2048 0x10000#32,
    rfl, by rw [List.length_replicate]; rfl, List.length_replicate, fun k hk => ?_, List.length_replicate, fun k hk => ?_,
    fun m hm => by rw [(List.mem_replicate.1 hm).2]; decide, ?_, fun z hz => (List.mem_replicate.1 hz).2⟩
  · rw [List.getElem?_replicate, if_pos hk, sparseGet_ofList, if_pos (Nat.zero_le k), List.getD_eq_getElem?_getD,
      List.getElem?_replicate, if_pos (by omega)]
    rfl
  · rw [List.getElem?_replicate, if_pos hk]
    show _ = some (if k < 1024 + 0 then sparseGet cfxZero (sparseOfList cfxZero 0 (List.replicate 1024 (re 0x10000#32))) k
      else (List.replicate 1024 (re 0x10000#32)).getD (k - (1024 + 0)) cfxZero)
    split
    · rw [sparseGet_ofList, if_pos (Nat.zero_le k), List.getD_eq_getElem?_getD, List.getElem?_replicate, if_pos (by omega)]
      rfl
    · rw [List.getD_eq_getElem?_getD, List.getElem?_replicate, if_pos (show k - (1024 + 0) < 1024 by omega)]; rfl
  · rw [sparseGet_ofList, if_pos (Nat.zero_le 0), List.getD_eq_getElem?_getD, List.getElem?_replicate, if_pos (by omega)]
    decide

/-- LtUpdResult: the least and the greatest sum. -/
theorem witness_LtUpdResult : State.reset.dm.active = false ∧ 0 ≤ (0#64).toInt ∧ (0#64).toInt ≤ 32 * FX_MAX ∧
    (BitVec.ofInt 64 (32 * FX_MAX)).toInt ≤ 32 * FX_MAX ∧ 0 ≤ (BitVec.ofInt 64 (32 * FX_MAX)).toInt := by decide

/-- LtSteadyState: 32 samples of magnitude 1.0. -/
theorem witness_LtSteadyState : State.reset.dm.active = false ∧ DmInv .reset ∧
    (List.replicate 32 (re 0x10000#32)).length = 32 ∧
    ∀ z ∈ List.replicate 32 (re 0x10000#32), (0x10000#32 : Fx).toInt =
      min FX_MAX ((z.re.toInt * z.re.toInt + z.im.toInt * z.im.toInt) / 65536) := by
  refine ⟨rfl, ⟨by decide, by decide, ltOk_reset.1, ltOk_reset.2, fun h => absurd h (by decide), fun h => absurd h (by decide),
    fun h => absurd h (by decide), fun h => absurd h (by decide), fun h => absurd h (by decide), by decide⟩,
    List.length_replicate, fun z hz => ?_⟩
  rw [(List.mem_replicate.1 hz).2]
  decide

/-- MessagesStaged: the least legal fields, the last code of each enumeration. -/
theorem witness_MessagesStaged : 0 < (1#32 : Word).toNat ∧ (1#32 : Word).toNat < (2#32 : Word).toNat ∧
    ((4#32 : Word).toNat, DemodKind.vsbL) ∈ [(0, DemodKind.fm1), (1, .fm2), (2, .am), (3, .vsbU), (4, .vsbL)] ∧
    ((2#32 : Word).toNat, Depth.bits16) ∈ [(0, Depth.bits8), (1, .bits12), (2, .bits16)] ∧
    ((2#32 : Word).toNat, SynthKind.fm) ∈ [(0, SynthKind.none), (1, .am), (2, .fm)] := by decide

/-- MessagesRejected: a witness of each of the six alternatives, at the first illegal value. -/
theorem witness_MessagesRejected :
    (Instr.dmCfgatv 0#32 1#32 1#32 0#32 0#32 0#32 false false = .dmCfgatv 0#32 1#32 1#32 0#32 0#32 0#32 false false ∧
      (0#32 : Word).toNat = 0) ∧
    (0 < (1#32 : Word).toNat ∧ (1#32 : Word).toNat ≤ (1#32 : Word).toNat) ∧ 4 < (5#32 : Word).toNat ∧
    2 < (3#32 : Word).toNat := by decide

/-- DmDeriveGeometry: the five branches, with the geometry of R219 (c) in the last. -/
theorem witness_DmDeriveGeometry : (0 : Nat) = 0 ∧ 10 ^ 9 < 10 ^ 9 + 1 ∧ 4096 < 10 ^ 9 / (244140 : Nat) + 1 ∧
    ¬ (10 ^ 8 = 0 ∨ 10 ^ 9 < 10 ^ 8 ∨ 4096 < 10 ^ 9 / 10 ^ 8) ∧ ¬ 160000 < 10 ^ 9 / 10 ^ 8 * 1000 ∧
    ¬ (160000 / 10000 < 8 ∨ 4096 < 160000 / 10000) ∧ ¬ 160000 / 10000 ≤ max 2 (31250 * 160000 / 10 ^ 9) + 3 := by decide

/-- DmStartRunning: the engine of P3, stopped. -/
theorem witness_DmStartRunning : (∃ s : State, s.dm.active = false ∧ s.dm.pndF.any = false ∧ s.dm.val.all = true) ∧
    ∃ (s : State) (cand : DmBanks), s.dm.active = false ∧ s.dm.pndF.any = true ∧ s.dm.val.all = true ∧
      cand = { atv := if s.dm.pndF.atv then s.dm.pnd.atv else s.dm.cur.atv
               rf := if s.dm.pndF.rf then s.dm.pnd.rf else s.dm.cur.rf
               stream := if s.dm.pndF.stream then s.dm.pnd.stream else s.dm.cur.stream } ∧
      dmDerive cand = .error .badLps :=
  ⟨⟨{ dmOn with dm := { dmOn.dm with active := false } }, rfl, rfl, rfl⟩,
    { dmOn with dm := { dmOn.dm with active := false, pnd := { DmBanks.reset with stream := ⟨1#32⟩ },
                                     pndF := ⟨false, false, true⟩ } },
    { p3Banks with stream := ⟨1#32⟩ }, rfl, rfl, rfl, rfl, rfl⟩

/-- DmStartApplies: all three messages pending. -/
theorem witness_DmStartApplies : ∃ s : State, s.dm.active = false ∧ s.dm.pndF.any = true ∧
    (s.dm.val.atv || s.dm.pndF.atv) = true ∧ (s.dm.val.rf || s.dm.pndF.rf) = true ∧
    (s.dm.val.stream || s.dm.pndF.stream) = true ∧
    p3Banks = { atv := if s.dm.pndF.atv then s.dm.pnd.atv else s.dm.cur.atv
                rf := if s.dm.pndF.rf then s.dm.pnd.rf else s.dm.cur.rf
                stream := if s.dm.pndF.stream then s.dm.pnd.stream else s.dm.cur.stream } ∧
    dmDerive p3Banks = .ok p3Geometry :=
  ⟨{ State.reset with dm := { Dm.reset with pnd := p3Banks, pndF := .full } }, rfl, rfl, rfl, rfl, rfl, rfl, rfl⟩

/-- StartRefused: each clause. -/
theorem witness_StartRefused : dmOn.dm.active = true ∧ State.reset.dm.active = false ∧ State.reset.dm.pndF.any = false ∧
    State.reset.dm.val.all = false ∧ syOn.gen.halted = false ∧ syOn.gen.active = true ∧ State.reset.gen.pndF = false ∧
    State.reset.gen.val = false ∧
    dmDerive { p3Banks with stream := ⟨1#32⟩ } = .error .badLps ∧
    ({ State.reset with dm := { Dm.reset with pnd := { p3Banks with stream := ⟨1#32⟩ }, pndF := .full } } :
      State).dm.pndF.any = true ∧
    ({ atv := false || true, rf := false || true, stream := false || true } : DmFlags).all = true ∧
    ({ atv := false || true, rf := false || false, stream := false || false } : DmFlags).all = false :=
  ⟨rfl, rfl, rfl, rfl, rfl, rfl, rfl, rfl, rfl, rfl, rfl, rfl⟩

/-- StopTakesEffect: each clause. -/
theorem witness_StopTakesEffect : State.reset.dm.active = false ∧ dmOn.dm.active = true ∧
    ({ dmOn with dm := { dmOn.dm with stopReq := true } } : State).dm.stopReq = true ∧ State.reset.gen.active = false ∧
    syOn.gen.active = true ∧ syOn.gen.halted = false ∧
    ({ syOn with gen := { syOn.gen with stopReq := true } } : State).gen.stopReq = true := ⟨rfl, rfl, rfl, rfl, rfl, rfl, rfl⟩

/-- FeedAppliesPending: a legal rate pending and an illegal one. -/
theorem witness_FeedAppliesPending : ∃ s : State, s.dm.active = true ∧ s.dm.stopReq = false ∧ s.dm.pndF.any = true ∧
    s.dm.val.all = true ∧ dmDerive { p3Banks with stream := ⟨1#32⟩ } = .error .badLps ∧
    { p3Banks with stream := ⟨1#32⟩ } =
      { atv := if s.dm.pndF.atv then s.dm.pnd.atv else s.dm.cur.atv
        rf := if s.dm.pndF.rf then s.dm.pnd.rf else s.dm.cur.rf
        stream := if s.dm.pndF.stream then s.dm.pnd.stream else s.dm.cur.stream } ∧
    dmDerive p3Banks = .ok p3Geometry :=
  ⟨{ dmOn with dm := { dmOn.dm with pnd := { p3Banks with stream := ⟨1#32⟩ }, pndF := ⟨false, false, true⟩ } },
    rfl, rfl, rfl, rfl, rfl, rfl, rfl⟩

/-- P3 with converter and filter in the path or not, a ratio of one and a half. -/
def dmUnits (decim filt : Bool) : State :=
  { dmOn with rc := { Rc.reset with ratio := 0x180000000#64 }
              dm := { dmOn.dm with d := { p3Geometry with decimOn := decim, filtOn := filt } } }

/-- DmFeedCompletes: each path through the units; a block of three, which the oscillator at rest leaves as it is. -/
theorem witness_DmFeedCompletes : (∀ decim ∈ [true, false], ∀ filt ∈ [true, false],
      (dmUnits decim filt).dm.active = true ∧ (dmUnits decim filt).dm.stopReq = false ∧
      (dmUnits decim filt).dm.pndF.any = false ∧ (dmUnits decim filt).dm.d.decimOn = decim ∧
      (dmUnits decim filt).dm.d.filtOn = filt ∧ 2 ^ 24 ≤ (dmUnits decim filt).rc.ratio.toNat ∧
      (dmUnits decim filt).rc.ratio.toNat ≤ (2 ^ 32 - 1) * 2 ^ 32 ∧ (dmUnits decim filt).dm.cur.rf.modKind ≠ .fm1 ∧
      (dmUnits decim filt).dm.cur.rf.modKind ≠ .fm2) ∧
    ∀ i < 3, ∀ x ∈ [re 0x10000#32, ⟨0xFFFFFFFF#32, 0x7FFFFFFF#32⟩, cfxZero],
      ∀ m ∈ [cs ((dmUnits true true).nco[(0 : Fin 3)].phase +
        BitVec.ofNat 32 (i + 1) * (dmUnits true true).nco[(0 : Fin 3)].inc)],
      x.re.toInt = max FX_MIN (min FX_MAX ((x.re.toInt * m.re.toInt - x.im.toInt * m.im.toInt) / 65536)) ∧
      x.im.toInt = max FX_MIN (min FX_MAX ((x.re.toInt * m.im.toInt + x.im.toInt * m.re.toInt) / 65536)) := by
  refine ⟨by decide, ?_⟩
  decide +kernel

/-- RasterFreeRuns: line sync off, at the last sample of the last row. -/
theorem witness_RasterFreeRuns : ∃ s : State, s.dm.active = true ∧ s.dm.stopReq = false ∧ s.dm.pndF.any = false ∧
    s.dm.d.decimOn = false ∧ s.dm.d.filtOn = false ∧ s.dm.cur.atv.hsyncEn = false ∧ s.sync.fsm = .unsynchronized ∧
    s.sync.col.toNat < s.dm.d.spl.toNat ∧ s.sync.row.toNat < s.dm.d.lpf.toNat ∧
    s.sync.col.toNat + 1 = s.dm.d.spl.toNat ∧ s.sync.row.toNat + 1 = s.dm.d.lpf.toNat :=
  ⟨{ dmAt .unsynchronized 15#32 9#32 with
      dm := { dmOn.dm with cur := { p3Banks with atv := { p3Banks.atv with hsyncEn := false } } } },
    rfl, rfl, rfl, rfl, rfl, rfl, rfl, by decide, by decide, by decide, by decide⟩

/-- LossOfSignal: frame locked with one entry left in the tracker's window, the next to be replaced. -/
theorem witness_LossOfSignal : ∃ s : State, s.dm.active = true ∧ s.dm.stopReq = false ∧ s.dm.pndF.any = false ∧
    s.dm.d.decimOn = false ∧ s.dm.d.filtOn = false ∧ s.sync.fsm ≠ .unsynchronized ∧ s.sync.fsm ≠ .lineSyncSearching ∧
    s.dm.cur.atv.thrSyncTop.toInt ≤ 65536 ∧ s.lt.sum.toInt = s.lt.win[s.lt.idx].toInt ∧ 0 < s.lt.sum.toInt ∧
    2 ≤ s.dm.d.spl.toNat :=
  ⟨{ dmAt .frameLocked 3#32 2#32 with lt := { Lt.reset with win := Lt.reset.win.set 0 5#32, sum := 5#64 } },
    rfl, rfl, rfl, rfl, rfl, by decide, by decide, by decide, by decide, by decide, by decide⟩

/-- P3 with line sync off, of another Modulation Kind, on another raster position. -/
def feedOn (kind : DemodKind) (col row : Word) : State :=
  { dmAt .unsynchronized col row with
    dm := { dmOn.dm with cur := { p3Banks with atv := { p3Banks.atv with hsyncEn := false }
                                               rf := { p3Banks.rf with modKind := kind } } } }

/-- FeedOneSample: mid line, at the end of a line and at the end of a frame, in AM, FM and VSB kinds. -/
theorem witness_FeedOneSample :
    (∀ s ∈ [feedOn .am 3#32 2#32, feedOn .fm1 15#32 2#32, feedOn .fm2 15#32 9#32, feedOn .vsbU 15#32 9#32],
      s.dm.active = true ∧ s.dm.stopReq = false ∧ s.dm.pndF.any = false ∧ s.dm.d.decimOn = false ∧
      s.dm.d.filtOn = false ∧ s.dm.cur.atv.hsyncEn = false ∧ s.sync.fsm = .unsynchronized ∧ s.sync.effMin = 0#32 ∧
      s.sync.effDelta.toInt = 65536 ∧ s.nco[(0 : Fin 3)].phase = 0#32 ∧ s.nco[(0 : Fin 3)].inc = 0#32 ∧
      s.sync.col.toNat < s.dm.d.spl.toNat ∧ s.sync.col.toNat < 4096 ∧ s.sync.row.toNat < s.dm.d.lpf.toNat ∧
      -2 ^ 62 ≤ s.sync.lineSum.toInt ∧ s.sync.lineSum.toInt ≤ 2 ^ 62) ∧
    (3#32 : Word).toNat + 1 < (feedOn .am 3#32 2#32).dm.d.spl.toNat ∧
    (15#32 : Word).toNat + 1 = (feedOn .am 15#32 2#32).dm.d.spl.toNat ∧
    (2#32 : Word).toNat + 1 < (feedOn .am 15#32 2#32).dm.d.lpf.toNat ∧
    (9#32 : Word).toNat + 1 = (feedOn .am 15#32 9#32).dm.d.lpf.toNat := by decide

/-- FeedOneSample with line sync on: a locked engine that the sample takes below the floor and one that it does not, the
oscillator at a quarter turn with a quarter turn an increment, so that the product is the negated sample. -/
theorem witness_FeedOneSample_locked : ∃ s : State, s.dm.active = true ∧ s.dm.stopReq = false ∧ s.dm.pndF.any = false ∧
    s.dm.d.decimOn = false ∧ s.dm.d.filtOn = false ∧ s.dm.cur.atv.hsyncEn = true ∧ s.sync.fsm = .lineLocked ∧
    s.nco[(0 : Fin 3)].phase = 0x40000000#32 ∧ s.nco[(0 : Fin 3)].inc = 0x40000000#32 ∧
    -2 ^ 62 ≤ s.lt.sum.toInt ∧ s.lt.sum.toInt ≤ 2 ^ 62 ∧
    (ltUpdate cfxZero s.lt).sum.toInt < 32 ∧ ¬ (ltUpdate (re 0xFFFF0000#32) s.lt).sum.toInt < 32 ∧
    (re 0xFFFF0000#32).re.toInt =
      max FX_MIN (min FX_MAX (((re 0x10000#32).re.toInt * (cs (0x40000000#32 + 0x40000000#32)).re.toInt -
        (re 0x10000#32).im.toInt * (cs (0x40000000#32 + 0x40000000#32)).im.toInt) / 65536)) ∧
    (re 0xFFFF0000#32).im.toInt =
      max FX_MIN (min FX_MAX (((re 0x10000#32).re.toInt * (cs (0x40000000#32 + 0x40000000#32)).im.toInt +
        (re 0x10000#32).im.toInt * (cs (0x40000000#32 + 0x40000000#32)).re.toInt) / 65536)) := by
  refine ⟨{ dmAt .lineLocked 0#32 0#32 with
    nco := State.reset.nco.set (0 : Fin 3) ⟨0x40000000#32, 0x40000000#32⟩ }, ?_⟩
  decide +kernel

/-- DemodRanges: a zero and a non-zero sample, each kind, a settled history, a positive span. -/
theorem witness_DemodRanges : (∀ kind ∈ [DemodKind.fm1, .fm2, .am, .vsbU, .vsbL],
      (feedOn kind 0#32 0#32).dm.cur.rf.modKind = kind ∧ (feedOn kind 0#32 0#32).dm.uh1 = unit cfxZero ∧
      (feedOn kind 0#32 0#32).dm.uh2 = unit cfxZero ∧ 0 < (feedOn kind 0#32 0#32).sync.effDelta.toInt) ∧
    (cmag cfxZero).toInt = 0 ∧ (cmag (re 0x10000#32)).toInt ≠ 0 := by decide +kernel

/-- A window of six samples above sync level, then low, low, high, low, low with top_n = 2: R230's majority gives the pulse on
the last sample, and none before it (log entry 22: R426 would give none). -/
theorem test_hsBroken : (let d : DmDerived := { p3Geometry with topN := 2#32 }
    let run (ns : List Fx) : Sync := ns.foldl (fun y n => hsMajority 0x199A#32 (hsWindow n y))
      { Sync.reset with win := Vector.replicate 6 0x10000#32 }
    hsDetect d (run [0#32, 0#32, 0x10000#32, 0#32]) = false ∧
      hsDetect d (run [0#32, 0#32, 0x10000#32, 0#32, 0#32]) = true) := by decide +kernel

/-- SyncWindow: line sync on and off, a count just at the majority and one below. -/
theorem witness_SyncWindow : dmOn.dm.cur.atv.hsyncEn = true ∧ State.reset.dm.cur.atv.hsyncEn = false ∧
    4 ≤ (Finset.univ.filter fun j : Fin 6 =>
      (#v[0#32, 0#32, 0#32, 0#32, 0x8000#32, 0x8000#32] : Vector Fx 6)[j].toInt ≤ 6554).card ∧
    ¬ 4 ≤ (Finset.univ.filter fun j : Fin 6 =>
      (#v[0#32, 0#32, 0#32, 0x8000#32, 0x8000#32, 0x8000#32] : Vector Fx 6)[j].toInt ≤ 6554).card := by decide +kernel

/-- LineMachine: every state, a spacing on the edge of the cadence, the first spacing that is a miss, the count before lock and
before loss. -/
theorem witness_LineMachine : (dmAt .lineLocked 0#32 0#32).sync.fsm = .lineLocked ∧
    (dmAt .lineSyncSearching 0#32 0#32).sync.fsm = .lineSyncSearching ∧ dmOn.sync.fsm = .unsynchronized ∧
    (18 ≤ dmOn.dm.d.spl.toNat + 2 ∧ dmOn.dm.d.spl.toNat ≤ 18 + 2) ∧ 19 = dmOn.dm.d.spl.toNat + 3 ∧
    ¬ (19 ≤ dmOn.dm.d.spl.toNat + 2 ∧ dmOn.dm.d.spl.toNat ≤ 19 + 2) ∧
    (3#32 : Word).toNat = min ((2#32 : Word).toNat + 1) (2 ^ 32 - 1) ∧ (3#32 : Word).toNat < 4 ∧
    (4#32 : Word).toNat = min ((3#32 : Word).toNat + 1) (2 ^ 32 - 1) ∧ 4 ≤ (4#32 : Word).toNat := by decide

/-- FrameMachine: every locked state, an average at the threshold, a spacing on the edge of the cadence and the first that is a
miss; frame sync on and off in a locked state, each answer of `vs_step`, rows on both sides of the last displayed one, a line
just complete and one short of it. -/
theorem witness_FrameMachine : (dmAt .frameSyncSearching 0#32 0#32).sync.fsm = .frameSyncSearching ∧
    (dmAt .frameLocked 0#32 0#32).sync.fsm = .frameLocked ∧
    (9830 : Int) ≤ dmOn.dm.cur.atv.thrBlack.toInt / 2 ∧ ¬ (9831 : Int) ≤ dmOn.dm.cur.atv.thrBlack.toInt / 2 ∧
    dmOn.sync.vsPrev = false ∧ (11 ≤ dmOn.dm.d.lpf.toNat + 1 ∧ dmOn.dm.d.lpf.toNat ≤ 11 + 1) ∧
    12 = dmOn.dm.d.lpf.toNat + 2 ∧ ¬ (12 ≤ dmOn.dm.d.lpf.toNat + 1) ∧
    (12#32 : Word).toNat = min ((11#32 : Word).toNat + 1) (2 ^ 32 - 1) ∧
    (2#32 : Word).toNat = min ((1#32 : Word).toNat + 1) (2 ^ 32 - 1) ∧ 2 ≤ (2#32 : Word).toNat ∧
    (1#32 : Word).toNat < 2 ∧
    dmOn.dm.cur.atv.vsyncEn = true ∧ State.reset.dm.cur.atv.vsyncEn = false ∧
    (vsStep 0 (dmAt .lineLocked 0#32 1#32)).1 = .acc ∧ (vsStep 65536 (dmAt .lineLocked 0#32 1#32)).1 = .none ∧
    (vsStep 65536 { dmAt .frameLocked 0#32 1#32 with
      sync := { Sync.reset with fsm := .frameLocked, linesSinceVs := 11#32, vsMiss := 1#32 } }).1 = .lost ∧
    (9#32 : Word).toNat < dmOn.dm.d.rowsDisp.toNat ∧ ¬ (10#32 : Word).toNat < dmOn.dm.d.rowsDisp.toNat ∧
    dmOn.dm.d.spl.toNat ≤ (15#32 : Word).toNat + 1 ∧ ¬ dmOn.dm.d.spl.toNat ≤ (14#32 : Word).toNat + 1 := by decide +kernel

/-- SyStartCompletes: from a pending message, and again with the running one; a fixed TIMER reading. -/
theorem witness_SyStartCompletes : ∃ s : State, s.gen.halted = false ∧ s.gen.active = false ∧
    (s.gen.pndF || s.gen.val) = true ∧ p2Bank = (if s.gen.pndF then s.gen.pnd else s.gen.cur) ∧
    s.io.timerIn = [0x1000#32] :=
  ⟨{ State.reset with gen := { Gen.reset with pnd := p2Bank, pndF := true }, io := { Io.reset with timerIn := [0x1000#32] } },
    rfl, rfl, rfl, rfl, rfl⟩

/-- SyAppliesPending. -/
theorem witness_SyAppliesPending : ∃ s : State, s.gen.halted = false ∧ s.gen.active = true ∧ s.gen.stopReq = false ∧
    s.gen.pndF = true ∧ p2Bank = s.gen.pnd :=
  ⟨{ syOn with gen := { syOn.gen with pnd := p2Bank, pndF := true } }, rfl, rfl, rfl, rfl, rfl⟩

/-- SyGenCompletes: the greatest count, with room for it. -/
theorem witness_SyGenCompletes : syOn.gen.halted = false ∧ syOn.gen.active = true ∧ syOn.gen.stopReq = false ∧
    syOn.gen.pndF = false ∧ (65536#32 : Word).toNat ≤ 65536 ∧ 32768 = (65536#32 : Word).toNat / 2 ∧
    syOn.syq.length + 2 * 32768 ≤ 262144 ∧ syOn.gen.d.ampFs ≤ 32767 := by decide

/-- SyGenOneSample: the running engine. -/
theorem witness_SyGenOneSample : SyInv syOn ∧ syOn.gen.cur.Ok ∧ syOn.gen.active = true ∧ syOn.gen.stopReq = false ∧
    syOn.gen.pndF = false ∧ syOn.syq.length + 2 ≤ 262144 := ⟨syOn_inv, p2Bank_ok, rfl, rfl, rfl, by decide⟩

/-- SyFaults: the first count over the buffer's size; the greatest batch on a queue with one half too few free; a tick of each. -/
theorem witness_SyFaults : syOn.gen.halted = false ∧ syOn.gen.active = true ∧ syOn.gen.stopReq = false ∧
    syOn.gen.pndF = false ∧ 65536 < (65537#32 : Word).toNat ∧ (2#32 : Word).toNat ≤ 65536 ∧
    262144 < 262143 + 2 * ((2#32 : Word).toNat / 2) ∧ (List.replicate 262143 (0#16 : Half)).length ≤ 262144 ∧
    (8000 * ((4096001000 + 2 ^ 32 - 0) % 2 ^ 32) / 1000000 = 32768008 ∧ 65536 < 2 * 32768008) ∧
    (8000 * ((125 + 2 ^ 32 - 0) % 2 ^ 32) / 1000000 = 1 ∧ 262144 < 262143 + 2 * 1) :=
  ⟨rfl, rfl, rfl, rfl, by decide, by decide, by decide, by rw [List.length_replicate]; omega, by decide, by decide⟩

/-- SyTickCompletes: a fixed reading 125 ticks after the last, one sample due. -/
theorem witness_SyTickCompletes : ∃ (s : State) (due n : Nat), s.gen.halted = false ∧ s.gen.active = true ∧
    s.gen.stopReq = false ∧ s.gen.pndF = false ∧
    due = s.gen.cur.sampleRateHz.toNat * (((timerNow s).toNat + 2 ^ 32 - s.gen.lastTime.toNat) % 2 ^ 32) ∧
    n = (if s.gen.toggle then (due + 999999) / 1000000 else due / 1000000) ∧ n = 1 ∧ 2 * n ≤ 65536 ∧
    s.syq.length + 2 * n ≤ 262144 :=
  ⟨{ syOn with io := { Io.reset with timerIn := [125#32] } }, 1000000, 1, rfl, rfl, rfl, rfl, by decide, by decide, rfl,
    by decide, by decide⟩

/-- ThrottleTotals: two ticks of 1300 at 8000 Hz, not a whole number of sample periods. -/
theorem witness_ThrottleTotals : ∃ s : State, s.gen.halted = false ∧ s.gen.active = true ∧ s.gen.stopReq = false ∧
    s.gen.pndF = false ∧ s.gen.toggle = false ∧
    s.io.timerIn = (List.range 2).map (fun k => s.gen.lastTime + BitVec.ofNat 32 (k + 1) * 1300#32) ∧
    10 = s.gen.cur.sampleRateHz.toNat * (1300#32 : Word).toNat / 1000000 ∧
    s.gen.cur.sampleRateHz.toNat * (1300#32 : Word).toNat % 1000000 ≠ 0 ∧
    2 * (10 + 1) ≤ 65536 ∧ s.syq.length + 2 * (2 * (10 + 1)) ≤ 262144 :=
  ⟨{ syOn with io := { Io.reset with timerIn := [1300#32, 2600#32] } }, rfl, rfl, rfl, rfl, rfl, by decide, by decide,
    by decide, by decide, by decide⟩

/-- SyPopResult: more asked for than held, then the rest; the greatest even pair of counts. -/
theorem witness_SyPopResult : ∃ s : State, (6#32 : Word).toNat % 2 = 0 ∧ s.syq.length % 2 = 0 ∧
    4 = min (6#32 : Word).toNat s.syq.length ∧ (2#32 : Word).toNat % 2 = 0 ∧
    (6#32 : Word).toNat + (0xFFFFFFF8#32 : Word).toNat < 2 ^ 32 :=
  ⟨{ State.reset with syq := [1#16, 2#16, 3#16, 4#16] }, rfl, rfl, rfl, rfl, by decide⟩

end Sys2Proof.Tests
end

/-! # What every command does to the ports (spec/00_scope.md R17; spec/10_state.md R40; spec/20_memory.md R82, R85)

A state update that keeps to its port discipline is `PortSafe`, a command's meaning that does is `Answers`. Both are closed under
the ways the meanings are built (sequence, test, response), so that each command needs one short lemma. -/

namespace Sys2Proof.Machine
open Config

/-! ## Updates -/

/-- An update that only appends to the event and the pixel history, does not depend on CMD or a history, and leaves the reset
input. -/
structure PortSafe (f : State → State) : Prop where
  appends : Appends f
  resetIn : ∀ s, (f s).io.resetIn = s.io.resetIn

/-- An update that emits nothing and commutes with replacing CMD and the histories. -/
theorem PortSafe.of_commutes {f : State → State}
    (h : ∀ c r e p s, f (ports c r e p s) = ports c r e p (f s) := by exact fun _ _ _ _ _ => rfl)
    (hr : ∀ s, (f s).io.resetIn = s.io.resetIn := by exact fun _ => rfl) : PortSafe f := ⟨.of_none h, hr⟩

theorem PortSafe.id : PortSafe fun s => s := .of_commutes

theorem PortSafe.comp {f g : State → State} (hf : PortSafe f) (hg : PortSafe g) : PortSafe fun s => g (f s) :=
  ⟨hf.appends.comp hg.appends, fun s => (hg.resetIn (f s)).trans (hf.resetIn s)⟩

theorem PortSafe.ite {f g : State → State} {b : State → Prop} [DecidablePred b] (hf : PortSafe f) (hg : PortSafe g)
    (hb : ∀ c r e p s, b (ports c r e p s) ↔ b s := by exact fun _ _ _ _ _ => Iff.rfl) :
    PortSafe fun s => if b s then f s else g s where
  appends := hf.appends.ite hg.appends b hb
  resetIn s := by
    split
    · exact hf.resetIn s
    · exact hg.resetIn s

theorem portSafe_countCfgErr (b : BankId) (q : Reason) : PortSafe (countCfgErr b q) :=
  ⟨appends_countCfgErr b q, countCfgErr_io_resetIn b q⟩

theorem portSafe_raiseFault (b : FaultBit) : PortSafe (raiseFault b) := ⟨appends_raiseFault b, raiseFault_io_resetIn b⟩

theorem dmApply_resetIn (s : State) : (dmApply s).io.resetIn = s.io.resetIn := by
  rcases dmApply_cases s with ⟨-, h⟩ | ⟨-, q, -, h⟩ | ⟨-, d, -, h⟩
  · rw [h]
  · rw [h, countCfgErr_io_resetIn]
  · rw [h, dmCommit_eq]

theorem portSafe_dmApply : PortSafe dmApply := ⟨appends_dmApply, dmApply_resetIn⟩

theorem portSafe_dmSafePoint : PortSafe dmSafePoint where
  appends := appends_dmSafePoint
  resetIn s := by
    rcases dmSafePoint_cases s with ⟨-, h⟩ | ⟨-, -, h⟩ | ⟨-, -, h⟩
    · rw [h, emitEvt_io_resetIn]
    · rw [h, dmApply_resetIn]
    · rw [h]

theorem portSafe_dmCreate : PortSafe dmCreate := ⟨appends_dmCreate, fun s => by rw [dmCreate_eq]⟩

theorem portSafe_dmBlock (xs : List Cfx) : PortSafe fun s => (dmBlock xs s).2 where
  appends s := by
    obtain ⟨evs, pxs, h⟩ := appends_dmBlock xs s
    exact ⟨evs, pxs, fun c r e p => congrArg Prod.snd (h c r e p)⟩
  resetIn s := (dmBlock_frame xs s).resetIn

/-- How many samples a block demodulates does not depend on the ports. -/
theorem dmBlock_count_ports (xs : List Cfx) (c : List Word) (r : List Response) (e : List Event) (p : List Pixel)
    (s : State) : (dmBlock xs (ports c r e p s)).1 = (dmBlock xs s).1 := by
  obtain ⟨_, _, h⟩ := appends_dmBlock xs s
  rw [h]

theorem portSafe_sySafePoint : PortSafe sySafePoint where
  appends := appends_sySafePoint
  resetIn s := by
    rcases sySafePoint_cases s with ⟨-, h⟩ | ⟨-, -, h⟩ | ⟨-, -, h⟩
    · rw [h, emitEvt_io_resetIn]
    · rw [h, syApply_io]
    · rw [h]

theorem portSafe_syCreate : PortSafe syCreate := .of_commutes syCreate_ports syCreate_io_resetIn

theorem portSafe_syTickAdvance : PortSafe syTickAdvance := .of_commutes syTickAdvance_ports syTickAdvance_io_resetIn

theorem portSafe_syBatch (n : Nat) : PortSafe (syBatch n) := by
  refine .of_commutes (syBatch_ports n) fun s => ?_
  obtain ⟨nco, dev, buf, h⟩ := (syFill_spec (n / 2) 0 s).kept
  show (syFill (n / 2) 0 s).io.resetIn = _
  rw [h]

/-! ## Commands -/

/-- A command's meaning that completes in every state with one response, appends to the histories, leaves CMD and the reset
input, and does not depend on CMD or a history. -/
def Answers (f : State → Result State) : Prop :=
  ∀ s, ∃ (t : State) (a : Response) (evs : List Event) (pxs : List Pixel), f s = .next t ∧
    t.io.resetIn = s.io.resetIn ∧
    ∀ c r e p, f (ports c r e p s) = .next (ports c (r ++ [a]) (e ++ evs) (p ++ pxs) t)

/-- An update followed by its response. -/
theorem Answers.finishes {f : State → State} {ws : State → List Word} (st : Status) (hf : PortSafe f)
    (hw : ∀ c r e p s, ws (ports c r e p s) = ws s := by exact fun _ _ _ _ _ => rfl) :
    Answers fun s => finish st (ws s) (f s) := by
  intro s
  obtain ⟨evs, pxs, h⟩ := hf.appends s
  refine ⟨respond st (ws s) (f s), ⟨st, ws s⟩, evs, pxs, rfl, hf.resetIn s, fun c r e p => ?_⟩
  show (.next (respond st (ws (ports c r e p s)) (f (ports c r e p s))) : Result State) = _
  rw [hw, h]
  rfl

/-- An update followed by a response without result words. -/
theorem Answers.completes {f : State → State} (st : Status) (hf : PortSafe f) : Answers fun s => finish st [] (f s) :=
  .finishes (ws := fun _ => []) st hf

theorem Answers.rejects (st : Status) : Answers (reject st) := .completes st .id

theorem Answers.cfgRejects (b : BankId) (q : Reason) : Answers (cfgReject b q) :=
  .completes .range (portSafe_countCfgErr b q)

/-- A command that first updates the state, by its safe point for example. -/
theorem Answers.after {f : State → State} {g : State → Result State} (hf : PortSafe f) (hg : Answers g) :
    Answers fun s => g (f s) := by
  intro s
  obtain ⟨e1, p1, h1⟩ := hf.appends s
  obtain ⟨t, a, e2, p2, ht, hr, h2⟩ := hg (f s)
  refine ⟨t, a, e1 ++ e2, p1 ++ p2, ht, hr.trans (hf.resetIn s), fun c r e p => ?_⟩
  dsimp only
  rw [h1, h2, List.append_assoc, List.append_assoc]

/-- A command that acts on a value it reads from the state outside the ports. -/
theorem Answers.reads {α : Type} {v : State → α} {g : α → State → Result State} (hg : ∀ a, Answers (g a))
    (hv : ∀ c r e p s, v (ports c r e p s) = v s := by exact fun _ _ _ _ _ => rfl) :
    Answers fun s => g (v s) s := by
  intro s
  obtain ⟨t, a, evs, pxs, ht, hr, h⟩ := hg (v s) s
  refine ⟨t, a, evs, pxs, ht, hr, fun c r e p => ?_⟩
  dsimp only
  rw [hv, h]

/-- A command that tests the state outside the ports. -/
theorem Answers.ite {f g : State → Result State} {b : State → Prop} [DecidablePred b] (hf : Answers f) (hg : Answers g)
    (hb : ∀ c r e p s, b (ports c r e p s) ↔ b s := by exact fun _ _ _ _ _ => Iff.rfl) :
    Answers fun s => if b s then f s else g s := by
  intro s
  by_cases hs : b s
  · obtain ⟨t, a, evs, pxs, ht, hr, h⟩ := hf s
    exact ⟨t, a, evs, pxs, (if_pos hs).trans ht, hr, fun c r e p => (if_pos ((hb c r e p s).2 hs)).trans (h c r e p)⟩
  · obtain ⟨t, a, evs, pxs, ht, hr, h⟩ := hg s
    exact ⟨t, a, evs, pxs, (if_neg hs).trans ht, hr,
      fun c r e p => (if_neg fun h' => hs ((hb c r e p s).1 h')).trans (h c r e p)⟩

/-- A command that tests something of its operands only. -/
theorem Answers.ite_const {f g : State → Result State} {b : Prop} [Decidable b] (hf : Answers f) (hg : Answers g) :
    Answers fun s => if b then f s else g s :=
  hf.ite hg

/-! ### The whole block -/

theorem answers_nop : Answers execNop := .completes .ok .id

theorem answers_faultRd : Answers execFaultRd := .finishes .ok .id

theorem answers_reset : Answers execReset := .completes .ok .of_commutes

/-! ### Units -/

theorem portSafe_setInc (k : Fin 3) (inc : Phase) : PortSafe (setInc k inc) := .of_commutes

theorem portSafe_ncoStep (k : Fin 3) : PortSafe (ncoStep k) := .of_commutes

/-- A direct unit command: refused with E_BUSY while the engine that owns the unit is active (R332). -/
theorem Answers.unless_owned (k : Fin 3) {g : State → Result State} (hg : Answers g) :
    Answers fun s => if ownerActive k s then reject .busy s else g s :=
  .ite (.rejects .busy) hg

theorem Answers.unless_dm {g : State → Result State} (hg : Answers g) :
    Answers fun s => if s.dm.active then reject .busy s else g s :=
  .ite (.rejects .busy) hg

theorem answers_ncoSetf (k : Word) (nf : BitVec 64) : Answers (execNcoSetf k nf) := by
  unfold execNcoSetf
  cases ncoIndex k with
  | none => exact .rejects .range
  | some i => exact .unless_owned i (.completes .ok (portSafe_setInc i _))

theorem answers_ncoNext (k : Word) : Answers (execNcoNext k) := by
  unfold execNcoNext
  cases ncoIndex k with
  | none => exact .rejects .range
  | some i => exact .unless_owned i (.finishes .ok (portSafe_ncoStep i))

theorem answers_ncoNexti (k skew : Word) : Answers (execNcoNexti k skew) := by
  unfold execNcoNexti
  cases ncoIndex k with
  | none => exact .rejects .range
  | some i => exact .unless_owned i (.finishes .ok (portSafe_ncoStep i))

theorem answers_ncoRdph (k : Word) : Answers (execNcoRdph k) := by
  unfold execNcoRdph
  cases ncoIndex k with
  | none => exact .rejects .range
  | some i => exact .finishes .ok .id

theorem answers_rcCfg (a b : Word) (reset : Bool) : Answers (execRcCfg a b reset) :=
  .unless_dm (.ite_const (.rejects .range) (.ite_const (.rejects .range) (.completes .ok .of_commutes)))

theorem answers_rcConv (xs : List Cfx) : Answers (execRcConv xs) :=
  .unless_dm (.finishes (f := fun s => { s with rc := (rcPushAll xs s.rc).2 }) .ok .of_commutes)

theorem answers_sfCfg (mode bw opp rate : Word) : Answers (execSfCfg mode bw opp rate) := by
  unfold execSfCfg
  cases sfModeOf mode with
  | none => exact .unless_dm (.rejects .range)
  | some m => exact .unless_dm (.ite_const (.rejects .range) (.completes .ok .of_commutes))

theorem answers_sfApply (xs : List Cfx) : Answers (execSfApply xs) :=
  .unless_dm (.finishes (f := fun s => { s with sf := (sfPushAll xs s.sf).2 }) .ok .of_commutes)

theorem answers_ltUpd (z : Cfx) : Answers (execLtUpd z) :=
  .unless_dm (.completes .ok .of_commutes)

theorem answers_ltAvg : Answers execLtAvg := .finishes .ok .id

theorem answers_ltPwr : Answers execLtPwr := .finishes .ok .id

/-! ### Demodulation engine -/

theorem answers_dmCfgatv (a b c d e f : Word) (h v : Bool) : Answers (execDmCfgatv a b c d e f h v) :=
  .ite_const (.cfgRejects _ _) (.ite_const (.cfgRejects _ _) (.ite_const (.cfgRejects _ _) (.ite_const (.cfgRejects _ _)
    (.completes .ok .of_commutes))))

theorem answers_dmCfgrf (a b c d : Word) (f g : Bool) : Answers (execDmCfgrf a b c d f g) := by
  unfold execDmCfgrf
  cases DemodKind.ofCode? b.toNat with
  | none => exact .cfgRejects _ _
  | some kind => exact .completes .ok .of_commutes

theorem answers_dmCfgstream (a : Word) : Answers (execDmCfgstream a) :=
  .ite_const (.cfgRejects _ _) (.completes .ok .of_commutes)

/-- DM.START applies what is pending, then starts from valid banks or answers E_NOCFG (R344). -/
theorem answers_dmStart : Answers execDmStart := by
  have happly : PortSafe fun s => if s.dm.pndF.any then dmApply s else s := .ite portSafe_dmApply .id
  have hstart : PortSafe fun t =>
      { dmCreate t with dm := { (dmCreate t).dm with active := true, stopReq := false } } :=
    .comp portSafe_dmCreate (g := fun u => { u with dm := { u.dm with active := true, stopReq := false } })
      .of_commutes
  exact .unless_dm
    (.after happly (.ite (b := fun t => t.dm.val.all = true) (.completes .ok hstart) (.rejects .nocfg)))

theorem answers_dmStop : Answers execDmStop := .completes .ok (.ite .of_commutes .id)

/-- DM.FEED passes its safe point and feeds the block to an engine still active (R216). -/
theorem answers_dmFeed (xs : List Cfx) : Answers (execDmFeed xs) := by
  have hfeed : Answers fun t => finish .ok [BitVec.ofNat 32 (dmBlock xs t).1] (dmBlock xs t).2 :=
    .finishes (ws := fun t => [BitVec.ofNat 32 (dmBlock xs t).1]) .ok (portSafe_dmBlock xs) fun c r e p s => by
      rw [dmBlock_count_ports]
  exact .ite (.after portSafe_dmSafePoint (.ite (b := fun t => t.dm.active = true) hfeed (.rejects .idle)))
    (.rejects .idle)

theorem answers_dmStatus : Answers execDmStatus := .finishes .ok .id

/-! ### Synthesis engine -/

theorem answers_syCfg (a b c d e f g h i j k l : Word) : Answers (execSyCfg a b c d e f g h i j k l) := by
  unfold execSyCfg
  refine .ite_const (.cfgRejects _ _) ?_
  cases Depth.ofCode? c.toNat with
  | none => exact .cfgRejects _ _
  | some depth =>
    cases SynthKind.ofCode? d.toNat with
    | none => exact .cfgRejects _ _
    | some kind => exact .completes .ok .of_commutes

/-- SY.START applies what is pending, then starts from a valid bank or answers E_NOCFG (R345). -/
theorem answers_syStart : Answers execSyStart := by
  have happly : PortSafe fun s => if s.gen.pndF then syApply s else s := .ite .of_commutes .id
  have hstart : PortSafe fun t =>
      { syCreate t with gen := { (syCreate t).gen with active := true, stopReq := false } } :=
    .comp portSafe_syCreate (g := fun u => { u with gen := { u.gen with active := true, stopReq := false } })
      .of_commutes
  exact .ite (.rejects .halted) (.ite (.rejects .busy)
    (.after happly (.ite (b := fun t => t.gen.val = true) (.completes .ok hstart) (.rejects .nocfg))))

theorem answers_syStop : Answers execSyStop := .completes .ok (.ite .of_commutes .id)

/-- Generation raises the fault its size check finds, or pushes the batch (R281, R292, R293). -/
theorem answers_syGenerate (count : Nat) : Answers (syGenerate count) := by
  refine .reads (v := syCheck count) (g := fun o s => match o with
    | some b => finish .fault [0#32] (raiseFault b s)
    | none => finish .ok [BitVec.ofNat 32 (2 * (count / 2))] (syBatch count s)) fun o => ?_
  cases o with
  | some b => exact .finishes (ws := fun _ => [0#32]) .fault (portSafe_raiseFault b)
  | none => exact .finishes (ws := fun _ => [BitVec.ofNat 32 (2 * (count / 2))]) .ok (portSafe_syBatch count)

/-- A generating command: refused by a halted or an idle engine, else past the safe point if the engine is still active
(R282, R295). -/
theorem Answers.generating {g : State → Result State} (hg : Answers g) : Answers fun s =>
    if s.gen.halted then reject .halted s
    else if s.gen.active then
      if (sySafePoint s).gen.active then g (sySafePoint s) else reject .idle (sySafePoint s)
    else reject .idle s :=
  .ite (.rejects .halted)
    (.ite (.after portSafe_sySafePoint (.ite (b := fun t => t.gen.active = true) hg (.rejects .idle)))
      (.rejects .idle))

theorem answers_syGen (count : Word) : Answers (execSyGen count) := .generating (answers_syGenerate count.toNat)

/-- SY.TICK takes its sample count from TIMER before it advances the throttle (R295). -/
theorem answers_syTick : Answers execSyTick :=
  .generating (.reads (v := syDueSamples) (g := fun n t => syGenerate (2 * n) (syTickAdvance t)) fun n =>
    .after portSafe_syTickAdvance (answers_syGenerate (2 * n)))

theorem answers_syPop (n : Word) : Answers (execSyPop n) :=
  .ite_const (.rejects .range)
    (.finishes (ws := fun s => BitVec.ofNat 32 (popCount n s) :: packHalves (s.syq.take (popCount n s)))
      (f := fun s => { s with syq := s.syq.drop (2 * (popCount n s / 2)) }) .ok .of_commutes)

theorem answers_syStatus : Answers execSyStatus := .finishes .ok .id

/-! ### Every command -/

theorem answers_exec (i : Instr) : Answers (exec i) := by
  cases i with
  | nop => exact answers_nop
  | ncoSetf k nf => exact answers_ncoSetf k nf
  | ncoNext k => exact answers_ncoNext k
  | ncoNexti k skew => exact answers_ncoNexti k skew
  | ncoRdph k => exact answers_ncoRdph k
  | rcCfg a b reset => exact answers_rcCfg a b reset
  | rcConv xs => exact answers_rcConv xs
  | sfCfg mode bw opp rate => exact answers_sfCfg mode bw opp rate
  | sfApply xs => exact answers_sfApply xs
  | ltUpd z => exact answers_ltUpd z
  | ltAvg => exact answers_ltAvg
  | ltPwr => exact answers_ltPwr
  | dmCfgatv a b c d e f h v => exact answers_dmCfgatv a b c d e f h v
  | dmCfgrf a b c d f g => exact answers_dmCfgrf a b c d f g
  | dmCfgstream a => exact answers_dmCfgstream a
  | dmStart => exact answers_dmStart
  | dmStop => exact answers_dmStop
  | dmFeed xs => exact answers_dmFeed xs
  | dmStatus => exact answers_dmStatus
  | syCfg a b c d e f g h i j k l => exact answers_syCfg a b c d e f g h i j k l
  | syStart => exact answers_syStart
  | syStop => exact answers_syStop
  | syTick => exact answers_syTick
  | syGen n => exact answers_syGen n
  | syPop n => exact answers_syPop n
  | syStatus => exact answers_syStatus
  | faultRd => exact answers_faultRd
  | reset => exact answers_reset

/-- Settles O8: `answers_exec`, read once with the ports the state has and once with any others. -/
theorem portsAppendOnly : Obligations.PortsAppendOnly := by
  intro i s
  obtain ⟨t, a, evs, pxs, ht, hr, h⟩ := answers_exec i s
  have hself : t = ports s.io.cmd (s.io.rsp ++ [a]) (s.io.evt ++ evs) (s.io.pix ++ pxs) t :=
    next_inj.1 (ht.symm.trans (h s.io.cmd s.io.rsp s.io.evt s.io.pix))
  exact ⟨t, a, evs, pxs, ht, congrArg (·.io.cmd) hself, hr, congrArg (·.io.rsp) hself, congrArg (·.io.evt) hself,
    congrArg (·.io.pix) hself, h⟩

end Sys2Proof.Machine

/-! # LT.UPD (spec/43_level_tracker.md R201, R203) -/

namespace Sys2Proof.Machine
open Config

/-- LT.UPD on an idle engine changes the tracker alone (R203). -/
theorem exec_ltUpd_idle {s : State} (z : Cfx) (h : s.dm.active = false) :
    exec (.ltUpd z) s = .next (respond .ok [] { s with lt := ltUpdate z s.lt }) := by
  show execLtUpd z s = _
  unfold execLtUpd
  rw [h]
  rfl

/-- An update replaces the oldest window entry and no other (R201). -/
theorem ltUpdate_win_getElem (z : Cfx) (l : Lt) (j : Fin LT_N) :
    (ltUpdate z l).win[j] = if j = l.idx then magsq z else l.win[j] := by
  simp only [ltUpdate_win, Fin.getElem_fin, Vector.getElem_set, Fin.ext_iff, eq_comm]

/-- Settles O35. -/
theorem ltUpdResult : Obligations.LtUpdResult := by
  intro s z hidle hmin hmax
  exact ⟨magsq z, ltUpdate z s.lt, toInt_magsq z, exec_ltUpd_idle z hidle, ltUpdate_sum z hmin hmax, rfl,
    ltUpdate_win_getElem z s.lt⟩

end Sys2Proof.Machine

/-! # DM.FEED of one sample (spec/44_atv_demod.md R217, R220)

The front end of one input with both units bypassed, the sample step line by line, and the raster step while the state is
Unsynchronized. -/

namespace Sys2Proof.Machine
open Config

/-! ## The mixer -/

theorem toInt_sat_shr (v : Int) : (sat (shr v FX_F)).toInt = max FX_MIN (min FX_MAX (v / 65536)) := by
  rw [toInt_sat, clamp_eq_max_min (by decide), shr_eq]
  norm_num [FX_F]

/-- A sample with the components R14 gives the product is the product. -/
theorem eq_cmul_of_toInt {x m z : Cfx}
    (hre : z.re.toInt = max FX_MIN (min FX_MAX ((x.re.toInt * m.re.toInt - x.im.toInt * m.im.toInt) / 65536)))
    (him : z.im.toInt = max FX_MIN (min FX_MAX ((x.re.toInt * m.im.toInt + x.im.toInt * m.re.toInt) / 65536))) :
    z = cmul x m := by
  rw [← toInt_sat_shr] at hre him
  exact congr (congrArg Cfx.mk (BitVec.eq_of_toInt_eq hre)) (BitVec.eq_of_toInt_eq him)

/-- Without a skew the oscillator's output is its value at the phase after the advance (R144). -/
theorem ncoOut_zero (n : Nco) : ncoOut n 0 = cs (n.phase + n.inc) := by
  simp [ncoOut, ncoValue, ncoAdvance]

/-- With converter and filter bypassed the front end passes on the mixed sample and only moves the oscillator (R217). -/
theorem dmFront_bypassed (x : Cfx) {s : State} (hdec : s.dm.d.decimOn = false) (hfilt : s.dm.d.filtOn = false) :
    dmFront x s = ([cmul x (cs (s.nco[(0 : Fin 3)].phase + s.nco[(0 : Fin 3)].inc))], ncoStep 0 s) := by
  obtain ⟨c, f, hstate, -, -, hc, hf, hout, -⟩ := dmFront_spec x s
  rw [← ncoOut_zero, ← hout hdec hfilt, ← Prod.mk.eta (p := dmFront x s), hstate, hc hdec, hf hfilt]
  rfl

/-- One sample through a running engine with converter and filter bypassed (R216, R217). -/
theorem exec_dmFeed_one (x : Cfx) {s : State} (hactive : s.dm.active = true) (hstop : s.dm.stopReq = false)
    (hpend : s.dm.pndF.any = false) (hdec : s.dm.d.decimOn = false) (hfilt : s.dm.d.filtOn = false) :
    exec (.dmFeed [x]) s = .next (respond .ok [1#32]
      (dmSample (cmul x (cs (s.nco[(0 : Fin 3)].phase + s.nco[(0 : Fin 3)].inc))) (ncoStep 0 s))) := by
  refine (execDmFeed_running [x] hactive hstop hpend).trans ?_
  simp only [dmBlock, dmFront_bypassed x hdec hfilt]
  rfl

/-! ## The lines of the sample step -/

/-- The demodulators do not read the oscillators (R221). -/
theorem dmRaw_ncoStep (z : Cfx) (k : Fin 3) (s : State) : dmRaw z (ncoStep k s) = dmRaw z s := rfl

/-- The demodulation engine after `dm_raw`: the FM kinds move the history, the others change nothing (R223). -/
def dmAfterRaw (z : Cfx) (s : State) : Dm :=
  if s.dm.cur.rf.modKind = .fm1 ∨ s.dm.cur.rf.modKind = .fm2 then { s.dm with uh1 := unit z, uh2 := s.dm.uh1 } else s.dm

theorem dmRawStep_eq (z : Cfx) (s : State) : dmRawStep z s = { s with dm := dmAfterRaw z s } := by
  unfold dmRawStep dmAfterRaw pushHistory
  cases s.dm.cur.rf.modKind <;> simp

@[simp] theorem dmAfterRaw_cur (z : Cfx) (s : State) : (dmAfterRaw z s).cur = s.dm.cur := by
  unfold dmAfterRaw; split <;> rfl

@[simp] theorem dmAfterRaw_d (z : Cfx) (s : State) : (dmAfterRaw z s).d = s.dm.d := by
  unfold dmAfterRaw; split <;> rfl

@[simp] theorem dmAfterRaw_line (z : Cfx) (s : State) : (dmAfterRaw z s).line = s.dm.line := by
  unfold dmAfterRaw; split <;> rfl

@[simp] theorem dmAfterRaw_frames (z : Cfx) (s : State) : (dmAfterRaw z s).frames = s.dm.frames := by
  unfold dmAfterRaw; split <;> rfl

/-- No demodulator answers a negative amplitude (R222, R224 to R226). -/
theorem dmRaw_nonneg (z : Cfx) (s : State) : 0 ≤ (dmRaw z s).toInt := by
  unfold dmRaw
  cases s.dm.cur.rf.modKind with
  | fm1 => exact (clamp01_range _).1
  | fm2 => exact (clamp01_range _).1
  | am => exact cmag_nonneg z
  | vsbU => exact cmag_nonneg _
  | vsbL => exact cmag_nonneg _

/-- The AM demodulator answers the magnitude (R225). -/
theorem dmRaw_am (z : Cfx) {s : State} (h : s.dm.cur.rf.modKind = .am) : dmRaw z s = cmag z := by
  unfold dmRaw
  rw [h]

/-- The tracker's sum moves by the exact difference from any sum far from the ends of its field (R201). -/
theorem ltUpdate_sum_wide (z : Cfx) {l : Lt} (hmin : -2 ^ 62 ≤ l.sum.toInt) (hmax : l.sum.toInt ≤ 2 ^ 62) :
    (ltUpdate z l).sum.toInt = l.sum.toInt - l.win[l.idx].toInt + (magsq z).toInt := by
  have hm := magsq_range z
  have hw := toInt32_bounds l.win[l.idx]
  simp only [FX_MIN_eq, FX_MAX_eq] at hm hw
  refine (toInt_sat64 ?_ ?_).trans ?_ <;> omega

theorem locked_iff (f : Fsm) : f.locked = true ↔ f ≠ .unsynchronized ∧ f ≠ .lineSyncSearching := by
  cases f <;> decide

/-- The average is below the loss-of-signal floor exactly if the window's sum is below LT_N (R202, R236). -/
theorem ltAvg_lt_floor_iff (l : Lt) : (ltAvg l).toInt < LT_FLOOR ↔ l.sum.toInt < 32 := by
  unfold ltAvg fdiv
  rw [toInt_sat, clamp_eq_max_min (by decide)]
  simp only [FX_MIN_eq, FX_MAX_eq, LT_FLOOR, LT_N]
  omega

/-- Whether the loss-of-signal test of R236 takes the state down. -/
def signalLost (s : State) : Bool := s.sync.fsm.locked && decide ((ltAvg s.lt).toInt < LT_FLOOR)

theorem signalLost_iff (s : State) : signalLost s = true ↔
    s.sync.fsm ≠ .unsynchronized ∧ s.sync.fsm ≠ .lineSyncSearching ∧ s.lt.sum.toInt < 32 := by
  unfold signalLost
  rw [Bool.and_eq_true, decide_eq_true_eq, locked_iff, ltAvg_lt_floor_iff, and_assoc]

/-- The loss-of-signal test: a sync reset and one EV_STATE, or nothing (R236, R237). -/
theorem checkSignal_eq (s : State) : checkSignal s = if signalLost s = true then
    { s with
      sync := Sync.reset
      io := { s.io with evt := s.io.evt ++ [.state s.sync.fsm .unsynchronized] } } else s := by
  show (if signalLost s = true then toUnsync s else s) = _
  split
  · next h =>
    unfold toUnsync
    rw [if_neg ((signalLost_iff s).1 h).1]
    rfl
  · rfl

/-- The sample step up to the normaliser, line by line (R220). -/
theorem sampleMid_eq (z : Cfx) (s : State) : sampleMid z s =
    recordAmp (dmRaw z s) (checkSignal { s with lt := ltUpdate z s.lt, dm := dmAfterRaw z s }) := by
  show recordAmp (dmRaw z s) (checkSignal (dmRawStep z { s with lt := ltUpdate z s.lt })) = _
  rw [dmRawStep_eq]
  rfl

/-- On the start-up scale the normaliser only clips (R228). -/
theorem toInt_dmNorm_startup {raw : Fx} {y : Sync} (hraw : 0 ≤ raw.toInt) (hmin : y.effMin = 0#32)
    (hdelta : y.effDelta.toInt = 65536) : (dmNorm raw y).toInt = min 65536 raw.toInt := by
  have hb := toInt32_bounds raw
  have hsub : fxSub raw 0#32 = raw := by simp [fxSub]
  have hdiv : fxDiv raw y.effDelta = raw := by
    unfold fxDiv fdiv
    rw [hdelta, show raw.toInt * 2 ^ FX_F / 65536 = raw.toInt by norm_num [FX_F], sat_toInt]
  unfold dmNorm
  rw [hmin, hsub, hdiv, toInt_clamp01, clamp_eq_max_min (by decide)]
  simp only [ONE_eq]
  omega

/-- The line sum takes the sample in exactly from any sum far from the ends of its field (R240). -/
theorem toInt_sat64_add {v : Int} (n : Fx) (hmin : -2 ^ 62 ≤ v) (hmax : v ≤ 2 ^ 62) :
    (sat64 (v + n.toInt)).toInt = v + n.toInt := by
  have hn := toInt32_bounds n
  simp only [FX_MIN_eq, FX_MAX_eq] at hn
  apply toInt_sat64 <;> omega

/-! ## The raster step while Unsynchronized (R240, R241, R244) -/

theorem satInc_toNat_of_lt {v w : Word} (h : v.toNat < w.toNat) : (satInc v).toNat = v.toNat + 1 := by
  have := w.isLt
  rw [satInc_toNat]
  omega

/-- A line completed while Unsynchronized ends the frame if it was the last, and meets no frame sync (R241). -/
theorem lineDone_unlocked {s : State} (h : s.sync.fsm = .unsynchronized) : lineDone s =
    if s.dm.d.lpf.toNat ≤ (satInc s.sync.row).toNat then frameDone (nextRow (emitLine s)) else nextRow (emitLine s) := by
  unfold lineDone
  rw [h]
  simp [Fsm.locked, lineEnd]

/-- Completing a line does not read the column. -/
theorem nextRow_emitLine_col (s : State) (c : Word) :
    nextRow (emitLine { s with sync := { s.sync with col := c } }) = nextRow (emitLine s) := by
  unfold emitLine
  dsimp only
  split <;> rfl

/-- The raster step while Unsynchronized, branch by branch. -/
theorem rasterStep_eq_of_unsync {s : State} (h : s.sync.fsm = .unsynchronized) : rasterStep s =
    if s.dm.d.spl.toNat ≤ (satInc s.sync.col).toNat then
      if s.dm.d.lpf.toNat ≤ (satInc s.sync.row).toNat then frameDone (nextRow (emitLine s)) else nextRow (emitLine s)
    else { s with sync := { s.sync with col := satInc s.sync.col } } := by
  show (if s.dm.d.spl.toNat ≤ (satInc s.sync.col).toNat then
    lineDone { s with sync := { s.sync with col := satInc s.sync.col } } else _) = _
  rw [lineDone_unlocked (by exact h), nextRow_emitLine_col]

/-- The normaliser's span for a range of amplitudes: its width, saturated, or 1.0 when it is empty (R244). -/
def ampSpan (lo hi : Int) : Int := if lo < hi then min FX_MAX (hi - lo) else 65536

theorem toInt_frameDone_effDelta (s : State) :
    (frameDone s).sync.effDelta.toInt = ampSpan s.sync.ampMin.toInt s.sync.ampMax.toInt := by
  unfold ampSpan
  show (if 0 < s.sync.ampMax.toInt - s.sync.ampMin.toInt then
    sat (s.sync.ampMax.toInt - s.sync.ampMin.toInt) else fxOne).toInt = _
  by_cases h : s.sync.ampMin.toInt < s.sync.ampMax.toInt
  · rw [if_pos (by omega), if_pos h, toInt_sat, clamp_eq_max_min (by decide)]
    simp only [FX_MIN_eq, FX_MAX_eq]
    omega
  · rw [if_neg (by omega), if_neg h]
    decide

/-- What the raster step makes of a state in Unsynchronized: column, row and records by the place in the line and the frame, the
normaliser's scale renewed by the end of a frame alone (R240 to R242, R244). -/
structure RasterFree (s t : State) : Prop where
  rsp : t.io.rsp = s.io.rsp
  evt : t.io.evt = s.io.evt
  line : t.dm.line = s.dm.line
  uh1 : t.dm.uh1 = s.dm.uh1
  uh2 : t.dm.uh2 = s.dm.uh2
  within : s.sync.col.toNat + 1 < s.dm.d.spl.toNat →
    t.sync.col.toNat = s.sync.col.toNat + 1 ∧ t.sync.row = s.sync.row ∧ t.sync.lineSum = s.sync.lineSum ∧
      t.io.pix = s.io.pix ∧ t.dm.frames = s.dm.frames
  completed : s.sync.col.toNat + 1 = s.dm.d.spl.toNat → t.sync.col = 0#32 ∧ t.sync.lineSum = 0#64 ∧
    t.io.pix = s.io.pix ++
      (if s.sync.row.toNat < s.dm.d.rowsDisp.toNat then [.line s.sync.row s.dm.frames (lineSamples s)] else []) ++
      (if s.sync.row.toNat + 1 < s.dm.d.lpf.toNat then [] else [.frame s.dm.frames s.dm.d.rowsDisp])
  scale : s.sync.col.toNat + 1 < s.dm.d.spl.toNat ∨ s.sync.row.toNat + 1 < s.dm.d.lpf.toNat →
    t.sync.ampMin = s.sync.ampMin ∧ t.sync.ampMax = s.sync.ampMax ∧ t.sync.effMin = s.sync.effMin ∧
      t.sync.effDelta = s.sync.effDelta
  nextRow : s.sync.col.toNat + 1 = s.dm.d.spl.toNat → s.sync.row.toNat + 1 < s.dm.d.lpf.toNat →
    t.sync.row.toNat = s.sync.row.toNat + 1 ∧ t.dm.frames = s.dm.frames
  frameEnd : s.sync.col.toNat + 1 = s.dm.d.spl.toNat → s.sync.row.toNat + 1 = s.dm.d.lpf.toNat →
    t.sync.row = 0#32 ∧ t.dm.frames = s.dm.frames + 1 ∧ t.sync.effMin = s.sync.ampMin ∧
      t.sync.effDelta.toInt = ampSpan s.sync.ampMin.toInt s.sync.ampMax.toInt ∧ t.sync.ampMin = fxGreatest ∧ t.sync.ampMax = fxLeast

theorem rasterFree_within {s : State} (h : s.sync.col.toNat + 1 < s.dm.d.spl.toNat) :
    RasterFree s { s with sync := { s.sync with col := satInc s.sync.col } } where
  rsp := rfl
  evt := rfl
  line := rfl
  uh1 := rfl
  uh2 := rfl
  within _ := ⟨satInc_toNat_of_lt (Nat.lt_of_succ_lt h), rfl, rfl, rfl, rfl⟩
  completed h' := absurd h' h.ne
  scale _ := ⟨rfl, rfl, rfl, rfl⟩
  nextRow h' := absurd h' h.ne
  frameEnd h' := absurd h' h.ne

theorem rasterFree_nextRow {s : State} (h : s.sync.col.toNat + 1 = s.dm.d.spl.toNat)
    (hrow : s.sync.row.toNat + 1 < s.dm.d.lpf.toNat) : RasterFree s (nextRow (emitLine s)) where
  rsp := by simp
  evt := by simp
  line := by simp
  uh1 := by simp
  uh2 := by simp
  within h' := absurd h h'.ne
  completed _ := by simp [hrow]
  scale _ := by simp
  nextRow _ _ := by simp [satInc_toNat_of_lt (Nat.lt_of_succ_lt hrow)]
  frameEnd _ h' := absurd h' hrow.ne

theorem rasterFree_frameDone {s : State} (h : s.sync.col.toNat + 1 = s.dm.d.spl.toNat)
    (hrow : s.sync.row.toNat + 1 = s.dm.d.lpf.toNat) : RasterFree s (frameDone (nextRow (emitLine s))) where
  rsp := by simp
  evt := by simp
  line := by simp
  uh1 := by simp
  uh2 := by simp
  within h' := absurd h h'.ne
  completed _ := by
    have hlast : ¬ s.sync.row.toNat + 1 < s.dm.d.lpf.toNat := by omega
    rw [if_neg hlast, frameDone_io_pix, nextRow_io, nextRow_dm, emitLine_io_pix, emitLine_dm]
    exact ⟨rfl, rfl, rfl⟩
  scale h' := by omega
  nextRow _ h' := absurd hrow h'.ne
  frameEnd _ _ := by
    have hdelta := toInt_frameDone_effDelta (nextRow (emitLine s))
    rw [nextRow_sync, emitLine_sync] at hdelta
    refine ⟨rfl, by simp, ?_, hdelta, rfl, rfl⟩
    show (nextRow (emitLine s)).sync.ampMin = _
    simp

/-- The raster step while Unsynchronized: the column moves on, the line is completed, or with it the frame. -/
theorem rasterStep_free {s : State} (hfsm : s.sync.fsm = .unsynchronized)
    (hcol : s.sync.col.toNat < s.dm.d.spl.toNat) (hrow : s.sync.row.toNat < s.dm.d.lpf.toNat) :
    RasterFree s (rasterStep s) := by
  rw [rasterStep_eq_of_unsync hfsm, satInc_toNat_of_lt hcol, satInc_toNat_of_lt hrow]
  split_ifs with hlast hend
  · exact rasterFree_frameDone (by omega) (by omega)
  · exact rasterFree_nextRow (by omega) (by omega)
  · exact rasterFree_within (by omega)

theorem lineSamples_length (s : State) : (lineSamples s).length = s.dm.d.spl.toNat := sparseToList_length _ _ _

/-- The samples PX_LINE carries are those of the line buffer, which the raster step leaves (R104, R242). -/
theorem RasterFree.lineSamples_getElem? {s t : State} (r : RasterFree s t) {k : Nat} (hk : k < s.dm.d.spl.toNat) :
    (lineSamples s)[k]? = some (sparseGet 0#32 t.dm.line k) := by
  rw [r.line]
  exact sparseToList_getElem? _ _ hk

/-! ## One sample with line sync off -/

/-- The sample step up to the normaliser, from Unsynchronized: no signal is lost (R220, R236). -/
theorem sampleMid_free (z : Cfx) {s : State} (h : s.sync.fsm = .unsynchronized) :
    sampleMid z s = recordAmp (dmRaw z s) { s with lt := ltUpdate z s.lt, dm := dmAfterRaw z s } := by
  rw [sampleMid_unsync z h, dmRawStep_eq]

/-- The state in which the raster steps after a sample with line sync off, from Unsynchronized: the value `n` stored, everything
before it done (R220). -/
def storedFree (z : Cfx) (n : Fx) (s : State) : State :=
  { s with
    lt := ltUpdate z s.lt
    dm := { dmAfterRaw z s with line := sparseSet 0#32 SPL_MAX s.dm.line s.sync.col.toNat n }
    sync := { hsMajority s.dm.cur.atv.thrSyncTop (hsWindow n s.sync) with
      ampMin := fxMin s.sync.ampMin (dmRaw z s)
      ampMax := fxMax s.sync.ampMax (dmRaw z s)
      lineSum := sat64 (s.sync.lineSum.toInt + n.toInt) } }

@[simp] theorem storedFree_d (z : Cfx) (n : Fx) (s : State) : (storedFree z n s).dm.d = s.dm.d := dmAfterRaw_d z s

@[simp] theorem storedFree_frames (z : Cfx) (n : Fx) (s : State) : (storedFree z n s).dm.frames = s.dm.frames :=
  dmAfterRaw_frames z s

@[simp] theorem storedFree_io (z : Cfx) (n : Fx) (s : State) : (storedFree z n s).io = s.io := rfl

@[simp] theorem storedFree_sync (z : Cfx) (n : Fx) (s : State) : (storedFree z n s).sync =
    { hsMajority s.dm.cur.atv.thrSyncTop (hsWindow n s.sync) with
      ampMin := fxMin s.sync.ampMin (dmRaw z s)
      ampMax := fxMax s.sync.ampMax (dmRaw z s)
      lineSum := sat64 (s.sync.lineSum.toInt + n.toInt) } := rfl

theorem storedFree_uh_fm {z : Cfx} {s : State} (n : Fx)
    (h : s.dm.cur.rf.modKind = .fm1 ∨ s.dm.cur.rf.modKind = .fm2) :
    (storedFree z n s).dm.uh1 = unit z ∧ (storedFree z n s).dm.uh2 = s.dm.uh1 := by
  unfold storedFree dmAfterRaw
  rw [if_pos h]
  exact ⟨rfl, rfl⟩

theorem storedFree_uh_other {z : Cfx} {s : State} (n : Fx) (h1 : s.dm.cur.rf.modKind ≠ .fm1)
    (h2 : s.dm.cur.rf.modKind ≠ .fm2) :
    (storedFree z n s).dm.uh1 = s.dm.uh1 ∧ (storedFree z n s).dm.uh2 = s.dm.uh2 := by
  unfold storedFree dmAfterRaw
  rw [if_neg (not_or.2 ⟨h1, h2⟩)]
  exact ⟨rfl, rfl⟩

/-- The sample step up to its raster step, with line sync off and from Unsynchronized (R220, R229, R230). -/
theorem storedFree_eq (z : Cfx) (n : Fx) {s : State} (hoff : s.dm.cur.atv.hsyncEn = false)
    (hfsm : s.sync.fsm = .unsynchronized) : storeSample n (hsStep n (sampleMid z s)) = storedFree z n s := by
  have hoff' : (sampleMid z s).dm.cur.atv.hsyncEn = false := by
    rw [(sampleMid_frame z s).cur, hoff]
  rw [hsStep_off n hoff', sampleMid_free z hfsm]
  unfold storeSample recordAmp storedFree
  simp only [dmAfterRaw_cur, dmAfterRaw_line]
  rfl

/-- The line buffer with a sample stored in it: that entry, and no other (R220). -/
theorem sparseGet_line_set (line : Sparse Fx) {c : Nat} (n : Fx) (hc : c < 4096) (k : Nat) :
    sparseGet 0#32 (sparseSet 0#32 SPL_MAX line c n) k = if k = c then n else sparseGet 0#32 line k := by
  rw [sparseGet_set _ _ _ _ _ _ hc]
  simp only [eq_comm]

/-- After the raster step the line buffer reads as the stored sample left it (R220, R240). -/
theorem RasterFree.line_read {z : Cfx} {n : Fx} {s t : State} (r : RasterFree (storedFree z n s) t)
    (hcol : s.sync.col.toNat < 4096) (k : Nat) :
    sparseGet 0#32 t.dm.line k = if k = s.sync.col.toNat then n else sparseGet 0#32 s.dm.line k := by
  rw [r.line]
  exact sparseGet_line_set s.dm.line n hcol k

/-- The value the normaliser answers while Unsynchronized on the start-up scale is the clipped amplitude (R228). -/
theorem toInt_dmNorm_sampleMid (z : Cfx) {s : State} (hfsm : s.sync.fsm = .unsynchronized) (hmin : s.sync.effMin = 0#32)
    (hdelta : s.sync.effDelta.toInt = 65536) :
    (dmNorm (dmRaw z s) (sampleMid z s).sync).toInt = min 65536 (dmRaw z s).toInt := by
  rw [sampleMid_free z hfsm]
  exact toInt_dmNorm_startup (dmRaw_nonneg z s) hmin hdelta

/-- One sample with line sync off, from Unsynchronized: the raster steps from the state the sample is stored in. -/
theorem dmSample_lineSyncOff (z : Cfx) {s : State} (hoff : s.dm.cur.atv.hsyncEn = false)
    (hfsm : s.sync.fsm = .unsynchronized) (hcol : s.sync.col.toNat < s.dm.d.spl.toNat)
    (hrow : s.sync.row.toNat < s.dm.d.lpf.toNat) :
    RasterFree (storedFree z (dmNorm (dmRaw z s) (sampleMid z s).sync) s) (dmSample z s) := by
  rw [dmSample_eq, storedFree_eq z _ hoff hfsm]
  exact rasterStep_free hfsm (by rw [storedFree_d]; exact hcol) (by rw [storedFree_d]; exact hrow)

/-! ## The statement -/

/-- Settles O48: the order of the sample step from `dmSample_eq` and `sampleMid_eq`; with line sync off, the raster step from the
state the sample is stored in (`dmSample_lineSyncOff`). -/
theorem feedOneSample : Obligations.FeedOneSample := by
  intro s x m z raw hactive hstop hpend hdec hfilt hm hre him hraw
  obtain rfl := hraw
  have hz : z = cmul x m := eq_cmul_of_toInt hre him
  have hexec : exec (.dmFeed [x]) s = .next (respond .ok [1#32] (dmSample z (ncoStep 0 s))) := by
    rw [exec_dmFeed_one x hactive hstop hpend hdec hfilt, hz, hm]
  refine ⟨fun hphase hinc => ?_, fun ham => ?_, fun hmin hmax => ?_, ?_⟩
  · rw [hz, hm, hphase, hinc]
    exact cmul_one x
  · rw [dmRaw_am z ham, toInt_cmag]
  · let u : State := { ncoStep 0 s with lt := ltUpdate z s.lt, dm := dmAfterRaw z s }
    let w := recordAmp (dmRaw z s) (checkSignal u)
    let n := dmNorm (dmRaw z s) w.sync
    let h := hsStep n w
    have hline : h.dm.line = s.dm.line := by
      show (hsStep n w).dm.line = _
      rw [hsStep_dm, recordAmp_dm, checkSignal_dm]
      exact dmAfterRaw_line z s
    refine ⟨magsq z, _, _, n, u.lt, signalLost u, u, checkSignal u, w, h,
      sparseSet 0#32 SPL_MAX h.dm.line h.sync.col.toNat n, sat64 (h.sync.lineSum.toInt + n.toInt), toInt_magsq z, rfl,
      rfl, ltUpdate_sum_wide z hmin hmax, rfl, signalLost_iff u, checkSignal_eq u, toInt_fxMin _ _, toInt_fxMax _ _,
      rfl, rfl, rfl, fun hcol k => ?_, toInt_sat64_add n, ?_⟩
    · rw [sparseGet_line_set _ _ hcol, hline]
    · rw [hexec, dmSample_eq, sampleMid_eq]
      rfl
  · intro n lo hi hoff hfsm hmin hdelta hcol hbuf hrow hsmin hsmax hn hlo hhi
    obtain ⟨v, hv, r⟩ : ∃ v : Fx, v.toInt = n ∧ RasterFree (storedFree z v (ncoStep 0 s)) (dmSample z (ncoStep 0 s)) :=
      ⟨_, (toInt_dmNorm_sampleMid z (s := ncoStep 0 s) hfsm hmin hdelta).trans hn.symm,
        dmSample_lineSyncOff z hoff hfsm hcol hrow⟩
    have hread := r.line_read hbuf
    have hsum : (sat64 (s.sync.lineSum.toInt + v.toInt)).toInt = s.sync.lineSum.toInt + n := by
      rw [toInt_sat64_add v hsmin hsmax, hv]
    have hlow : (fxMin s.sync.ampMin (dmRaw z s)).toInt = lo := (toInt_fxMin _ _).trans hlo.symm
    have hhigh : (fxMax s.sync.ampMax (dmRaw z s)).toInt = hi := (toInt_fxMax _ _).trans hhi.symm
    have hsamples := fun k => r.lineSamples_getElem? (k := k)
    obtain ⟨hrsp, hevt, -, huh1, huh2, hwithin, hcompleted, hscale, hnext, hend⟩ := r
    simp only [storedFree_io, storedFree_sync, storedFree_d, storedFree_frames, hsMajority, hsWindow, ncoStep_io,
      ncoStep_sync, ncoStep_dm, dmRaw_ncoStep]
      at hread hsamples hrsp hevt hwithin hcompleted hscale hnext hend
    refine ⟨_, hexec, by rw [respond_io_rsp, hrsp], hevt, ?_, fun k hk => (hread k).trans (if_neg hk), fun hfm => ?_,
      fun h1 h2 => ?_, fun hc => ?_, fun hc => ?_, fun hc => ?_, fun hc hr => ?_⟩
    · exact (congrArg BitVec.toInt ((hread _).trans (if_pos rfl))).trans hv
    · rw [respond_dm, huh1, huh2]
      exact storedFree_uh_fm (s := ncoStep 0 s) v hfm
    · rw [respond_dm, huh1, huh2]
      exact storedFree_uh_other (s := ncoStep 0 s) v h1 h2
    · obtain ⟨hcol', hrow', hsum', hpix, hframes⟩ := hwithin hc
      exact ⟨hcol', hrow', by rw [respond_sync, hsum', hsum], hpix, hframes⟩
    · obtain ⟨hcol', hsum', hpix⟩ := hcompleted hc
      exact ⟨hcol', hsum', _, by rw [lineSamples_length, storedFree_d, ncoStep_dm], hsamples, hpix⟩
    · obtain ⟨hmin', hmax', heff, hspan⟩ := hscale hc
      rw [respond_sync, hmin', hmax', heff, hspan]
      exact ⟨hlow, hhigh, hmin, hdelta, fun hlast => hnext hlast (by omega)⟩
    · obtain ⟨hrow', hframes, heff, hspan, hmin', hmax'⟩ := hend hc hr
      rw [hlow, hhigh] at hspan
      rw [respond_sync, respond_dm, hrow', hframes, heff, hspan, hmin', hmax', hlow]
      exact ⟨rfl, BitVec.toNat_add _ _, rfl, rfl, by decide, by decide⟩

end Sys2Proof.Machine

/-! # What a command can do (spec/10_state.md R45; spec/46_control.md R330; spec/60_exceptions.md R376)

Every command but RESET answers after a few acts, each with the guard it was done under (`exec_completes`). What holds of all
commands is proved of the acts (`exec_relates`, `step_keeps`), once for each kind of act. -/

namespace Sys2Proof.Machine
open Config

/-! ## Who does what -/

/-- On whose behalf a command acts: the control path of an engine, which only stages and requests (R330), or its worker, which
may generate (R281) or not. -/
inductive Role where
  | control (e : EngineId)
  | worker (e : EngineId) (generates : Bool)

/-- The engine a role acts for (R398). -/
def Role.engine : Role → EngineId
  | .control e => e
  | .worker e _ => e

/-- Whether a role may generate samples, and so raise a fault (R281, R375). -/
def Role.generates : Role → Bool
  | .control _ => false
  | .worker _ g => g

/-- The engine that owns an oscillator (R332). -/
def ncoOwner (k : Fin 3) : EngineId := if k = 0 then .demodulation else .synthesis

/-- The engine an oscillator command is counted with, by its index operand. -/
def ncoSide (k : Word) : EngineId := if k = 0#32 then .demodulation else .synthesis

/-- The role a command acts in. NOP and FAULT.RD only read, and RESET is no act of a role: theirs is of no consequence. -/
def roleOf : Instr → Role
  | .nop => .control .demodulation
  | .ncoSetf k _ => .worker (ncoSide k) false
  | .ncoNext k => .worker (ncoSide k) false
  | .ncoNexti k _ => .worker (ncoSide k) false
  | .ncoRdph k => .control (ncoSide k)
  | .rcCfg _ _ _ => .worker .demodulation false
  | .rcConv _ => .worker .demodulation false
  | .sfCfg _ _ _ _ => .worker .demodulation false
  | .sfApply _ => .worker .demodulation false
  | .ltUpd _ => .worker .demodulation false
  | .ltAvg => .control .demodulation
  | .ltPwr => .control .demodulation
  | .dmCfgatv _ _ _ _ _ _ _ _ => .control .demodulation
  | .dmCfgrf _ _ _ _ _ _ => .control .demodulation
  | .dmCfgstream _ => .control .demodulation
  | .dmStart => .worker .demodulation false
  | .dmStop => .control .demodulation
  | .dmFeed _ => .worker .demodulation false
  | .dmStatus => .control .demodulation
  | .syCfg _ _ _ _ _ _ _ _ _ _ _ _ => .control .synthesis
  | .syStart => .worker .synthesis false
  | .syStop => .control .synthesis
  | .syTick => .worker .synthesis true
  | .syGen _ => .worker .synthesis true
  | .syPop _ => .worker .synthesis false
  | .syStatus => .control .synthesis
  | .faultRd => .control .demodulation
  | .reset => .control .demodulation

theorem roleOf_control {i : Instr} (h : isControl i = true) : ∃ e, roleOf i = .control e := by
  cases i <;> simp_all [isControl, roleOf]

theorem roleOf_demod {i : Instr} (h : isDemod i = true) : (roleOf i).engine = .demodulation := by
  cases i <;> simp_all [isDemod, roleOf, Role.engine, ncoSide]

theorem roleOf_synth {i : Instr} (h : isSynth i = true) : (roleOf i).engine = .synthesis := by
  cases i <;> simp_all [isSynth, roleOf, Role.engine, ncoSide]

theorem roleOf_storeless {i : Instr} (h : storesToBuffer i = false) : (roleOf i).generates = false := by
  cases i <;> simp_all [storesToBuffer, roleOf, Role.generates]

/-! ## The acts -/

/-- R44 of the converter: the ratio's range. -/
structure Rc.Ok (c : Rc) : Prop where
  ratio_min : RC_RATIO_MIN ≤ c.ratio.toNat
  ratio_max : c.ratio.toNat ≤ (2 ^ 32 - 1) * 2 ^ 32

/-- The filter's arrays in canonical form (R70). -/
structure Sf.Ok (f : Sf) : Prop where
  mask_wf : sparseWf 0#32 SF_N f.mask = true
  inb_wf : sparseWf cfxZero SF_N f.inb = true

/-- One act of a role, from a state to the next. -/
inductive Act : Role → State → State → Prop
  /-- A configuration message rejected (R335). -/
  | countCfgErr (e : EngineId) (b : BankId) (q : Reason) (s : State) : Act (.control e) s (countCfgErr b q s)
  /-- A valid bank staged (R336 to R339). -/
  | stageAtv {b : AtvBank} (legal : b.Ok) (s : State) : Act (.control .demodulation) s
      { s with dm := { s.dm with pnd := { s.dm.pnd with atv := b }, pndF := { s.dm.pndF with atv := true } } }
  | stageRf (b : RfBank) (s : State) : Act (.control .demodulation) s
      { s with dm := { s.dm with pnd := { s.dm.pnd with rf := b }, pndF := { s.dm.pndF with rf := true } } }
  | stageStream {b : StreamBank} (legal : 0 < b.inRateHz.toNat) (s : State) : Act (.control .demodulation) s
      { s with dm := { s.dm with pnd := { s.dm.pnd with stream := b }, pndF := { s.dm.pndF with stream := true } } }
  | stageGen {b : GenBank} (legal : b.Ok) (s : State) : Act (.control .synthesis) s
      { s with gen := { s.gen with pnd := b, pndF := true } }
  /-- A stop requested (R347, R349). -/
  | requestDmStop (s : State) : Act (.control .demodulation) s { s with dm := { s.dm with stopReq := true } }
  | requestSyStop (s : State) : Act (.control .synthesis) s { s with gen := { s.gen with stopReq := true } }
  /-- An oscillator written by a direct command (R145 to R147). -/
  | setNco (k : Fin 3) (n : Nco) (s : State) : Act (.worker (ncoOwner k) false) s (setNco k n s)
  /-- The converter, the filter, the tracker written by a direct command (R165, R166, R190, R191, R203). -/
  | setRc {c : Rc} {s : State} (legal : s.rc.Ok → c.Ok) : Act (.worker .demodulation false) s { s with rc := c }
  | setSf {f : Sf} {s : State} (legal : s.sf.Ok → f.Ok) : Act (.worker .demodulation false) s { s with sf := f }
  | updateLt (z : Cfx) (s : State) : Act (.worker .demodulation false) s { s with lt := ltUpdate z s.lt }
  /-- What is pending applied (R341, R343). -/
  | dmApply (s : State) : Act (.worker .demodulation false) s (dmApply s)
  | syApply (g : Bool) {s : State} (pending : s.gen.pndF = true) : Act (.worker .synthesis g) s (syApply s)
  /-- A stop taken at a safe point (R348). -/
  | dmStopped (s : State) : Act (.worker .demodulation false) s
      (emitEvt (.stopped .demodulation) { s with dm := { s.dm with active := false, stopReq := false } })
  | syStopped (s : State) : Act (.worker .synthesis true) s
      (emitEvt (.stopped .synthesis) { s with gen := { s.gen with active := false, stopReq := false } })
  /-- An engine created and started (R344 to R346). -/
  | dmStart {s : State} (valid : s.dm.val.all = true) : Act (.worker .demodulation false) s
      { dmCreate s with dm := { (dmCreate s).dm with active := true, stopReq := false } }
  | syStart {s : State} (running : s.gen.halted = false) (valid : s.gen.val = true) : Act (.worker .synthesis false) s
      { syCreate s with gen := { (syCreate s).gen with active := true, stopReq := false } }
  /-- A block demodulated (R216). -/
  | dmBlock (xs : List Cfx) {s : State} (active : s.dm.active = true) :
      Act (.worker .demodulation false) s (dmBlock xs s).2
  /-- The throttle advanced (R295). -/
  | syTickAdvance (s : State) : Act (.worker .synthesis true) s (syTickAdvance s)
  /-- A batch refused for its size, or generated (R281, R376). -/
  | raiseFault (b : FaultBit) {s : State} (running : s.gen.halted = false) :
      Act (.worker .synthesis true) s (raiseFault b s)
  | syBatch {count : Nat} {s : State} (fits : syCheck count s = none) :
      Act (.worker .synthesis true) s (syBatch count s)
  /-- Pairs of halves taken from the queue (R301). -/
  | dropHalves (m : Nat) (s : State) : Act (.worker .synthesis false) s { s with syq := s.syq.drop (2 * m) }

/-- What a role makes of a state in some acts. -/
abbrev Acts (r : Role) : State → State → Prop := Relation.ReflTransGen (Act r)

/-- A command's meaning in a state: some acts of its role, then one response. -/
def Completes (r : Role) (s : State) (out : Result State) : Prop :=
  ∃ st ws u, Acts r s u ∧ out = .next (respond st ws u)

section
variable {r : Role} {s t : State} {out : Result State}

theorem Completes.finishes (st : Status) (ws : List Word) (h : Acts r s t) : Completes r s (finish st ws t) :=
  ⟨st, ws, t, h, rfl⟩

theorem Completes.act (st : Status) (ws : List Word) (h : Act r s t) : Completes r s (finish st ws t) :=
  .finishes st ws (.single h)

theorem Completes.unchanged (st : Status) (ws : List Word) : Completes r s (finish st ws s) := .finishes st ws .refl

theorem Completes.rejected (st : Status) : Completes r s (reject st s) := .unchanged st []

theorem Completes.cfgRejected (e : EngineId) (b : BankId) (q : Reason) : Completes (.control e) s (cfgReject b q s) :=
  .act .range [] (.countCfgErr e b q s)

theorem Completes.after (h : Acts r s t) (k : Completes r t out) : Completes r s out := by
  obtain ⟨st, ws, u, hu, rfl⟩ := k
  exact ⟨st, ws, u, h.trans hu, rfl⟩

end

/-! ## Every command's acts -/

/-! ### Units -/

theorem ncoOwner_of_index {k : Word} {j : Fin 3} (h : ncoIndex k = some j) : ncoOwner j = ncoSide k := by
  unfold ncoIndex at h
  split at h
  · cases h
    simp only [ncoOwner, ncoSide, Fin.ext_iff, eq_zero_iff]
    rfl
  · cases h

theorem Act.ofIndex {k : Word} {j : Fin 3} (h : ncoIndex k = some j) (n : Nco) (s : State) :
    Act (.worker (ncoSide k) false) s (Machine.setNco j n s) :=
  ncoOwner_of_index h ▸ .setNco j n s

theorem execNcoSetf_completes (k : Word) (nf : BitVec 64) (s : State) :
    Completes (.worker (ncoSide k) false) s (execNcoSetf k nf s) := by
  unfold execNcoSetf
  cases h : ncoIndex k with
  | none => exact .rejected .range
  | some j =>
    dsimp only
    split
    · exact .rejected .busy
    · exact .act .ok [] (.ofIndex h _ s)

theorem execNcoNext_completes (k : Word) (s : State) :
    Completes (.worker (ncoSide k) false) s (execNcoNext k s) := by
  unfold execNcoNext
  cases h : ncoIndex k with
  | none => exact .rejected .range
  | some j =>
    dsimp only
    split
    · exact .rejected .busy
    · exact .act .ok _ (.ofIndex h _ s)

theorem execNcoNexti_completes (k skew : Word) (s : State) :
    Completes (.worker (ncoSide k) false) s (execNcoNexti k skew s) := by
  unfold execNcoNexti
  cases h : ncoIndex k with
  | none => exact .rejected .range
  | some j =>
    dsimp only
    split
    · exact .rejected .busy
    · exact .act .ok _ (.ofIndex h _ s)

theorem execNcoRdph_completes (k : Word) (s : State) : Completes (.control (ncoSide k)) s (execNcoRdph k s) := by
  unfold execNcoRdph
  cases ncoIndex k with
  | none => exact .rejected .range
  | some j => exact .unchanged .ok _

/-- A ratio not below the least one is a legal one, whatever the rates (R161). -/
theorem rcSetRatio_ok {i o : Nat} (c : Rc) (hi : i < 2 ^ 32) (h : RC_RATIO_MIN ≤ rcRatio i o) :
    (rcSetRatio (rcRatio i o) c).Ok := by
  have hle : rcRatio i o ≤ (2 ^ 32 - 1) * 2 ^ 32 :=
    (Nat.div_le_self _ _).trans (Nat.mul_le_mul (Nat.le_sub_one_of_lt hi) le_rfl)
  have hnat : (rcSetRatio (rcRatio i o) c).ratio.toNat = rcRatio i o := by
    rw [rcSetRatio_ratio, BitVec.toNat_ofNat]
    exact Nat.mod_eq_of_lt (hle.trans_lt (by norm_num))
  exact ⟨hnat.symm ▸ h, hnat.symm ▸ hle⟩

theorem execRcCfg_completes (a b : Word) (reset : Bool) (s : State) :
    Completes (.worker .demodulation false) s (execRcCfg a b reset s) := by
  unfold execRcCfg
  split
  · exact .rejected .busy
  split
  · exact .rejected .range
  split
  · exact .rejected .range
  next hmin =>
  have hok := rcSetRatio_ok s.rc a.isLt (Nat.le_of_not_lt hmin)
  refine .act .ok [] (.setRc fun _ => ?_)
  cases reset with
  | true => exact ⟨hok.ratio_min, hok.ratio_max⟩
  | false => exact hok

theorem execRcConv_completes (xs : List Cfx) (s : State) :
    Completes (.worker .demodulation false) s (execRcConv xs s) := by
  unfold execRcConv
  split
  · exact .rejected .busy
  · exact .act .ok _ (.setRc fun h => ⟨by rw [rcPushAll_ratio]; exact h.ratio_min,
      by rw [rcPushAll_ratio]; exact h.ratio_max⟩)

theorem sfSetMask_ok {m : List Fx} {f : Sf} (hm : m.length = SF_N) (h : f.Ok) : (sfSetMask m f).Ok :=
  ⟨sparseWf_ofList _ _ _ (by omega), h.inb_wf⟩

theorem sfKeepTail_wf (inb : Sparse Cfx) : sparseWf cfxZero SF_N (sfKeepTail inb) = true := by
  refine sparseWf_ofList _ _ _ ?_
  simp [SF_L, SF_N]

theorem sfPush_ok (z : Cfx) {f : Sf} (h : f.Ok) : (sfPush z f).2.Ok := by
  obtain ⟨hmask, ⟨-, -, -, hinb⟩ | ⟨-, -, -, hinb⟩⟩ := sfPush_spec z f
  · exact ⟨hmask ▸ h.mask_wf, hinb ▸ sparseWf_set h.inb_wf _ _⟩
  · exact ⟨hmask ▸ h.mask_wf, hinb ▸ sfKeepTail_wf _⟩

theorem sfPushAll_ok (xs : List Cfx) {f : Sf} (h : f.Ok) : (sfPushAll xs f).2.Ok := by
  induction xs generalizing f with
  | nil => exact h
  | cons x xs ih => exact ih (sfPush_ok x h)

theorem execSfCfg_completes (mode bw opp rate : Word) (s : State) :
    Completes (.worker .demodulation false) s (execSfCfg mode bw opp rate s) := by
  unfold execSfCfg
  split
  · exact .rejected .busy
  · cases sfModeOf mode with
    | none => exact .rejected .range
    | some m =>
      dsimp only
      split
      · exact .rejected .range
      · exact .act .ok [] (.setSf (sfSetMask_ok (sfMaskgen_length m bw opp rate)))

theorem execSfApply_completes (xs : List Cfx) (s : State) :
    Completes (.worker .demodulation false) s (execSfApply xs s) := by
  unfold execSfApply
  split
  · exact .rejected .busy
  · exact .act .ok _ (.setSf (sfPushAll_ok xs))

theorem execLtUpd_completes (z : Cfx) (s : State) :
    Completes (.worker .demodulation false) s (execLtUpd z s) := by
  unfold execLtUpd
  split
  · exact .rejected .busy
  · exact .act .ok [] (.updateLt z s)

/-! ### Demodulation engine -/

theorem clampField_range (w : Word) {lo hi : Int} (h : lo ≤ hi) (h1 : FX_MIN ≤ lo) (h2 : hi ≤ FX_MAX) :
    lo ≤ (clampField w lo hi).toInt ∧ (clampField w lo hi).toInt ≤ hi := by
  rw [toInt_clampField w h h1 h2]
  omega

/-- A bank staged after the checks of R336 is legal. -/
theorem atvBankOf_ok {a b c : Word} (d e f : Word) (h v : Bool) (hb : b ≠ 0#32) (hc : c ≠ 0#32)
    (hlt : b.toNat < a.toNat) : (atvBankOf a b c d e f h v).Ok := by
  rw [Ne, eq_zero_iff] at hb hc
  obtain ⟨hmin, hmax⟩ := clampField_range d (lo := 1) (hi := ONE) (by decide) (by decide) (by decide)
  exact ⟨Nat.pos_of_ne_zero hb, hlt, Nat.pos_of_ne_zero hc, hmin, hmax,
    clampField_range e (by decide) (by decide) (by decide), clampField_range f (by decide) (by decide) (by decide)⟩

theorem execDmCfgatv_completes (a b c d e f : Word) (h v : Bool) (s : State) :
    Completes (.control .demodulation) s (execDmCfgatv a b c d e f h v s) := by
  unfold execDmCfgatv
  split_ifs with ha hb hc hle
  · exact .cfgRejected _ _ _
  · exact .cfgRejected _ _ _
  · exact .cfgRejected _ _ _
  · exact .cfgRejected _ _ _
  · exact .act .ok [] (.stageAtv (atvBankOf_ok d e f h v hb hc (Nat.lt_of_not_le hle)) s)

theorem execDmCfgrf_completes (a b c d : Word) (f g : Bool) (s : State) :
    Completes (.control .demodulation) s (execDmCfgrf a b c d f g s) := by
  unfold execDmCfgrf
  cases DemodKind.ofCode? b.toNat with
  | none => exact .cfgRejected _ _ _
  | some kind => exact .act .ok [] (.stageRf _ s)

theorem execDmCfgstream_completes (a : Word) (s : State) :
    Completes (.control .demodulation) s (execDmCfgstream a s) := by
  unfold execDmCfgstream
  split
  · exact .cfgRejected _ _ _
  · next h => exact .act .ok [] (.stageStream (Nat.pos_of_ne_zero (mt (eq_zero_iff a).2 h)) s)

theorem execDmStart_completes (s : State) : Completes (.worker .demodulation false) s (execDmStart s) := by
  unfold execDmStart
  split
  · exact .rejected .busy
  · have happly : Acts (.worker .demodulation false) s (if s.dm.pndF.any then dmApply s else s) := by
      split
      · exact .single (.dmApply s)
      · exact .refl
    refine .after happly ?_
    generalize (if s.dm.pndF.any then dmApply s else s) = t
    dsimp only
    split
    · next hval => exact .act .ok [] (.dmStart hval)
    · exact .rejected .nocfg

theorem execDmStop_completes (s : State) : Completes (.control .demodulation) s (execDmStop s) := by
  unfold execDmStop
  split
  · exact .act .ok [] (.requestDmStop s)
  · exact .unchanged .ok []

theorem dmSafePoint_acts (s : State) : Acts (.worker .demodulation false) s (dmSafePoint s) := by
  rcases dmSafePoint_cases s with ⟨-, h⟩ | ⟨-, -, h⟩ | ⟨-, -, h⟩
  · rw [h]; exact .single (.dmStopped s)
  · rw [h]; exact .single (.dmApply s)
  · rw [h]

theorem execDmFeed_completes (xs : List Cfx) (s : State) :
    Completes (.worker .demodulation false) s (execDmFeed xs s) := by
  unfold execDmFeed
  split
  · refine .after (dmSafePoint_acts s) ?_
    dsimp only
    split
    · next hactive => exact .act .ok _ (.dmBlock xs hactive)
    · exact .rejected .idle
  · exact .rejected .idle

/-! ### Synthesis engine -/

/-- A bank staged after the checks of R339 is legal. -/
theorem genBankOf_ok {a : Word} (b : Word) (depth : Depth) (kind : SynthKind) (e f g h i j k l : Word) (ha : a ≠ 0#32) :
    (genBankOf a b depth kind e f g h i j k l).Ok := by
  rw [Ne, eq_zero_iff] at ha
  exact ⟨Nat.pos_of_ne_zero ha, clampField_range f (by decide) (by decide) (by decide),
    clampField_range h (by decide) (by decide) (by decide), clampField_range i (by decide) (by decide) (by decide),
    clampField_range j (by decide) (by decide) (by decide), clampField_range k (by decide) (by decide) (by decide)⟩

theorem execSyCfg_completes (a b c d e f g h i j k l : Word) (s : State) :
    Completes (.control .synthesis) s (execSyCfg a b c d e f g h i j k l s) := by
  unfold execSyCfg
  split
  · exact .cfgRejected _ _ _
  next hrate =>
  cases Depth.ofCode? c.toNat with
  | none => exact .cfgRejected _ _ _
  | some depth =>
    cases SynthKind.ofCode? d.toNat with
    | none => exact .cfgRejected _ _ _
    | some kind => exact .act .ok [] (.stageGen (genBankOf_ok b depth kind e f g h i j k l hrate) s)

theorem execSyStart_completes (s : State) : Completes (.worker .synthesis false) s (execSyStart s) := by
  unfold execSyStart
  split
  · exact .rejected .halted
  next hrun =>
  split
  · exact .rejected .busy
  · have hrun' : (if s.gen.pndF then syApply s else s).gen.halted = false := by
      split
      · exact Bool.eq_false_iff.2 hrun
      · exact Bool.eq_false_iff.2 hrun
    have happly : Acts (.worker .synthesis false) s (if s.gen.pndF then syApply s else s) := by
      split
      · next hp => exact .single (.syApply false hp)
      · exact .refl
    refine .after happly ?_
    generalize (if s.gen.pndF then syApply s else s) = t at hrun'
    dsimp only
    split
    · next hval => exact .act .ok [] (.syStart hrun' hval)
    · exact .rejected .nocfg

theorem execSyStop_completes (s : State) : Completes (.control .synthesis) s (execSyStop s) := by
  unfold execSyStop
  split
  · exact .act .ok [] (.requestSyStop s)
  · exact .unchanged .ok []

theorem sySafePoint_acts (s : State) : Acts (.worker .synthesis true) s (sySafePoint s) := by
  rcases sySafePoint_cases s with ⟨-, h⟩ | ⟨-, hp, h⟩ | ⟨-, -, h⟩
  · rw [h]; exact .single (.syStopped s)
  · rw [h]; exact .single (.syApply true hp)
  · rw [h]

@[simp] theorem sySafePoint_halted (s : State) : (sySafePoint s).gen.halted = s.gen.halted := by
  rcases sySafePoint_cases s with ⟨-, h⟩ | ⟨-, -, h⟩ | ⟨-, -, h⟩ <;> rw [h] <;> rfl

theorem syGenerate_completes (count : Nat) {s : State} (hrun : s.gen.halted = false) :
    Completes (.worker .synthesis true) s (syGenerate count s) := by
  unfold syGenerate
  cases h : syCheck count s with
  | some b => exact .act .fault [0#32] (.raiseFault b hrun)
  | none => exact .act .ok _ (.syBatch h)

/-- A generating command: a halted or an idle engine refuses it, else it passes the safe point and generates if the engine is
still active (R282, R295). -/
theorem generating_completes {s : State} {gen : State → Result State}
    (hgen : ∀ t, t.gen.halted = false → Completes (.worker .synthesis true) t (gen t)) :
    Completes (.worker .synthesis true) s (if s.gen.halted then reject .halted s
      else if s.gen.active then
        if (sySafePoint s).gen.active then gen (sySafePoint s) else reject .idle (sySafePoint s)
      else reject .idle s) := by
  split
  · exact .rejected .halted
  next hrun =>
  split
  · refine .after (sySafePoint_acts s) ?_
    split
    · exact hgen _ (by rw [sySafePoint_halted]; exact Bool.eq_false_iff.2 hrun)
    · exact .rejected .idle
  · exact .rejected .idle

theorem execSyGen_completes (n : Word) (s : State) : Completes (.worker .synthesis true) s (execSyGen n s) :=
  generating_completes fun _ hrun => syGenerate_completes n.toNat hrun

theorem execSyTick_completes (s : State) : Completes (.worker .synthesis true) s (execSyTick s) :=
  generating_completes (gen := fun t => syGenerate (2 * syDueSamples t) (syTickAdvance t)) fun t hrun =>
    .after (.single (.syTickAdvance t)) (syGenerate_completes _ (by rw [syTickAdvance_gen]; exact hrun))

theorem execSyPop_completes (n : Word) (s : State) : Completes (.worker .synthesis false) s (execSyPop n s) := by
  unfold execSyPop
  split
  · exact .rejected .range
  · exact .act .ok _ (.dropHalves _ s)

/-! ### Every command -/

/-- What a command can do: some acts of its role, then its response. -/
theorem exec_completes {i : Instr} (hi : i ≠ .reset) (s : State) : Completes (roleOf i) s (exec i s) := by
  cases i with
  | nop => exact .unchanged .ok []
  | ncoSetf k nf => exact execNcoSetf_completes k nf s
  | ncoNext k => exact execNcoNext_completes k s
  | ncoNexti k skew => exact execNcoNexti_completes k skew s
  | ncoRdph k => exact execNcoRdph_completes k s
  | rcCfg a b reset => exact execRcCfg_completes a b reset s
  | rcConv xs => exact execRcConv_completes xs s
  | sfCfg mode bw opp rate => exact execSfCfg_completes mode bw opp rate s
  | sfApply xs => exact execSfApply_completes xs s
  | ltUpd z => exact execLtUpd_completes z s
  | ltAvg => exact .unchanged .ok _
  | ltPwr => exact .unchanged .ok _
  | dmCfgatv a b c d e f h v => exact execDmCfgatv_completes a b c d e f h v s
  | dmCfgrf a b c d f g => exact execDmCfgrf_completes a b c d f g s
  | dmCfgstream a => exact execDmCfgstream_completes a s
  | dmStart => exact execDmStart_completes s
  | dmStop => exact execDmStop_completes s
  | dmFeed xs => exact execDmFeed_completes xs s
  | dmStatus => exact .unchanged .ok _
  | syCfg a b c d e f g h i j k l => exact execSyCfg_completes a b c d e f g h i j k l s
  | syStart => exact execSyStart_completes s
  | syStop => exact execSyStop_completes s
  | syTick => exact execSyTick_completes s
  | syGen n => exact execSyGen_completes n s
  | syPop n => exact execSyPop_completes n s
  | syStatus => exact .unchanged .ok _
  | faultRd => exact .unchanged .ok _
  | reset => exact absurd rfl hi

/-! ## From the acts to the commands and the steps -/

/-- A relation between states that every act of a command's role and every response obeys, the command obeys. -/
theorem exec_relates {R : State → State → Prop} {i : Instr} {s t : State} (hi : i ≠ .reset) (h : exec i s = .next t)
    (refl : ∀ s, R s s) (trans : ∀ {s t u}, R s t → R t u → R s u) (act : ∀ {s t}, Act (roleOf i) s t → R s t)
    (resp : ∀ st ws s, R s (respond st ws s)) : R s t := by
  obtain ⟨st, ws, u, hu, hout⟩ := exec_completes hi s
  obtain rfl := next_inj.1 (h.symm.trans hout)
  have hacts : R s u := by
    clear h hout
    induction hu with
    | refl => exact refl s
    | tail _ hlast ih => exact trans ih (act hlast)
  exact trans hacts (resp st ws u)

/-- An invariant that is not about the ports holds after every step if it holds at reset and every act keeps it. -/
theorem step_keeps {P : State → Prop} (io : ∀ (s : State) (p : Io), P s → P { s with io := p }) (reset : P State.reset)
    (act : ∀ {r s t}, Act r s t → P s → P t) {s t : State} (hs : P s) (h : step s = .next t) : P t := by
  have hexec : ∀ (i : Instr) (u : State), P u → exec i u = .next t → P t := by
    intro i u hu hx
    by_cases hi : i = .reset
    · subst hi
      obtain rfl := next_inj.1 hx
      exact io State.reset _ reset
    · exact exec_relates (R := fun s t => P s → P t) hi hx (fun _ => id) (fun f g => g ∘ f) act (fun _ _ s => io s _) hu
  unfold step at h
  split at h
  · obtain rfl := next_inj.1 h
    exact io State.reset _ reset
  · split at h
    · obtain rfl := next_inj.1 h
      exact hs
    · obtain rfl := next_inj.1 h
      exact io s _ hs
    · exact hexec _ _ (io s _ hs) h

end Sys2Proof.Machine

/-! # What each agent leaves to the others (spec/10_state.md R39, R45; spec/60_exceptions.md R371, R375 to R377) -/

namespace Sys2Proof.Machine
open Config

/-! ## The engines' shares (R45) -/

/-- What the demodulation engine's acts leave of the synthesis engine, the fault register and TIMER. -/
structure SynthKept (s t : State) : Prop where
  share : synthShare t = synthShare s
  fault : t.fault = s.fault
  timerIn : t.io.timerIn = s.io.timerIn
  timerReads : t.io.timerReads = s.io.timerReads

theorem SynthKept.refl (s : State) : SynthKept s s := ⟨rfl, rfl, rfl, rfl⟩

theorem SynthKept.trans {s t u : State} (h : SynthKept s t) (k : SynthKept t u) : SynthKept s u :=
  ⟨k.share.trans h.share, k.fault.trans h.fault, k.timerIn.trans h.timerIn, k.timerReads.trans h.timerReads⟩

/-- What the synthesis engine's acts leave of the demodulation engine and PIX. -/
structure DemodKept (s t : State) : Prop where
  share : demodShare t = demodShare s
  pix : t.io.pix = s.io.pix

theorem DemodKept.refl (s : State) : DemodKept s s := ⟨rfl, rfl⟩

theorem DemodKept.trans {s t u : State} (h : DemodKept s t) (k : DemodKept t u) : DemodKept s u :=
  ⟨k.share.trans h.share, k.pix.trans h.pix⟩

theorem synthKept_dmApply (s : State) : SynthKept s (dmApply s) := by
  rcases dmApply_cases s with ⟨-, h⟩ | ⟨-, q, -, h⟩ | ⟨-, d, -, h⟩
  · rw [h]; exact ⟨rfl, rfl, rfl, rfl⟩
  · rw [h]; exact ⟨rfl, rfl, rfl, rfl⟩
  · rw [h, dmCommit_eq]; exact ⟨by simp [synthShare], rfl, rfl, rfl⟩

theorem synthKept_dmBlock (xs : List Cfx) (s : State) : SynthKept s (dmBlock xs s).2 := by
  have h := dmBlock_frame xs s
  exact ⟨by unfold synthShare; rw [h.nco1, h.nco2, h.gen, h.sybuf, h.syq], h.fault, h.timerIn, h.timerReads⟩

theorem ncoOwner_demod {k : Fin 3} (h : ncoOwner k = .demodulation) : k = 0 := by
  unfold ncoOwner at h
  split at h
  · assumption
  · cases h

theorem ncoOwner_synth {k : Fin 3} (h : ncoOwner k = .synthesis) : k ≠ 0 := by
  rintro rfl
  cases h

/-- No act of the demodulation engine reaches what the synthesis engine holds (R45, R93). -/
theorem Act.synthKept {r : Role} {s t : State} (h : Act r s t) (hr : r.engine = .demodulation) : SynthKept s t := by
  cases h with
  | countCfgErr | stageAtv | stageRf | stageStream | requestDmStop | setRc | setSf | updateLt | dmStopped =>
    exact ⟨rfl, rfl, rfl, rfl⟩
  | setNco k n =>
    obtain rfl := ncoOwner_demod hr
    exact ⟨by simp [synthShare], rfl, rfl, rfl⟩
  | dmApply => exact synthKept_dmApply s
  | dmStart => rw [dmCreate_eq]; exact ⟨by simp [synthShare], rfl, rfl, rfl⟩
  | dmBlock xs => exact synthKept_dmBlock xs s
  | stageGen | requestSyStop | syApply | syStopped | syStart | syTickAdvance | raiseFault | syBatch | dropHalves =>
    cases hr

/-- The state `sy_create` leaves: oscillators 1 and 2, the engine's start values, TIMER read (R346). -/
theorem syCreate_kept (s : State) : ∃ nco io, nco[(0 : Fin 3)] = s.nco[(0 : Fin 3)] ∧ io.pix = s.io.pix ∧
    syCreate s = { s with
      nco := nco
      gen := { s.gen with d := syDerive s.gen.cur, fmDev := 0#32, toggle := false, lastTime := timerNow s }
      io := io } := by
  choose ts k h using timerAdvance_eq
  unfold syCreate
  rw [h]
  refine ⟨_, _, ?_, ?_, rfl⟩
  · simp [syProgram_eq]
  · rfl

/-- The state the throttle leaves: the engine's time and toggle, TIMER read (R295). -/
theorem syTickAdvance_kept (s : State) : ∃ io, io.pix = s.io.pix ∧ syTickAdvance s = { s with
    gen := { s.gen with lastTime := timerNow s, toggle := !s.gen.toggle }
    io := io } := by
  choose ts k h using timerAdvance_eq
  unfold syTickAdvance
  rw [h]
  refine ⟨_, ?_, rfl⟩
  rfl

/-- The state a batch leaves: oscillators 1 and 2, the deviation, the buffer and the queue (R281). -/
theorem syBatch_kept (count : Nat) (s : State) : ∃ nco dev buf q, nco[(0 : Fin 3)] = s.nco[(0 : Fin 3)] ∧
    syBatch count s = { s with nco := nco, gen := { s.gen with fmDev := dev }, sybuf := buf, syq := q } := by
  have hfill := syFill_spec (count / 2) 0 s
  obtain ⟨nco, dev, buf, h⟩ := hfill.kept
  have h0 := hfill.nco0
  unfold syBatch syPush
  rw [h] at h0 ⊢
  exact ⟨nco, dev, buf, _, h0, rfl⟩

theorem demodKept_syBatch (count : Nat) (s : State) : DemodKept s (syBatch count s) := by
  obtain ⟨nco, dev, buf, q, h0, h⟩ := syBatch_kept count s
  rw [h]
  exact ⟨by simp [demodShare, h0], rfl⟩

/-- No act of the synthesis engine reaches what the demodulation engine holds (R45, R93). -/
theorem Act.demodKept {r : Role} {s t : State} (h : Act r s t) (hr : r.engine = .synthesis) : DemodKept s t := by
  cases h with
  | countCfgErr | stageGen | requestSyStop | syStopped | raiseFault | dropHalves => exact ⟨rfl, rfl⟩
  | setNco k n =>
    have hk : k.val ≠ 0 := fun h => ncoOwner_synth hr (Fin.ext h)
    exact ⟨by simp [demodShare, hk], rfl⟩
  | syApply => exact ⟨by simp [demodShare, Machine.syApply, syProgram_eq], rfl⟩
  | syStart =>
    obtain ⟨nco, io, h0, hpix, e⟩ := syCreate_kept s
    rw [e]
    exact ⟨by simp [demodShare, h0], hpix⟩
  | syTickAdvance =>
    obtain ⟨io, hpix, e⟩ := syTickAdvance_kept s
    rw [e]
    exact ⟨rfl, hpix⟩
  | syBatch => exact demodKept_syBatch _ s
  | stageAtv | stageRf | stageStream | requestDmStop | setRc | setSf | updateLt | dmApply | dmStopped | dmStart
  | dmBlock => cases hr

theorem ne_reset_of_isDemod {i : Instr} (h : isDemod i = true) : i ≠ .reset := by rintro rfl; cases h

theorem ne_reset_of_isSynth {i : Instr} (h : isSynth i = true) : i ≠ .reset := by rintro rfl; cases h

/-- Settles O15: `Act.synthKept` and `Act.demodKept`, act by act. -/
theorem enginesIndependent : Obligations.EnginesIndependent := by
  intro i s t h
  refine ⟨fun hi => ?_, fun hi => ?_⟩
  · obtain ⟨hshare, hfault, hin, hreads⟩ : SynthKept s t := exec_relates (ne_reset_of_isDemod hi) h .refl .trans
      (fun a => a.synthKept (roleOf_demod hi)) fun _ _ _ => ⟨rfl, rfl, rfl, rfl⟩
    exact ⟨hshare, hfault, hin, hreads⟩
  · obtain ⟨hshare, hpix⟩ : DemodKept s t := exec_relates (ne_reset_of_isSynth hi) h .refl .trans
      (fun a => a.demodKept (roleOf_synth hi)) fun _ _ _ => ⟨rfl, rfl⟩
    exact ⟨hshare, hpix⟩

/-! ## The control path (R330, R390) -/

/-- What the control path leaves: the workers' share, PIX, TIMER. -/
structure WorkersKept (s t : State) : Prop where
  share : workerShare t = workerShare s
  pix : t.io.pix = s.io.pix
  timerIn : t.io.timerIn = s.io.timerIn

theorem Act.workersKept {e : EngineId} {s t : State} (h : Act (.control e) s t) : WorkersKept s t := by
  cases h with
  | countCfgErr | stageAtv | stageRf | stageStream | stageGen | requestDmStop | requestSyStop => exact ⟨rfl, rfl, rfl⟩

/-- Settles O14: every act of the control path stages, requests or counts (`Act.workersKept`). -/
theorem controlOwnsPending : Obligations.ControlOwnsPending := by
  intro i s t hi h
  obtain ⟨e, hrole⟩ := roleOf_control hi
  have hne : i ≠ .reset := by rintro rfl; cases hi
  obtain ⟨hshare, hpix, hin⟩ : WorkersKept s t := exec_relates hne h (fun _ => ⟨rfl, rfl, rfl⟩)
    (fun a b => ⟨b.share.trans a.share, b.pix.trans a.pix, b.timerIn.trans a.timerIn⟩)
    (fun a => Act.workersKept (e := e) (hrole ▸ a)) fun _ _ _ => ⟨rfl, rfl, rfl⟩
  exact ⟨hshare, hpix, hin⟩

/-! ## Sticky faults (R375 to R377) -/

/-- Fault bits and the halted engine stay; what does not generate leaves both as they are. -/
structure FaultsKept (generates : Bool) (s t : State) : Prop where
  sticky : ∀ b, s.fault.getLsbD b = true → t.fault.getLsbD b = true
  halted : s.gen.halted = true → t.gen.halted = true ∧ t.fault = s.fault
  quiet : generates = false → t.fault = s.fault ∧ t.gen.halted = s.gen.halted

theorem FaultsKept.of_eq {g : Bool} {s t : State} (hf : t.fault = s.fault) (hh : t.gen.halted = s.gen.halted) :
    FaultsKept g s t :=
  ⟨fun _ hb => hf ▸ hb, fun h => ⟨hh.trans h, hf⟩, fun _ => ⟨hf, hh⟩⟩

theorem FaultsKept.trans {g : Bool} {s t u : State} (h : FaultsKept g s t) (k : FaultsKept g t u) : FaultsKept g s u where
  sticky b hb := k.sticky b (h.sticky b hb)
  halted hs :=
    have ⟨ht, hf⟩ := h.halted hs
    have ⟨hu, hf'⟩ := k.halted ht
    ⟨hu, hf'.trans hf⟩
  quiet hg :=
    have ⟨hf, hh⟩ := h.quiet hg
    have ⟨hf', hh'⟩ := k.quiet hg
    ⟨hf'.trans hf, hh'.trans hh⟩

/-- A fault is raised in an engine not yet halted, and adds its bit to those set (R376). -/
theorem faultsKept_raiseFault (b : FaultBit) {s : State} (running : s.gen.halted = false) :
    FaultsKept true s (raiseFault b s) where
  sticky j hj := by rw [raiseFault_fault, BitVec.getLsbD_or, hj, Bool.true_or]
  halted h := absurd (running.symm.trans h) (by decide)
  quiet h := absurd h (by decide)

theorem Act.faultsKept {r : Role} {s t : State} (h : Act r s t) : FaultsKept r.generates s t := by
  by_cases hr : r.engine = .demodulation
  · have hkept := h.synthKept hr
    have hgen : t.gen = s.gen := congrArg (·.2.2.1) hkept.share
    exact .of_eq hkept.fault (congrArg Gen.halted hgen)
  cases h with
  | countCfgErr | setNco | stageGen | requestSyStop | syApply | syStopped | dropHalves => exact .of_eq rfl rfl
  | syStart => exact .of_eq (syCreate_fault s) (congrArg Gen.halted (syCreate_gen s) :)
  | syTickAdvance => exact .of_eq (syTickAdvance_fault s) (congrArg Gen.halted (syTickAdvance_gen s) :)
  | raiseFault b running => exact faultsKept_raiseFault b running
  | syBatch =>
    obtain ⟨nco, dev, buf, q, -, h⟩ := syBatch_kept _ s
    rw [h]
    exact .of_eq rfl rfl
  | stageAtv | stageRf | stageStream | requestDmStop | setRc | setSf | updateLt | dmApply | dmStopped | dmStart
  | dmBlock => exact absurd rfl hr

/-- Settles O16: the faults through every act (`Act.faultsKept`). -/
theorem faultsSticky : Obligations.FaultsSticky := by
  intro i s t hi h
  obtain ⟨hsticky, hhalted, hquiet⟩ : FaultsKept (roleOf i).generates s t :=
    exec_relates hi h (fun _ => .of_eq rfl rfl) .trans Act.faultsKept fun _ _ _ => .of_eq rfl rfl
  exact ⟨hsticky, hhalted, fun hstore => hquiet (roleOf_storeless hstore)⟩

/-! ## The error count (R335, R341, R371) -/

/-- The error count rises by the number of EV_CFGREJ records, and saturates. -/
def ErrorsCounted (s t : State) : Prop :=
  ∃ evs, t.io.evt = s.io.evt ++ evs ∧ t.cfgErr.toNat = min (s.cfgErr.toNat + rejections evs) (2 ^ 32 - 1)

/-- Records that reject nothing, and the count unchanged. -/
theorem ErrorsCounted.quiet {s t : State} (evs : List Event) (he : t.io.evt = s.io.evt ++ evs)
    (hr : rejections evs = 0) (hc : t.cfgErr = s.cfgErr) : ErrorsCounted s t := by
  refine ⟨evs, he, ?_⟩
  have := s.cfgErr.isLt
  rw [hc, hr]
  omega

theorem ErrorsCounted.silent {s t : State} (he : t.io.evt = s.io.evt) (hc : t.cfgErr = s.cfgErr) : ErrorsCounted s t :=
  .quiet [] (by rw [he, List.append_nil]) rfl hc

theorem ErrorsCounted.trans {s t u : State} (h : ErrorsCounted s t) (k : ErrorsCounted t u) : ErrorsCounted s u := by
  obtain ⟨es, h1, h2⟩ := h
  obtain ⟨fs, k1, k2⟩ := k
  refine ⟨es ++ fs, by rw [k1, h1, List.append_assoc], ?_⟩
  rw [k2, h2, rejections_append]
  omega

theorem errorsCounted_countCfgErr (b : BankId) (q : Reason) (s : State) : ErrorsCounted s (countCfgErr b q s) :=
  ⟨[.cfgRej b q], rfl, satInc_toNat s.cfgErr⟩

theorem rejections_ite_nil {p : Prop} [Decidable p] {e : Event} (h : rejections [e] = 0) :
    rejections (if p then [] else [e]) = 0 := by
  split
  · rfl
  · exact h

theorem errorsCounted_dmApply (s : State) : ErrorsCounted s (dmApply s) := by
  rcases dmApply_cases s with ⟨-, h⟩ | ⟨-, q, -, h⟩ | ⟨-, d, -, h⟩
  · rw [h]; exact .silent rfl rfl
  · rw [h]; exact errorsCounted_countCfgErr .derived q _
  · rw [h, dmCommit_eq]
    refine .quiet _ (List.append_assoc _ _ _) ?_ rfl
    rw [rejections_append, rejections_ite_nil rfl, rejections_ite_nil rfl]

theorem Act.errorsCounted {r : Role} {s t : State} (h : Act r s t) : ErrorsCounted s t := by
  cases h with
  | countCfgErr e b q => exact errorsCounted_countCfgErr b q s
  | dmApply => exact errorsCounted_dmApply s
  | dmStopped => exact .quiet [.stopped .demodulation] rfl rfl rfl
  | syStopped => exact .quiet [.stopped .synthesis] rfl rfl rfl
  | raiseFault b => exact .quiet [.fault b] rfl rfl rfl
  | dmStart => rw [dmCreate_eq]; exact .quiet _ rfl (rejections_ite_nil rfl) rfl
  | dmBlock xs =>
    have hframe := dmBlock_frame xs s
    obtain ⟨evs, hevt, -, hrej⟩ := hframe.events
    exact .quiet evs hevt hrej hframe.cfgErr
  | syBatch =>
    obtain ⟨nco, dev, buf, q, -, h⟩ := syBatch_kept _ s
    rw [h]
    exact .silent rfl rfl
  | syStart => exact .silent (syCreate_io_evt s) (syCreate_cfgErr s)
  | syTickAdvance => exact .silent (syTickAdvance_io_evt s) (syTickAdvance_cfgErr s)
  | stageAtv | stageRf | stageStream | stageGen | requestDmStop | requestSyStop | setNco | setRc | setSf | updateLt
  | syApply | dropHalves => exact .silent rfl rfl

/-- Settles O18: the count through every act (`Act.errorsCounted`). -/
theorem cfgErrCounts : Obligations.CfgErrCounts := fun _ _ _ hi h =>
  exec_relates (R := ErrorsCounted) hi h (fun _ => .silent rfl rfl) .trans Act.errorsCounted fun _ _ _ => .silent rfl rfl

end Sys2Proof.Machine

/-! # The invariants of R44 (spec/10_state.md R27, R29, R35, R36, R44, R70, R75; spec/70_reset_and_hazards.md R411)

Each invariant holds at reset and every act keeps it, so every step keeps it (`step_keeps`). An invariant about one engine alone is
kept by the other engine's acts because they leave that engine's share. -/

namespace Sys2Proof.Machine
open Config

/-! ## The demodulation engine -/

theorem dmInv_reset : DmInv State.reset where
  ratio_min := by decide
  ratio_max := by decide
  win_nonneg := Lt.Ok.reset.win_nonneg
  sum_eq := Lt.Ok.reset.sum_eq
  active_valid h := absurd h Bool.false_ne_true
  derived h := absurd h Bool.false_ne_true
  geometry h := absurd h Bool.false_ne_true
  col_lt h := absurd h Bool.false_ne_true
  row_lt h := absurd h Bool.false_ne_true
  delta_pos := by decide

section
variable {s t : State}

/-- The invariant reads the demodulation engine's share only. -/
theorem DmInv.of_share (h : DmInv s) (hshare : demodShare t = demodShare s) : DmInv t := by
  simp only [demodShare, Prod.mk.injEq] at hshare
  obtain ⟨-, hrc, -, hlt, hdm, hsync⟩ := hshare
  cases s
  cases t
  subst hrc hlt hdm hsync
  exact { h with }

theorem DmInv.rc (h : DmInv s) : s.rc.Ok := ⟨h.ratio_min, h.ratio_max⟩

theorem DmInv.lt (h : DmInv s) : s.lt.Ok := ⟨h.win_nonneg, h.sum_eq⟩

theorem DmInv.raster (h : DmInv s) (hval : s.dm.val.all = true) : RasterOk s :=
  ⟨h.geometry hval, h.col_lt hval, h.row_lt hval, h.delta_pos⟩

/-- The invariant of an engine with all banks valid. -/
theorem DmInv.of_valid (rc : s.rc.Ok) (lt : s.lt.Ok) (valid : s.dm.val.all = true)
    (derived : dmDerive s.dm.cur = .ok s.dm.d) (raster : RasterOk s) : DmInv s where
  ratio_min := rc.ratio_min
  ratio_max := rc.ratio_max
  win_nonneg := lt.win_nonneg
  sum_eq := lt.sum_eq
  active_valid _ := valid
  derived _ := derived
  geometry _ := raster.geometry
  col_lt _ := raster.col
  row_lt _ := raster.row
  delta_pos := raster.delta

/-- The invariant of an idle engine without valid banks: that of its units. -/
theorem DmInv.of_idle (rc : s.rc.Ok) (lt : s.lt.Ok) (active : s.dm.active = false) (valid : s.dm.val.all = false)
    (delta : 0 < s.sync.effDelta.toInt) : DmInv s where
  ratio_min := rc.ratio_min
  ratio_max := rc.ratio_max
  win_nonneg := lt.win_nonneg
  sum_eq := lt.sum_eq
  active_valid h := absurd (active.symm.trans h) (by decide)
  derived h := absurd (valid.symm.trans h) (by decide)
  geometry h := absurd (valid.symm.trans h) (by decide)
  col_lt h := absurd (valid.symm.trans h) (by decide)
  row_lt h := absurd (valid.symm.trans h) (by decide)
  delta_pos := delta

end

/-! ### Programming, applying, starting -/

/-- The ratio `dm_program_units` sets for a derived geometry is legal (R161, R341). -/
theorem rcSetRatio_derived_ok {b : DmBanks} {d : DmDerived} (c : Rc) (h : dmDerive b = .ok d) :
    (rcSetRatio (rcRatio b.stream.inRateHz.toNat d.effRate.toNat) c).Ok := by
  obtain ⟨lpf, spl, lps, eff, top, -, -, -, -, -, -, -, -, -, -, -, -, heff, hle, -, -, -, hrate, -⟩ := dmDerive_spec h
  rw [hrate]
  exact rcSetRatio_ok c b.stream.inRateHz.isLt (rcRatio_range heff hle b.stream.inRateHz.isLt).2.1

/-- A fresh synchronization state lies within any legal geometry. -/
theorem rasterOk_reset {s : State} (hd : s.dm.d.Ok) (hsync : s.sync = .reset) : RasterOk s := by
  have hspl := hd.spl_min
  have hlpf := hd.lpf_min
  refine ⟨hd, ?_, ?_, ?_⟩ <;> rw [hsync]
  · exact lt_of_lt_of_le (by decide) hspl
  · exact lt_of_lt_of_le (by decide) hlpf
  · decide

/-- Banks with the timing of the running ones leave the raster within the new geometry (R341). -/
theorem sameTiming_spec {cand : DmBanks} {d : DmDerived} {s : State} (h : sameTiming cand d s = true) :
    s.dm.val.all = true ∧ d.spl = s.dm.d.spl ∧ d.lpf = s.dm.d.lpf := by
  unfold sameTiming at h
  rw [Bool.and_eq_true, decide_eq_true_eq] at h
  exact ⟨h.1, congrArg TimingKey.spl h.2, congrArg TimingKey.lpf h.2⟩

theorem dmInv_dmCommit {cand : DmBanks} {d : DmDerived} {s : State} (hd : dmDerive cand = .ok d) (h : DmInv s) :
    DmInv (dmCommit cand d s) := by
  rw [dmCommit_eq]
  refine .of_valid (rcSetRatio_derived_ok s.rc hd) h.lt rfl hd ?_
  by_cases hsame : sameTiming cand d s = true
  · obtain ⟨hval, hspl, hlpf⟩ := sameTiming_spec hsame
    have hraster := h.raster hval
    rw [if_pos hsame]
    exact ⟨dmDerive_ok hd, hspl ▸ hraster.col, hlpf ▸ hraster.row, hraster.delta⟩
  · exact rasterOk_reset (dmDerive_ok hd) (if_neg hsame)

theorem dmFlags_all_or {f : DmFlags} (g : DmFlags) (h : f.all = true) : (f.or g).all = true := by
  simp_all [DmFlags.all, DmFlags.or]

theorem dmInv_dmApply {s : State} (h : DmInv s) : DmInv (dmApply s) := by
  rcases dmApply_cases s with ⟨hnot, e⟩ | ⟨-, q, -, e⟩ | ⟨-, d, hd, e⟩
  · have hval : s.dm.val.all = false :=
      Bool.eq_false_iff.2 fun hv => absurd (hnot.symm.trans (dmFlags_all_or _ hv)) (by decide)
    have hidle : s.dm.active = false :=
      Bool.eq_false_iff.2 fun ha => absurd (hval.symm.trans (h.active_valid ha)) (by decide)
    rw [e]
    exact .of_idle h.rc h.lt hidle hnot h.delta_pos
  · rw [e]
    exact { h with }
  · rw [e]
    exact dmInv_dmCommit hd { h with }

theorem dmInv_dmStart {s : State} (valid : s.dm.val.all = true) (h : DmInv s) :
    DmInv { dmCreate s with dm := { (dmCreate s).dm with active := true, stopReq := false } } := by
  have hrc := rcSetRatio_derived_ok s.rc (h.derived valid)
  rw [dmCreate_eq]
  exact .of_valid ⟨hrc.ratio_min, hrc.ratio_max⟩ .reset valid (h.derived valid) (rasterOk_reset (h.geometry valid) rfl)

/-! ### A block (R216) -/

theorem rasterOk_dmFront (x : Cfx) {s : State} (h : RasterOk s) : RasterOk (dmFront x s).2 := by
  obtain ⟨c, f, e, -⟩ := dmFront_spec x s
  rw [e]
  exact ⟨h.geometry, h.col, h.row, h.delta⟩

theorem rasterOk_dmBlock (xs : List Cfx) {s : State} (h : RasterOk s) : RasterOk (dmBlock xs s).2 :=
  dmBlock_induction (P := RasterOk) (fun x _ h => rasterOk_dmFront x h) (fun z _ h => dmSample_raster z h) xs h

theorem ltOk_dmBlock (xs : List Cfx) {s : State} (h : s.lt.Ok) : (dmBlock xs s).2.lt.Ok := by
  refine dmBlock_induction (P := fun s => s.lt.Ok) (fun x s h => ?_) (fun z s h => ?_) xs h
  · obtain ⟨c, f, e, -⟩ := dmFront_spec x s
    rw [e]
    exact h
  · rw [dmSample_lt]
    exact ltUpdate_ok z h

theorem dmInv_dmBlock (xs : List Cfx) {s : State} (active : s.dm.active = true) (h : DmInv s) :
    DmInv (dmBlock xs s).2 := by
  have hval := h.active_valid active
  have hframe := dmBlock_frame xs s
  refine .of_valid ⟨?_, ?_⟩ (ltOk_dmBlock xs h.lt) ?_ ?_ (rasterOk_dmBlock xs (h.raster hval))
  · rw [hframe.ratio]; exact h.ratio_min
  · rw [hframe.ratio]; exact h.ratio_max
  · rw [hframe.val]; exact hval
  · rw [hframe.cur, hframe.d]; exact h.derived hval

/-! ### Every act -/

theorem Act.dmInv {r : Role} {s t : State} (a : Act r s t) (h : DmInv s) : DmInv t := by
  by_cases hr : r.engine = .synthesis
  · exact h.of_share (a.demodKept hr).share
  cases a with
  | countCfgErr | stageAtv | stageRf | stageStream | requestDmStop | setNco | setSf => exact { h with }
  | setRc legal => exact { h with ratio_min := (legal h.rc).ratio_min, ratio_max := (legal h.rc).ratio_max }
  | updateLt z =>
    have hlt := ltUpdate_ok z h.lt
    exact { h with win_nonneg := hlt.win_nonneg, sum_eq := hlt.sum_eq }
  | dmApply => exact dmInv_dmApply h
  | dmStopped => exact { h with active_valid := fun ha => absurd ha Bool.false_ne_true }
  | dmStart valid => exact dmInv_dmStart valid h
  | dmBlock xs active => exact dmInv_dmBlock xs active h
  | stageGen | requestSyStop | syApply | syStopped | syStart | syTickAdvance | raiseFault | syBatch | dropHalves =>
    exact absurd rfl hr

/-- Settles O11: every act keeps the invariant (`Act.dmInv`). -/
theorem stepKeepsDmInv : Obligations.StepKeepsDmInv := fun _ _ =>
  step_keeps (fun _ _ h => { h with }) dmInv_reset Act.dmInv

/-! ## The synthesis engine -/

theorem syInv_reset : SyInv State.reset where
  dev_min := by decide
  dev_max := by decide
  unit_min := by decide
  unit_max := by decide
  scale h := absurd h Bool.false_ne_true
  active_valid h := absurd h Bool.false_ne_true
  halted_idle h := absurd h Bool.false_ne_true
  halted_fault := by decide
  fault_bits := by decide
  fill_max := by decide
  fill_even := by decide

/-- The invariant reads the synthesis engine's share and the fault register only. -/
theorem SyInv.of_share {s t : State} (h : SyInv s) (hshare : synthShare t = synthShare s) (hfault : t.fault = s.fault) :
    SyInv t := by
  simp only [synthShare, Prod.mk.injEq] at hshare
  obtain ⟨-, -, hgen, -, hsyq⟩ := hshare
  cases s
  cases t
  subst hgen hsyq hfault
  exact { h with }

/-- The FM deviation unit lies in [0, ONE] (R294). -/
theorem fmUnit_range (dev rate : Word) : 0 ≤ (fmUnit dev rate).toInt ∧ (fmUnit dev rate).toInt ≤ ONE := by
  unfold fmUnit
  rw [toInt_ofInt_clamp (by decide) (by decide) (by decide)]
  exact ⟨le_clamp (by decide), clamp_le (by decide)⟩

theorem syInv_syApply {s : State} (h : SyInv s) : SyInv (syApply s) := by
  obtain ⟨hmin, hmax⟩ := fmUnit_range s.gen.pnd.fmDevHz s.gen.pnd.sampleRateHz
  exact { h with unit_min := hmin, unit_max := hmax, scale := fun _ => ⟨rfl, rfl⟩, active_valid := fun _ => rfl }

/-- An engine starts with the deviation 0 and the derived record of its running bank, not halted (R345, R346). -/
theorem syInv_syStart {s : State} (running : s.gen.halted = false) (valid : s.gen.val = true) (h : SyInv s) :
    SyInv { syCreate s with gen := { (syCreate s).gen with active := true, stopReq := false } } := by
  obtain ⟨hmin, hmax⟩ := fmUnit_range s.gen.cur.fmDevHz s.gen.cur.sampleRateHz
  obtain ⟨nco, io, -, -, e⟩ := syCreate_kept s
  rw [e]
  exact { h with
    dev_min := show -ONE ≤ (0#32 : Fx).toInt by decide
    dev_max := show (0#32 : Fx).toInt ≤ ONE by decide
    unit_min := hmin
    unit_max := hmax
    scale := fun _ => ⟨rfl, rfl⟩
    active_valid := fun _ => valid
    halted_idle := fun hh => absurd (running.symm.trans hh) (by decide) }

/-- An engine that is not halted has no fault bit set; the one raised halts it (R376, R386). -/
theorem syInv_raiseFault (b : FaultBit) {s : State} (running : s.gen.halted = false) (h : SyInv s) :
    SyInv (raiseFault b s) := by
  have hzero : s.fault = 0#32 := by
    by_contra hne
    exact absurd (running.symm.trans (h.halted_fault.2 hne)) (by decide)
  have hfault : (raiseFault b s).fault = 1#32 <<< b.code := by rw [raiseFault_fault, hzero, BitVec.zero_or]
  have hbit : 1#32 <<< b.code ≠ 0#32 ∧ (1#32 <<< b.code).toNat ≤ 2 := by cases b <;> decide
  exact { h with
    active_valid := fun ha => absurd ha Bool.false_ne_true
    halted_idle := fun _ => rfl
    halted_fault := ⟨fun _ => hfault ▸ hbit.1, fun _ => rfl⟩
    fault_bits := hfault ▸ hbit.2 }

/-- A batch that fits keeps the queue within its capacity and even, and the deviation in range (R75, R281, R289, R293). -/
theorem syInv_syBatch {count : Nat} {s : State} (fits : syCheck count s = none) (h : SyInv s) : SyInv (syBatch count s) := by
  have hdev := syFill_dev (count / 2) 0 ⟨h.dev_min, h.dev_max⟩
    ⟨(show -ONE ≤ 0 by decide).trans h.unit_min, h.unit_max⟩
  have hroom : 2 * (count / 2) ≤ SY_Q_WORDS - s.syq.length := by
    rcases syCheck_cases count s with ⟨-, hf⟩ | ⟨-, -, hf⟩ | ⟨-, hle, -⟩
    · exact absurd (hf.symm.trans fits) (by simp)
    · exact absurd (hf.symm.trans fits) (by simp)
    · exact hle
  have hmax := h.fill_max
  have heven := h.fill_even
  obtain ⟨nco, dev, buf, hfill⟩ := (syFill_spec (count / 2) 0 s).kept
  unfold syBatch syPush
  rw [hfill] at hdev ⊢
  have hlen : (s.syq ++ batchHalves (2 * (count / 2)) buf).length = s.syq.length + 2 * (count / 2) := by
    rw [List.length_append, batchHalves_length]
  exact { h with
    dev_min := hdev.1
    dev_max := hdev.2
    fill_max := hlen.trans_le (by omega)
    fill_even := (congrArg (· % 2) hlen).trans (by omega) }

theorem syInv_dropHalves (m : Nat) {s : State} (h : SyInv s) : SyInv { s with syq := s.syq.drop (2 * m) } := by
  have hmax := h.fill_max
  have heven := h.fill_even
  have hlen : (s.syq.drop (2 * m)).length = s.syq.length - 2 * m := List.length_drop
  exact { h with
    fill_max := hlen.trans_le (by omega)
    fill_even := (congrArg (· % 2) hlen).trans (by omega) }

theorem Act.syInv {r : Role} {s t : State} (a : Act r s t) (h : SyInv s) : SyInv t := by
  by_cases hr : r.engine = .demodulation
  · exact h.of_share (a.synthKept hr).share (a.synthKept hr).fault
  cases a with
  | countCfgErr | setNco | stageGen | requestSyStop => exact { h with }
  | syApply => exact syInv_syApply h
  | syStopped => exact { h with active_valid := fun ha => absurd ha Bool.false_ne_true, halted_idle := fun _ => rfl }
  | syStart running valid => exact syInv_syStart running valid h
  | syTickAdvance =>
    obtain ⟨io, -, e⟩ := syTickAdvance_kept s
    rw [e]
    exact { h with }
  | raiseFault b running => exact syInv_raiseFault b running h
  | syBatch fits => exact syInv_syBatch fits h
  | dropHalves m => exact syInv_dropHalves m h
  | stageAtv | stageRf | stageStream | requestDmStop | setRc | setSf | updateLt | dmApply | dmStopped | dmStart
  | dmBlock => exact absurd rfl hr

/-- Settles O12: every act keeps the invariant (`Act.syInv`). -/
theorem stepKeepsSyInv : Obligations.StepKeepsSyInv := fun _ _ =>
  step_keeps (fun _ _ h => { h with }) syInv_reset Act.syInv

/-! ## The banks and the arrays -/

theorem dataInv_reset : DataInv State.reset where
  atv_pending h := absurd h Bool.false_ne_true
  atv_running h := absurd h Bool.false_ne_true
  stream_pending h := absurd h Bool.false_ne_true
  stream_running h := absurd h Bool.false_ne_true
  gen_pending h := absurd h Bool.false_ne_true
  gen_running h := absurd h Bool.false_ne_true
  mask_wf := sparseWf_nil _ _
  inb_wf := sparseWf_nil _ _
  line_wf := sparseWf_nil _ _
  buf_wf := sparseWf_nil _ _

theorem DataInv.sf {s : State} (h : DataInv s) : s.sf.Ok := ⟨h.mask_wf, h.inb_wf⟩

/-- A candidate bank that is pending or valid passed validation (R341). -/
theorem DataInv.candidate {s : State} (h : DataInv s) :
    ((s.dm.val.or s.dm.pndF).atv = true → (dmCandidate s.dm).atv.Ok) ∧
      ((s.dm.val.or s.dm.pndF).stream = true → 0 < (dmCandidate s.dm).stream.inRateHz.toNat) := by
  constructor
  · intro hor
    show (if s.dm.pndF.atv = true then s.dm.pnd.atv else s.dm.cur.atv).Ok
    split
    · next hp => exact h.atv_pending hp
    · next hp => exact h.atv_running ((Bool.or_eq_true_iff.1 hor).resolve_right hp)
  · intro hor
    show 0 < (if s.dm.pndF.stream = true then s.dm.pnd.stream else s.dm.cur.stream).inRateHz.toNat
    split
    · next hp => exact h.stream_pending hp
    · next hp => exact h.stream_running ((Bool.or_eq_true_iff.1 hor).resolve_right hp)

theorem dmFlags_of_all {f : DmFlags} (h : f.all = true) : f.atv = true ∧ f.stream = true := by
  simp_all [DmFlags.all]

theorem dataInv_dmApply {s : State} (h : DataInv s) : DataInv (dmApply s) := by
  obtain ⟨hatv, hstream⟩ := h.candidate
  rcases dmApply_cases s with ⟨-, e⟩ | ⟨-, q, -, e⟩ | ⟨hall, d, -, e⟩
  · rw [e]
    exact { h with
      atv_pending := fun hp => absurd hp Bool.false_ne_true
      stream_pending := fun hp => absurd hp Bool.false_ne_true
      atv_running := hatv
      stream_running := hstream }
  · rw [e]
    exact { h with
      atv_pending := fun hp => absurd hp Bool.false_ne_true
      stream_pending := fun hp => absurd hp Bool.false_ne_true }
  · obtain ⟨hva, hvs⟩ := dmFlags_of_all hall
    rw [e, dmCommit_eq]
    exact { h with
      atv_pending := fun hp => absurd hp Bool.false_ne_true
      stream_pending := fun hp => absurd hp Bool.false_ne_true
      atv_running := fun _ => hatv hva
      stream_running := fun _ => hstream hvs
      mask_wf := (sfSetMask_ok (sfMaskgen_length _ _ _ _) h.sf).mask_wf }

theorem dataInv_dmStart {s : State} (h : DataInv s) :
    DataInv { dmCreate s with dm := { (dmCreate s).dm with active := true, stopReq := false } } := by
  rw [dmCreate_eq]
  exact { h with
    mask_wf := (sfSetMask_ok (sfMaskgen_length _ _ _ _) h.sf).mask_wf
    inb_wf := sparseWf_nil _ _
    line_wf := sparseWf_nil _ _ }

/-- The filter's arrays stay canonical through the front end, which leaves everything about the banks and the line (R217). -/
theorem dataInv_dmFront (x : Cfx) {s : State} (h : DataInv s) : DataInv (dmFront x s).2 := by
  have hsf : ∀ zs, (filtBlock s.dm.d.filtOn zs s.sf).2.Ok := by
    intro zs
    cases s.dm.d.filtOn with
    | false => exact h.sf
    | true => exact sfPushAll_ok zs h.sf
  rw [dmFront_eq]
  exact { h with mask_wf := (hsf _).mask_wf, inb_wf := (hsf _).inb_wf }

/-- A sample changes the line buffer alone of what the invariant is about, one entry of it (R220). -/
theorem dataInv_dmSample (z : Cfx) {s : State} (h : DataInv s) : DataInv (dmSample z s) := by
  have hframe := dmSample_frame z s
  constructor
  · rw [hframe.pndF, hframe.pnd]; exact h.atv_pending
  · rw [hframe.val, hframe.cur]; exact h.atv_running
  · rw [hframe.pndF, hframe.pnd]; exact h.stream_pending
  · rw [hframe.val, hframe.cur]; exact h.stream_running
  · rw [hframe.gen]; exact h.gen_pending
  · rw [hframe.gen]; exact h.gen_running
  · rw [hframe.sf]; exact h.mask_wf
  · rw [hframe.sf]; exact h.inb_wf
  · exact dmSample_line_wf z h.line_wf
  · rw [hframe.sybuf]; exact h.buf_wf

theorem dataInv_dmBlock (xs : List Cfx) {s : State} (h : DataInv s) : DataInv (dmBlock xs s).2 :=
  dmBlock_induction (P := DataInv) (fun x _ h => dataInv_dmFront x h) (fun z _ h => dataInv_dmSample z h) xs h

theorem dataInv_syBatch (count : Nat) {s : State} (h : DataInv s) : DataInv (syBatch count s) := by
  have hfill := syFill_spec (count / 2) 0 s
  have hbuf := hfill.wf h.buf_wf
  obtain ⟨nco, dev, buf, e⟩ := hfill.kept
  unfold syBatch syPush
  rw [e] at hbuf ⊢
  exact { h with buf_wf := hbuf }

theorem Act.dataInv {r : Role} {s t : State} (a : Act r s t) (h : DataInv s) : DataInv t := by
  cases a with
  | stageAtv legal => exact { h with atv_pending := fun _ => legal }
  | stageStream legal => exact { h with stream_pending := fun _ => legal }
  | stageGen legal => exact { h with gen_pending := fun _ => legal }
  | setSf legal => exact { h with mask_wf := (legal h.sf).mask_wf, inb_wf := (legal h.sf).inb_wf }
  | dmApply => exact dataInv_dmApply h
  | syApply g pending =>
    exact { h with gen_pending := fun hp => absurd hp Bool.false_ne_true, gen_running := fun _ => h.gen_pending pending }
  | dmStart => exact dataInv_dmStart h
  | dmBlock xs => exact dataInv_dmBlock xs h
  | syBatch => exact dataInv_syBatch _ h
  | syStart =>
    obtain ⟨nco, io, -, -, e⟩ := syCreate_kept s
    rw [e]
    exact { h with }
  | syTickAdvance =>
    obtain ⟨io, -, e⟩ := syTickAdvance_kept s
    rw [e]
    exact { h with }
  | countCfgErr | stageRf | requestDmStop | requestSyStop | setNco | setRc | updateLt | dmStopped | syStopped | raiseFault
  | dropHalves => exact { h with }

/-- Settles O13: every act keeps the invariant (`Act.dataInv`). -/
theorem stepKeepsDataInv : Obligations.StepKeepsDataInv := fun _ _ =>
  step_keeps (fun _ _ h => { h with }) dataInv_reset Act.dataInv

/-! ## At reset -/

/-- Settles O10. -/
theorem invariantsAtReset : Obligations.InvariantsAtReset := ⟨dmInv_reset, syInv_reset, dataInv_reset⟩

end Sys2Proof.Machine

/-! # The step and the encoding (spec/20_memory.md R82; spec/30_encoding.md R101, R105 to R107) -/

namespace Sys2Proof

/-- The two halves of an {hi, lo} operand give it back (R105). -/
theorem append_halves (v : BitVec 64) : v.extractLsb' 32 32 ++ v.extractLsb' 0 32 = v := by
  rw [BitVec.extractLsb'_append_extractLsb'_eq_extractLsb' (by rfl)]
  exact BitVec.extractLsb'_eq_self

/-- The words of a block of legal length decode to its samples (R105, R106). -/
theorem decodeBlock_unpair {xs : List Cfx} {n : Nat} (mk : List Cfx → Instr) (hn : n = (unpair xs).length)
    (h : blockOk xs = true) : decodeBlock n (unpair xs) mk = .ok (mk xs) := by
  obtain ⟨hmin, hmax⟩ : 1 ≤ xs.length ∧ xs.length ≤ Config.DM_BLOCK_MAX := by simpa [blockOk] using h
  rw [unpair_length] at hn
  unfold decodeBlock
  rw [if_neg (by omega), pairUp_unpair]

/-- The operand words of a well-formed command, under a header of its own, decode to it (R106, R107). -/
theorem decodeCommand_operandsOf {i : Instr} {h : Word} (hi : WellFormed i = true) (hopc : headerOpc h = opcodeOf i)
    (hlen : headerLen h = (operandsOf i).length) : decodeCommand h (operandsOf i) = .ok i := by
  unfold decodeCommand
  rw [hopc]
  cases i with
  | ncoSetf k nf => exact congrArg (fun v => Except.ok (Instr.ncoSetf k v)) (append_halves nf)
  | rcConv | sfApply | dmFeed => exact decodeBlock_unpair _ hlen hi
  | rcCfg => simp [operandsOf, opcodeOf, decodeRcCfg, flagsOk_flagsWord_one]
  | dmCfgatv => simp [operandsOf, opcodeOf, decodeCfgatv, flagsOk_flagsWord]
  | dmCfgrf => simp [operandsOf, opcodeOf, decodeCfgrf, flagsOk_flagsWord]
  | nop | ncoNext | ncoNexti | ncoRdph | sfCfg | ltUpd | ltAvg | ltPwr | dmCfgstream | dmStart | dmStop | dmStatus
  | syCfg | syStart | syStop | syTick | syGen | syPop | syStatus | faultRd | reset => rfl

/-- The decoder reads back what the encoder writes, whatever follows (R101). -/
theorem decode_encode {i : Instr} (hi : WellFormed i = true) (rest : List Word) :
    decode (encode i ++ rest) = some (.ok i, rest) := by
  have hopc := headerOpc_headerWord (opcodeOf_lt i) (operandsOf_length hi)
  have hlen := headerLen_headerWord (opcodeOf_lt i) (operandsOf_length hi)
  refine (decode_cons _ (operandsOf i ++ rest) (by rw [hlen, List.length_append]; omega)).trans ?_
  rw [hlen, List.take_left, List.drop_left, decodeCommand_operandsOf hi hopc hlen]

end Sys2Proof

namespace Sys2Proof.Machine

/-- A legal command waiting: the step runs it, its words consumed (R82, R101). -/
theorem step_of_decode {s : State} {i : Instr} {rest : List Word} (hrun : s.io.resetIn = false)
    (h : decode s.io.cmd = some (.ok i, rest)) : step s = exec i (withCmd rest s) := by
  simp [step, resetAsserted, nextCommand, hrun, h]

/-- No whole command waiting: the step waits (R107; log entry 8). -/
theorem step_of_decode_none {s : State} (hrun : s.io.resetIn = false) (h : decode s.io.cmd = none) :
    step s = .next s := by
  simp [step, resetAsserted, nextCommand, hrun, h]

/-- Settles O6. -/
theorem stepRunsCommand : Obligations.StepRunsCommand := fun _ hrun =>
  ⟨fun _ rest hi hcmd => step_of_decode hrun (by rw [hcmd]; exact decode_encode hi rest),
    fun _ _ h => step_of_decode hrun h, step_of_decode_none hrun⟩

end Sys2Proof.Machine

/-! # Who reaches the synthesis buffer and the queue (spec/20_memory.md R70, R74, R75) -/

namespace Sys2Proof.Machine

/-- An act that generates nothing stores nothing into the synthesis buffer (R70, R74). -/
theorem Act.buffer_kept {r : Role} {s t : State} (h : Act r s t) (hr : r.generates = false) : t.sybuf = s.sybuf := by
  by_cases he : r.engine = .demodulation
  · have hshare := (h.synthKept he).share
    simp only [synthShare, Prod.mk.injEq] at hshare
    obtain ⟨-, -, -, hbuf, -⟩ := hshare
    exact hbuf
  · cases h with
    | countCfgErr | stageGen | requestSyStop | setNco | syApply | dropHalves => rfl
    | syStart => exact syCreate_sybuf s
    | syStopped | syTickAdvance | raiseFault | syBatch => cases hr
    | stageAtv | stageRf | stageStream | requestDmStop | setRc | setSf | updateLt | dmApply | dmStopped | dmStart
    | dmBlock => exact absurd rfl he

/-- An outcome that leaves the queue of a state as it was (R75). -/
def KeepsQueue (s : State) (out : Result State) : Prop := ∀ t, out = .next t → t.syq = s.syq

theorem KeepsQueue.finishes {s t : State} (st : Status) (ws : List Word) (h : t.syq = s.syq) :
    KeepsQueue s (finish st ws t) := by
  rintro _ ⟨⟩
  exact h

theorem KeepsQueue.ite {s : State} {a b : Result State} {p : Prop} [Decidable p] (ha : KeepsQueue s a)
    (hb : KeepsQueue s b) : KeepsQueue s (if p then a else b) := by
  split
  · exact ha
  · exact hb

theorem KeepsQueue.of_control {i : Instr} (hi : isControl i = true) (s : State) : KeepsQueue s (exec i s) := by
  intro t h
  obtain ⟨hshare, -⟩ := controlOwnsPending i s t hi h
  simp only [workerShare, Prod.mk.injEq] at hshare
  obtain ⟨-, -, -, -, -, -, hq, -⟩ := hshare
  exact hq

theorem KeepsQueue.of_demod {i : Instr} (hi : isDemod i = true) (s : State) : KeepsQueue s (exec i s) := by
  intro t h
  obtain ⟨hshare, -⟩ := (enginesIndependent i s t h).1 hi
  simp only [synthShare, Prod.mk.injEq] at hshare
  obtain ⟨-, -, -, -, hq⟩ := hshare
  exact hq

theorem execNcoSetf_keepsQueue (k : Word) (nf : BitVec 64) (s : State) : KeepsQueue s (execNcoSetf k nf s) := by
  unfold execNcoSetf
  cases ncoIndex k with
  | none => exact .finishes .range [] rfl
  | some j => exact .ite (.finishes .busy [] rfl) (.finishes .ok [] rfl)

theorem execNcoNext_keepsQueue (k : Word) (s : State) : KeepsQueue s (execNcoNext k s) := by
  unfold execNcoNext
  cases ncoIndex k with
  | none => exact .finishes .range [] rfl
  | some j => exact .ite (.finishes .busy [] rfl) (.finishes .ok _ rfl)

theorem execNcoNexti_keepsQueue (k skew : Word) (s : State) : KeepsQueue s (execNcoNexti k skew s) := by
  unfold execNcoNexti
  cases ncoIndex k with
  | none => exact .finishes .range [] rfl
  | some j => exact .ite (.finishes .busy [] rfl) (.finishes .ok _ rfl)

theorem execSyStart_keepsQueue (s : State) : KeepsQueue s (execSyStart s) := by
  have hq : (if s.gen.pndF then syApply s else s).syq = s.syq := by split <;> rfl
  exact .ite (.finishes .halted [] rfl) (.ite (.finishes .busy [] rfl)
    (.ite (.finishes .ok [] ((syCreate_syq _).trans hq)) (.finishes .nocfg [] hq)))

/-- A command that neither generates nor resets nor pops leaves the queue: the control path and the demodulation engine hold
none of it, the oscillators and SY.START do not touch it (R45, R75). -/
theorem exec_keepsQueue {i : Instr} (s : State) (hstore : storesToBuffer i = false) (hpop : ∀ n, i ≠ .syPop n) :
    KeepsQueue s (exec i s) := by
  cases i with
  | nop | ncoRdph | ltAvg | ltPwr | dmCfgatv | dmCfgrf | dmCfgstream | dmStop | dmStatus | syCfg | syStop | syStatus
  | faultRd => exact .of_control rfl s
  | rcCfg | rcConv | sfCfg | sfApply | ltUpd | dmStart | dmFeed => exact .of_demod rfl s
  | ncoSetf k nf => exact execNcoSetf_keepsQueue k nf s
  | ncoNext k => exact execNcoNext_keepsQueue k s
  | ncoNexti k skew => exact execNcoNexti_keepsQueue k skew s
  | syStart => exact execSyStart_keepsQueue s
  | syPop n => exact absurd rfl (hpop n)
  | syTick | syGen | reset => cases hstore

/-- Settles O20: the buffer through every act (`Act.buffer_kept`), the queue by `exec_keepsQueue`. -/
theorem bufferFrame : Obligations.BufferFrame := by
  intro i s t hstore h
  have hne : i ≠ .reset := by rintro rfl; cases hstore
  have hbuf : t.sybuf = s.sybuf := exec_relates (R := fun s t => t.sybuf = s.sybuf) hne h (fun _ => rfl)
    (fun a b => b.trans a) (fun a => a.buffer_kept (roleOf_storeless hstore)) fun _ _ _ => rfl
  exact ⟨fun a => by rw [hbuf], fun hpop => exec_keepsQueue s hstore hpop t h⟩

end Sys2Proof.Machine

/-! # The safe points (spec/20_memory.md R84; spec/46_control.md R340 to R343)

A cycle command with something pending runs as it does from the state in which it has been applied: applying leaves the engine
running and nothing pending, so that the second safe point does nothing. -/

namespace Sys2Proof.Machine
open Config

/-! ## Demodulation engine -/

/-- Applying leaves the engine as active and as requested to stop as it was, and nothing pending (R341). -/
theorem dmApply_flags (s : State) : (dmApply s).dm.active = s.dm.active ∧ (dmApply s).dm.stopReq = s.dm.stopReq ∧
    (dmApply s).dm.pndF = .clear := by
  rcases dmApply_cases s with ⟨-, h⟩ | ⟨-, q, -, h⟩ | ⟨-, d, -, h⟩
  · rw [h]; exact ⟨rfl, rfl, rfl⟩
  · rw [h]; exact ⟨rfl, rfl, rfl⟩
  · rw [h, dmCommit_eq]; exact ⟨rfl, rfl, rfl⟩

/-- DM.FEED with messages pending is DM.FEED of the state with the pending messages applied (R216, R340). -/
theorem exec_dmFeed_pending {s : State} (xs : List Cfx) (hactive : s.dm.active = true) (hstop : s.dm.stopReq = false)
    (hpend : s.dm.pndF.any = true) : exec (.dmFeed xs) s = exec (.dmFeed xs) (dmApply s) := by
  obtain ⟨hactive', hstop', hclear⟩ := dmApply_flags s
  have hquiet : (dmApply s).dm.pndF.any = false := by rw [hclear]; rfl
  have hfirst : dmSafePoint s = dmApply s := by simp [dmSafePoint, hstop, hpend]
  have hsecond : dmSafePoint (dmApply s) = dmApply s := by simp [dmSafePoint, hstop', hstop, hquiet]
  show execDmFeed xs s = execDmFeed xs (dmApply s)
  simp only [execDmFeed, hfirst, hsecond, hactive', hactive, if_true]

/-- With the running banks valid an illegal candidate is dropped (R341). -/
theorem dmApply_illegal {s : State} {q : Reason} (hval : s.dm.val.all = true)
    (h : dmDerive (dmCandidate s.dm) = .error q) :
    dmApply s = countCfgErr .derived q { s with dm := { s.dm with pndF := .clear } } := by
  unfold dmApply
  dsimp only
  rw [if_pos (dmFlags_all_or _ hval), h]

/-- With the running banks valid a legal candidate is committed (R341). -/
theorem dmApply_legal {s : State} {d : DmDerived} (hval : s.dm.val.all = true)
    (h : dmDerive (dmCandidate s.dm) = .ok d) :
    dmApply s = dmCommit (dmCandidate s.dm) d { s with dm := { s.dm with pndF := .clear } } := by
  unfold dmApply
  dsimp only
  rw [if_pos (dmFlags_all_or _ hval), h]

/-- With the running banks valid, a commit keeps the timing exactly when no timing field changes (R341). -/
theorem sameTiming_iff {cand : DmBanks} {d : DmDerived} {s : State} (hval : s.dm.val.all = true) :
    sameTiming cand d s = true ↔ d.spl = s.dm.d.spl ∧ d.lpf = s.dm.d.lpf ∧ d.topN = s.dm.d.topN ∧
      d.effRate = s.dm.d.effRate ∧ cand.rf.modKind = s.dm.cur.rf.modKind ∧ cand.atv.hsyncEn = s.dm.cur.atv.hsyncEn ∧
      cand.atv.vsyncEn = s.dm.cur.atv.vsyncEn := by
  simp [sameTiming, timingKey, hval]

/-- The ratio of a legal geometry fits its register (R161, R341). -/
theorem toNat_rcRatio_derived {b : DmBanks} {d : DmDerived} (h : dmDerive b = .ok d) :
    (BitVec.ofNat 64 (rcRatio b.stream.inRateHz.toNat d.effRate.toNat)).toNat =
      b.stream.inRateHz.toNat * 2 ^ 32 / d.effRate.toNat := by
  obtain ⟨-, -, -, eff, -, -, -, -, -, -, -, -, -, -, -, -, -, hpos, hle, -, -, -, heff, -⟩ := dmDerive_spec h
  exact (rcRatio_range (heff ▸ hpos) (heff ▸ hle) b.stream.inRateHz.isLt).1

/-- The mask mode of each kind (R188). -/
theorem sfMode_mem (k : DemodKind) : (k, k.sfMode) ∈
    [(DemodKind.fm1, SfMode.dsb), (.fm2, .dsb), (.am, .dsb), (.vsbU, .upper), (.vsbL, .lower)] := by
  cases k <;> decide

/-- Settles O44: `exec_dmFeed_pending`, and what applying leaves in either case (`dmApply_illegal`, `dmApply_legal`,
`dmCommit_eq`). -/
theorem feedAppliesPending : Obligations.FeedAppliesPending := by
  intro s xs cand hactive hstop hpend hval hcand
  obtain rfl : cand = dmCandidate s.dm := hcand
  rw [exec_dmFeed_pending xs hactive hstop hpend]
  refine ⟨fun q hq => ⟨satInc s.cfgErr, satInc_toNat _, ?_⟩, fun d hd same hsame => ?_⟩
  · rw [dmApply_illegal hval hq]
    rfl
  · have hkey : same = sameTiming (dmCandidate s.dm) d { s with dm := { s.dm with pndF := .clear } } :=
      Bool.eq_iff_iff.2 (hsame.trans (sameTiming_iff (s := { s with dm := { s.dm with pndF := .clear } }) hval).symm)
    refine ⟨_, _, _, toNat_ncoIncHz _ _, toNat_rcRatio_derived hd, sfMode_mem _, ?_⟩
    rw [dmApply_legal hval hd, dmCommit_eq, ← hkey]
    rfl

/-! ## Synthesis engine -/

/-- The state `sy_apply` leaves: the pending bank running, increments and derived record from it, phases kept (R343). -/
theorem syApply_eq (s : State) : syApply s = { s with
    nco := (s.nco.set 1 { s.nco[(1 : Fin 3)] with
        inc := ncoIncHz s.gen.pnd.carrierHz.toInt s.gen.pnd.sampleRateHz.toNat }).set 2
      { s.nco[(2 : Fin 3)] with inc := ncoIncHz s.gen.pnd.toneHz.toNat s.gen.pnd.sampleRateHz.toNat }
    gen := { s.gen with cur := s.gen.pnd, pndF := false, val := true, d := syDerive s.gen.pnd } } := by
  unfold syApply
  rw [syProgram_eq]

theorem sySafePoint_pending {s : State} (hstop : s.gen.stopReq = false) (hpend : s.gen.pndF = true) :
    sySafePoint s = syApply s := by
  simp [sySafePoint, hstop, hpend]

theorem sySafePoint_quiet {s : State} (hstop : s.gen.stopReq = false) (hpend : s.gen.pndF = false) :
    sySafePoint s = s := by
  simp [sySafePoint, hstop, hpend]

/-- A safe point that has applied a message has nothing left to do (R342). -/
theorem sySafePoint_syApply {s : State} (hstop : s.gen.stopReq = false) : sySafePoint (syApply s) = syApply s :=
  sySafePoint_quiet hstop rfl

theorem exec_syGen_running {s : State} (count : Word) (hrun : s.gen.halted = false) (hactive : s.gen.active = true) :
    exec (.syGen count) s =
      if (sySafePoint s).gen.active then syGenerate count.toNat (sySafePoint s) else reject .idle (sySafePoint s) := by
  show execSyGen count s = _
  simp [execSyGen, hrun, hactive]

theorem exec_syTick_running {s : State} (hrun : s.gen.halted = false) (hactive : s.gen.active = true) :
    exec .syTick s =
      if (sySafePoint s).gen.active then
        syGenerate (2 * syDueSamples (sySafePoint s)) (syTickAdvance (sySafePoint s))
      else reject .idle (sySafePoint s) := by
  show execSyTick s = _
  simp [execSyTick, hrun, hactive]

/-- The derived scale of each depth (R123, R294). -/
theorem syDerive_mem (b : GenBank) : (b.depth, (syDerive b).shift, (syDerive b).ampFs) ∈
    [(Depth.bits8, 7, 127), (.bits12, 11, 2047), (.bits16, 15, 32767)] := by
  show (b.depth, b.depth.shift, b.depth.ampFs) ∈ _
  cases b.depth <;> decide

/-- The deviation unit (R294). -/
theorem toInt_fmUnit (dev rate : Word) :
    (fmUnit dev rate).toInt = max 0 (min 65536 ((dev.toNat : Int) * 2 ^ 17 / rate.toNat)) := by
  unfold fmUnit
  rw [toInt_ofInt_clamp (by decide) (by decide) (by decide), clamp_eq_max_min (by decide)]
  rfl

/-- Settles O54: the safe point of the state with the message applied does nothing more (`sySafePoint_syApply`). -/
theorem syAppliesPending : Obligations.SyAppliesPending := by
  rintro s _ hrun hactive hstop hpend rfl
  have hfirst := sySafePoint_pending hstop hpend
  have hsecond := sySafePoint_syApply hstop
  refine ⟨_, _, syDerive s.gen.pnd, syApply s, toNat_ncoIncHz _ _, toNat_ncoIncHz _ _, syDerive_mem _,
    toInt_fmUnit _ _, syApply_eq s, ?_, fun n => ?_⟩
  · rw [exec_syTick_running hrun hactive, exec_syTick_running (s := syApply s) hrun hactive, hfirst, hsecond]
  · rw [exec_syGen_running n hrun hactive, exec_syGen_running (s := syApply s) n hrun hactive, hfirst, hsecond]

end Sys2Proof.Machine

/-! # SY.GEN and SY.POP (spec/20_memory.md R74 to R76; spec/45_synthesis.md R281, R282, R301, R303) -/

namespace Sys2Proof.Machine
open Config

/-! ## SY.GEN -/

/-- SY.GEN of a running engine with nothing pending generates (R282). -/
theorem exec_syGen_quiet {s : State} (count : Word) (hrun : s.gen.halted = false) (hactive : s.gen.active = true)
    (hstop : s.gen.stopReq = false) (hpend : s.gen.pndF = false) :
    exec (.syGen count) s = syGenerate count.toNat s := by
  rw [exec_syGen_running count hrun hactive, sySafePoint_quiet hstop hpend, if_pos hactive]

/-- A count that passes both checks gives the batch (R281). -/
theorem syGenerate_fits {s : State} {count : Nat} (hbuf : count ≤ SY_BUF_WORDS)
    (hqueue : s.syq.length + 2 * (count / 2) ≤ SY_Q_WORDS) :
    syGenerate count s = .next (respond .ok [BitVec.ofNat 32 (2 * (count / 2))] (syBatch count s)) := by
  have hcheck : syCheck count s = none := by
    unfold syCheck syqFree
    rw [if_neg (by omega), if_neg (by omega)]
  unfold syGenerate
  rw [hcheck]
  rfl

theorem mem_batchHalves {n : Nat} {m : Memory} {h : Half} : h ∈ batchHalves n m ↔ ∃ j < n, memRead m (2 * j) = h := by
  simp [batchHalves]

/-- Settles O55: the filled buffer by `syFill_spec`, pushed as it stands. -/
theorem syGenCompletes : Obligations.SyGenCompletes := by
  intro s count pairs hrun hactive hstop hpend hcount hpairs hfits
  have hexec := (exec_syGen_quiet count hrun hactive hstop hpend).trans
    (syGenerate_fits hcount (by rw [← hpairs]; exact hfits))
  have hdemod := (demodKept_syBatch count.toNat s).share
  rw [syBatch, ← hpairs] at hexec hdemod
  have fill := syFill_spec pairs 0 s
  obtain ⟨nco, dev, buf, hkept⟩ := fill.kept
  have hio : (syFill pairs 0 s).io = s.io := by rw [hkept]
  have hsyq : (syFill pairs 0 s).syq = s.syq := by rw [hkept]
  have hgen : (syFill pairs 0 s).gen = { s.gen with fmDev := (syFill pairs 0 s).gen.fmDev } := by rw [hkept]
  have hfault : (syFill pairs 0 s).fault = s.fault := by rw [hkept]
  have herr : (syFill pairs 0 s).cfgErr = s.cfgErr := by rw [hkept]
  refine ⟨_, batchHalves (2 * pairs) (syFill pairs 0 s).sybuf, hexec, by rw [← hio]; rfl, by rw [← hsyq]; rfl,
    batchHalves_length _ _, fun j hj => batchHalves_getElem? _ _ hj, fun hamp h hh => ?_,
    fun a ha => fill.outside a (.inr (by omega)), fill.phase1, fill.inc1, fill.none2,
    fun hmod => ⟨fill.phase2 hmod, fill.inc2⟩, hgen, fill.dev, hdemod, hfault, herr⟩
  have hbytes : 4 * (0 + pairs) ≤ sybufBytes := by simp only [sybufBytes, SY_BUF_WORDS]; omega
  obtain ⟨j, hj, rfl⟩ := mem_batchHalves.1 hh
  exact fill.halves hamp hbytes j (by omega) (by omega)

/-! ## SY.POP -/

/-- SY.POP of an even count from an even queue: the first halves, as many as asked for or held (R301). -/
theorem exec_syPop_even {s : State} {n : Word} {m : Nat} (hn : n.toNat % 2 = 0) (hq : s.syq.length % 2 = 0)
    (hm : m = min n.toNat s.syq.length) : exec (.syPop n) s =
      .next (respond .ok (BitVec.ofNat 32 m :: packHalves (s.syq.take m)) { s with syq := s.syq.drop m }) := by
  have hpairs : 2 * (min n.toNat s.syq.length / 2) = min n.toNat s.syq.length := by omega
  show execSyPop n s = _
  unfold execSyPop
  rw [if_neg (by omega), hm]
  simp only [popCount, syqFill, hpairs, finish_eq]

/-- Settles O60: `exec_syPop_even` for each of the three commands, and `packHalves_append` for the split. -/
theorem syPopResult : Obligations.SyPopResult := by
  intro s n m hn hq hm
  refine ⟨_, exec_syPop_even hn hq hm, ?_, fun j w hw => ?_, fun k hk hfit => ?_⟩
  · rw [packHalves_length, List.length_take]
    omega
  · obtain ⟨hlow, hhigh⟩ := packHalves_getElem? _ _ hw
    have hj : 2 * j + 1 < m := by
      have hlt := (List.getElem?_eq_some_iff.1 hhigh).1
      rw [List.length_take] at hlt
      omega
    rw [← hlow, ← hhigh, List.getElem?_take_of_lt (by omega), List.getElem?_take_of_lt hj]
    exact ⟨rfl, rfl⟩
  · have hsum : (n + k).toNat = n.toNat + k.toNat := by rw [BitVec.toNat_add, Nat.mod_eq_of_lt hfit]
    have hleft : (s.syq.drop m).length = s.syq.length - m := List.length_drop
    obtain ⟨l, hl⟩ : ∃ l, l = min k.toNat (s.syq.drop m).length := ⟨_, rfl⟩
    refine ⟨packHalves ((s.syq.drop m).take l), packHalves (s.syq.take (m + l)), l, ?_, ?_, ?_⟩
    · rw [← List.drop_drop]
      exact exec_syPop_even hk (by dsimp only; omega) hl
    · exact exec_syPop_even (by omega) hq (by omega)
    · rw [List.take_add]
      exact packHalves_append _ _ (by rw [List.length_take]; omega)

end Sys2Proof.Machine

/-! # Decoding whole commands (spec/30_encoding.md R101, R105 to R109, R112 to R114)

What the decoder accepts has the opcode of its header and the operands that follow it (`decodeCommand_encodes`): with
`decode_encode` the converse, and with it the answer to everything else. -/

namespace Sys2Proof
open Sys2Proof.Machine

/-- Settles O1: `decode_encode`. -/
theorem decodeOfEncode : Obligations.DecodeOfEncode := fun _ rest hi => decode_encode hi rest

/-- The command is well-formed and has this opcode and these operand words (R106). -/
structure Encodes (opc : Nat) (ops : List Word) (i : Instr) : Prop where
  wellFormed : WellFormed i = true
  opcode : opcodeOf i = opc
  operands : operandsOf i = ops

theorem Encodes.of_decode0 {i j : Instr} {opc : Nat} {ops : List Word} (h : decode0 j ops = .ok i)
    (hj : Encodes opc [] j) : Encodes opc ops i := by
  obtain ⟨rfl, rfl⟩ := decode0_ok h
  exact hj

theorem Encodes.of_decode1 {i : Instr} {mk : Word → Instr} {opc : Nat} {ops : List Word}
    (h : decode1 mk ops = .ok i) (hmk : ∀ a, Encodes opc [a] (mk a)) : Encodes opc ops i := by
  obtain ⟨a, rfl, rfl⟩ := decode1_ok h
  exact hmk a

theorem Encodes.of_decodeBlock {i : Instr} {mk : List Cfx → Instr} {opc : Nat} {ops : List Word}
    (h : decodeBlock ops.length ops mk = .ok i)
    (hmk : ∀ xs, blockOk xs = true → Encodes opc (unpair xs) (mk xs)) : Encodes opc ops i := by
  obtain ⟨xs, rfl, rfl, hxs⟩ := decodeBlock_ok h
  exact hmk xs hxs

/-- A command accepted with a `flags` operand has no unnamed flag set (R105, R107). -/
theorem flagged_ok {i j : Instr} {n : Nat} {f : Word}
    (h : (if flagsOk n f then .ok j else .error .reservedFlag : Except Illegal Instr) = .ok i) :
    flagsOk n f = true ∧ j = i := by
  split at h
  · next hf => exact ⟨hf, Except.ok.inj h⟩
  · cases h

theorem decodeRcCfg_encodes {i : Instr} {ops : List Word} (h : decodeRcCfg ops = .ok i) : Encodes 0x20 ops i := by
  unfold decodeRcCfg at h
  split at h
  · obtain ⟨hf, rfl⟩ := flagged_ok h
    exact ⟨rfl, rfl, by rw [operandsOf, flagsWord_flagBit_one hf]⟩
  · cases h

theorem decodeCfgatv_encodes {i : Instr} {ops : List Word} (h : decodeCfgatv ops = .ok i) : Encodes 0x50 ops i := by
  unfold decodeCfgatv at h
  split at h
  · obtain ⟨hf, rfl⟩ := flagged_ok h
    exact ⟨rfl, rfl, by rw [operandsOf, flagsWord_flagBit hf]⟩
  · cases h

theorem decodeCfgrf_encodes {i : Instr} {ops : List Word} (h : decodeCfgrf ops = .ok i) : Encodes 0x51 ops i := by
  unfold decodeCfgrf at h
  split at h
  · obtain ⟨hf, rfl⟩ := flagged_ok h
    exact ⟨rfl, rfl, by rw [operandsOf, flagsWord_flagBit hf]⟩
  · cases h

theorem encodes_ncoSetf (k hi lo : Word) : Encodes 0x10 [k, hi, lo] (.ncoSetf k (hi ++ lo)) :=
  ⟨rfl, rfl, by rw [operandsOf, extract_append_high, extract_append_low]⟩

/-- What a header and its LEN operand words decode to has that opcode and those operands (R106, R107). -/
theorem decodeCommand_encodes {h : Word} {ops : List Word} {i : Instr} (hd : decodeCommand h ops = .ok i)
    (hlen : ops.length = headerLen h) : Encodes (headerOpc h) ops i := by
  unfold decodeCommand at hd
  rw [← hlen] at hd
  generalize headerOpc h = opc at hd ⊢
  split at hd
  -- no operand, one operand word, a block, a `flags` operand
  case h_1 | h_11 | h_12 | h_16 | h_17 | h_19 | h_21 | h_22 | h_23 | h_26 | h_27 | h_28 =>
    exact .of_decode0 hd ⟨rfl, rfl, rfl⟩
  case h_3 | h_5 | h_15 | h_24 | h_25 => exact .of_decode1 hd fun _ => ⟨rfl, rfl, rfl⟩
  case h_7 | h_9 | h_18 => exact .of_decodeBlock hd fun _ hxs => ⟨hxs, rfl, rfl⟩
  case h_6 => exact decodeRcCfg_encodes hd
  case h_13 => exact decodeCfgatv_encodes hd
  case h_14 => exact decodeCfgrf_encodes hd
  -- NCO.SETF, whose operands include a two-word one
  case h_2 =>
    split at hd
    · cases hd
      exact encodes_ncoSetf _ _ _
    · cases hd
  -- NCO.NEXTI, SF.CFG, LT.UPD, SY.CFG: a fixed number of one-word operands
  case h_4 | h_8 | h_10 | h_20 =>
    split at hd
    · cases hd
      exact ⟨rfl, rfl, rfl⟩
    · cases hd
  -- a reserved opcode
  case h_29 => cases hd

/-- A command with the opcode and the operands of a header and its words is encoded as these (R101). -/
theorem Encodes.encode_eq {h : Word} {ops : List Word} {i : Instr} (hi : Encodes (headerOpc h) ops i)
    (hlen : ops.length = headerLen h) : encode i = h :: ops := by
  rw [encode, hi.opcode, hi.operands, hlen, headerWord_fields]

/-- Settles O2: `decodeCommand_encodes`. -/
theorem encodeOfDecode : Obligations.EncodeOfDecode := by
  intro cmd rest i h
  obtain ⟨hd, ws, rfl, hn, hok, rfl⟩ := decode_some h
  have hlen := List.length_take_of_le hn
  have hi := decodeCommand_encodes hok.symm hlen
  refine ⟨hi.wellFormed, ?_⟩
  rw [hi.encode_eq hlen, List.cons_append, List.take_append_drop]

/-- No command has a reserved opcode (R109). -/
theorem opcodeOf_not_reserved (i : Instr) : ¬ reservedOpcode (opcodeOf i) := by
  cases i <;> simp [opcodeOf, reservedOpcode]

/-- What is no encoding of a well-formed command, and what has a reserved opcode, is refused (R107 to R109). -/
theorem decodeCommand_error {h : Word} {ops : List Word} (hlen : ops.length = headerLen h)
    (hbad : (∀ i, WellFormed i = true → h :: ops ≠ encode i) ∨ reservedOpcode (headerOpc h)) :
    ∃ e, decodeCommand h ops = .error e := by
  cases hd : decodeCommand h ops with
  | error e => exact ⟨e, rfl⟩
  | ok i =>
    have hi := decodeCommand_encodes hd hlen
    rcases hbad with hbad | hres
    · exact absurd (hi.encode_eq hlen).symm (hbad i hi.wellFormed)
    · exact absurd (hi.opcode ▸ hres) (opcodeOf_not_reserved i)

/-- An illegal command waiting: the step consumes its words and answers E_ILLEGAL (R101, R107, R108). -/
theorem step_of_decode_error {s : State} {e : Illegal} {rest : List Word} (hrun : s.io.resetIn = false)
    (h : decode s.io.cmd = some (.error e, rest)) : step s = .next (respond .illegal [] (withCmd rest s)) := by
  simp [step, resetAsserted, nextCommand, hrun, h, rejectIllegal, reject]

/-- Settles O3: `decodeCommand_error`. -/
theorem illegalAnswered : Obligations.IllegalAnswered := by
  intro s h ws hrun hcmd hlen hbad
  rw [← headerLen_eq] at hlen hbad ⊢
  rw [← headerOpc_eq] at hbad
  obtain ⟨e, he⟩ := decodeCommand_error (List.length_take_of_le hlen) hbad
  have hd : decode s.io.cmd = some (.error e, ws.drop (headerLen h)) := by rw [hcmd, decode_cons h ws hlen, he]
  exact step_of_decode_error hrun hd

/-- Settles O4: each sample run through the decoder. -/
theorem sampleWordsDecode : Obligations.SampleWordsDecode :=
  ⟨rfl, rfl, rfl, rfl, rfl, rfl, rfl, rfl, rfl, rfl, rfl⟩

end Sys2Proof

/-! # The records on the ports (spec/30_encoding.md R102 to R104, R110, R111, R121) -/

namespace Sys2Proof.Machine
open Config

/-- The code field of a record's first word (R102 to R104). -/
theorem headerWord_code {o n : Nat} (ho : o < 2 ^ 8) (hn : n < 2 ^ 24) :
    ((headerWord o n).extractLsb' 24 8).toNat = o := by
  rw [← headerOpc_eq, headerOpc_headerWord ho hn]

/-- The length field of a record's first word (R102 to R104). -/
theorem headerWord_len {o n : Nat} (ho : o < 2 ^ 8) (hn : n < 2 ^ 24) :
    ((headerWord o n).extractLsb' 0 24).toNat = n := by
  rw [← headerLen_eq, headerLen_headerWord ho hn]

/-- The words of a record, from the number of its payload words. -/
theorem recordWords_eq {code : Nat} {h : Word} {payload : List Word} (n : Nat) (hn : payload.length = n)
    (hh : headerWord code n = h) : recordWords code payload = h :: payload := by
  subst hn
  exact congrArg (· :: payload) hh

theorem Status.code_lt (st : Status) : st.code < 2 ^ 8 := by
  cases st <;> decide

/-- The status codes (R110). -/
theorem Status.code_mem (st : Status) : (st.code, st) ∈ [(0, Status.ok), (1, .illegal), (2, .range), (3, .busy),
    (4, .idle), (5, .nocfg), (6, .halted), (7, .fault)] := by
  cases st <;> decide

theorem Fsm.code_lt (f : Fsm) : f.code < 2 ^ 3 := by
  cases f <;> decide

/-- The codes of the demodulation states (R121). -/
theorem Fsm.code_mem (f : Fsm) : (f.code, f) ∈ [(0, Fsm.unsynchronized), (1, .lineSyncSearching), (2, .lineLocked),
    (3, .frameSyncSearching), (4, .frameLocked)] := by
  cases f <;> decide

theorem Fsm.codeWord_mem (f : Fsm) : ((BitVec.ofNat 32 f.code).toNat, f) ∈ [(0, Fsm.unsynchronized),
    (1, .lineSyncSearching), (2, .lineLocked), (3, .frameSyncSearching), (4, .frameLocked)] := by
  rw [BitVec.toNat_ofNat, Nat.mod_eq_of_lt (f.code_lt.trans (by decide))]
  exact f.code_mem

/-- The bank ids (R103). -/
theorem BankId.codeWord_mem (b : BankId) : ((BitVec.ofNat 32 b.code).toNat, b) ∈ [(0, BankId.atv), (1, .rf),
    (2, .stream), (3, .synthesis), (4, .derived)] := by
  cases b <;> decide

/-- The reason codes (R111). -/
theorem Reason.codeWord_mem (q : Reason) : ((BitVec.ofNat 32 q.code).toNat, q) ∈ [(1, Reason.zeroField),
    (2, .topNotLess), (3, .badEnum), (4, .badLpf), (5, .badLps), (6, .badSpl), (7, .badTop)] := by
  cases q <;> decide

/-- The words of a response (R102, R110). -/
theorem response_format {r : Response} (hlen : r.words.length < 2 ^ 24) : ∃ h : Word, r.toWords = h :: r.words ∧
    (h.extractLsb' 0 24).toNat = r.words.length ∧ (h.extractLsb' 24 8).toNat = r.status.code :=
  ⟨_, recordWords_eq _ rfl rfl, headerWord_len r.status.code_lt hlen, headerWord_code r.status.code_lt hlen⟩

/-- The words of a scan line (R104). -/
theorem line_format (row n : Word) {vs : List Fx} (hlen : vs.length ≤ SPL_MAX) : ∃ h : Word,
    (Pixel.line row n vs).toWords = h :: row :: n :: vs ∧ (h.extractLsb' 24 8).toNat = 1 ∧
    (h.extractLsb' 0 24).toNat = 2 + vs.length := by
  have hfits : 2 + vs.length < 2 ^ 24 := by simp only [SPL_MAX] at hlen; omega
  have hcount : (row :: n :: vs).length = 2 + vs.length := by simp only [List.length_cons]; omega
  exact ⟨_, recordWords_eq _ hcount rfl, headerWord_code (by decide) hfits, headerWord_len (by decide) hfits⟩

/-- Settles O5. -/
theorem portFormats : Obligations.PortFormats := by
  refine ⟨fun r hlen => ?_, fun _ => recordWords_eq 1 rfl rfl,
    fun old new => ⟨_, _, recordWords_eq 2 rfl rfl, old.codeWord_mem, new.codeWord_mem⟩,
    fun bank q => ⟨_, _, recordWords_eq 2 rfl rfl, bank.codeWord_mem, q.codeWord_mem⟩,
    recordWords_eq 1 rfl rfl, recordWords_eq 1 rfl rfl, recordWords_eq 1 rfl rfl, recordWords_eq 1 rfl rfl,
    fun row n _ hlen => line_format row n hlen, fun _ _ => recordWords_eq 2 rfl rfl⟩
  obtain ⟨h, hwords, hcount, hcode⟩ := response_format hlen
  exact ⟨h, hwords, hcount, hcode ▸ r.status.code_mem⟩

end Sys2Proof.Machine

/-! # The status reads (spec/30_encoding.md R115 to R117; spec/46_control.md R331, R350 to R352) -/

namespace Sys2Proof.Machine
open Config

/-! ## Bits and fields of a status word -/

/-- The bits of a flag at its position. -/
@[simp] theorem getLsbD_bitAt (b : Bool) {i : Nat} (j : Nat) (hi : i < 32) :
    (bitAt b i).getLsbD j = (b && decide (i = j)) := by
  cases b with
  | false => simp [bitAt]
  | true => exact (BitVec.getLsbD_twoPow i j).trans (by simp [hi])

/-- A code of k bits sets none above them. -/
theorem getLsbD_code {n k j : Nat} (hn : n < 2 ^ k) (hj : k ≤ j) : (BitVec.ofNat 32 n).getLsbD j = false := by
  rw [BitVec.getLsbD_ofNat, Nat.testBit_lt_two_pow (hn.trans_le (Nat.pow_le_pow_right two_pos hj)), Bool.and_false]

/-- The number a field of a word holds, from the field's bits. -/
theorem toNat_field {w : Word} {lo len n : Nat} (hn : n < 2 ^ len)
    (h : ∀ j, j < len → w.getLsbD (lo + j) = n.testBit j) : (w.extractLsb' lo len).toNat = n := by
  refine Nat.eq_of_testBit_eq fun j => ?_
  rw [BitVec.testBit_toNat, BitVec.getLsbD_extractLsb']
  by_cases hj : j < len
  · rw [h j hj, decide_eq_true hj, Bool.true_and]
  · rw [decide_eq_false hj, Bool.false_and,
      Nat.testBit_lt_two_pow (hn.trans_le (Nat.pow_le_pow_right two_pos (Nat.le_of_not_lt hj)))]

/-- A field with no bit set. -/
theorem field_zero {w : Word} {lo len : Nat} (h : ∀ j, j < len → w.getLsbD (lo + j) = false) :
    w.extractLsb' lo len = 0#len :=
  BitVec.eq_of_toNat_eq (toNat_field (Nat.two_pow_pos len) fun j hj => (h j hj).trans (Nat.zero_testBit j).symm)

/-! ## DM.STATUS -/

/-- R115's table of the flags of DM.STATUS, by bit position. -/
def dmStatusFlagAt (s : State) : Nat → Bool
  | 3 => s.dm.active
  | 4 => s.sync.fsm.locked
  | 5 => s.sync.hsNow
  | 6 => s.dm.active
  | 7 => s.sync.fsm.locked
  | 10 => s.dm.stopReq
  | 11 => s.dm.pndF.atv
  | 12 => s.dm.pndF.rf
  | 13 => s.dm.pndF.stream
  | 14 => s.dm.val.atv
  | 15 => s.dm.val.rf
  | 16 => s.dm.val.stream
  | 17 => s.dm.d.filtOn
  | 18 => s.dm.d.decimOn
  | _ => false

/-- Word 1 of DM.STATUS, bit by bit: the state's code below the flags (R115). -/
theorem getLsbD_dmStatusFlags (s : State) (j : Nat) :
    (dmStatusFlags s).getLsbD j = ((BitVec.ofNat 32 s.sync.fsm.code).getLsbD j || dmStatusFlagAt s j) := by
  simp only [dmStatusFlags, videoActive, videoOk, audioActive, audioOk, BitVec.getLsbD_or, Nat.reduceLT,
    getLsbD_bitAt, Bool.or_assoc, Bool.false_and, Bool.false_or]
  congr 1
  rcases Nat.lt_or_ge j 19 with hj | hj
  · interval_cases j <;> simp [dmStatusFlagAt]
  · obtain ⟨m, rfl⟩ := Nat.exists_eq_add_of_le' hj
    simp [dmStatusFlagAt]

/-- Bits 2:0 of that word are the state's code (R115, R121). -/
theorem dmStatusFlags_fsm (s : State) : ((dmStatusFlags s).extractLsb' 0 3).toNat = s.sync.fsm.code := by
  refine toNat_field s.sync.fsm.code_lt fun j hj => ?_
  have hflag : dmStatusFlagAt s (0 + j) = false := by interval_cases j <;> rfl
  have hfits : 0 + j < 32 := by omega
  rw [getLsbD_dmStatusFlags, hflag, Bool.or_false, BitVec.getLsbD_ofNat, decide_eq_true hfits, Bool.true_and,
    Nat.zero_add]

/-- Its other bits are the flags (R115). -/
theorem dmStatusFlags_flag (s : State) {j : Nat} (hj : 3 ≤ j) : (dmStatusFlags s).getLsbD j = dmStatusFlagAt s j := by
  rw [getLsbD_dmStatusFlags, getLsbD_code s.sync.fsm.code_lt hj, Bool.false_or]

/-- The locked states are those of code 2 and above (R121). -/
theorem Fsm.locked_eq (f : Fsm) : f.locked = decide (2 ≤ f.code) := by
  cases f <;> decide

/-- Settles O21: word 1 by `dmStatusFlags_fsm` and `dmStatusFlags_flag`. -/
theorem dmStatusReport : Obligations.DmStatusReport := by
  intro s
  have hcode := dmStatusFlags_fsm s
  have hflag {j : Nat} (hj : 3 ≤ j) := dmStatusFlags_flag s hj
  refine ⟨dmStatusFlags s, ltAvg s.lt, ltPwr s.lt, dmStatusPosition s, rfl, hcode ▸ s.sync.fsm.code_mem,
    hflag (by decide), ?_, hflag (by decide), hflag (by decide), ?_, hflag (by decide), hflag (by decide),
    hflag (by decide), hflag (by decide), hflag (by decide), hflag (by decide), hflag (by decide), hflag (by decide),
    hflag (by decide), hflag (by decide), hflag (by decide), ?_, rfl, rfl, ?_, ?_⟩
  · rw [hcode, ← Fsm.locked_eq]
    exact hflag (by decide)
  · rw [hflag (by decide), hflag (by decide)]
    rfl
  · refine field_zero fun j _ => ?_
    rw [hflag (by omega), Nat.add_comm]
    rfl
  · rw [dmStatusPosition, extract_append_high, BitVec.extractLsb'_toNat]
    rfl
  · rw [dmStatusPosition, extract_append_low, BitVec.extractLsb'_toNat]
    rfl

/-! ## SY.STATUS -/

/-- R116's table of the flags of SY.STATUS, by bit position. -/
def syStatusFlagAt (s : State) : Nat → Bool
  | 0 => s.gen.active
  | 1 => s.gen.halted
  | 2 => s.gen.stopReq
  | 3 => s.gen.pndF
  | 4 => s.gen.val
  | 5 => s.gen.toggle
  | _ => false

theorem Depth.code_lt (d : Depth) : d.code < 2 ^ 2 := by
  cases d <;> decide

theorem SynthKind.code_lt (k : SynthKind) : k.code < 2 ^ 2 := by
  cases k <;> decide

/-- The bit depth codes (R123). -/
theorem Depth.code_mem (d : Depth) : (d.code, d) ∈ [(0, Depth.bits8), (1, .bits12), (2, .bits16)] := by
  cases d <;> decide

/-- The codes of the synthesis kinds (R122). -/
theorem SynthKind.code_mem (k : SynthKind) : (k.code, k) ∈ [(0, SynthKind.none), (1, .am), (2, .fm)] := by
  cases k <;> decide

/-- The bits of a two-bit code at its position. -/
theorem getLsbD_codeAt {n i j : Nat} (hn : n < 2 ^ 2) (hi : i + 2 ≤ 32) :
    (BitVec.ofNat 32 n <<< i).getLsbD j = (decide (i ≤ j) && n.testBit (j - i)) := by
  rw [BitVec.getLsbD_shiftLeft, BitVec.getLsbD_ofNat]
  rcases Nat.lt_or_ge j 32 with hj | hj
  · have hfits : j - i < 32 := by omega
    simp [hj, hfits, ← decide_not]
  · have habove : n.testBit (j - i) = false :=
      Nat.testBit_lt_two_pow (hn.trans_le (Nat.pow_le_pow_right two_pos (by omega)))
    simp [habove]

/-- Word 1 of SY.STATUS, bit by bit: the flags below the two codes (R116). -/
theorem getLsbD_syStatusFlags (s : State) (j : Nat) : (syStatusFlags s).getLsbD j =
    (syStatusFlagAt s j || decide (6 ≤ j) && s.gen.cur.depth.code.testBit (j - 6) ||
      decide (8 ≤ j) && s.gen.cur.mod.code.testBit (j - 8)) := by
  simp only [syStatusFlags, BitVec.getLsbD_or, Nat.reduceLT, getLsbD_bitAt, getLsbD_codeAt (Depth.code_lt _),
    getLsbD_codeAt (SynthKind.code_lt _), Nat.reduceAdd, Nat.reduceLeDiff]
  congr 2
  rcases Nat.lt_or_ge j 6 with hj | hj
  · interval_cases j <;> simp [syStatusFlagAt]
  · obtain ⟨m, rfl⟩ := Nat.exists_eq_add_of_le' hj
    simp [syStatusFlagAt]

/-- Its bits 5:0 are the flags (R116). -/
theorem syStatusFlags_flag (s : State) {j : Nat} (hj : j < 6) : (syStatusFlags s).getLsbD j = syStatusFlagAt s j := by
  have h6 : ¬ 6 ≤ j := by omega
  have h8 : ¬ 8 ≤ j := by omega
  simp [getLsbD_syStatusFlags, h6, h8]

/-- Above the flags that word holds the codes alone (R116). -/
theorem syStatusFlags_codes (s : State) (j : Nat) : (syStatusFlags s).getLsbD (6 + j) =
    (s.gen.cur.depth.code.testBit j || decide (2 ≤ j) && s.gen.cur.mod.code.testBit (j - 2)) := by
  have hflag : syStatusFlagAt s (6 + j) = false := by rw [Nat.add_comm]; rfl
  have h8 : 8 ≤ 6 + j ↔ 2 ≤ j := by omega
  have hsub : 6 + j - 8 = j - 2 := by omega
  simp [getLsbD_syStatusFlags, hflag, h8, hsub]

theorem Depth.code_testBit (d : Depth) {j : Nat} (hj : 2 ≤ j) : d.code.testBit j = false :=
  Nat.testBit_lt_two_pow (d.code_lt.trans_le (Nat.pow_le_pow_right two_pos hj))

theorem SynthKind.code_testBit (k : SynthKind) {j : Nat} (hj : 2 ≤ j) : k.code.testBit j = false :=
  Nat.testBit_lt_two_pow (k.code_lt.trans_le (Nat.pow_le_pow_right two_pos hj))

theorem syStatusFlags_depth (s : State) : ((syStatusFlags s).extractLsb' 6 2).toNat = s.gen.cur.depth.code := by
  refine toNat_field s.gen.cur.depth.code_lt fun j hj => ?_
  rw [syStatusFlags_codes, decide_eq_false (Nat.not_le.2 hj), Bool.false_and, Bool.or_false]

theorem syStatusFlags_mod (s : State) : ((syStatusFlags s).extractLsb' 8 2).toNat = s.gen.cur.mod.code := by
  refine toNat_field s.gen.cur.mod.code_lt fun j _ => ?_
  rw [show 8 + j = 6 + (2 + j) by omega, syStatusFlags_codes, Depth.code_testBit _ (by omega)]
  simp

theorem syStatusFlags_reserved (s : State) : (syStatusFlags s).extractLsb' 10 22 = 0#22 := by
  refine field_zero fun j _ => ?_
  rw [show 10 + j = 6 + (4 + j) by omega, syStatusFlags_codes, Depth.code_testBit _ (by omega),
    SynthKind.code_testBit _ (by omega)]
  simp

/-- The snapshot of an oscillator (R148). -/
theorem exec_ncoRdph {k : Word} {j : Fin 3} (h : k.toNat = j.val) (s : State) :
    exec (.ncoRdph k) s = .next (respond .ok [s.nco[j].phase, s.nco[j].inc] s) := by
  show execNcoRdph k s = _
  rw [execNcoRdph, ncoIndex_eq h]
  rfl

/-- Settles O22: word 1 of SY.STATUS by `syStatusFlags_flag`, `syStatusFlags_depth` and `syStatusFlags_mod`. -/
theorem snapshotReports : Obligations.SnapshotReports := by
  intro s
  have hflag {j : Nat} (hj : j < 6) := syStatusFlags_flag s hj
  refine ⟨rfl, rfl, fun k j h => exec_ncoRdph h s, syStatusFlags s, BitVec.ofNat 32 (syqFill s),
    BitVec.ofNat 32 (syqFree s), rfl, hflag (by decide), hflag (by decide), hflag (by decide), hflag (by decide),
    hflag (by decide), hflag (by decide), ?_, ?_, syStatusFlags_reserved s, fun hfill => ?_⟩
  · rw [syStatusFlags_depth]
    exact Depth.code_mem _
  · rw [syStatusFlags_mod]
    exact SynthKind.code_mem _
  · have hfree : syqFree s = 262144 - s.syq.length := rfl
    rw [BitVec.toNat_ofNat, BitVec.toNat_ofNat, hfree, syqFill]
    omega

end Sys2Proof.Machine

/-! # SF.CFG (spec/30_encoding.md R124; spec/42_spectral_filter.md R186, R190) -/

namespace Sys2Proof.Machine
open Config

/-- The array of the mask a message configures (R190). -/
def maskArray (m : SfMode) (bw opp rate : Word) : Sparse Fx := sparseOfList 0#32 0 (sfMaskgen m bw opp rate)

/-- The array holds the mask's entries. -/
theorem maskArray_getElem? (m : SfMode) (bw opp rate : Word) {k : Nat} (hk : k < SF_N) :
    (sfMaskgen m bw opp rate)[k]? = some (sparseGet 0#32 (maskArray m bw opp rate) k) := by
  have hlt : k < (sfMaskgen m bw opp rate).length := by rw [sfMaskgen_length]; exact hk
  rw [maskArray, sparseGet_ofList, if_pos (Nat.zero_le k), Nat.sub_zero, List.getD_eq_getElem _ _ hlt,
    List.getElem?_eq_getElem hlt]

theorem maskArray_mem (m : SfMode) (bw opp rate : Word) {k : Nat} (hk : k < SF_N) :
    sparseGet 0#32 (maskArray m bw opp rate) k ∈ sfMaskgen m bw opp rate :=
  List.mem_of_getElem? (maskArray_getElem? m bw opp rate hk)

/-- MG_MIRROR, read from mode 1. -/
theorem maskArray_mirror (bw opp rate : Word) {k : Nat} (hk : k < SF_N) (hmid : k ≠ SF_N / 2) :
    sparseGet 0#32 (maskArray .upper bw opp rate) k =
      sparseGet 0#32 (maskArray .lower bw opp rate) ((SF_N - k) % SF_N) := by
  have hback : (SF_N - (SF_N - k) % SF_N) % SF_N = k := by simp only [SF_N] at *; omega
  have hlt : (SF_N - k) % SF_N < SF_N := Nat.mod_lt _ (by decide)
  have hne : (SF_N - k) % SF_N ≠ SF_N / 2 := by simp only [SF_N] at *; omega
  have h := sfMaskgen_mirror bw opp rate hlt hne
  rw [hback, maskArray_getElem? _ _ _ _ hlt, maskArray_getElem? _ _ _ _ hk] at h
  exact (Option.some.inj h).symm

/-- SF.CFG on an idle engine, a legal mode and a rate: the mask alone changes (R190). -/
theorem exec_sfCfg {s : State} {mode : Word} {m : SfMode} (bw opp : Word) {rate : Word} (hidle : s.dm.active = false)
    (hm : sfModeOf mode = some m) (hrate : rate.toNat ≠ 0) : exec (.sfCfg mode bw opp rate) s =
      .next (respond .ok [] { s with sf := { s.sf with mask := maskArray m bw opp rate } }) := by
  rw [Ne, ← eq_zero_iff] at hrate
  show execSfCfg mode bw opp rate s = _
  simp only [execSfCfg, hidle, hm, if_neg hrate]
  rfl

/-- SF.CFG on an idle engine, a bad mode or rate 0: refused (R124, R190). -/
theorem exec_sfCfg_refused {s : State} {mode : Word} (bw opp : Word) {rate : Word} (hidle : s.dm.active = false)
    (h : 2 < mode.toNat ∨ rate.toNat = 0) : exec (.sfCfg mode bw opp rate) s = .next (respond .range [] s) := by
  show execSfCfg mode bw opp rate s = _
  unfold execSfCfg
  rw [hidle, if_neg Bool.false_ne_true]
  cases hm : sfModeOf mode with
  | none => rfl
  | some m =>
    rcases h with hbad | hrate
    · rw [sfModeOf_none hbad] at hm
      cases hm
    · exact if_pos ((eq_zero_iff rate).2 hrate)

/-- The legal modes (R124): mode 0 takes bw_hz on both sides. -/
theorem sfModeOf_legal {mode : Word} (h : mode.toNat ≤ 2) :
    ∃ m, sfModeOf mode = some m ∧ (mode.toNat = 0 → m = .dsb) ∧ (mode.toNat = 1 → m = .upper) := by
  unfold sfModeOf
  generalize mode.toNat = n at h
  interval_cases n <;> simp

/-- MG_ALL's condition in every legal mode (R186). -/
theorem passesAll_of_wide {m : SfMode} {bw opp rate : Word} (hbw : rate.toNat ≤ 2 * bw.toNat)
    (hopp : m = .dsb ∨ rate.toNat ≤ 2 * opp.toNat) : passesAll m bw opp rate = true := by
  cases m <;> simp_all [passesAll, bandEdges]

/-- Settles O32. -/
theorem sfCfgResult : Obligations.SfCfgResult := by
  intro s mode bw opp rate hidle
  refine ⟨fun hmode hrate => ?_, exec_sfCfg_refused bw opp hidle⟩
  obtain ⟨m, hm, hdsb, hupper⟩ := sfModeOf_legal hmode
  refine ⟨maskArray m bw opp rate, exec_sfCfg bw opp hidle hm hrate,
    fun k hk => sfMaskgen_range (maskArray_mem m bw opp rate hk), ?_, fun hbw hopp k hk => ?_, fun hone => ?_⟩
  · have h := (maskArray_getElem? m bw opp rate (by decide)).symm.trans (sfMaskgen_dc m bw opp rate)
    rw [Option.some.inj h]
    rfl
  · have hall := passesAll_of_wide hbw (hopp.imp_left hdsb)
    rw [sfMaskgen_all hall (maskArray_mem m bw opp rate hk)]
    rfl
  · obtain rfl := hupper hone
    exact ⟨maskArray .lower bw opp rate, exec_sfCfg bw opp hidle rfl hrate,
      fun k hk hmid => maskArray_mirror bw opp rate hk hmid⟩

end Sys2Proof.Machine

/-! # How many result words a response carries (spec/30_encoding.md R102, R106; spec/45_synthesis.md R282, R295) -/

namespace Sys2Proof.Machine
open Config

/-- A response with as many words as its status allows, `ok` saying how many go with status OK (R102). -/
structure Response.Sized (ok : Nat → Bool) (r : Response) : Prop where
  of_ok : r.status = .ok → ok r.words.length = true
  of_fault : r.status = .fault → r.words = [0#32]
  of_refusal : r.status ≠ .ok → r.status ≠ .fault → r.words = []

/-- An outcome that ends with such a response. -/
def AnswersSized (ok : Nat → Bool) (out : Result State) : Prop :=
  ∃ st ws u, Response.Sized ok ⟨st, ws⟩ ∧ out = finish st ws u

section
variable {ok : Nat → Bool} {s : State}

theorem AnswersSized.completes {ws : List Word} (h : ok ws.length = true) : AnswersSized ok (finish .ok ws s) :=
  ⟨.ok, ws, s, ⟨fun _ => h, nofun, fun h => absurd rfl h⟩, rfl⟩

theorem AnswersSized.faults : AnswersSized ok (finish .fault [0#32] s) :=
  ⟨.fault, [0#32], s, ⟨nofun, fun _ => rfl, fun _ h => absurd rfl h⟩, rfl⟩

theorem AnswersSized.rejects {st : Status} (hok : st ≠ .ok := by decide) (hfault : st ≠ .fault := by decide) :
    AnswersSized ok (reject st s) :=
  ⟨st, [], s, ⟨fun h => absurd h hok, fun h => absurd h hfault, fun _ _ => rfl⟩, rfl⟩

theorem AnswersSized.cfgRejects {b : BankId} {q : Reason} : AnswersSized ok (cfgReject b q s) := .rejects

theorem AnswersSized.ite {p : Prop} [Decidable p] {a b : Result State} (ha : AnswersSized ok a)
    (hb : AnswersSized ok b) : AnswersSized ok (if p then a else b) := by
  split
  · exact ha
  · exact hb

end

/-! ## Units -/

theorem execNcoSetf_sized (k : Word) (nf : BitVec 64) (s : State) :
    AnswersSized (resultCount (.ncoSetf k nf) s) (execNcoSetf k nf s) := by
  unfold execNcoSetf
  cases ncoIndex k with
  | none => exact .rejects
  | some j => exact .ite .rejects (.completes rfl)

theorem execNcoNext_sized (k : Word) (s : State) : AnswersSized (resultCount (.ncoNext k) s) (execNcoNext k s) := by
  unfold execNcoNext
  cases ncoIndex k with
  | none => exact .rejects
  | some j => exact .ite .rejects (.completes rfl)

theorem execNcoNexti_sized (k skew : Word) (s : State) :
    AnswersSized (resultCount (.ncoNexti k skew) s) (execNcoNexti k skew s) := by
  unfold execNcoNexti
  cases ncoIndex k with
  | none => exact .rejects
  | some j => exact .ite .rejects (.completes rfl)

theorem execNcoRdph_sized (k : Word) (s : State) : AnswersSized (resultCount (.ncoRdph k) s) (execNcoRdph k s) := by
  unfold execNcoRdph
  cases ncoIndex k with
  | none => exact .rejects
  | some j => exact .completes rfl

theorem execRcCfg_sized (a b : Word) (reset : Bool) (s : State) :
    AnswersSized (resultCount (.rcCfg a b reset) s) (execRcCfg a b reset s) :=
  .ite .rejects (.ite .rejects (.ite .rejects (.completes rfl)))

/-- RC.CONV answers whole samples (R166). -/
theorem execRcConv_sized (xs : List Cfx) (s : State) :
    AnswersSized (resultCount (.rcConv xs) s) (execRcConv xs s) :=
  .ite .rejects (.completes (by simp [resultCount]))

theorem execSfCfg_sized (mode bw opp rate : Word) (s : State) :
    AnswersSized (resultCount (.sfCfg mode bw opp rate) s) (execSfCfg mode bw opp rate s) := by
  unfold execSfCfg
  cases sfModeOf mode with
  | none => exact .ite .rejects .rejects
  | some m => exact .ite .rejects (.ite .rejects (.completes rfl))

/-- SF.APPLY answers the half-blocks that were filled (R191). -/
theorem execSfApply_sized (xs : List Cfx) (s : State) :
    AnswersSized (resultCount (.sfApply xs) s) (execSfApply xs s) := by
  obtain ⟨hcount, -⟩ := sfPushAll_count xs s.sf
  exact .ite .rejects (.completes (by simp [resultCount, hcount, SF_L_eq]))

theorem execLtUpd_sized (z : Cfx) (s : State) : AnswersSized (resultCount (.ltUpd z) s) (execLtUpd z s) :=
  .ite .rejects (.completes rfl)

/-! ## Demodulation engine -/

theorem execDmCfgatv_sized (a b c d e f : Word) (h v : Bool) (s : State) :
    AnswersSized (resultCount (.dmCfgatv a b c d e f h v) s) (execDmCfgatv a b c d e f h v s) :=
  .ite .cfgRejects (.ite .cfgRejects (.ite .cfgRejects (.ite .cfgRejects (.completes rfl))))

theorem execDmCfgrf_sized (a b c d : Word) (f g : Bool) (s : State) :
    AnswersSized (resultCount (.dmCfgrf a b c d f g) s) (execDmCfgrf a b c d f g s) := by
  unfold execDmCfgrf
  cases DemodKind.ofCode? b.toNat with
  | none => exact .cfgRejects
  | some kind => exact .completes rfl

theorem execDmCfgstream_sized (a : Word) (s : State) :
    AnswersSized (resultCount (.dmCfgstream a) s) (execDmCfgstream a s) :=
  .ite .cfgRejects (.completes rfl)

theorem execDmStart_sized (s : State) : AnswersSized (resultCount .dmStart s) (execDmStart s) :=
  .ite .rejects (.ite (.completes rfl) .rejects)

theorem execDmFeed_sized (xs : List Cfx) (s : State) :
    AnswersSized (resultCount (.dmFeed xs) s) (execDmFeed xs s) :=
  .ite (.ite (.completes rfl) .rejects) .rejects

/-! ## Synthesis engine -/

theorem execSyCfg_sized (a b c d e f g h i j k l : Word) (s : State) :
    AnswersSized (resultCount (.syCfg a b c d e f g h i j k l) s) (execSyCfg a b c d e f g h i j k l s) := by
  unfold execSyCfg
  refine .ite .cfgRejects ?_
  cases Depth.ofCode? c.toNat with
  | none => exact .cfgRejects
  | some depth =>
    cases SynthKind.ofCode? d.toNat with
    | none => exact .cfgRejects
    | some kind => exact .completes rfl

theorem execSyStart_sized (s : State) : AnswersSized (resultCount .syStart s) (execSyStart s) :=
  .ite .rejects (.ite .rejects (.ite (.completes rfl) .rejects))

/-- Generation answers one word: the halves pushed, or 0 with E_FAULT (R282, R295). -/
theorem syGenerate_sized (count : Nat) (s : State) : AnswersSized (fun n => decide (n = 1)) (syGenerate count s) := by
  unfold syGenerate
  cases syCheck count s with
  | some b => exact .faults
  | none => exact .completes rfl

theorem execSyTick_sized (s : State) : AnswersSized (resultCount .syTick s) (execSyTick s) :=
  .ite .rejects (.ite (.ite (syGenerate_sized _ _) .rejects) .rejects)

theorem execSyGen_sized (n : Word) (s : State) : AnswersSized (resultCount (.syGen n) s) (execSyGen n s) :=
  .ite .rejects (.ite (.ite (syGenerate_sized _ _) .rejects) .rejects)

/-- SY.POP answers the count and the halves, two to a word (R301). -/
theorem execSyPop_sized (n : Word) (s : State) : AnswersSized (resultCount (.syPop n) s) (execSyPop n s) := by
  refine .ite .rejects (.completes ?_)
  simp only [resultCount, List.length_cons, packHalves_length, List.length_take, popCount, syqFill,
    decide_eq_true_eq]
  omega

/-! ## Every command -/

theorem exec_sized (i : Instr) (s : State) : AnswersSized (resultCount i s) (exec i s) := by
  cases i with
  | ncoSetf k nf => exact execNcoSetf_sized k nf s
  | ncoNext k => exact execNcoNext_sized k s
  | ncoNexti k skew => exact execNcoNexti_sized k skew s
  | ncoRdph k => exact execNcoRdph_sized k s
  | rcCfg a b reset => exact execRcCfg_sized a b reset s
  | rcConv xs => exact execRcConv_sized xs s
  | sfCfg mode bw opp rate => exact execSfCfg_sized mode bw opp rate s
  | sfApply xs => exact execSfApply_sized xs s
  | ltUpd z => exact execLtUpd_sized z s
  | dmCfgatv a b c d e f h v => exact execDmCfgatv_sized a b c d e f h v s
  | dmCfgrf a b c d f g => exact execDmCfgrf_sized a b c d f g s
  | dmCfgstream a => exact execDmCfgstream_sized a s
  | dmStart => exact execDmStart_sized s
  | dmFeed xs => exact execDmFeed_sized xs s
  | syCfg a b c d e f g h i j k l => exact execSyCfg_sized a b c d e f g h i j k l s
  | syStart => exact execSyStart_sized s
  | syTick => exact execSyTick_sized s
  | syGen n => exact execSyGen_sized n s
  | syPop n => exact execSyPop_sized n s
  | nop | ltAvg | ltPwr | dmStop | dmStatus | syStop | syStatus | faultRd | reset => exact .completes rfl

/-- Settles O9: the one response of `portsAppendOnly` is the one `exec_sized` speaks of. -/
theorem responseShape : Obligations.ResponseShape := by
  intro i s
  obtain ⟨t, r, -, -, hexec, -, -, hrsp, -⟩ := portsAppendOnly i s
  obtain ⟨st, ws, u, hsized, hout⟩ := exec_sized i s
  obtain rfl : t = respond st ws u := next_inj.1 (hexec.symm.trans hout)
  obtain rfl : ⟨st, ws⟩ = r := List.singleton_inj.1 (List.append_inj_right' hrsp rfl)
  exact ⟨_, _, hexec, hrsp, hsized.of_ok, hsized.of_fault, hsized.of_refusal⟩

end Sys2Proof.Machine

/-! # NCO.SETF, NCO.NEXT, NCO.NEXTI (spec/40_nco.md R141, R143 to R147, R149) -/

namespace Sys2Proof.Machine
open Config

/-! ## On an idle engine's oscillator -/

theorem exec_ncoSetf_idle {s : State} {k : Word} {j : Fin 3} (nf : BitVec 64) (hk : k.toNat = j.val)
    (hidle : ownerActive j s = false) :
    exec (.ncoSetf k nf) s = .next (respond .ok [] (setInc j (ncoInc nf.toInt) s)) := by
  show execNcoSetf k nf s = _
  simp only [execNcoSetf, ncoIndex_eq hk, hidle]
  rfl

/-- With a skew the cosine is read at the phase after the advance, the sine at the skewed phase (R144). -/
theorem ncoOut_skew (n : Nco) (skew : Word) :
    ncoOut n skew.toInt = ⟨(cs (n.phase + n.inc)).re, (cs (n.phase + n.inc + skew)).im⟩ := by
  simp [ncoOut, ncoValue, ncoAdvance]

theorem exec_ncoNext_idle {s : State} {k : Word} {j : Fin 3} (hk : k.toNat = j.val)
    (hidle : ownerActive j s = false) : exec (.ncoNext k) s = .next (respond .ok
      [(cs (s.nco[j].phase + s.nco[j].inc)).re, (cs (s.nco[j].phase + s.nco[j].inc)).im] (ncoStep j s)) := by
  show execNcoNext k s = _
  simp only [execNcoNext, ncoIndex_eq hk, hidle, ncoOut_zero]
  rfl

theorem exec_ncoNexti_idle {s : State} {k : Word} {j : Fin 3} (skew : Word) (hk : k.toNat = j.val)
    (hidle : ownerActive j s = false) : exec (.ncoNexti k skew) s = .next (respond .ok
      [(cs (s.nco[j].phase + s.nco[j].inc)).re, (cs (s.nco[j].phase + s.nco[j].inc + skew)).im] (ncoStep j s)) := by
  show execNcoNexti k skew s = _
  simp only [execNcoNexti, ncoIndex_eq hk, hidle, ncoOut_skew]
  rfl

/-- Settles O24. -/
theorem ncoSetfResult : Obligations.NcoSetfResult := fun _ _ _ nf hk hidle =>
  ⟨ncoInc nf.toInt, toNat_ncoInc _, exec_ncoSetf_idle nf hk hidle⟩

/-- A phase with a signed offset added is the sum modulo a turn (R14). -/
theorem toNat_add_toInt (ph skew : Word) : ((ph + skew).toNat : Int) = (ph.toNat + skew.toInt) % 2 ^ 32 := by
  rw [BitVec.toNat_add, BitVec.toInt_eq_toNat_cond]
  split <;> omega

/-- Settles O25. -/
theorem ncoNextResult : Obligations.NcoNextResult := fun _ _ skew _ hk hidle =>
  ⟨_, _, BitVec.toNat_add _ _, toNat_add_toInt _ skew, exec_ncoNext_idle hk hidle, exec_ncoNexti_idle skew hk hidle⟩

/-! ## No drift -/

/-- CS_UNIT and CS_RANGE at the table's values (R143). -/
theorem cs_magnitude (ph : Phase) :
    ((cs ph).re.toInt * (cs ph).re.toInt + (cs ph).im.toInt * (cs ph).im.toInt - 2 ^ 32).natAbs ≤ 2 ^ 17 ∧
      (cs ph).re.toInt.natAbs ≤ 65536 ∧ (cs ph).im.toInt.natAbs ≤ 65536 := by
  have hre := cs_re_range ph
  have him := cs_im_range ph
  rw [ONE_eq] at hre him
  exact ⟨cs_unit ph, by omega, by omega⟩

/-- An advance and n increments more are n + 1 increments, modulo a turn (R144). -/
theorem phase_advance_add_mul (ph inc : Phase) (n : Nat) :
    ((ph + inc).toNat + n * inc.toNat) % 2 ^ 32 = (ph.toNat + (n + 1) * inc.toNat) % 2 ^ 32 := by
  rw [BitVec.toNat_add, Nat.mod_add_mod, Nat.succ_mul, Nat.add_assoc, Nat.add_comm inc.toNat]

/-- Settles O26, by induction on the number of commands, from whatever state they start in. -/
theorem ncoNoDrift : Obligations.NcoNoDrift := by
  intro n
  induction n with
  | zero =>
    intro s k j _ _
    refine ⟨s, [], rfl, rfl, (List.append_nil _).symm, nofun, ?_, rfl⟩
    rw [Nat.zero_mul, Nat.add_zero, Nat.mod_eq_of_lt s.nco[j].phase.isLt]
  | succ n ih =>
    intro s k j hk hidle
    have hexec := exec_ncoNext_idle hk hidle
    generalize hv : cs (s.nco[j].phase + s.nco[j].inc) = v at hexec
    have hosc : (respond .ok [v.re, v.im] (ncoStep j s)).nco[j] = ncoAdvance s.nco[j] := by simp
    obtain ⟨t, zs, hrun, hlen, hrsp, hunit, hphase, hinc⟩ := ih (respond .ok [v.re, v.im] (ncoStep j s)) k j hk hidle
    rw [hosc] at hphase hinc
    refine ⟨t, v :: zs, ?_, by rw [List.length_cons, hlen], ?_, ?_, ?_, hinc⟩
    · rw [List.replicate_succ, execAll, hexec]
      exact hrun
    · rw [hrsp, respond_io_rsp, List.append_assoc]
      rfl
    · exact List.forall_mem_cons.2 ⟨hv ▸ cs_magnitude _, hunit⟩
    · exact hphase.trans (phase_advance_add_mul _ _ n)

end Sys2Proof.Machine

/-! # One sample of SY.GEN (spec/40_nco.md R144; spec/45_synthesis.md R284 to R291) -/

namespace Sys2Proof.Machine
open Config

/-! ## Products inside the fx range -/

theorem abs_mul_le {a b m n : Int} (ha : |a| ≤ m) (hb : |b| ≤ n) : |a * b| ≤ m * n :=
  (abs_mul a b).trans_le (mul_le_mul ha hb (abs_nonneg b) ((abs_nonneg a).trans ha))

/-- A field that R44 keeps in [0, 1.0]. -/
theorem abs_le_of_unit {v : Int} (h : 0 ≤ v ∧ v ≤ ONE) : |v| ≤ 65536 :=
  (abs_of_nonneg h.1).trans_le h.2

theorem abs_div_le {v m : Int} (h : |v| ≤ m * 65536) : |v / 65536| ≤ m := by
  rw [abs_le] at *
  omega

/-- A factor of at most 1.0 does not enlarge a product shifted back (R13). -/
theorem abs_mul_div_le {a b m : Int} (ha : |a| ≤ m) (hb : |b| ≤ 65536) : |a * b / 65536| ≤ m :=
  abs_div_le (abs_mul_le ha hb)

/-- A value of magnitude at most 4.0 is not saturated. -/
theorem toInt_sat_small {v : Int} (h : |v| ≤ 262144) : (sat v).toInt = v := by
  rw [abs_le] at h
  exact toInt_sat_of_range (by rw [FX_MIN_eq]; omega) (by rw [FX_MAX_eq]; omega)

/-- `fx_mul` with a factor of at most 1.0 is exact up to its floor (R13). -/
theorem toInt_fxMul {a b : Fx} (ha : |a.toInt| ≤ 131072) (hb : |b.toInt| ≤ 65536) :
    (fxMul a b).toInt = a.toInt * b.toInt / 65536 :=
  toInt_sat_small ((abs_mul_div_le ha hb).trans (by norm_num))

/-- `cmul` of two samples whose components are at most 1.0 is exact up to its floor and at most 2.0 (R14). -/
theorem toInt_cmul {x m : Cfx} (hxr : |x.re.toInt| ≤ 65536) (hxi : |x.im.toInt| ≤ 65536) (hmr : |m.re.toInt| ≤ 65536)
    (hmi : |m.im.toInt| ≤ 65536) :
    (cmul x m).re.toInt = (x.re.toInt * m.re.toInt - x.im.toInt * m.im.toInt) / 65536 ∧
      (cmul x m).im.toInt = (x.re.toInt * m.im.toInt + x.im.toInt * m.re.toInt) / 65536 ∧
      |(cmul x m).re.toInt| ≤ 131072 ∧ |(cmul x m).im.toInt| ≤ 131072 := by
  have hre : |(x.re.toInt * m.re.toInt - x.im.toInt * m.im.toInt) / 65536| ≤ 131072 :=
    abs_div_le ((abs_sub _ _).trans (add_le_add (abs_mul_le hxr hmr) (abs_mul_le hxi hmi)))
  have him : |(x.re.toInt * m.im.toInt + x.im.toInt * m.re.toInt) / 65536| ≤ 131072 :=
    abs_div_le ((abs_add_le _ _).trans (add_le_add (abs_mul_le hxr hmi) (abs_mul_le hxi hmr)))
  have ere : (cmul x m).re.toInt = _ := toInt_sat_small (hre.trans (by norm_num))
  have eim : (cmul x m).im.toInt = _ := toInt_sat_small (him.trans (by norm_num))
  exact ⟨ere, eim, ere ▸ hre, eim ▸ him⟩

theorem abs_cs_re (ph : Phase) : |(cs ph).re.toInt| ≤ 65536 := abs_le.2 (cs_re_range ph)

theorem abs_cs_im (ph : Phase) : |(cs ph).im.toInt| ≤ 65536 := abs_le.2 (cs_im_range ph)

/-! ## The modulation kinds -/

/-- The envelope of a tone (R286). -/
theorem toInt_amEnvelope {index t : Fx} (hi : |index.toInt| ≤ 65536) (ht : |t.toInt| ≤ 65536) :
    (amEnvelope index t).toInt = max 0 (min 65536 ((65536 + index.toInt * t.toInt / 65536) / 2)) := by
  unfold amEnvelope
  rw [toInt_clamp01, clamp_eq_max_min (by decide), shr_eq, toInt_fxMul (hi.trans (by norm_num)) ht]
  rfl

/-- The deviation after a tone, wrapped once (R288, R289). -/
theorem toInt_fmNext {dev fmD t : Fx} (hdev : |dev.toInt| ≤ 65536) (hd : |fmD.toInt| ≤ 65536) (ht : |t.toInt| ≤ 65536) :
    (fmNext dev fmD t).toInt = fmWrap (dev.toInt + fmD.toInt * t.toInt / 65536) := by
  have hstep := abs_mul_div_le hd ht
  unfold fmNext
  rw [toInt_fxMul (hd.trans (by norm_num)) ht]
  refine toInt_sat_small ?_
  unfold fmWrap
  rw [abs_le] at *
  simp only [ONE_eq]
  split_ifs <;> omega

/-- The phase word of a deviation (R288). -/
theorem fmPhase_eq {dev : Fx} {ph : Word} (h : (ph.toNat : Int) = dev.toInt * 2 ^ 15 % 2 ^ 32) : fmPhase dev = ph :=
  BitVec.eq_of_toNat_eq (Int.ofNat_inj.1 ((toNat_ofInt32 _).trans h.symm))

/-- A sample with the given raw components, neither beyond 2.0. -/
structure HasParts (z : Cfx) (re im : Int) : Prop where
  re_eq : z.re.toInt = re
  im_eq : z.im.toInt = im
  re_le : |re| ≤ 131072
  im_le : |im| ≤ 131072

/-- Kind None: the carrier, its sine skewed (R285). -/
theorem sySample_none {s : State} (hmod : s.gen.cur.mod = .none) {p1 : Word}
    (hp1 : p1 = s.nco[(1 : Fin 3)].phase + s.nco[(1 : Fin 3)].inc) :
    HasParts (sySample s).1 (cs p1).re.toInt (cs (p1 + s.gen.cur.skew)).im.toInt := by
  have hz : (sySample s).1 = ⟨(cs p1).re, (cs (p1 + s.gen.cur.skew)).im⟩ := by
    rw [hp1, ← ncoOut_skew]
    simp only [sySample, hmod, syNone]
  rw [hz]
  exact ⟨rfl, rfl, (abs_cs_re _).trans (by norm_num), (abs_cs_im _).trans (by norm_num)⟩

/-- Kind AM: the carrier under the envelope (R286). -/
theorem sySample_am {s : State} (hmod : s.gen.cur.mod = .am) (hindex : |s.gen.cur.amIndex.toInt| ≤ 65536)
    {p1 p2 : Word} (hp1 : p1 = s.nco[(1 : Fin 3)].phase + s.nco[(1 : Fin 3)].inc)
    (hp2 : p2 = s.nco[(2 : Fin 3)].phase + s.nco[(2 : Fin 3)].inc) {e : Int}
    (he : e = max 0 (min 65536 ((65536 + s.gen.cur.amIndex.toInt * (cs p2).re.toInt / 65536) / 2))) :
    HasParts (sySample s).1 ((cs p1).re.toInt * e / 65536) ((cs p1).im.toInt * e / 65536) := by
  obtain ⟨v, hv⟩ : ∃ v, v = amEnvelope s.gen.cur.amIndex (cs p2).re := ⟨_, rfl⟩
  have hz : (sySample s).1 = ⟨fxMul (cs p1).re v, fxMul (cs p1).im v⟩ := by
    rw [hv, hp1, hp2, ← ncoOut_zero, ← ncoOut_zero]
    simp only [sySample, hmod, syAm]
  have hve : v.toInt = e := by rw [hv, he, toInt_amEnvelope hindex (abs_cs_re p2)]
  have hle : |v.toInt| ≤ 65536 := by
    rw [hve, he, abs_le]
    omega
  have hre : |(cs p1).re.toInt| ≤ 131072 := (abs_cs_re p1).trans (by norm_num)
  have him : |(cs p1).im.toInt| ≤ 131072 := (abs_cs_im p1).trans (by norm_num)
  rw [hz, ← hve]
  exact ⟨toInt_fxMul hre hle, toInt_fxMul him hle, abs_mul_div_le hre hle, abs_mul_div_le him hle⟩

/-- Kind FM: the carrier rotated by the deviation's phase (R288). -/
theorem sySample_fm {s : State} (hmod : s.gen.cur.mod = .fm) {p1 ph : Word}
    (hp1 : p1 = s.nco[(1 : Fin 3)].phase + s.nco[(1 : Fin 3)].inc) (hph : fmPhase (syDev s) = ph) :
    HasParts (sySample s).1
      (((cs p1).re.toInt * (cs ph).re.toInt - (cs p1).im.toInt * (cs ph).im.toInt) / 65536)
      (((cs p1).re.toInt * (cs ph).im.toInt + (cs p1).im.toInt * (cs ph).re.toInt) / 65536) := by
  have hz : (sySample s).1 = cmul (cs p1) (cs ph) := by
    rw [← hph, hp1, ← ncoOut_zero]
    simp only [sySample, syDev, hmod, syFm]
  obtain ⟨hre, him, hre_le, him_le⟩ := toInt_cmul (abs_cs_re p1) (abs_cs_im p1) (abs_cs_re ph) (abs_cs_im ph)
  rw [hz]
  exact ⟨hre, him, hre ▸ hre_le, him ▸ him_le⟩

/-- The deviation after a sample of kind FM (R288, R289). -/
theorem toInt_syDev {s : State} (hmod : s.gen.cur.mod = .fm) (hinv : SyInv s) {p2 : Word}
    (hp2 : p2 = s.nco[(2 : Fin 3)].phase + s.nco[(2 : Fin 3)].inc) :
    (syDev s).toInt = fmWrap (s.gen.fmDev.toInt + s.gen.d.fmD.toInt * (cs p2).re.toInt / 65536) := by
  have hdev : |s.gen.fmDev.toInt| ≤ 65536 := abs_le.2 ⟨hinv.dev_min, hinv.dev_max⟩
  have hunit : |s.gen.d.fmD.toInt| ≤ 65536 := abs_le_of_unit ⟨hinv.unit_min, hinv.unit_max⟩
  rw [← toInt_fmNext hdev hunit (abs_cs_re p2), hp2, ← ncoOut_zero]
  simp only [syDev, hmod]

/-! ## Scaling and conversion -/

/-- The full scale of a valid engine fits a half (R44, R123). -/
theorem SyInv.ampFs_le {s : State} (hinv : SyInv s) (hactive : s.gen.active = true) : s.gen.d.ampFs ≤ 32767 := by
  rw [(hinv.scale (hinv.active_valid hactive)).2]
  cases s.gen.cur.depth <;> decide

/-- A component scaled, biased, shifted and clipped (R290, R291). -/
theorem toInt_syHalf_scaled {d : GenDerived} (hfs : d.ampFs ≤ 32767) {v amp dc : Fx} (hv : |v.toInt| ≤ 131072)
    (hamp : |amp.toInt| ≤ 65536) (hdc : |dc.toInt| ≤ 65536) :
    (syHalf d (fxAdd (fxMul v amp) dc)).toInt = max (-(d.ampFs : Int))
      (min d.ampFs ((v.toInt * amp.toInt / 65536 + dc.toInt) / 2 ^ (16 - d.shift))) := by
  have hscaled : (fxAdd (fxMul v amp) dc).toInt = v.toInt * amp.toInt / 65536 + dc.toInt := by
    unfold fxAdd
    rw [toInt_fxMul hv hamp]
    refine toInt_sat_small ?_
    have hprod := abs_mul_div_le hv hamp
    rw [abs_le] at *
    omega
  unfold syHalf syConv
  rw [hscaled, clamp_eq_max_min (by omega), shr_eq, BitVec.toInt_ofInt, Int.bmod_eq_of_le (by omega) (by omega)]

/-! ## The statement -/

/-- SY.GEN of two halves with room for them: one sample, its halves behind the queue (R281, R282). -/
theorem exec_syGen_one {s : State} (hrun : s.gen.halted = false) (hactive : s.gen.active = true)
    (hstop : s.gen.stopReq = false) (hpend : s.gen.pndF = false) (hfits : s.syq.length + 2 ≤ 262144) :
    ∃ t, exec (.syGen 2#32) s = .next t ∧ t.gen.fmDev = syDev s ∧
      t.syq = s.syq ++ [syHalf s.gen.d (syScale s.gen.cur (sySample s).1).re,
        syHalf s.gen.d (syScale s.gen.cur (sySample s).1).im] := by
  obtain ⟨buf, hbatch⟩ := syBatch_halves 2 s (by decide)
  have hdev : (sySample s).2.gen.fmDev = syDev s := by rw [sySample_state]
  refine ⟨_, (exec_syGen_quiet _ hrun hactive hstop hpend).trans (syGenerate_fits (by decide) hfits), ?_, ?_⟩
  · exact (congrArg (·.gen.fmDev) hbatch).trans hdev
  · exact congrArg (·.syq) hbatch

/-- Settles O56: the sample of each kind, then `toInt_syHalf_scaled` for both components. -/
theorem syGenOneSample : Obligations.SyGenOneSample := by
  rintro s p1 p2 _ ph _ _ dev e re im _ _ hinv hcur hactive hstop hpend hfits hp1 hp2 rfl rfl rfl he hdev hph hparts
    rfl rfl
  have hrun : s.gen.halted = false := by
    rw [Bool.eq_false_iff]
    exact fun h => absurd hactive (by simp [hinv.halted_idle h])
  have hdev' (hmod : s.gen.cur.mod = .fm) : (syDev s).toInt = dev := (toInt_syDev hmod hinv hp2).trans hdev.symm
  have hsample : HasParts (sySample s).1 re im := by
    cases hmod : s.gen.cur.mod with
    | none =>
      obtain ⟨rfl, rfl⟩ := Prod.mk.inj (hmod ▸ hparts)
      exact sySample_none hmod hp1
    | am =>
      obtain ⟨rfl, rfl⟩ := Prod.mk.inj (hmod ▸ hparts)
      exact sySample_am hmod (abs_le_of_unit hcur.am_index) hp1 hp2 he
    | fm =>
      obtain ⟨rfl, rfl⟩ := Prod.mk.inj (hmod ▸ hparts)
      exact sySample_fm hmod hp1 (fmPhase_eq (by rw [hdev' hmod, hph]))
  obtain ⟨t, hexec, hfm, hqueue⟩ := exec_syGen_one hrun hactive hstop hpend hfits
  obtain ⟨rfl, rfl, hre_le, him_le⟩ := hsample
  have hfs := hinv.ampFs_le hactive
  exact ⟨t, _, _, hexec, hqueue,
    toInt_syHalf_scaled hfs hre_le (abs_le_of_unit hcur.amp_i) (abs_le.2 hcur.dc_i),
    toInt_syHalf_scaled hfs him_le (abs_le_of_unit hcur.amp_q) (abs_le.2 hcur.dc_q),
    fun hmod => by rw [hfm, hdev' hmod]⟩

end Sys2Proof.Machine

/-! # Refusals that change nothing (spec/46_control.md R332, R345; spec/60_exceptions.md R377, R379) -/

namespace Sys2Proof.Machine
open Config

/-! ## E_BUSY -/

/-- The oscillator commands that write, on an oscillator whose engine is active (R145 to R147, R332). -/
theorem exec_nco_owned {s : State} {k : Word} {j : Fin 3} (hk : ncoIndex k = some j) (hj : ownerActive j s = true) :
    (∀ nf, exec (.ncoSetf k nf) s = .next (respond .busy [] s)) ∧
      exec (.ncoNext k) s = .next (respond .busy [] s) ∧ ∀ w, exec (.ncoNexti k w) s = .next (respond .busy [] s) := by
  refine ⟨fun nf => ?_, ?_, fun w => ?_⟩
  · show execNcoSetf k nf s = _
    simp only [execNcoSetf, hk, if_pos hj, reject_eq]
  · show execNcoNext k s = _
    simp only [execNcoNext, hk, if_pos hj, reject_eq]
  · show execNcoNexti k w s = _
    simp only [execNcoNexti, hk, if_pos hj, reject_eq]

/-- An oscillator command is refused for its owner only with a legal index (R379). -/
theorem exists_index_of_unitOwnerActive {s : State} {k : Word} (h : unitOwnerActive (.ncoNext k) s = true) :
    ∃ j, ncoIndex k = some j ∧ ownerActive j s = true := by
  cases hk : ncoIndex k with
  | none => simp [unitOwnerActive, hk] at h
  | some j => exact ⟨j, rfl, by simpa [unitOwnerActive, hk] using h⟩

/-- A direct unit command that writes is refused while the engine that owns its unit is active (R332). -/
theorem exec_unitOwnerActive {i : Instr} {s : State} (h : unitOwnerActive i s = true) :
    exec i s = .next (respond .busy [] s) := by
  cases i with
  | ncoSetf k nf =>
    obtain ⟨j, hk, hj⟩ := exists_index_of_unitOwnerActive (k := k) h
    exact (exec_nco_owned hk hj).1 nf
  | ncoNext k =>
    obtain ⟨j, hk, hj⟩ := exists_index_of_unitOwnerActive h
    exact (exec_nco_owned hk hj).2.1
  | ncoNexti k w =>
    obtain ⟨j, hk, hj⟩ := exists_index_of_unitOwnerActive (k := k) h
    exact (exec_nco_owned hk hj).2.2 w
  | rcCfg | rcConv | sfCfg | sfApply | ltUpd => exact if_pos h
  | _ => cases h

/-! ## E_RANGE, E_HALTED, E_IDLE -/

/-- An oscillator index above 2 (R145 to R148). -/
theorem exec_nco_range {k : Word} (hk : 2 < k.toNat) (s : State) :
    (∀ nf, exec (.ncoSetf k nf) s = .next (respond .range [] s)) ∧
      exec (.ncoNext k) s = .next (respond .range [] s) ∧
      (∀ w, exec (.ncoNexti k w) s = .next (respond .range [] s)) ∧
      exec (.ncoRdph k) s = .next (respond .range [] s) := by
  have hnone := ncoIndex_none hk
  refine ⟨fun nf => ?_, ?_, fun w => ?_, ?_⟩
  · show execNcoSetf k nf s = _
    simp only [execNcoSetf, hnone, reject_eq]
  · show execNcoNext k s = _
    simp only [execNcoNext, hnone, reject_eq]
  · show execNcoNexti k w s = _
    simp only [execNcoNexti, hnone, reject_eq]
  · show execNcoRdph k s = _
    simp only [execNcoRdph, hnone, reject_eq]

/-- A halted engine answers neither a generating command nor SY.START otherwise (R377). -/
theorem exec_sy_halted {s : State} (h : s.gen.halted = true) : exec .syTick s = .next (respond .halted [] s) ∧
    exec .syStart s = .next (respond .halted [] s) ∧ ∀ n, exec (.syGen n) s = .next (respond .halted [] s) :=
  ⟨if_pos h, if_pos h, fun _ => if_pos h⟩

theorem exec_dmFeed_idle {s : State} (h : s.dm.active = false) (xs : List Cfx) :
    exec (.dmFeed xs) s = .next (respond .idle [] s) :=
  if_neg (Bool.eq_false_iff.1 h)

/-- A generating command of an engine neither halted nor active (R282, R295). -/
theorem exec_sy_idle {s : State} (hrun : s.gen.halted = false) (hidle : s.gen.active = false) :
    exec .syTick s = .next (respond .idle [] s) ∧ ∀ n, exec (.syGen n) s = .next (respond .idle [] s) := by
  rw [Bool.eq_false_iff] at hrun hidle
  exact ⟨(if_neg hrun).trans (if_neg hidle), fun _ => (if_neg hrun).trans (if_neg hidle)⟩

/-- Settles O17. -/
theorem refusalsChangeNothing : Obligations.RefusalsChangeNothing := by
  intro s
  refine ⟨fun i => exec_unitOwnerActive, fun _ => rfl, fun hdm i hi => exec_unitOwnerActive ?_, fun hsy k hk => ?_,
    exec_sy_halted, exec_dmFeed_idle, exec_sy_idle, fun k hk => exec_nco_range hk s, fun n hn => if_pos hn⟩
  · rcases hi with ⟨nf, rfl⟩ | rfl | ⟨w, rfl⟩ | ⟨a, b, r, rfl⟩ | ⟨xs, rfl⟩ | ⟨m, a, b, r, rfl⟩ | ⟨xs, rfl⟩ | ⟨z, rfl⟩ <;>
      exact hdm
  · rcases hk with rfl | rfl
    · exact exec_nco_owned (j := 1) rfl hsy
    · exact exec_nco_owned (j := 2) rfl hsy

end Sys2Proof.Machine

/-! # RC.CFG and RC.CONV (spec/41_rate_converter.md R161 to R167, R169, R170) -/

namespace Sys2Proof.Machine
open Config

/-! ## RC.CFG -/

/-- A ratio is legal exactly when the output rate is at most RC_MAX_UP times the input rate (R161). -/
theorem ratioMin_le_rcRatio_iff {i o : Nat} (ho : 0 < o) : RC_RATIO_MIN ≤ rcRatio i o ↔ o ≤ 256 * i := by
  unfold rcRatio
  rw [Nat.le_div_iff_mul_le ho]
  simp only [RC_RATIO_MIN_eq, RC_FRAC]
  omega

/-- The ratio of two rates fits its register (R161). -/
theorem toNat_rcSetRatio_ratio (i : Word) (o : Nat) (c : Rc) :
    (rcSetRatio (rcRatio i.toNat o) c).ratio.toNat = i.toNat * 2 ^ 32 / o := by
  have hi := i.isLt
  rw [rcSetRatio_ratio, BitVec.toNat_ofNat]
  exact Nat.mod_eq_of_lt ((Nat.div_le_self _ _).trans_lt (by simp only [RC_FRAC]; omega))

/-- RC.CFG with legal rates (R165). -/
theorem exec_rcCfg_legal {s : State} {a b : Word} (reset : Bool) (hidle : s.dm.active = false) (ha : 0 < a.toNat)
    (hb : 0 < b.toNat) (hlegal : b.toNat ≤ 256 * a.toNat) : exec (.rcCfg a b reset) s = .next (respond .ok [] { s with
      rc := if reset then rcReset (rcSetRatio (rcRatio a.toNat b.toNat) s.rc)
        else rcSetRatio (rcRatio a.toNat b.toNat) s.rc }) := by
  have hnonzero : ¬ (a = 0#32 ∨ b = 0#32) := by rintro (rfl | rfl) <;> contradiction
  have hmin := (ratioMin_le_rcRatio_iff hb).2 hlegal
  show execRcCfg a b reset s = _
  simp only [execRcCfg, hidle, Bool.false_eq_true, if_false, if_neg hnonzero, if_neg (Nat.not_lt.2 hmin), finish_eq]

/-- RC.CFG with a zero rate or a ratio below 1/256 (R161, R165). -/
theorem exec_rcCfg_illegal {s : State} {a b : Word} (reset : Bool) (hidle : s.dm.active = false)
    (hillegal : a.toNat = 0 ∨ b.toNat = 0 ∨ 256 * a.toNat < b.toNat) :
    exec (.rcCfg a b reset) s = .next (respond .range [] s) := by
  show execRcCfg a b reset s = _
  simp only [execRcCfg, hidle, Bool.false_eq_true, if_false, reject_eq]
  by_cases hzero : a = 0#32 ∨ b = 0#32
  · rw [if_pos hzero]
  · have ha : a.toNat ≠ 0 := fun h => hzero (.inl (BitVec.eq_of_toNat_eq h))
    have hb : b.toNat ≠ 0 := fun h => hzero (.inr (BitVec.eq_of_toNat_eq h))
    have hlow : rcRatio a.toNat b.toNat < RC_RATIO_MIN := by
      rw [← Nat.not_le, ratioMin_le_rcRatio_iff (Nat.pos_of_ne_zero hb)]
      omega
    rw [if_neg hzero, if_pos hlow]

/-- Settles O27. -/
theorem rcCfgResult : Obligations.RcCfgResult := fun s _ b reset hidle =>
  ⟨fun ha hb hlegal => ⟨_, toNat_rcSetRatio_ratio _ b.toNat s.rc, exec_rcCfg_legal reset hidle ha hb hlegal⟩,
    exec_rcCfg_illegal reset hidle⟩

/-! ## Positions -/

/-- RC.CONV on an idle engine is `rc_push` of its block (R166). -/
theorem exec_rcConv_idle {s : State} (xs : List Cfx) (hidle : s.dm.active = false) : exec (.rcConv xs) s =
    .next (respond .ok (sampleWords (rcPushAll xs s.rc).1) { s with rc := (rcPushAll xs s.rc).2 }) :=
  if_neg (Bool.eq_false_iff.1 hidle)

/-- A block through the converter: at most 257 outputs an input, and every output and input accounted for in the position
(R164, R166, R170). -/
theorem rcPushAll_position (xs : List Cfx) {c : Rc} (hmin : RC_RATIO_MIN ≤ c.ratio.toNat)
    (hmax : c.ratio.toNat ≤ (2 ^ 32 - 1) * 2 ^ 32) :
    (rcPushAll xs c).1.length ≤ 257 * xs.length ∧
      ((rcPushAll xs c).2.skip.toNat + xs.length) * 2 ^ 32 + (rcPushAll xs c).2.mu.toNat =
        c.skip.toNat * 2 ^ 32 + c.mu.toNat + (rcPushAll xs c).1.length * c.ratio.toNat := by
  induction xs generalizing c with
  | nil => simp [rcPushAll]
  | cons x xs ih =>
    obtain ⟨hratio, -, hlen, hpos⟩ := rcPush_spec x hmin hmax
    obtain ⟨hlens, hposs⟩ := ih (c := (rcPush x c).2) (hratio ▸ hmin) (hratio ▸ hmax)
    rw [hratio] at hposs
    simp only [rcPushAll, List.length_append, List.length_cons, Nat.add_mul _ _ c.ratio.toNat]
    omega

/-- Settles O28. -/
theorem rcConvPositions : Obligations.RcConvPositions := fun _ xs hidle hmin hmax =>
  have ⟨hlen, hpos⟩ := rcPushAll_position xs hmin hmax
  ⟨_, _, exec_rcConv_idle xs hidle, rcPushAll_ratio _ _, hlen, hpos⟩

/-! ## Outputs -/

/-- The position of the next output, in 2^-32 input periods from the older of the two stored samples (R162). -/
def rcPosition (c : Rc) : Nat := c.skip.toNat * 2 ^ 32 + c.mu.toNat

theorem rcPosition_rcAdvance {c : Rc} (hmax : c.ratio.toNat ≤ (2 ^ 32 - 1) * 2 ^ 32) :
    rcPosition (rcAdvance c) = c.mu.toNat + c.ratio.toNat := rcAdvance_position hmax

theorem rcPosition_mod (c : Rc) : rcPosition c % 2 ^ 32 = c.mu.toNat := by
  have := mu_lt c
  unfold rcPosition
  omega

theorem rcPosition_div (c : Rc) : rcPosition c / 2 ^ 32 = c.skip.toNat := by
  have := mu_lt c
  unfold rcPosition
  omega

theorem rcPosition_lt_iff (c : Rc) : rcPosition c < 2 ^ 32 ↔ c.skip = 0#32 := by
  rw [← BitVec.toNat_inj, BitVec.toNat_zero, ← rcPosition_div]
  omega

/-- An input consumed takes one period off the position (R162, R164). -/
theorem rcPosition_rcConsume {c : Rc} (h : c.skip ≠ 0#32) : rcPosition (rcConsume c) + 2 ^ 32 = rcPosition c := by
  have hone : 1 ≤ c.skip.toNat := Nat.pos_of_ne_zero fun h0 => h (BitVec.eq_of_toNat_eq h0)
  have hsub : (c.skip - 1).toNat = c.skip.toNat - 1 := BitVec.toNat_sub_of_le hone
  unfold rcPosition
  rw [rcConsume_skip, rcConsume_mu, hsub]
  omega

/-- Output j of one input stands j ratios further on, before the newest sample, and is interpolated there (R163, R164). -/
theorem rcLoop_getElem? {n j : Nat} {c : Rc} {y : Cfx} (hmax : c.ratio.toNat ≤ (2 ^ 32 - 1) * 2 ^ 32)
    (hy : (rcLoop n c).1[j]? = some y) : rcPosition c + j * c.ratio.toNat < 2 ^ 32 ∧
      y = rcInterp (BitVec.ofNat RC_FRAC (rcPosition c + j * c.ratio.toNat)) c.hist[0] c.hist[1] := by
  induction n generalizing c j with
  | zero => simp [rcLoop] at hy
  | succ n ih =>
    by_cases hskip : c.skip = 0#32
    · have hmu : rcPosition c = c.mu.toNat := by
        rw [← rcPosition_mod, Nat.mod_eq_of_lt ((rcPosition_lt_iff c).2 hskip)]
      rw [rcLoop, if_pos hskip] at hy
      cases j with
      | zero =>
        obtain rfl : _ = y := Option.some.inj hy
        rw [Nat.zero_mul, Nat.add_zero, hmu, BitVec.ofNat_toNat, BitVec.setWidth_eq]
        exact ⟨mu_lt c, rfl⟩
      | succ j =>
        have hstep : rcPosition (rcAdvance c) + j * c.ratio.toNat = rcPosition c + (j + 1) * c.ratio.toNat := by
          rw [rcPosition_rcAdvance hmax, hmu, Nat.succ_mul]
          omega
        rw [← hstep]
        exact ih (c := rcAdvance c) hmax hy
    · rw [rcLoop, if_neg hskip] at hy
      cases hy

/-- One input at a position that 256 outputs move past the newest sample, as every legal ratio does: the position moves on by the
ratio for each output and back by one period (R164). -/
theorem rcPush_position (x : Cfx) {c : Rc} (hmax : c.ratio.toNat ≤ (2 ^ 32 - 1) * 2 ^ 32)
    (hend : 2 ^ 32 ≤ rcPosition c + 256 * c.ratio.toNat) :
    rcPosition (rcPush x c).2 + 2 ^ 32 = rcPosition c + (rcPush x c).1.length * c.ratio.toNat := by
  have hskip : (rcLoop rcFuel (rcShift x c)).2.skip ≠ 0#32 := rcLoop_ends le_rfl hmax hend
  exact (rcPosition_rcConsume hskip).trans (rcLoop_position rcFuel (c := rcShift x c) hmax)

/-- The outputs of one input are as many as positions before the newest sample (R164). -/
theorem lt_rcPush_length_iff (x : Cfx) {c : Rc} (hmax : c.ratio.toNat ≤ (2 ^ 32 - 1) * 2 ^ 32)
    (hend : 2 ^ 32 ≤ rcPosition c + 256 * c.ratio.toNat) (j : Nat) :
    j < (rcPush x c).1.length ↔ rcPosition c + j * c.ratio.toNat < 2 ^ 32 := by
  refine ⟨fun hj => (rcLoop_getElem? (c := rcShift x c) hmax (List.getElem?_eq_getElem hj)).1, fun hj => ?_⟩
  by_contra hlen
  have hmono := Nat.mul_le_mul_right c.ratio.toNat (Nat.le_of_not_lt hlen)
  have := rcPush_position x hmax hend
  omega

/-- A sample shifted into the history stands before the one that was newest (R164). -/
theorem rcShift_hist_eq (x : Cfx) (c : Rc) : (rcShift x c).hist = #v[x, c.hist[0]] := by
  ext i hi
  have : i = 0 ∨ i = 1 := by simp only [RC_TAPS] at hi; omega
  rcases this with rfl | rfl <;> simp

/-- The weights of an output are the top 16 bits of its position's fraction (R163). -/
theorem toInt_rcInterp {pos : Nat} (hpos : pos < 2 ^ 32) (a b : Cfx) {p : Int} (hp : p = (pos : Int) / 65536) :
    (rcInterp (BitVec.ofNat RC_FRAC pos) a b).re.toInt = (p * a.re.toInt + (65536 - p) * b.re.toInt) / 65536 ∧
      (rcInterp (BitVec.ofNat RC_FRAC pos) a b).im.toInt = (p * a.im.toInt + (65536 - p) * b.im.toInt) / 65536 := by
  have hcoef : (BitVec.ofNat RC_FRAC pos).toNat / 2 ^ (RC_FRAC - RC_CF) = pos / 65536 := by
    rw [BitVec.toNat_ofNat]
    exact congrArg (· / 65536) (Nat.mod_eq_of_lt hpos)
  have hlt : pos / 65536 < 65536 := by omega
  obtain rfl : p = ((pos / 65536 : Nat) : Int) := by rw [hp]; norm_cast
  simp only [rcInterp, hcoef]
  exact ⟨toInt_rcMix hlt _ _, toInt_rcMix hlt _ _⟩

theorem rcPushAll_singleton (x : Cfx) (c : Rc) : rcPushAll [x] c = rcPush x c := by
  simp [rcPushAll]

/-- Settles O29: the count by `lt_rcPush_length_iff`, the values by `rcLoop_getElem?` and `toInt_rcInterp`, the position by
`rcPush_position`. -/
theorem rcConvInterpolates : Obligations.RcConvInterpolates := by
  rintro s x _ _ hidle rfl rfl hmax (hend : 2 ^ 32 ≤ rcPosition s.rc + 256 * s.rc.ratio.toNat)
  have hexec := exec_rcConv_idle [x] hidle
  have hcount := lt_rcPush_length_iff x hmax hend
  have hpos := rcPush_position x hmax hend
  have hmod := rcPosition_mod (rcPush x s.rc).2
  have hdiv := rcPosition_div (rcPush x s.rc).2
  rw [rcPushAll_singleton] at hexec
  refine ⟨_, _, hexec, rcPush_ratio x _, (rcLoop_hist _ _).trans (rcShift_hist_eq x _), hcount, fun j y p hy hp => ?_,
    ?_, ?_, fun hskip => ?_⟩
  · obtain ⟨hlt, rfl⟩ := rcLoop_getElem? (c := rcShift x s.rc) hmax hy
    simp only [rcShift_hist_eq]
    exact toInt_rcInterp hlt _ _ hp
  · show _ = (rcPosition s.rc + _) % _
    rw [← hpos, ← hmod, Nat.add_mod_right]
  · show _ = (rcPosition s.rc + _) / _
    rw [← hpos, ← hdiv, Nat.add_div_right _ (by norm_num)]
  · have hnone : (rcPush x s.rc).1 = [] := by
      rwa [← List.length_eq_zero_iff, ← Nat.le_zero, ← Nat.not_lt, hcount, Nat.zero_mul, Nat.add_zero,
        rcPosition_lt_iff]
    rw [hnone, List.length_nil, Nat.zero_mul, Nat.add_zero] at hpos
    refine ⟨hnone, BitVec.eq_of_toNat_eq ?_, ?_⟩
    · rw [← hmod, ← rcPosition_mod, ← hpos, Nat.add_mod_right]
    · rw [← hdiv, ← rcPosition_div, ← hpos, Nat.add_div_right _ (by norm_num)]

/-! ## DC exactness -/

/-- Two equal stored samples give that sample at every position (R163, R169). -/
theorem rcLoop_const (n : Nat) {c : Rc} {v : Cfx} (h0 : c.hist[0] = v) (h1 : c.hist[1] = v) :
    ∀ y ∈ (rcLoop n c).1, y = v := by
  induction n generalizing c with
  | zero => simp [rcLoop]
  | succ n ih =>
    rw [rcLoop]
    split
    · rw [h0, h1, rcInterp_const]
      exact List.forall_mem_cons.2 ⟨rfl, ih (c := rcAdvance c) h0 h1⟩
    · exact nofun

/-- The pushed input becomes the newest stored sample (R164). -/
theorem rcPush_hist_zero (x : Cfx) (c : Rc) : (rcPush x c).2.hist[0] = x := by
  simp [rcPush]

/-- A constant input at the constant stored gives that constant (R169). -/
theorem rcPushAll_const (xs : List Cfx) {c : Rc} {v : Cfx} (hnewest : c.hist[0] = v) (hxs : ∀ x ∈ xs, x = v) :
    ∀ y ∈ (rcPushAll xs c).1, y = v := by
  induction xs generalizing c with
  | nil => exact nofun
  | cons x xs ih =>
    obtain ⟨rfl, hrest⟩ := List.forall_mem_cons.1 hxs
    have houts := rcLoop_const rcFuel (c := rcShift x c) (v := x) (by simp) (by simpa using hnewest)
    exact List.forall_mem_append.2 ⟨houts, ih (rcPush_hist_zero x c) hrest⟩

/-- Settles O30. -/
theorem rcDcExact : Obligations.RcDcExact := by
  intro s v hidle
  refine ⟨⟨_, _, exec_rcConv_idle [v] hidle, rcPush_hist_zero v s.rc⟩, fun hnewest xs hxs =>
    ⟨(rcPushAll xs s.rc).1.length, (rcPushAll xs s.rc).2, ?_⟩⟩
  rw [← List.eq_replicate_of_mem (rcPushAll_const xs hnewest hxs)]
  exact exec_rcConv_idle xs hidle

end Sys2Proof.Machine

/-! # Streams split into commands (spec/41_rate_converter.md R166; spec/42_spectral_filter.md R191; spec/44_atv_demod.md R216;
spec/45_synthesis.md R281, R303) -/

namespace Sys2Proof.Machine
open Config

/-- SF.APPLY on an idle engine is `sf_push` of its block (R191). -/
theorem exec_sfApply_idle {s : State} (xs : List Cfx) (hidle : s.dm.active = false) : exec (.sfApply xs) s =
    .next (respond .ok (sampleWords (sfPushAll xs s.sf).1) { s with sf := (sfPushAll xs s.sf).2 }) :=
  if_neg (Bool.eq_false_iff.1 hidle)

/-- RC.CONV of a stream in two parts (R166). -/
theorem rcConv_split {s : State} (xs ys : List Cfx) (hidle : s.dm.active = false) :
    ∃ (t u : State) (a b : List Word), exec (.rcConv xs) s = .next (respond .ok a t) ∧
      exec (.rcConv ys) (respond .ok a t) = .next (respond .ok b (respond .ok a u)) ∧
      exec (.rcConv (xs ++ ys)) s = .next (respond .ok (a ++ b) u) := by
  refine ⟨_, { s with rc := (rcPushAll ys (rcPushAll xs s.rc).2).2 }, _, _, exec_rcConv_idle xs hidle,
    exec_rcConv_idle ys hidle, ?_⟩
  rw [exec_rcConv_idle _ hidle, rcPushAll_append, sampleWords_append]
  rfl

/-- SF.APPLY of a stream in two parts (R191). -/
theorem sfApply_split {s : State} (xs ys : List Cfx) (hidle : s.dm.active = false) :
    ∃ (t u : State) (a b : List Word), exec (.sfApply xs) s = .next (respond .ok a t) ∧
      exec (.sfApply ys) (respond .ok a t) = .next (respond .ok b (respond .ok a u)) ∧
      exec (.sfApply (xs ++ ys)) s = .next (respond .ok (a ++ b) u) := by
  refine ⟨_, { s with sf := (sfPushAll ys (sfPushAll xs s.sf).2).2 }, _, _, exec_sfApply_idle xs hidle,
    exec_sfApply_idle ys hidle, ?_⟩
  rw [exec_sfApply_idle _ hidle, sfPushAll_append, sampleWords_append]
  rfl

theorem BlockFrame.stopReq {s t : State} (h : BlockFrame s t) : t.dm.stopReq = s.dm.stopReq :=
  (congrArg Dm.stopReq h.dm :)
theorem BlockFrame.pndF {s t : State} (h : BlockFrame s t) : t.dm.pndF = s.dm.pndF := (congrArg Dm.pndF h.dm :)

/-- DM.FEED of a stream in two parts: a block leaves the engine running with nothing pending, so the second is fed as well, and
the counts add up (R216). -/
theorem dmFeed_split {s : State} (xs ys : List Cfx) (hactive : s.dm.active = true) (hstop : s.dm.stopReq = false)
    (hpend : s.dm.pndF.any = false) : ∃ (t u : State) (a b : Word), exec (.dmFeed xs) s = .next (respond .ok [a] t) ∧
      exec (.dmFeed ys) (respond .ok [a] t) = .next (respond .ok [b] (respond .ok [a] u)) ∧
      exec (.dmFeed (xs ++ ys)) s = .next (respond .ok [a + b] u) := by
  have hframe := dmBlock_frame xs s
  refine ⟨_, (dmBlock ys (dmBlock xs s).2).2, _, BitVec.ofNat 32 (dmBlock ys (dmBlock xs s).2).1,
    execDmFeed_running xs hactive hstop hpend, ?_, ?_⟩
  · refine (execDmFeed_running (s := respond .ok _ (dmBlock xs s).2) ys (hframe.active.trans hactive)
      (hframe.stopReq.trans hstop) ((congrArg DmFlags.any hframe.pndF).trans hpend)).trans ?_
    rw [dmBlock_respond]
  · refine (execDmFeed_running (xs ++ ys) hactive hstop hpend).trans ?_
    rw [dmBlock_append, BitVec.ofNat_add]

/-- A batch does not depend on the responses given (R40). -/
theorem syBatch_respond (n : Nat) (st : Status) (ws : List Word) (s : State) :
    syBatch n (respond st ws s) = respond st ws (syBatch n s) := by
  have h0 := syBatch_ports n s.io.cmd s.io.rsp s.io.evt s.io.pix s
  have h1 := syBatch_ports n s.io.cmd (s.io.rsp ++ [⟨st, ws⟩]) s.io.evt s.io.pix s
  rw [ports_self] at h0
  rw [h0]
  exact h1

/-- A batch in two parts, the first of whole pairs, leaves the same but for the buffer (R281, R303). -/
theorem syBatch_add (m n : Nat) (s : State) (heven : m % 2 = 0) (hsize : m + n ≤ SY_BUF_WORDS) :
    ∃ buf, syBatch (m + n) s = { syBatch n (syBatch m s) with sybuf := buf } := by
  obtain ⟨buf1, h1⟩ := syBatch_halves m s (by omega)
  obtain ⟨buf2, h2⟩ := syBatch_halves n (syBatch m s) (by omega)
  obtain ⟨buf, h⟩ := syBatch_halves (m + n) s hsize
  have hpairs : (m + n) / 2 = m / 2 + n / 2 := by omega
  refine ⟨buf, ?_⟩
  have hhalves := syHalves_blind (n / 2) (syAfter (m / 2) s) buf1 (s.syq ++ syHalves (m / 2) s) (syAfter (m / 2) s).io
  have hafter := syAfter_blind (n / 2) (syAfter (m / 2) s) buf1 (s.syq ++ syHalves (m / 2) s) (syAfter (m / 2) s).io
  rw [h, h2, hpairs, h1, syAfter_add, syHalves_add, hhalves, hafter, List.append_assoc]
  simp only [syAfter_io]

theorem syBatch_gen (count : Nat) (s : State) :
    (syBatch count s).gen = { s.gen with fmDev := (syBatch count s).gen.fmDev } := by
  obtain ⟨nco, dev, buf, q, -, h⟩ := syBatch_kept count s
  rw [h]

/-- A batch lengthens the queue by its whole pairs (R75, R281). -/
theorem syBatch_syq_length {count : Nat} (s : State) (hsize : count ≤ SY_BUF_WORDS) :
    (syBatch count s).syq.length = s.syq.length + 2 * (count / 2) := by
  obtain ⟨buf, h⟩ := syBatch_halves count s hsize
  rw [h, List.length_append, syHalves_length]

/-- SY.GEN of a batch that fits, on a running engine with nothing pending (R281, R282). -/
theorem exec_syGen_fits {s : State} {count : Word} (hrun : s.gen.halted = false) (hactive : s.gen.active = true)
    (hstop : s.gen.stopReq = false) (hpend : s.gen.pndF = false) (hbuf : count.toNat ≤ SY_BUF_WORDS)
    (hqueue : s.syq.length + 2 * (count.toNat / 2) ≤ SY_Q_WORDS) : exec (.syGen count) s =
      .next (respond .ok [BitVec.ofNat 32 (2 * (count.toNat / 2))] (syBatch count.toNat s)) :=
  (exec_syGen_quiet count hrun hactive hstop hpend).trans (syGenerate_fits hbuf hqueue)

/-- SY.GEN of a batch in two parts, the first of whole pairs (R281, R282, R303). -/
theorem syGen_split {s : State} {m n k : Word} (hrun : s.gen.halted = false) (hactive : s.gen.active = true)
    (hstop : s.gen.stopReq = false) (hpend : s.gen.pndF = false) (heven : m.toNat % 2 = 0)
    (hsum : k.toNat = m.toNat + n.toNat) (hbuf : k.toNat ≤ SY_BUF_WORDS)
    (hqueue : s.syq.length + k.toNat ≤ SY_Q_WORDS) : ∃ (t u v : State) (a b : Word),
      a = m ∧ b.toNat = 2 * (n.toNat / 2) ∧ exec (.syGen m) s = .next (respond .ok [a] t) ∧
        exec (.syGen n) (respond .ok [a] t) = .next (respond .ok [b] (respond .ok [a] u)) ∧
        exec (.syGen k) s = .next (respond .ok [a + b] v) ∧ v = { u with sybuf := v.sybuf } := by
  have hm : 2 * (m.toNat / 2) = m.toNat := by omega
  have hk : 2 * (k.toNat / 2) = m.toNat + 2 * (n.toNat / 2) := by omega
  have hlen := syBatch_syq_length (count := m.toNat) s (by omega)
  have hgen := syBatch_gen m.toNat s
  have hfirst := exec_syGen_fits (count := m) hrun hactive hstop hpend (by omega) (by omega)
  rw [hm, BitVec.ofNat_toNat, BitVec.setWidth_eq] at hfirst
  have hsecond := exec_syGen_fits (s := respond .ok [m] (syBatch m.toNat s)) (count := n) (by rw [respond_gen, hgen, hrun])
    (by rw [respond_gen, hgen, hactive]) (by rw [respond_gen, hgen, hstop]) (by rw [respond_gen, hgen, hpend]) (by omega)
    (by rw [respond_syq]; omega)
  rw [syBatch_respond] at hsecond
  have hwhole := exec_syGen_fits (count := k) hrun hactive hstop hpend hbuf (by omega)
  rw [hk, BitVec.ofNat_add, BitVec.ofNat_toNat, BitVec.setWidth_eq] at hwhole
  obtain ⟨buf, hstate⟩ := syBatch_add m.toNat n.toNat s heven (by omega)
  refine ⟨_, _, _, m, _, rfl, ?_, hfirst, hsecond, hwhole, ?_⟩
  · rw [BitVec.toNat_ofNat]
    exact Nat.mod_eq_of_lt (by simp only [SY_BUF_WORDS] at hbuf; omega)
  · rw [hsum, hstate]

/-- Settles O31. -/
theorem streamsSplit : Obligations.StreamsSplit := fun _ xs ys =>
  ⟨rcConv_split xs ys, sfApply_split xs ys, dmFeed_split xs ys,
    fun hrun hactive hstop hpend _ _ _ heven hsum hbuf hqueue =>
      syGen_split hrun hactive hstop hpend heven hsum hbuf hqueue⟩

end Sys2Proof.Machine

/-! # DM.FEED with nothing pending (spec/44_atv_demod.md R216, R217, R223)

The mixed block through the units by `dmBlock_eq`; the units replaced from outside by `Blind`; the FM history through the sample
step. -/

namespace Sys2Proof.Machine
open Config

/-! ## The FM history (R223) -/

/-- The two unit vectors the discriminator keeps (R33). -/
def fmHistory (s : State) : Cfx × Cfx := (s.dm.uh1, s.dm.uh2)

theorem fmHistory_congr {s t : State} (h : t.dm = s.dm) : fmHistory t = fmHistory s := by
  unfold fmHistory
  rw [h]

theorem fmHistory_lineEnd (v : VsAnswer) (s : State) : fmHistory (lineEnd v s) = fmHistory s := by
  unfold lineEnd
  split_ifs <;> rfl

theorem fmHistory_lineDone (s : State) : fmHistory (lineDone s) = fmHistory s := by
  unfold lineDone
  dsimp only
  split <;> exact (fmHistory_lineEnd _ _).trans (fmHistory_congr (by simp))

theorem fmHistory_rasterStep (s : State) : fmHistory (rasterStep s) = fmHistory s := by
  unfold rasterStep
  dsimp only
  split
  · exact fmHistory_lineDone _
  · rfl

/-- Under the magnitude kinds a sample leaves the FM history (R223, R225, R226). -/
theorem fmHistory_dmSample (z : Cfx) {s : State} (h1 : s.dm.cur.rf.modKind ≠ .fm1) (h2 : s.dm.cur.rf.modKind ≠ .fm2) :
    fmHistory (dmSample z s) = fmHistory s := by
  have hraw : dmAfterRaw z s = s.dm := if_neg (by simp [h1, h2])
  rw [dmSample_eq, fmHistory_rasterStep]
  exact (fmHistory_congr (s := sampleMid z s) (hsStep_dm _ _)).trans
    (fmHistory_congr (by rw [sampleMid_eq, recordAmp_dm, checkSignal_dm, hraw]))

theorem dmFront_dm (x : Cfx) (s : State) : (dmFront x s).2.dm = s.dm := by
  obtain ⟨c, f, h, -⟩ := dmFront_spec x s
  rw [h]

/-- Under the magnitude kinds a block leaves the FM history (R216, R223). -/
theorem fmHistory_dmBlock (xs : List Cfx) {s : State} (h1 : s.dm.cur.rf.modKind ≠ .fm1)
    (h2 : s.dm.cur.rf.modKind ≠ .fm2) : fmHistory (dmBlock xs s).2 = fmHistory s := by
  refine (dmBlock_induction (P := fun t => t.dm.cur = s.dm.cur ∧ fmHistory t = fmHistory s) (fun x t h => ?_)
    (fun z t h => ?_) xs ⟨rfl, rfl⟩).2
  · exact ⟨(congrArg Dm.cur (dmFront_dm x t)).trans h.1, (fmHistory_congr (dmFront_dm x t)).trans h.2⟩
  · obtain ⟨hcur, hhistory⟩ := h
    exact ⟨(dmSample_frame z t).cur.trans hcur,
      (fmHistory_dmSample z (by rwa [hcur]) (by rwa [hcur])).trans hhistory⟩

/-! ## The mixed block (R144, R217) -/

/-- A block whose samples have the components R14 gives the products is the mixed block. -/
theorem eq_mixBlock {xs zs : List Cfx} {o : Nco} (hlen : zs.length = xs.length)
    (h : ∀ (i : Nat) (x z m : Cfx), xs[i]? = some x → zs[i]? = some z →
      m = cs (o.phase + BitVec.ofNat 32 (i + 1) * o.inc) →
      z.re.toInt = max FX_MIN (min FX_MAX ((x.re.toInt * m.re.toInt - x.im.toInt * m.im.toInt) / 65536)) ∧
      z.im.toInt = max FX_MIN (min FX_MAX ((x.re.toInt * m.im.toInt + x.im.toInt * m.re.toInt) / 65536))) :
    zs = (mixBlock xs o).1 := by
  refine List.ext_getElem (by rw [hlen, mixBlock_length]) fun i hz hm => ?_
  have hx : i < xs.length := hlen ▸ hz
  obtain ⟨hre, him⟩ := h i xs[i] zs[i] _ (List.getElem?_eq_getElem hx) (List.getElem?_eq_getElem hz) rfl
  have hmix := mixBlock_getElem? xs o i xs[i] (List.getElem?_eq_getElem hx)
  rw [List.getElem?_eq_getElem hm] at hmix
  rw [Option.some.inj hmix]
  exact eq_cmul_of_toInt hre him

/-- The phase after a block: one increment further for each input, modulo a turn (R144). -/
theorem toNat_mixBlock_phase (xs : List Cfx) (o : Nco) :
    (mixBlock xs o).2.phase.toNat = (o.phase.toNat + xs.length * o.inc.toNat) % 2 ^ 32 := by
  rw [mixBlock_snd, BitVec.toNat_add, BitVec.toNat_mul, BitVec.toNat_ofNat]
  simp only [P, Nat.mod_mul_mod, Nat.add_mod_mod]

/-! ## The block through the units (R168, R188, R217) -/

/-- What comes out of the converter's place in the path, and the converter after it. -/
def fedConv (xs : List Cfx) (s : State) : List Cfx × Rc :=
  convBlock s.dm.d.decimOn (mixBlock xs s.nco[(0 : Fin 3)]).1 s.rc

/-- What comes out of the filter's place in the path, and the filter after it. -/
def fedFilt (xs : List Cfx) (s : State) : List Cfx × Sf := filtBlock s.dm.d.filtOn (fedConv xs s).1 s.sf

theorem dmBlock_fed (xs : List Cfx) (s : State) : dmBlock xs s = ((fedFilt xs s).1.length,
    units (s.nco.set (0 : Fin 3) (mixBlock xs s.nco[(0 : Fin 3)]).2) (fedConv xs s).2 (fedFilt xs s).2 s.dm.d.decimOn
      s.dm.d.filtOn (dmSamples (fedFilt xs s).1 s)) :=
  dmBlock_eq xs s

theorem dmBlock_count (xs : List Cfx) (s : State) : (dmBlock xs s).1 = (fedFilt xs s).1.length := by
  rw [dmBlock_fed]

theorem dmBlock_rc (xs : List Cfx) (s : State) : (dmBlock xs s).2.rc = (fedConv xs s).2 := by
  rw [dmBlock_fed]
  rfl

theorem dmBlock_sf (xs : List Cfx) (s : State) : (dmBlock xs s).2.sf = (fedFilt xs s).2 := by
  rw [dmBlock_fed]
  rfl

/-- Oscillator 0 after a block: one increment further for each input (R144). -/
theorem dmBlock_phase (xs : List Cfx) (s : State) : (dmBlock xs s).2.nco[(0 : Fin 3)].phase.toNat =
    (s.nco[(0 : Fin 3)].phase.toNat + xs.length * s.nco[(0 : Fin 3)].inc.toNat) % 2 ^ 32 := by
  rw [← toNat_mixBlock_phase, dmBlock_fed]
  simp [units]

theorem fedConv_bypassed (xs : List Cfx) {s : State} (h : s.dm.d.decimOn = false) :
    fedConv xs s = ((mixBlock xs s.nco[(0 : Fin 3)]).1, s.rc) := by
  unfold fedConv
  rw [h]
  rfl

theorem fedConv_on (xs : List Cfx) {s : State} (h : s.dm.d.decimOn = true) :
    fedConv xs s = rcPushAll (mixBlock xs s.nco[(0 : Fin 3)]).1 s.rc := by
  unfold fedConv
  rw [h]
  rfl

theorem fedFilt_bypassed (xs : List Cfx) {s : State} (h : s.dm.d.filtOn = false) :
    fedFilt xs s = ((fedConv xs s).1, s.sf) := by
  unfold fedFilt
  rw [h]
  rfl

theorem fedFilt_on (xs : List Cfx) {s : State} (h : s.dm.d.filtOn = true) :
    fedFilt xs s = sfPushAll (fedConv xs s).1 s.sf := by
  unfold fedFilt
  rw [h]
  rfl

/-! ## The demodulated block -/

/-- The state with both units bypassed and oscillator 0 at rest. -/
def restState (s : State) : State := units (s.nco.set (0 : Fin 3) ⟨0#32, 0#32⟩) s.rc s.sf false false s

theorem restState_nco (s : State) : (restState s).nco[(0 : Fin 3)] = ⟨0#32, 0#32⟩ := by
  simp [restState, units]

theorem fedFilt_restState (ws : List Cfx) (s : State) : fedFilt ws (restState s) = (ws, s.sf) := by
  rw [fedFilt_bypassed ws rfl, fedConv_bypassed ws rfl, restState_nco, mixBlock_rest]
  rfl

/-- With both units bypassed and the oscillator at rest a block goes to the sample step as it is (R216, R217). -/
theorem dmBlock_restState (ws : List Cfx) (s : State) : ∃ n c f,
    dmBlock ws (restState s) = (ws.length, units n c f false false (dmSamples ws s)) := by
  rw [dmBlock_fed, fedFilt_restState, restState, blind_dmSamples]
  exact ⟨_, _, _, rfl⟩

/-- A block is demodulated as what comes out of its units is with these bypassed and the oscillator at rest: the sample step
reads nothing of the front end (R217, R220). -/
theorem dmBlock_eq_rest (xs : List Cfx) (s : State) :
    dmBlock xs s = ((dmBlock (fedFilt xs s).1 (restState s)).1, { (dmBlock (fedFilt xs s).1 (restState s)).2 with
      nco := (dmBlock xs s).2.nco
      rc := (dmBlock xs s).2.rc
      sf := (dmBlock xs s).2.sf
      dm := { (dmBlock (fedFilt xs s).1 (restState s)).2.dm with d := s.dm.d } }) := by
  obtain ⟨n, c, f, hrest⟩ := dmBlock_restState (fedFilt xs s).1 s
  have hd := (dmSamples_frame (fedFilt xs s).1 s).d
  rw [hrest, dmBlock_fed xs s]
  simp only [units, hd]

/-- Settles O45: the block through its units by `dmBlock_fed`, its demodulation by `dmBlock_eq_rest`, and what stays by
`dmBlock_frame`. -/
theorem dmFeedCompletes : Obligations.DmFeedCompletes := by
  rintro s _ xs zs hactive hstop hpend rfl hlen hmix
  obtain rfl := eq_mixBlock hlen hmix
  have hframe := dmBlock_frame xs s
  have hkept := synthKept_dmBlock xs s
  obtain ⟨-, -, -, hrsp, -⟩ := (portSafe_dmBlock xs).appends.io s
  refine ⟨_, _, (fedConv xs s).1, (fedFilt xs s).1, execDmFeed_running xs hactive hstop hpend, ?_, fun hdec => ?_,
    fun hdec => ?_, fun hfilt => ?_, fun hfilt => ?_,
    execDmFeed_running (s := restState s) (fedFilt xs s).1 hactive hstop hpend, ?_, hframe.ratio, hframe.mask,
    dmBlock_phase xs s, hframe.inc, hframe.dm, fun h1 h2 => Prod.mk.inj (fmHistory_dmBlock xs h1 h2), hkept.share,
    hkept.fault, hframe.cfgErr, hkept.timerIn⟩
  · rw [respond_io_rsp, hrsp, dmBlock_count]
  · rw [respond_rc, dmBlock_rc, fedConv_bypassed xs hdec]
    exact ⟨rfl, rfl⟩
  · rw [respond_rc, dmBlock_rc, fedConv_on xs hdec, ← mixBlock_length xs s.nco[(0 : Fin 3)]]
    exact ⟨exec_rcConv_idle _ rfl, rcPushAll_position _⟩
  · rw [respond_sf, dmBlock_sf, fedFilt_bypassed xs hfilt]
    exact ⟨rfl, rfl⟩
  · rw [respond_sf, dmBlock_sf, fedFilt_on xs hfilt]
    exact ⟨exec_sfApply_idle _ rfl, sfPushAll_count _ _⟩
  · exact congrArg (fun fed : Nat × State => respond .ok [BitVec.ofNat 32 fed.1] fed.2) (dmBlock_eq_rest xs s)

end Sys2Proof.Machine

/-! # SF.APPLY (spec/42_spectral_filter.md R182, R184, R191, R192)

A block filled exactly is `filledBlock`; what the kernel makes of it follows from the properties of R184. -/

namespace Sys2Proof.Machine
open Config

/-! ## Lists given by their entries -/

/-- A list is known by its length and its entries. -/
theorem eq_tabulate_of_getElem? {α : Type} {n : Nat} {l : List α} {f : Nat → α} (hlen : l.length = n)
    (hget : ∀ k, k < n → l[k]? = some (f k)) : l = tabulate n f := by
  apply List.ext_getElem?
  intro k
  rw [tabulate_getElem?]
  split_ifs with hk
  · exact hget k hk
  · exact List.getElem?_eq_none (by omega)

theorem eq_fxOne {m : Fx} (h : m.toInt = 65536) : m = fxOne :=
  BitVec.eq_of_toInt_eq (h.trans (by decide))

/-! ## The mask as a list -/

@[simp] theorem sfMaskList_length (f : Sf) : (sfMaskList f).length = SF_N := sparseToList_length _ _ _

/-- Bin 0 is the mask's first entry. -/
theorem sfMaskList_head? {f : Sf} (h : (sparseGet 0#32 f.mask 0).toInt = 65536) : (sfMaskList f).head? = some fxOne := by
  rw [List.head?_eq_getElem?, sfMaskList, sparseToList_getElem? _ _ (by decide), eq_fxOne h]

/-- A mask that is ONE in every bin is ONE in every entry of its list. -/
theorem sfMaskList_allOne {f : Sf} (h : ∀ k, k < SF_N → (sparseGet 0#32 f.mask k).toInt = 65536) :
    ∀ m ∈ sfMaskList f, m.toInt = 65536 := by
  intro m hm
  obtain ⟨k, hk, rfl⟩ := tabulate_mem hm
  exact h k hk

/-! ## A block filled exactly (R182) -/

/-- The kernel's block once `xs` has filled it: what the filter holds up to the samples collected, then `xs` (R182). -/
def filledBlock (f : Sf) (xs : List Cfx) : List Cfx :=
  tabulate SF_N fun k =>
    if k < SF_L + f.fill.val then sparseGet cfxZero f.inb k else xs.getD (k - (SF_L + f.fill.val)) cfxZero

@[simp] theorem filledBlock_length (f : Sf) (xs : List Cfx) : (filledBlock f xs).length = SF_N := tabulate_length _ _

/-- The stored block when the last of the samples that just fill it arrives. -/
theorem sparseToList_sfStore_collected {f : Sf} (ys : List Cfx) (z : Cfx) (h : f.fill.val + ys.length + 1 = SF_L) :
    sparseToList cfxZero SF_N (sfStore z (sfPushAll ys f).2) = filledBlock f (ys ++ [z]) := by
  obtain ⟨-, hfill, hinb⟩ := sfPushAll_collect ys f (by simp only [SF_L] at h; omega)
  refine tabulate_congr fun k hk => ?_
  simp only [SF_L, SF_N] at h hk
  rw [sfStore, hfill, sparseGet_set _ _ _ _ _ _ (by simp only [SF_L, SF_N]; omega), hinb]
  simp only [SF_L, List.getD_eq_getElem?_getD, List.getElem?_append]
  by_cases hlast : k = 2047
  · subst hlast
    rw [if_pos (by omega), if_neg (by omega), if_neg (by omega), show 2047 - (1024 + f.fill.val) - ys.length = 0 by omega]
    rfl
  · rw [if_neg (by omega)]
    by_cases hold : k < 1024 + f.fill.val
    · rw [if_neg (by omega), if_pos hold]
    · rw [if_pos (by omega), if_neg hold, if_pos (by omega)]

theorem sfPushAll_singleton (z : Cfx) (f : Sf) : sfPushAll [z] f = sfPush z f := by
  simp [sfPushAll]

/-- Samples that just fill the block release the kernel's upper half and leave the block's new half as the overlap tail. -/
theorem sfPushAll_release {f : Sf} {xs : List Cfx} (h : f.fill.val + xs.length = SF_L) :
    sfPushAll xs f = ((sfKernel (sfMaskList f) (filledBlock f xs)).drop SF_L,
      { f with
        inb := sparseOfList cfxZero 0 ((filledBlock f xs).drop SF_L ++ (filledBlock f xs).drop SF_L)
        fill := 0 }) := by
  rcases List.eq_nil_or_concat xs with rfl | ⟨ys, z, rfl⟩
  · exact absurd (h :) f.fill.isLt.ne
  rw [List.concat_eq_append] at h ⊢
  rw [List.length_append, List.length_singleton, ← Nat.add_assoc] at h
  obtain ⟨hnone, hfill, -⟩ := sfPushAll_collect ys f (by simp only [SF_L] at h; omega)
  have hmask := sfPushAll_mask ys f
  have hblock := sparseToList_sfStore_collected ys z h
  rw [sfPushAll_append, hnone, List.nil_append, sfPushAll_singleton]
  show sfPush z _ = _
  rw [sfPush_release z _ (by rw [hfill]; exact h.not_lt), sfResult, sfKeepTail, hblock, sfMaskList, hmask]
  rfl

theorem sfPushAll_release_fill {f : Sf} {xs : List Cfx} (h : f.fill.val + xs.length = SF_L) :
    (sfPushAll xs f).2.fill.val = 0 := by
  rw [(sfPushAll_count xs f).2, h]
  rfl

/-- The overlap tail after a release is the new half of the block (R182). -/
theorem sfPushAll_release_tail {f : Sf} {xs : List Cfx} (h : f.fill.val + xs.length = SF_L) {k : Nat} (hk : k < SF_L) :
    some (sparseGet cfxZero (sfPushAll xs f).2.inb k) = (filledBlock f xs)[SF_L + k]? := by
  have hlen : k < ((filledBlock f xs).drop SF_L).length := by
    rw [List.length_drop, filledBlock_length]; exact hk
  rw [sfPushAll_release h, sparseGet_ofList, if_pos (Nat.zero_le k), Nat.sub_zero, List.getD_append _ _ _ _ hlen,
    List.getD_eq_getElem _ _ hlen, ← List.getElem?_eq_getElem hlen, List.getElem?_drop]

/-- From an empty block the new half is the samples themselves. -/
theorem filledBlock_drop {f : Sf} {xs : List Cfx} (hempty : f.fill.val = 0) (hxs : xs.length = SF_L) :
    (filledBlock f xs).drop SF_L = xs := by
  apply List.ext_getElem?
  intro k
  rw [List.getElem?_drop, filledBlock, tabulate_getElem?, hempty, Nat.add_zero]
  split_ifs with hk hold
  · omega
  · rw [Nat.add_sub_cancel_left, List.getD_eq_getElem _ _ (by simp only [SF_N, SF_L] at *; omega),
      List.getElem?_eq_getElem]
  · exact (List.getElem?_eq_none (by simp only [SF_N, SF_L] at *; omega)).symm

/-! ## What the kernel's upper half is (R184, R192) -/

/-- SFK_ZERO of the released half. -/
theorem sfKernel_drop_zero {mask : List Fx} {block : List Cfx}
    (h : (∀ m ∈ mask, m = 0#32) ∨ ∀ z ∈ block, z = ⟨0#32, 0#32⟩) :
    (sfKernel mask block).drop SF_L = List.replicate SF_L ⟨0#32, 0#32⟩ := by
  have hzero : sfKernel mask block = List.replicate SF_N ⟨0#32, 0#32⟩ := by
    apply List.ext_getElem?
    intro k
    rw [List.getElem?_replicate]
    split_ifs with hk
    · exact sfKernel_zero h.symm hk
    · exact List.getElem?_eq_none (by rw [sfKernel_length]; omega)
  rw [hzero, List.drop_replicate]
  rfl

/-- SFK_ID of the whole block. -/
theorem sfKernel_of_allOne {mask : List Fx} {block : List Cfx} (hmask : mask.length = SF_N) (hblock : block.length = SF_N)
    (h : ∀ m ∈ mask, m.toInt = 65536) : sfKernel mask block = block :=
  sfKernel_id (fun m hm => eq_fxOne (h m hm)) (List.ne_nil_of_length_pos (by rw [hmask]; decide)) hblock

/-- SFK_DC of the released half. -/
theorem sfKernel_drop_const {mask : List Fx} {block : List Cfx} {v : Cfx} (hdc : mask.head? = some fxOne)
    (hblock : block.length = SF_N) (hv : ∀ z ∈ block, z = v) :
    (sfKernel mask block).drop SF_L = List.replicate SF_L v := by
  rw [sfKernel_dc hdc hv hblock, List.eq_replicate_of_mem hv, hblock, List.drop_replicate]
  rfl

/-! ## SF.APPLY (R191) -/

/-- SF.APPLY of samples that do not fill the block: they are stored (R182). -/
theorem sfApply_collects {s : State} {xs : List Cfx} (hidle : s.dm.active = false) (h : s.sf.fill.val + xs.length < 1024) :
    exec (.sfApply xs) s = .next (respond .ok [] { s with sf := (sfPushAll xs s.sf).2 }) := by
  rw [exec_sfApply_idle xs hidle, (sfPushAll_collect xs s.sf h).1]
  rfl

/-- SF.APPLY of samples that just fill the block: the kernel's upper half is returned (R182). -/
theorem sfApply_releases {s : State} {xs : List Cfx} (hidle : s.dm.active = false) (h : s.sf.fill.val + xs.length = SF_L) :
    exec (.sfApply xs) s =
      .next (respond .ok (sampleWords ((sfKernel (sfMaskList s.sf) (filledBlock s.sf xs)).drop SF_L))
        { s with sf := (sfPushAll xs s.sf).2 }) := by
  rw [exec_sfApply_idle xs hidle, sfPushAll_release h]

/-- Settles O33. -/
theorem sfApplyCount : Obligations.SfApplyCount := by
  intro s xs hidle
  obtain ⟨hreturned, hkept⟩ := sfPushAll_count xs s.sf
  exact ⟨_, _, exec_sfApply_idle xs hidle, hreturned, hkept, sfPushAll_mask xs s.sf⟩

/-- Settles O34: the store by `sfPushAll_collect`, the release by `sfPushAll_release`, its values by SFK_ZERO, SFK_ID and
SFK_DC. -/
theorem sfApplyIdentity : Obligations.SfApplyIdentity := by
  refine ⟨fun s xs hidle h => ?_, fun s xs block mask hidle h hmlen hmask hblen hblock => ?_,
    fun s xs hidle hempty hxs hone => ?_⟩
  · obtain ⟨-, hfill, hinb⟩ := sfPushAll_collect xs s.sf h
    exact ⟨_, sfApply_collects hidle h, sfPushAll_mask xs s.sf, hfill, hinb⟩
  · have hmaskList : mask = sfMaskList s.sf := eq_tabulate_of_getElem? hmlen hmask
    have hfilled : block = filledBlock s.sf xs := eq_tabulate_of_getElem? hblen hblock
    rw [hmaskList, hfilled]
    refine ⟨_, _, sfApply_releases hidle h, rfl, ?_, sfPushAll_mask xs s.sf, sfPushAll_release_fill h,
      fun k hk => sfPushAll_release_tail h hk, sfKernel_drop_zero, fun hone => ?_, fun hdc v hv => ?_⟩
    · rw [List.length_drop, sfKernel_length]
      rfl
    · rw [sfKernel_of_allOne (sfMaskList_length _) (filledBlock_length _ _) hone]
    · exact sfKernel_drop_const (sfMaskList_head? hdc) (filledBlock_length _ _) hv
  · have h : s.sf.fill.val + xs.length = SF_L := by rw [hempty, hxs]
    have hnew := filledBlock_drop hempty hxs
    refine ⟨(sfPushAll xs s.sf).2, ?_, sfPushAll_release_fill h, fun k hk => ?_⟩
    · rw [sfApply_releases hidle h, sfKernel_of_allOne (sfMaskList_length _) (filledBlock_length _ _)
        (sfMaskList_allOne hone), hnew]
    · rw [sfPushAll_release_tail h hk, ← List.getElem?_drop, hnew]

end Sys2Proof.Machine

/-! # LT.AVG and LT.PWR (spec/43_level_tracker.md R202, R204 to R206, R208) -/

namespace Sys2Proof.Machine
open Config

/-! ## Power of an average (R205) -/

theorem exec_ltAvg (s : State) : exec .ltAvg s = .next (respond .ok [ltAvg s.lt] s) := rfl

theorem exec_ltPwr (s : State) : exec .ltPwr s = .next (respond .ok [ltPwr s.lt] s) := rfl

/-- An average of 0 reports the floor (R205). -/
theorem toInt_ltPwr_of_avg_zero {l : Lt} (h : (ltAvg l).toInt = 0) : (ltPwr l).toInt = DB_FLOOR := by
  have hzero : ltAvg l = 0#32 := BitVec.eq_of_toInt_eq h
  rw [ltPwr, if_pos hzero]
  rfl

/-- Any other average reports its level (R205). -/
theorem ltPwr_of_avg_pos {l : Lt} (h : 0 < (ltAvg l).toInt) : ltPwr l = db10 (ltAvg l).toInt.toNat := by
  have hne : ltAvg l ≠ 0#32 := by
    intro hzero
    rw [hzero] at h
    exact absurd h (by decide)
  rw [ltPwr, if_neg hne, BitVec.toNat_toInt_of_sle (decide_eq_true h.le)]

/-- An average of 1.0 reports 0 dB (DB_ONE). -/
theorem toInt_ltPwr_of_avg_one {l : Lt} (h : (ltAvg l).toInt = 65536) : (ltPwr l).toInt = 0 := by
  rw [ltPwr_of_avg_pos (by omega), h]
  exact congrArg BitVec.toInt db10_one

/-- An average above 0 reports a level of DB_RANGE. -/
theorem toInt_ltPwr_range {l : Lt} (h : 0 < (ltAvg l).toInt) :
    DB_FLOOR < (ltPwr l).toInt ∧ (ltPwr l).toInt < 50 * ONE := by
  rw [ltPwr_of_avg_pos h]
  exact db10_range _

/-- The report rises with the average: by DB_MONO, and from the floor, which lies below DB_RANGE. -/
theorem toInt_ltPwr_mono {l k : Lt} (hmin : 0 ≤ (ltAvg l).toInt) (h : (ltAvg l).toInt ≤ (ltAvg k).toInt) :
    (ltPwr l).toInt ≤ (ltPwr k).toInt := by
  rcases hmin.eq_or_lt with hl | hl
  · rw [toInt_ltPwr_of_avg_zero hl.symm]
    rcases (hmin.trans h).eq_or_lt with hk | hk
    · rw [toInt_ltPwr_of_avg_zero hk.symm]
    · exact (toInt_ltPwr_range hk).1.le
  · rw [ltPwr_of_avg_pos hl, ltPwr_of_avg_pos (hl.trans_le h)]
    exact db10_mono (Int.toNat_le_toNat h)

/-- Settles O23. -/
theorem levelReports : Obligations.LevelReports := by
  intro s hmin hmax
  have havg := toInt_ltAvg hmin hmax
  refine ⟨_, _, exec_ltAvg s, exec_ltPwr s, havg, toInt_ltPwr_of_avg_zero, toInt_ltPwr_of_avg_one, toInt_ltPwr_range,
    fun u hle hu => ⟨_, exec_ltPwr u, toInt_ltPwr_mono ?_ ?_⟩⟩
  · rw [havg]
    exact Int.ediv_nonneg hmin (by decide)
  · rw [havg, toInt_ltAvg (hmin.trans hle) hu]
    exact Int.ediv_le_ediv (by decide) hle

/-! ## Steady state (R208) -/

/-- How many updates ago window entry `j` was written (R201): the entry before the index is the newest. -/
def ltAge (l : Lt) (j : Fin LT_N) : Nat := (l.idx.val + 31 - j.val) % 32

/-- The last `n` squared magnitudes of the window all equal `m`. -/
def NewestAre (n : Nat) (m : Fx) (l : Lt) : Prop := ∀ j : Fin LT_N, ltAge l j < n → l.win[j] = m

/-- An update ages every entry it does not replace by one. -/
theorem ltAge_ltUpdate (z : Cfx) {l : Lt} {j : Fin LT_N} (h : j ≠ l.idx) :
    ltAge (ltUpdate z l) j = ltAge l j + 1 := by
  have hne : j.val ≠ l.idx.val := Fin.val_ne_of_ne h
  have hj : j.val < 32 := j.isLt
  have hidx : l.idx.val < 32 := l.idx.isLt
  show ((l.idx.val + 1) % 32 + 31 - j.val) % 32 = (l.idx.val + 31 - j.val) % 32 + 1
  omega

theorem newestAre_ltUpdate {n : Nat} {m : Fx} {l : Lt} {z : Cfx} (hz : magsq z = m) (h : NewestAre n m l) :
    NewestAre (n + 1) m (ltUpdate z l) := by
  intro j hage
  rw [ltUpdate_win_getElem]
  split
  · exact hz
  · next hj =>
    rw [ltAge_ltUpdate z hj] at hage
    exact h j (Nat.lt_of_succ_lt_succ hage)

/-- A window whose entries all equal `m` has the average `m` (R202). -/
theorem ltAvg_of_newestAre_all {m : Fx} {l : Lt} (hl : l.Ok) (h : NewestAre 32 m l) : ltAvg l = m := by
  have hwin : l.win.toList = List.replicate 32 m := by
    refine List.eq_replicate_iff.2 ⟨Vector.length_toList, fun b hb => ?_⟩
    obtain ⟨i, hi, rfl⟩ := Vector.mem_iff_getElem.1 (Vector.mem_toList_iff.1 hb)
    exact h ⟨i, hi⟩ (Nat.mod_lt _ (by decide))
  have hsum : l.sum.toInt = 32 * m.toInt := by
    rw [hl.sum_eq, hwin, List.map_replicate, List.sum_replicate]
    exact nsmul_eq_mul _ _
  apply BitVec.eq_of_toInt_eq
  rw [toInt_ltAvg hl.bounds.1 hl.bounds.2, hsum, Int.mul_ediv_cancel_left _ (by decide)]

/-- A run of LT.UPD commands of squared magnitude `m` on an idle engine adds as many newest entries `m`. -/
theorem execAll_ltUpd {m : Fx} (zs : List Cfx) (hzs : ∀ z ∈ zs, magsq z = m) {s : State} {n : Nat}
    (hidle : s.dm.active = false) (hl : s.lt.Ok) (h : NewestAre n m s.lt) :
    ∃ t, execAll (zs.map .ltUpd) s = .next t ∧ t.lt.Ok ∧ NewestAre (n + zs.length) m t.lt := by
  induction zs generalizing s n with
  | nil => exact ⟨s, rfl, hl, h⟩
  | cons z zs ih =>
    obtain ⟨hz, hzs⟩ := List.forall_mem_cons.1 hzs
    obtain ⟨t, hrun, ht, hnew⟩ := ih hzs (s := respond .ok [] { s with lt := ltUpdate z s.lt }) hidle
      (ltUpdate_ok z hl) (newestAre_ltUpdate hz h)
    refine ⟨t, ?_, ht, ?_⟩
    · rw [List.map_cons, execAll, exec_ltUpd_idle z hidle]
      exact hrun
    · rwa [List.length_cons, Nat.add_comm zs.length, ← Nat.add_assoc]

/-- Settles O36: `execAll_ltUpd` from the empty claim about the window, so that 32 updates fill it. -/
theorem ltSteadyState : Obligations.LtSteadyState := by
  intro s zs m hidle hinv hlen hm
  have hmagsq : ∀ z ∈ zs, magsq z = m := fun z hz => BitVec.eq_of_toInt_eq ((toInt_magsq z).trans (hm z hz).symm)
  obtain ⟨t, hrun, ht, hnew⟩ := execAll_ltUpd zs hmagsq hidle hinv.lt (n := 0) nofun
  rw [Nat.zero_add, hlen] at hnew
  exact ⟨t, hrun, by rw [exec_ltAvg, ltAvg_of_newestAre_all ht hnew]⟩

end Sys2Proof.Machine

/-! # The arcs of the demodulation state machine (spec/44_atv_demod.md R246, R248) -/

namespace Sys2Proof.Machine

/-- The records appended lead the demodulation state from before to after, arc by arc (R246, R248). -/
def ArcsRecorded (s t : State) : Prop :=
  ∃ evs, t.io.evt = s.io.evt ++ evs ∧ statePath evs s.sync.fsm t.sync.fsm = true

/-- The state kept, and at most records of another kind. -/
theorem ArcsRecorded.kept {s t : State} (evs : List Event) (he : t.io.evt = s.io.evt ++ evs)
    (hpath : ∀ a, statePath evs a a = true) (hf : t.sync.fsm = s.sync.fsm) : ArcsRecorded s t :=
  ⟨evs, he, by rw [hf]; exact hpath _⟩

theorem ArcsRecorded.silent {s t : State} (he : t.io.evt = s.io.evt) (hf : t.sync.fsm = s.sync.fsm) : ArcsRecorded s t :=
  .kept [] (by rw [he, List.append_nil]) (fun _ => decide_eq_true rfl) hf

theorem ArcsRecorded.trans {s t u : State} (h : ArcsRecorded s t) (k : ArcsRecorded t u) : ArcsRecorded s u := by
  obtain ⟨es, h1, h2⟩ := h
  obtain ⟨fs, k1, k2⟩ := k
  exact ⟨es ++ fs, by rw [k1, h1, List.append_assoc], statePath_append h2 k2⟩

/-- A record of another kind leaves the state where it is. -/
theorem statePath_single {e : Event} (h : ∀ old new, e ≠ .state old new) (a : Fsm) : statePath [e] a a = true := by
  cases e with
  | state old new => exact absurd rfl (h old new)
  | rate | cfgRej | fault | stopped => exact decide_eq_true rfl

/-- The record of `to_unsync`: one arc down, or none from Unsynchronized (R237). -/
theorem statePath_down (a : Fsm) :
    statePath (if a = .unsynchronized then [] else [.state a .unsynchronized]) a .unsynchronized = true := by
  split
  · next h => exact decide_eq_true h
  · next h => simp [statePath, fsmArc_down h]

/-- The records of a commit: the arc down if the timing changed, then EV_RATE if the rate did (R341). -/
theorem arcsRecorded_dmCommit (cand : DmBanks) (d : DmDerived) (s : State) : ArcsRecorded s (dmCommit cand d s) := by
  rw [dmCommit_eq]
  refine ⟨_, List.append_assoc _ _ _, statePath_append (b := (if sameTiming cand d s then s.sync else .reset).fsm) ?_ ?_⟩
  · by_cases h : sameTiming cand d s = true
    · simp [h, statePath]
    · simp only [h, Bool.false_eq_true, false_or, if_false]
      exact statePath_down s.sync.fsm
  · by_cases h : d.effRate = s.dm.rateReported
    · rw [if_pos h]; exact decide_eq_true rfl
    · rw [if_neg h]; exact statePath_single (e := .rate _) nofun _

theorem arcsRecorded_dmApply (s : State) : ArcsRecorded s (dmApply s) := by
  rcases dmApply_cases s with ⟨-, h⟩ | ⟨-, q, -, h⟩ | ⟨-, d, -, h⟩
  · rw [h]; exact .silent rfl rfl
  · rw [h]; exact .kept [.cfgRej .derived q] rfl (statePath_single nofun) rfl
  · rw [h]; exact arcsRecorded_dmCommit _ d _

/-- Every act moves the demodulation state along arcs it records; the synthesis engine's leave it (R45). -/
theorem Act.arcsRecorded {r : Role} {s t : State} (h : Act r s t) : ArcsRecorded s t := by
  cases h with
  | countCfgErr e b q => exact .kept [.cfgRej b q] rfl (statePath_single nofun) rfl
  | dmStopped => exact .kept [.stopped .demodulation] rfl (statePath_single nofun) rfl
  | syStopped => exact .kept [.stopped .synthesis] rfl (statePath_single nofun) rfl
  | raiseFault b => exact .kept [.fault b] rfl (statePath_single nofun) rfl
  | dmApply => exact arcsRecorded_dmApply s
  | dmStart => rw [dmCreate_eq]; exact ⟨_, rfl, statePath_down s.sync.fsm⟩
  | dmBlock xs =>
    obtain ⟨evs, hevt, hpath, -⟩ := (dmBlock_frame xs s).events
    exact ⟨evs, hevt, hpath⟩
  | syBatch =>
    obtain ⟨nco, dev, buf, q, -, h⟩ := syBatch_kept _ s
    rw [h]
    exact .silent rfl rfl
  | syStart => exact .silent (syCreate_io_evt s) (congrArg Sync.fsm (syCreate_sync s))
  | syTickAdvance => exact .silent (syTickAdvance_io_evt s) (congrArg Sync.fsm (syTickAdvance_sync s))
  | stageAtv | stageRf | stageStream | stageGen | requestDmStop | requestSyStop | setNco | setRc | setSf | updateLt
  | syApply | dropHalves => exact .silent rfl rfl

/-- Settles O19: the records through every act (`Act.arcsRecorded`). -/
theorem fsmFollowsArcs : Obligations.FsmFollowsArcs := fun _ _ _ hi h =>
  exec_relates (R := ArcsRecorded) hi h (fun _ => .silent rfl rfl) .trans Act.arcsRecorded fun _ _ _ => .silent rfl rfl

end Sys2Proof.Machine

/-! # The derived geometry (spec/44_atv_demod.md R218) -/

namespace Sys2Proof.Machine
open Config

/-- `rows_disp` of a legal frame: the displayed share of its lines, at least one (R218). -/
theorem toNat_rowsDispOf (ratio : Fx) {lpf : Nat} (h1 : 1 ≤ lpf) (h2 : lpf ≤ 4096) :
    ((rowsDispOf ratio lpf).toNat : Int) = max 1 (min (lpf : Int) (ratio.toInt * lpf / 65536)) := by
  unfold rowsDispOf
  rw [toNat_ofInt32, clamp_eq_max_min (by omega), shr_eq]
  norm_num only [FX_F]
  omega

/-- The kinds that force the filter are the two of vestigial sideband (R188). -/
theorem isVsb_iff (k : DemodKind) : k.isVsb = true ↔ k = .vsbU ∨ k = .vsbL := by
  cases k <;> decide

/-- `dm_derive` as its checks in order, in the numbers they are made of (R218). -/
theorem dmDerive_checks (b : DmBanks) {den lpf lps spl eff top : Nat} (hden : den = b.atv.fps.toNat * b.atv.lineNs.toNat)
    (hlpf : lpf = 10 ^ 9 / den) (hlps : lps = lpf * b.atv.fps.toNat) (hspl : spl = b.stream.inRateHz.toNat / lps)
    (heff : eff = if b.rf.decimEn then spl * lps else b.stream.inRateHz.toNat)
    (htop : top = max 2 (b.atv.topNs.toNat * eff / 10 ^ 9)) :
    dmDerive b = if den = 0 ∨ 10 ^ 9 < den ∨ 4096 < lpf then .error .badLpf
      else if b.stream.inRateHz.toNat < lps then .error .badLps
      else if spl < 8 ∨ 4096 < spl then .error .badSpl
      else if spl ≤ top + 3 then .error .badTop
      else .ok
        { effRate := BitVec.ofNat 32 eff
          lpf := BitVec.ofNat 32 lpf
          lps := BitVec.ofNat 32 lps
          spl := BitVec.ofNat 32 spl
          topN := BitVec.ofNat 32 top
          rowsDisp := rowsDispOf b.atv.rowsRatio lpf
          filtOn := b.rf.filterEn || b.rf.modKind.isVsb
          decimOn := b.rf.decimEn } := by
  subst hden hlpf hlps hspl heff htop
  exact Eq.trans rfl ((ite_or ..).symm.trans (if_congr or_assoc rfl rfl))

/-- A derived record holds the numbers its checks were made with (R218). -/
theorem dmDerive_fields {b : DmBanks} {d : DmDerived} {den lpf lps spl eff top : Nat}
    (hden : den = b.atv.fps.toNat * b.atv.lineNs.toNat)
    (hlpf : lpf = 10 ^ 9 / den) (hlps : lps = lpf * b.atv.fps.toNat) (hspl : spl = b.stream.inRateHz.toNat / lps)
    (heff : eff = if b.rf.decimEn then spl * lps else b.stream.inRateHz.toNat)
    (htop : top = max 2 (b.atv.topNs.toNat * eff / 10 ^ 9)) (h : dmDerive b = .ok d) :
    d.lpf.toNat = lpf ∧ d.lps.toNat = lps ∧ d.spl.toNat = spl ∧ d.effRate.toNat = eff ∧ d.topN.toNat = top ∧
      (d.rowsDisp.toNat : Int) = max 1 (min (lpf : Int) (b.atv.rowsRatio.toInt * lpf / 65536)) ∧
      d.decimOn = b.rf.decimEn ∧
      (d.filtOn = true ↔ b.rf.filterEn = true ∨ b.rf.modKind = .vsbU ∨ b.rf.modKind = .vsbL) := by
  subst hden hlpf hlps hspl heff htop
  obtain ⟨lpf, spl, lps, eff, top, rfl, rfl, rfl, rfl, rfl, hmin, hmax, -, -, -, -, -, -, -, elpf, elps, espl, eeff, etop,
    erows, efilt, edecim⟩ := dmDerive_spec h
  refine ⟨elpf, elps, espl, eeff, etop, ?_, edecim, ?_⟩
  · rw [erows]
    exact toNat_rowsDispOf _ hmin hmax
  · rw [efilt, Bool.or_eq_true, isVsb_iff]

/-- Settles O39: the checks in their order by `dmDerive_checks`, the record that passes them by `dmDerive_fields`. -/
theorem dmDeriveGeometry : Obligations.DmDeriveGeometry := by
  intro b den lpf lps spl eff top hden hlpf hlps hspl heff htop
  have hchecks := dmDerive_checks b hden hlpf hlps hspl heff htop
  split_ifs with hbadLpf hbadLps hbadSpl hbadTop
  · rw [hchecks, if_pos hbadLpf]
  · rw [hchecks, if_neg hbadLpf, if_pos hbadLps]
  · rw [hchecks, if_neg hbadLpf, if_neg hbadLps, if_pos hbadSpl]
  · rw [hchecks, if_neg hbadLpf, if_neg hbadLps, if_neg hbadSpl, if_pos hbadTop]
  · rw [if_neg hbadLpf, if_neg hbadLps, if_neg hbadSpl, if_neg hbadTop] at hchecks
    exact ⟨_, hchecks, dmDerive_fields hden hlpf hlps hspl heff htop hchecks⟩

end Sys2Proof.Machine

/-! # The demodulators and the normaliser (spec/44_atv_demod.md R221 to R226, R228) -/

namespace Sys2Proof.Machine
open Config

/-! ## Raw values of the fx operations (R13, R14) -/

/-- The raw value nearest to an integer (R13). -/
def satRaw (v : Int) : Int := max FX_MIN (min FX_MAX v)

theorem toInt_sat_raw (v : Int) : (sat v).toInt = satRaw v := by
  rw [toInt_sat, clamp_eq_max_min (by decide), satRaw]

theorem toInt_fxSub (a b : Fx) : (fxSub a b).toInt = satRaw (a.toInt - b.toInt) := toInt_sat_raw _

theorem toInt_fxMul_raw (a b : Fx) : (fxMul a b).toInt = satRaw (a.toInt * b.toInt / 65536) := toInt_sat_shr _

theorem toInt_fxDiv (a b : Fx) : (fxDiv a b).toInt = satRaw (a.toInt * 65536 / b.toInt) := toInt_sat_raw _

theorem toInt_clamp01_raw (v : Int) : (clamp01 v).toInt = max 0 (min 65536 v) := by
  rw [toInt_clamp01, clamp_eq_max_min (by decide)]
  rfl

/-! ## The unit vector (R222) -/

theorem cmag_eq_zero_iff (z : Cfx) : cmag z = 0#32 ↔ (cmag z).toInt = 0 :=
  ⟨fun h => by rw [h]; rfl, fun h => BitVec.eq_of_toInt_eq h⟩

theorem unit_of_cmag_zero {z : Cfx} (h : (cmag z).toInt = 0) : unit z = ⟨0#32, 0#32⟩ := by
  unfold unit
  rw [if_pos ((cmag_eq_zero_iff z).2 h)]

theorem unit_of_cmag_ne_zero {z : Cfx} (h : (cmag z).toInt ≠ 0) :
    unit z = ⟨unitPart z.re (cmag z), unitPart z.im (cmag z)⟩ := by
  unfold unit
  rw [if_neg (mt (cmag_eq_zero_iff z).1 h)]

/-! ## The discriminators (R224) -/

theorem toInt_fm1Raw (u a b : Cfx) : (fm1Raw u a b).toInt = max 0 (min 65536
    ((satRaw (satRaw (a.re.toInt * satRaw (u.im.toInt - b.im.toInt) / 65536) -
      satRaw (a.im.toInt * satRaw (u.re.toInt - b.re.toInt) / 65536)) + 2 * 65536) / 4)) := by
  rw [← toInt_fxSub, ← toInt_fxSub, ← toInt_fxMul_raw, ← toInt_fxMul_raw, ← toInt_fxSub]
  exact toInt_clamp01_raw _

theorem toInt_fm2Raw (u a : Cfx) : (fm2Raw u a).toInt = max 0 (min 65536
    ((satRaw (satRaw (a.re.toInt * u.im.toInt / 65536) - satRaw (a.im.toInt * u.re.toInt / 65536)) + 65536) / 2)) := by
  rw [← toInt_fxMul_raw, ← toInt_fxMul_raw, ← toInt_fxSub]
  exact toInt_clamp01_raw _

/-- A steady phase gives mid-scale (R224). -/
theorem toInt_fm1Raw_steady (u : Cfx) : (fm1Raw u u u).toInt = 32768 := by
  rw [toInt_fm1Raw, Int.sub_self, Int.sub_self, show satRaw 0 = 0 by decide, Int.mul_zero, Int.mul_zero]
  decide

theorem toInt_fm2Raw_steady (u : Cfx) : (fm2Raw u u).toInt = 32768 := by
  rw [toInt_fm2Raw, Int.mul_comm u.im.toInt, Int.sub_self]
  decide

section
variable {s : State} (z : Cfx)

theorem dmRaw_fm1 (h : s.dm.cur.rf.modKind = .fm1) : dmRaw z s = fm1Raw (unit z) s.dm.uh1 s.dm.uh2 := by
  unfold dmRaw; rw [h]

theorem dmRaw_fm2 (h : s.dm.cur.rf.modKind = .fm2) : dmRaw z s = fm2Raw (unit z) s.dm.uh1 := by
  unfold dmRaw; rw [h]

theorem dmRaw_vsbU (h : s.dm.cur.rf.modKind = .vsbU) : dmRaw z s = cmag (vsbRecombine .upper z) := by
  unfold dmRaw; rw [h]; rfl

theorem dmRaw_vsbL (h : s.dm.cur.rf.modKind = .vsbL) : dmRaw z s = cmag (vsbRecombine .lower z) := by
  unfold dmRaw; rw [h]; rfl

/-- The FM kinds answer at most 1.0, and mid-scale for a steady phase (R224). -/
theorem dmRaw_fm_range (h : s.dm.cur.rf.modKind = .fm1 ∨ s.dm.cur.rf.modKind = .fm2) : (dmRaw z s).toInt ≤ 65536 ∧
    (s.dm.uh1 = unit z → s.dm.uh2 = unit z → (dmRaw z s).toInt = 32768) := by
  rcases h with h | h
  · rw [dmRaw_fm1 z h]
    exact ⟨(clamp01_range _).2, fun h1 h2 => by rw [h1, h2, toInt_fm1Raw_steady]⟩
  · rw [dmRaw_fm2 z h]
    exact ⟨(clamp01_range _).2, fun h1 _ => by rw [h1, toInt_fm2Raw_steady]⟩

end

/-! ## The normaliser (R228) -/

/-- The normaliser's clip hides the quotient's saturation (R228). -/
theorem toInt_dmNorm (raw : Fx) (y : Sync) : (dmNorm raw y).toInt =
    max 0 (min 65536 (satRaw (raw.toInt - y.effMin.toInt) * 65536 / y.effDelta.toInt)) := by
  unfold dmNorm
  rw [toInt_clamp01_raw, toInt_fxDiv, toInt_fxSub]
  generalize satRaw (raw.toInt - y.effMin.toInt) * 65536 / y.effDelta.toInt = q
  simp only [satRaw, FX_MIN_eq, FX_MAX_eq]
  omega

/-- Settles O49: each demodulator by its own lemma, the history by `dmRawStep_eq`, the normaliser by `toInt_dmNorm`. -/
theorem demodRanges : Obligations.DemodRanges := by
  intro s z u a b sat mag hu ha hb hsat hmag
  obtain rfl : sat = satRaw := funext hsat
  have hmag : ∀ w, mag w = (cmag w).toInt := fun w => (hmag w).trans (toInt_cmag w).symm
  simp only [hmag]
  subst hu ha hb
  refine ⟨unit_of_cmag_zero, fun h => ?_, dmRaw_nonneg z s, fun h => ?_, fun h => ?_, fun h => ?_, fun h => ?_, fun h => ?_,
    fun h => ?_, fun h1 h2 => ?_, fun raw => ?_, fun _ raw => toInt_dmNorm raw s.sync⟩
  · rw [unit_of_cmag_ne_zero h, ← toInt_sat_raw, ← toInt_sat_raw]
    exact ⟨toInt_unitPart _ _, toInt_unitPart _ _⟩
  · rw [dmRaw_fm1 z h, toInt_fm1Raw]
  · rw [dmRaw_fm2 z h, toInt_fm2Raw]
  · obtain ⟨hle, hsteady⟩ := dmRaw_fm_range z h
    exact ⟨hle, hsteady, by rw [dmRawStep_eq, dmAfterRaw, if_pos h]⟩
  · rw [dmRaw_am z h]
  · rw [dmRaw_vsbU z h]
  · rw [dmRaw_vsbL z h]
  · rw [dmRawStep_eq, dmAfterRaw, if_neg (not_or.2 ⟨h1, h2⟩)]
  · exact ⟨_, _, toInt_fxMin _ _, toInt_fxMax _ _, rfl⟩

end Sys2Proof.Machine

/-! # The line state machine (spec/44_atv_demod.md R231 to R235, R237) -/

namespace Sys2Proof.Machine
open Config

/-! ## Rules of the state machines -/

/-- A count with the value R230's saturating increment gives is that increment. -/
theorem eq_satInc {c v : Word} (h : c.toNat = min (v.toNat + 1) (2 ^ 32 - 1)) : c = satInc v :=
  BitVec.eq_of_toNat_eq (h.trans (satInc_toNat v).symm)

/-- What a count past a period by `k` leaves when the period is taken off (R235, R243). -/
theorem sub_eq_of_toNat_add {count period : Word} {k : Nat} (h : count.toNat = period.toNat + k) :
    count - period = BitVec.ofNat 32 k := by
  bv_omega

/-- A pulse within two samples of the line's length is on the cadence (R232). -/
theorem onCadence_iff (d : DmDerived) (y : Sync) : onCadence d y = true ↔
    y.sinceHs.toNat ≤ d.spl.toNat + 2 ∧ d.spl.toNat ≤ y.sinceHs.toNat + 2 := by
  unfold onCadence
  rw [decide_eq_true_eq]
  simp only [HS_TOL]
  omega

/-- The column of an aligned line: the pulse's length less 2, and the majority's lag of 3 (R231). -/
theorem hsAlign_eq (s : State) : hsAlign s = { s with sync := { s.sync with col := s.dm.d.topN + 1#32 } } := by
  have hcol : BitVec.ofInt 32 ((s.dm.d.topN.toNat : Int) - 2 + HS_DELAY) = s.dm.d.topN + 1#32 := by
    rw [show (s.dm.d.topN.toNat : Int) - 2 + HS_DELAY = ((s.dm.d.topN.toNat + 1 : Nat) : Int) by
      simp only [HS_DELAY]; omega, BitVec.ofInt_natCast, BitVec.ofNat_add, BitVec.ofNat_toNat, BitVec.setWidth_eq]
  unfold hsAlign
  rw [hcol]

/-- Leaving a state for another gives one EV_STATE (R246). -/
theorem setFsm_eq {new : Fsm} {s : State} (h : s.sync.fsm ≠ new) : setFsm new s = { s with
    sync := { s.sync with fsm := new }
    io := { s.io with evt := s.io.evt ++ [.state s.sync.fsm new] } } := if_neg h

/-- Losing lock: a sync reset and one EV_STATE (R237). -/
theorem toUnsync_eq {s : State} (h : s.sync.fsm ≠ .unsynchronized) : toUnsync s = { s with
    sync := .reset
    io := { s.io with evt := s.io.evt ++ [.state s.sync.fsm .unsynchronized] } } := if_neg h

/-! ## The part for each state (R232) -/

theorem hsMachine_unsync (detect : Bool) {s : State} (h : s.sync.fsm = .unsynchronized) :
    hsMachine detect s = hsUnsync detect s := by
  unfold hsMachine; rw [h]

theorem hsMachine_search (detect : Bool) {s : State} (h : s.sync.fsm = .lineSyncSearching) :
    hsMachine detect s = hsSearch detect s := by
  unfold hsMachine; rw [h]

theorem hsMachine_locked (detect : Bool) {s : State}
    (h : s.sync.fsm = .lineLocked ∨ s.sync.fsm = .frameSyncSearching ∨ s.sync.fsm = .frameLocked) :
    hsMachine detect s = hsLocked detect s := by
  unfold hsMachine; rcases h with h | h | h <;> rw [h]

/-! ## Unsynchronized and LineSyncSearching (R233, R234) -/

/-- The first pulse starts the search (R233). -/
theorem hsUnsync_pulse {s : State} (h : s.sync.fsm = .unsynchronized) : hsUnsync true s = { s with
    sync := { s.sync with fsm := .lineSyncSearching, hsCount := 1#32, hsMiss := 0#32, sinceHs := 0#32,
                          col := s.dm.d.topN + 1#32 }
    io := { s.io with evt := s.io.evt ++ [.state .unsynchronized .lineSyncSearching] } } := by
  have hne : s.sync.fsm ≠ .lineSyncSearching := by rw [h]; decide
  show hsAlign (setHs 1#32 0#32 0#32 (setFsm .lineSyncSearching s)) = _
  rw [setFsm_eq hne, hsAlign_eq, h]
  rfl

/-- A pulse off the cadence starts the count again (R234). -/
theorem hsSearch_offCadence {s : State} (h : onCadence s.dm.d s.sync = false) : hsSearch true s = { s with
    sync := { s.sync with hsCount := 1#32, sinceHs := 0#32, col := s.dm.d.topN + 1#32 } } := by
  unfold hsSearch
  rw [if_pos rfl, if_neg (Bool.eq_false_iff.1 h), hsAlign_eq]
  rfl

/-- A pulse on the cadence is counted, and the fourth locks (R234). -/
theorem hsSearch_onCadence {s : State} (h : onCadence s.dm.d s.sync = true) (hfsm : s.sync.fsm = .lineSyncSearching) :
    hsSearch true s = if 4 ≤ (satInc s.sync.hsCount).toNat then { s with
        sync := { s.sync with fsm := .lineLocked, hsCount := satInc s.sync.hsCount, hsMiss := 0#32, sinceHs := 0#32,
                              col := s.dm.d.topN + 1#32 }
        io := { s.io with evt := s.io.evt ++ [.state .lineSyncSearching .lineLocked] } }
      else { s with
        sync := { s.sync with hsCount := satInc s.sync.hsCount, sinceHs := 0#32, col := s.dm.d.topN + 1#32 } } := by
  have hne : s.sync.fsm ≠ .lineLocked := by rw [hfsm]; decide
  unfold hsSearch
  rw [if_pos rfl, if_pos h, hsAlign_eq]
  dsimp only
  rw [setFsm_eq (by exact hne), ← hfsm]
  rfl

/-! ## The locked states (R235) -/

/-- A pulse on the cadence is counted, and clears the misses (R235). -/
theorem hsLocked_pulse {s : State} (h : onCadence s.dm.d s.sync = true) : hsLocked true s = { s with
    sync := { s.sync with hsCount := satInc s.sync.hsCount, hsMiss := 0#32, sinceHs := 0#32,
                          col := s.dm.d.topN + 1#32 } } := by
  unfold hsLocked
  rw [if_pos (by rw [h]; rfl), hsAlign_eq]
  rfl

/-- Without a pulse on the cadence nothing happens until the spacing is past it, where the flywheel takes one line off the count
or the fourth miss loses lock (R235). -/
theorem hsLocked_noPulse {detect : Bool} {s : State} (h : detect = false ∨ onCadence s.dm.d s.sync = false)
    (hfsm : s.sync.fsm ≠ .unsynchronized) :
    hsLocked detect s = if s.sync.sinceHs.toNat = s.dm.d.spl.toNat + 3 then
        if 4 ≤ (satInc s.sync.hsMiss).toNat then { s with
          sync := .reset
          io := { s.io with evt := s.io.evt ++ [.state s.sync.fsm .unsynchronized] } }
        else { s with sync := { s.sync with
          hsCount := 0#32, hsMiss := satInc s.sync.hsMiss, sinceHs := s.sync.sinceHs - s.dm.d.spl } }
      else s := by
  unfold hsLocked
  have hoff : ¬(detect && onCadence s.dm.d s.sync) = true := by
    rcases h with h | h <;> simp [h]
  rw [if_neg hoff]
  dsimp only
  rw [toUnsync_eq (by exact hfsm)]
  rfl

/-- Settles O51: the machine's part for each state (`hsMachine_unsync`, `hsMachine_search`, `hsMachine_locked`), case by
case. -/
theorem lineMachine : Obligations.LineMachine := by
  intro s c m hc hm cadence hcadence
  obtain rfl := eq_satInc hc
  obtain rfl := eq_satInc hm
  have hon : onCadence s.dm.d s.sync = cadence := by rw [Bool.eq_iff_iff, onCadence_iff, hcadence]
  refine ⟨fun h => ?_, fun h => ?_, fun h => ?_⟩
  · rw [hsMachine_unsync _ h, hsMachine_unsync _ h]
    exact ⟨rfl, hsUnsync_pulse h⟩
  · rw [hsMachine_search _ h, hsMachine_search _ h]
    refine ⟨rfl, fun hcad => hsSearch_offCadence (hon.trans hcad), fun hcad hfew => ?_, fun hcad hlock => ?_⟩
    · rw [hsSearch_onCadence (hon.trans hcad) h, if_neg (Nat.not_le.2 hfew)]
    · rw [hsSearch_onCadence (hon.trans hcad) h, if_pos hlock]
  · have hne : s.sync.fsm ≠ .unsynchronized := by rcases h with h | h | h <;> rw [h] <;> decide
    refine ⟨fun hcad => ?_, fun detect hno => ?_⟩
    · rw [hsMachine_locked _ h, hsLocked_pulse (hon.trans hcad)]
    · rw [hsMachine_locked _ h, hsLocked_noPulse (hon ▸ hno) hne]
      refine ⟨fun hsince => if_neg hsince, fun hsince hfew => ?_, fun hsince hlost => ?_⟩
      · rw [if_pos hsince, if_neg (Nat.not_le.2 hfew), sub_eq_of_toNat_add hsince]
      · rw [if_pos hsince, if_pos hlost]

end Sys2Proof.Machine

/-! # The sync window and pulse detection (spec/44_atv_demod.md R229, R230, R232, R238) -/

namespace Sys2Proof.Machine
open Config

/-- A filtered vector has as many entries as indices pass. -/
theorem length_filter_vector {α : Type} {n : Nat} (v : Vector α n) (p : α → Bool) :
    (v.toList.filter p).length = (Finset.univ.filter fun j : Fin n => p v[j] = true).card := by
  have hlist : v.toList = (List.finRange n).map fun j => v[j] := by
    apply List.ext_getElem <;> simp
  have hcard : (Finset.univ.filter fun j : Fin n => p v[j] = true).card =
      ((List.finRange n).filter fun j => decide (p v[j] = true)).length := rfl
  rw [hcard, hlist, List.filter_map, List.length_map]
  simp only [Bool.decide_eq_true, Function.comp_def]

/-- The samples at sync level, counted by their places in the window (R230). -/
theorem syncLevelCount_eq_card (thr : Fx) (y : Sync) : syncLevelCount thr y =
    (Finset.univ.filter fun j : Fin 6 => y.win[j].toInt ≤ thr.toInt).card := by
  unfold syncLevelCount
  rw [length_filter_vector]
  simp only [decide_eq_true_eq]

/-- The pulse length counts on while the majority is at sync level, and starts again without it (R230). -/
theorem toNat_hsMajority_pulseLen (thr : Fx) (y : Sync) : (hsMajority thr y).pulseLen.toNat =
    if 4 ≤ syncLevelCount thr y then min (y.pulseLen.toNat + 1) (2 ^ 32 - 1) else 0 := by
  show (if decide (4 ≤ syncLevelCount thr y) = true then satInc y.pulseLen else 0#32).toNat = _
  rw [apply_ite BitVec.toNat, satInc_toNat]
  simp only [decide_eq_true_eq]
  rfl

theorem hsDetect_iff (d : DmDerived) (y : Sync) :
    hsDetect d y = true ↔ y.hsNow = true ∧ y.pulseLen.toNat + 1 = d.topN.toNat := by
  unfold hsDetect
  rw [Bool.and_eq_true, decide_eq_true_eq]
  exact and_congr_right' (by omega)

/-- With line sync on, the window and the counters move, then the machine takes the pulse detected or not (R232). -/
theorem hsStep_on (n : Fx) {s : State} (h : s.dm.cur.atv.hsyncEn = true) {y : Sync}
    (hy : y = hsMajority s.dm.cur.atv.thrSyncTop (hsWindow n s.sync)) :
    hsStep n s = hsMachine (hsDetect s.dm.d y) { s with sync := y } := by
  subst hy
  exact if_pos h

/-- Settles O50: the count of the window by `syncLevelCount_eq_card`, the pulse by `hsDetect_iff`. -/
theorem syncWindow : Obligations.SyncWindow := by
  intro s n win cnt hwin hcnt
  obtain ⟨y, hy⟩ : ∃ y, y = hsMajority s.dm.cur.atv.thrSyncTop (hsWindow n s.sync) := ⟨_, rfl⟩
  have hcount : syncLevelCount s.dm.cur.atv.thrSyncTop (hsWindow n s.sync) = cnt := by
    rw [syncLevelCount_eq_card, hcnt, hwin]
    rfl
  have hnow : y.hsNow = true ↔ 4 ≤ cnt := by
    rw [hy, ← hcount]
    exact decide_eq_true_iff
  refine ⟨y, by rw [hy, hwin]; rfl, by rw [hy]; rfl, hnow, ?_, by rw [hy]; exact satInc_toNat _, fun hoff => ?_,
    fun hon detect hdetect => ?_⟩
  · rw [hy, toNat_hsMajority_pulseLen, hcount]
    rfl
  · rw [hsStep_off n hoff, hy]
  · rw [hsStep_on n hon hy]
    congr 1
    rw [Bool.eq_iff_iff, hsDetect_iff, hdetect, hnow]

end Sys2Proof.Machine

/-! # Loss of signal (spec/44_atv_demod.md R220, R236, R237) -/

namespace Sys2Proof.Machine
open Config

/-- The mixer of a zero sample (R14). -/
theorem cmul_zero (m : Cfx) : cmul ⟨0#32, 0#32⟩ m = ⟨0#32, 0#32⟩ := by
  simp [cmul, shr, fdiv, sat, clamp]

/-- A zero sample takes what it replaces out of the tracker's sum (R201). -/
theorem ltUpdate_zero_sum {l : Lt} (h : l.sum.toInt = l.win[l.idx].toInt) :
    (ltUpdate ⟨0#32, 0#32⟩ l).sum.toInt = 0 := by
  have hb := toInt32_bounds l.win[l.idx]
  simp only [FX_MIN_eq, FX_MAX_eq] at hb
  rw [ltUpdate_sum_wide _ (by omega) (by omega), h, Int.sub_self]
  decide

/-- A window fresh from a sync reset holds one sample that can be at sync level, so there is no majority (R32, R230). -/
theorem hsNow_fresh {thr : Fx} (hthr : thr.toInt ≤ 65536) (n : Fx) {y : Sync} (hwin : y.win = Sync.reset.win)
    (hidx : y.winIdx = Sync.reset.winIdx) : (hsMajority thr (hsWindow n y)).hsNow = false := by
  have hlist : (hsWindow n y).win.toList = [n] ++ List.replicate 5 fxGreatest := by
    simp only [hsWindow, hwin, hidx]
    rfl
  have hhigh : ¬ fxGreatest.toInt ≤ thr.toInt := by
    rw [show fxGreatest.toInt = 2147483647 by decide]
    omega
  have hcount : syncLevelCount thr (hsWindow n y) ≤ 1 := by
    unfold syncLevelCount
    rw [hlist, List.filter_append, List.filter_replicate_of_neg (by simpa using hhigh), List.append_nil]
    exact List.length_filter_le _ _
  exact decide_eq_false (by simp only [SYNC_MAJ]; omega)

/-- The line sync step of the first sample after a sync reset: no pulse (R230, R233). -/
theorem hsStep_fresh (n : Fx) {s : State} (hthr : s.dm.cur.atv.thrSyncTop.toInt ≤ 65536) (hfsm : s.sync.fsm = .unsynchronized)
    (hwin : s.sync.win = Sync.reset.win) (hidx : s.sync.winIdx = Sync.reset.winIdx) :
    hsStep n s = { s with sync := hsMajority s.dm.cur.atv.thrSyncTop (hsWindow n s.sync) } := by
  cases hon : s.dm.cur.atv.hsyncEn with
  | false => exact hsStep_off n hon
  | true =>
    rw [hsStep_on n hon rfl, hsMachine_unsync _ (by exact hfsm)]
    have hno : hsDetect s.dm.d (hsMajority s.dm.cur.atv.thrSyncTop (hsWindow n s.sync)) = false := by
      unfold hsDetect
      rw [hsNow_fresh hthr n hwin hidx]
      rfl
    rw [hno]
    rfl

/-- The step of a sample that loses the signal, up to the normaliser: a sync reset, and its amplitude the first of the new
statistics (R220, R236). -/
theorem sampleMid_lost {z : Cfx} {s : State} (h : signalLost { s with lt := ltUpdate z s.lt } = true) :
    sampleMid z s = { s with
      lt := ltUpdate z s.lt
      dm := dmAfterRaw z s
      sync := { Sync.reset with
        ampMin := fxMin Sync.reset.ampMin (dmRaw z s), ampMax := fxMax Sync.reset.ampMax (dmRaw z s) }
      io := { s.io with evt := s.io.evt ++ [.state s.sync.fsm .unsynchronized] } } := by
  rw [sampleMid_eq, checkSignal_eq, if_pos (by exact h)]
  rfl

/-- A sample that loses lock is sample 0 of the new raster (R220, R237, R240). -/
theorem dmSample_lost {z : Cfx} {s : State} (h : signalLost { s with lt := ltUpdate z s.lt } = true)
    (hthr : s.dm.cur.atv.thrSyncTop.toInt ≤ 65536) (hspl : 2 ≤ s.dm.d.spl.toNat) :
    let t := dmSample z s
    t.io = { s.io with evt := s.io.evt ++ [.state s.sync.fsm .unsynchronized] } ∧ t.sync.fsm = .unsynchronized ∧
      t.sync.row = 0#32 ∧ t.sync.col = 1#32 ∧ t.sync.effMin = 0#32 ∧ t.sync.effDelta = fxOne ∧
      t.dm.frames = s.dm.frames := by
  have hmid := sampleMid_lost h
  dsimp only
  rw [dmSample_eq]
  generalize dmNorm (dmRaw z s) (sampleMid z s).sync = n
  rw [hmid, hsStep_fresh n (by simpa using hthr) rfl rfl rfl, rasterStep_eq_of_unsync rfl, if_neg]
  · exact ⟨rfl, rfl, rfl, rfl, rfl, rfl, dmAfterRaw_frames z s⟩
  · show ¬ (dmAfterRaw z s).d.spl.toNat ≤ (satInc 0#32).toNat
    rw [dmAfterRaw_d, show (satInc 0#32).toNat = 1 by decide]
    omega

/-- Settles O47: the loss test on an empty tracker, then `dmSample_lost`. -/
theorem lossOfSignal : Obligations.LossOfSignal := by
  intro s hactive hstop hpend hdec hfilt hfsm hfsm' hthr hsum hspl
  have hlost : signalLost { ncoStep 0 s with lt := ltUpdate ⟨0#32, 0#32⟩ s.lt } = true :=
    (signalLost_iff _).2 ⟨hfsm, hfsm', by rw [ltUpdate_zero_sum hsum]; decide⟩
  obtain ⟨hio, h1, h2, h3, h4, h5, hframes⟩ := dmSample_lost (s := ncoStep 0 s) hlost hthr hspl
  refine ⟨_, exec_dmFeed_one _ hactive hstop hpend hdec hfilt, ?_⟩
  rw [cmul_zero, respond_io_rsp, respond_io_evt, respond_io_pix, respond_sync, respond_dm, hio, h5]
  exact ⟨rfl, rfl, rfl, h1, h2, h3, h4, by decide, hframes⟩

end Sys2Proof.Machine

/-! # The raster free-running (spec/44_atv_demod.md R238, R240, R241, R244, R245) -/

namespace Sys2Proof.Machine
open Config

/-! ## The position in the frame -/

/-- The position in the frame, in samples. -/
def framePosition (s : State) : Nat := s.sync.row.toNat * s.dm.d.spl.toNat + s.sync.col.toNat

/-- The position moved by `n` samples, a frame's samples taken off and a frame counted for each PX_FRAME record
(R240, R241, R244). -/
def PositionMoved (n : Nat) (s t : State) : Prop :=
  ∃ pxs, t.io.pix = s.io.pix ++ pxs ∧
    framesIn pxs * (s.dm.d.lpf.toNat * s.dm.d.spl.toNat) + framePosition t = framePosition s + n ∧
    t.dm.frames.toNat = (s.dm.frames.toNat + framesIn pxs) % 2 ^ 32

theorem PositionMoved.trans {m n : Nat} {s t u : State} (hd : t.dm.d = s.dm.d) (h : PositionMoved m s t)
    (k : PositionMoved n t u) : PositionMoved (m + n) s u := by
  obtain ⟨ps, hp, hpos, hframes⟩ := h
  obtain ⟨qs, kq, kpos, kframes⟩ := k
  rw [hd] at kpos
  refine ⟨ps ++ qs, by rw [kq, hp, List.append_assoc], ?_, ?_⟩
  · rw [framesIn_append, Nat.add_mul]
    omega
  · rw [framesIn_append]
    omega

/-- No PX_FRAME record, and the frame count as it was. -/
theorem PositionMoved.within {n : Nat} {s t : State} (pxs : List Pixel) (hpix : t.io.pix = s.io.pix ++ pxs)
    (hpxs : framesIn pxs = 0) (hpos : framePosition t = framePosition s + n) (hframes : t.dm.frames = s.dm.frames) :
    PositionMoved n s t := by
  refine ⟨pxs, hpix, by rw [hpxs, Nat.zero_mul, Nat.zero_add, hpos], ?_⟩
  rw [hpxs, hframes]
  exact (Nat.mod_eq_of_lt s.dm.frames.isLt).symm

theorem framesIn_lineRecord (p : Prop) [Decidable p] (row n : Word) (vs : List Fx) :
    framesIn (if p then [.line row n vs] else []) = 0 := by
  split <;> rfl

section
variable {s t : State}

/-- Within a line the raster step moves the column on (R240). -/
theorem RasterFree.movesColumn (r : RasterFree s t) (hd : t.dm.d = s.dm.d)
    (hcol : s.sync.col.toNat + 1 < s.dm.d.spl.toNat) : PositionMoved 1 s t := by
  obtain ⟨hcol', hrow', -, hpix, hframes⟩ := r.within hcol
  refine .within [] (by rw [hpix, List.append_nil]) rfl ?_ hframes
  rw [framePosition, framePosition, hd, hcol', hrow', Nat.add_assoc]

/-- At the end of a line it moves to column 0 of the next row (R241). -/
theorem RasterFree.movesRow (r : RasterFree s t) (hd : t.dm.d = s.dm.d) (hcol : s.sync.col.toNat + 1 = s.dm.d.spl.toNat)
    (hrow : s.sync.row.toNat + 1 < s.dm.d.lpf.toNat) : PositionMoved 1 s t := by
  obtain ⟨hcol', -, hpix⟩ := r.completed hcol
  obtain ⟨hrow', hframes⟩ := r.nextRow hcol hrow
  rw [if_pos hrow, List.append_nil] at hpix
  refine .within _ hpix (framesIn_lineRecord ..) ?_ hframes
  rw [framePosition, framePosition, hd, hcol', hrow', Nat.add_assoc, hcol, Nat.succ_mul]
  rfl

/-- At the end of the last line it gives one PX_FRAME record and starts the next frame (R244). -/
theorem RasterFree.movesFrame (r : RasterFree s t) (hcol : s.sync.col.toNat + 1 = s.dm.d.spl.toNat)
    (hrow : s.sync.row.toNat + 1 = s.dm.d.lpf.toNat) : PositionMoved 1 s t := by
  obtain ⟨hcol', -, hpix⟩ := r.completed hcol
  obtain ⟨hrow', hframes, -⟩ := r.frameEnd hcol hrow
  rw [if_neg hrow.not_lt, List.append_assoc] at hpix
  refine ⟨_, hpix, ?_, ?_⟩ <;> rw [framesIn_append, framesIn_lineRecord]
  · rw [framePosition, framePosition, hcol', hrow', ← hrow, Nat.add_assoc, hcol]
    simp [framesIn, Nat.succ_mul]
  · rw [hframes]
    exact BitVec.toNat_add _ _

/-- One raster step while Unsynchronized: the next column, the next row or the next frame, the position staying inside it. -/
theorem RasterFree.positionMoved (r : RasterFree s t) (hd : t.dm.d = s.dm.d)
    (hcol : s.sync.col.toNat < s.dm.d.spl.toNat) (hrow : s.sync.row.toNat < s.dm.d.lpf.toNat) :
    PositionMoved 1 s t ∧ t.sync.col.toNat < s.dm.d.spl.toNat ∧ t.sync.row.toNat < s.dm.d.lpf.toNat := by
  rcases (Nat.succ_le_of_lt hcol).lt_or_eq with hcol | hcol
  · obtain ⟨hcol', hrow', -⟩ := r.within hcol
    exact ⟨r.movesColumn hd hcol, hcol'.trans_lt hcol, hrow' ▸ hrow⟩
  obtain ⟨hcol', -⟩ := r.completed hcol
  have hzero : t.sync.col.toNat < s.dm.d.spl.toNat := by rw [hcol', ← hcol]; exact Nat.succ_pos _
  rcases (Nat.succ_le_of_lt hrow).lt_or_eq with hrow | hrow
  · obtain ⟨hrow', -⟩ := r.nextRow hcol hrow
    exact ⟨r.movesRow hd hcol hrow, hzero, hrow'.trans_lt hrow⟩
  · obtain ⟨hrow', -⟩ := r.frameEnd hcol hrow
    refine ⟨r.movesFrame hcol hrow, hzero, ?_⟩
    rw [hrow', ← hrow]
    exact Nat.succ_pos _

end

/-! ## The block -/

/-- The raster free-runs: both units bypassed, line sync off, the state Unsynchronized, the position inside the frame
(R238, R245). -/
structure FreeRunning (s : State) : Prop where
  decim : s.dm.d.decimOn = false
  filt : s.dm.d.filtOn = false
  off : s.dm.cur.atv.hsyncEn = false
  fsm : s.sync.fsm = .unsynchronized
  col : s.sync.col.toNat < s.dm.d.spl.toNat
  row : s.sync.row.toNat < s.dm.d.lpf.toNat

/-- `n` samples later: free-running still, with the same geometry, the position moved by `n`, no event. -/
structure RanFree (n : Nat) (s t : State) : Prop where
  running : FreeRunning t
  d : t.dm.d = s.dm.d
  evt : t.io.evt = s.io.evt
  moved : PositionMoved n s t

theorem RanFree.refl {s : State} (h : FreeRunning s) : RanFree 0 s s :=
  ⟨h, rfl, rfl, .within [] (List.append_nil _).symm rfl rfl rfl⟩

theorem RanFree.trans {m n : Nat} {s t u : State} (h : RanFree m s t) (k : RanFree n t u) : RanFree (m + n) s u :=
  ⟨k.running, k.d.trans h.d, k.evt.trans h.evt, h.moved.trans h.d k.moved⟩

/-- Where the position has moved depends on PIX, the geometry, the frame count and the position alone. -/
theorem PositionMoved.congr {n : Nat} {s s' t : State} (h : PositionMoved n s' t) (hpix : s'.io.pix = s.io.pix)
    (hd : s'.dm.d = s.dm.d) (hframes : s'.dm.frames = s.dm.frames) (hcol : s'.sync.col = s.sync.col)
    (hrow : s'.sync.row = s.sync.row) : PositionMoved n s t := by
  have hpos : framePosition s' = framePosition s := by rw [framePosition, framePosition, hd, hcol, hrow]
  unfold PositionMoved at h
  rwa [hpix, hd, hframes, hpos] at h

/-- One sample of a free-running raster (R220, R238). -/
theorem ranFree_dmSample (z : Cfx) {s : State} (h : FreeRunning s) : RanFree 1 s (dmSample z s) := by
  have hframe := dmSample_frame z s
  have r := dmSample_lineSyncOff z h.off h.fsm h.col h.row
  obtain ⟨hmoved, hcol, hrow⟩ := r.positionMoved (by rw [storedFree_d]; exact hframe.d)
    (by rw [storedFree_d]; exact h.col) (by rw [storedFree_d]; exact h.row)
  rw [storedFree_d] at hcol hrow
  rw [← hframe.d] at hcol hrow
  refine ⟨⟨?_, ?_, ?_, ?_, hcol, hrow⟩, hframe.d, r.evt,
    hmoved.congr rfl (storedFree_d ..) (storedFree_frames ..) rfl rfl⟩
  · rw [hframe.d, h.decim]
  · rw [hframe.d, h.filt]
  · rw [hframe.cur, h.off]
  · obtain ⟨evs, hevt, hpath, -⟩ := hframe.events
    obtain rfl : evs = [] := List.append_right_eq_self.1 (hevt.symm.trans r.evt)
    exact (of_decide_eq_true hpath).symm.trans h.fsm

/-- The block of a free-running raster, sample by sample (R216). -/
theorem ranFree_dmBlock (xs : List Cfx) {s : State} (h : FreeRunning s) : RanFree xs.length s (dmBlock xs s).2 := by
  induction xs generalizing s with
  | nil => exact .refl h
  | cons x xs ih =>
    let z := cmul x (cs (s.nco[(0 : Fin 3)].phase + s.nco[(0 : Fin 3)].inc))
    have hblock : (dmBlock (x :: xs) s).2 = (dmBlock xs (dmSample z (ncoStep 0 s))).2 := by
      rw [dmBlock, dmFront_bypassed x h.decim h.filt]
      rfl
    have hone : RanFree 1 (ncoStep 0 s) _ := ranFree_dmSample z ⟨h.decim, h.filt, h.off, h.fsm, h.col, h.row⟩
    have hfirst : RanFree 1 s _ := ⟨hone.running, hone.d, hone.evt, hone.moved⟩
    rw [hblock, List.length_cons, Nat.add_comm]
    exact hfirst.trans (ih hone.running)

/-- Settles O46: the block sample by sample (`ranFree_dmBlock`). -/
theorem rasterFreeRuns : Obligations.RasterFreeRuns := by
  intro s xs hactive hstop hpend hdec hfilt hoff hfsm hcol hrow
  obtain ⟨hrun, hd, hevt, pxs, hpix, hpos, hframes⟩ := ranFree_dmBlock xs (s := s) ⟨hdec, hfilt, hoff, hfsm, hcol, hrow⟩
  refine ⟨_, pxs, execDmFeed_running xs hactive hstop hpend, hpix, hevt, hrun.fsm, hd ▸ hrun.col, hd ▸ hrun.row, ?_,
    hframes⟩
  rw [framePosition, framePosition, hd] at hpos
  rw [respond_sync, Nat.add_mul, Nat.mul_assoc, Nat.add_assoc]
  exact hpos

end Sys2Proof.Machine

/-! # The frame state machine and the end of a line (spec/44_atv_demod.md R237, R240 to R244) -/

namespace Sys2Proof.Machine
open Config

/-! ## The frame state machine (R243) -/

theorem vsLevel_iff (avg : Int) (thr : Fx) : vsLevel avg thr = true ↔ avg ≤ thr.toInt / 2 := decide_eq_true_iff

/-- A frame sync within a line of the frame's length is on the cadence (R243). -/
theorem onFrame_iff (d : DmDerived) (y : Sync) : onFrame d y = true ↔
    y.linesSinceVs.toNat ≤ d.lpf.toNat + 1 ∧ d.lpf.toNat ≤ y.linesSinceVs.toNat + 1 := by
  unfold onFrame
  rw [decide_eq_true_eq]
  simp only [VS_TOL]
  omega

section
variable {s : State} {cand : Bool}

/-- The first frame sync after line lock starts the search (R243). -/
theorem vsLineLocked_acc (h : s.sync.fsm = .lineLocked) : vsLineLocked true s = (.acc, { s with
    sync := { s.sync with fsm := .frameSyncSearching, vsCount := 1#32, vsMiss := 0#32, linesSinceVs := 0#32 }
    io := { s.io with evt := s.io.evt ++ [.state .lineLocked .frameSyncSearching] } }) := by
  have hne : s.sync.fsm ≠ .frameSyncSearching := by rw [h]; decide
  unfold vsLineLocked
  rw [if_pos rfl, setFsm_eq hne, h]
  rfl

/-- A frame sync off the cadence starts the count again (R243). -/
theorem vsSearching_offCadence (h : onFrame s.dm.d s.sync = false) : vsSearching true s = (.acc, { s with
    sync := { s.sync with vsCount := 1#32, linesSinceVs := 0#32 } }) := by
  unfold vsSearching
  rw [if_pos rfl, if_neg (Bool.eq_false_iff.1 h)]
  rfl

/-- A frame sync on the cadence is counted, and the second locks (R243). -/
theorem vsSearching_onCadence (h : onFrame s.dm.d s.sync = true) (hfsm : s.sync.fsm = .frameSyncSearching) :
    vsSearching true s = if 2 ≤ (satInc s.sync.vsCount).toNat then (.acc, { s with
        sync := { s.sync with fsm := .frameLocked, vsCount := satInc s.sync.vsCount, vsMiss := 0#32,
                              linesSinceVs := 0#32 }
        io := { s.io with evt := s.io.evt ++ [.state .frameSyncSearching .frameLocked] } })
      else (.acc, { s with sync := { s.sync with vsCount := satInc s.sync.vsCount, linesSinceVs := 0#32 } }) := by
  have hne : s.sync.fsm ≠ .frameLocked := by rw [hfsm]; decide
  unfold vsSearching
  rw [if_pos rfl, if_pos h]
  dsimp only
  rw [setFsm_eq hne, ← hfsm]
  rfl

/-- In FrameLocked a frame sync on the cadence is counted (R243). -/
theorem vsFrameLocked_acc (h : onFrame s.dm.d s.sync = true) : vsFrameLocked true s = (.acc, { s with
    sync := { s.sync with vsCount := satInc s.sync.vsCount, vsMiss := 0#32, linesSinceVs := 0#32 } }) := by
  unfold vsFrameLocked
  rw [if_pos (by rw [h]; rfl)]
  rfl

/-- Without one nothing happens until the spacing is past the cadence, where one frame is taken off the count or the second miss
loses lock (R243). -/
theorem vsFrameLocked_noSync (h : cand = false ∨ onFrame s.dm.d s.sync = false) (hfsm : s.sync.fsm = .frameLocked) :
    vsFrameLocked cand s = if s.sync.linesSinceVs.toNat = s.dm.d.lpf.toNat + 2 then
        if 2 ≤ (satInc s.sync.vsMiss).toNat then (.lost, { s with
          sync := .reset
          io := { s.io with evt := s.io.evt ++ [.state .frameLocked .unsynchronized] } })
        else (.none, { s with sync := { s.sync with
          vsCount := 0#32, vsMiss := satInc s.sync.vsMiss, linesSinceVs := s.sync.linesSinceVs - s.dm.d.lpf } })
      else (.none, s) := by
  have hoff : ¬(cand && onFrame s.dm.d s.sync) = true := by
    rcases h with h | h <;> simp [h]
  have hne : s.sync.fsm ≠ .unsynchronized := by rw [hfsm]; decide
  unfold vsFrameLocked
  rw [if_neg hoff]
  dsimp only
  rw [toUnsync_eq (by exact hne), ← hfsm]
  rfl

end

section
variable {s : State} {avg : Int} {cand : Bool} (hcand : (vsLevel avg s.dm.cur.atv.thrBlack && !s.sync.vsPrev) = cand)
include hcand

/-- `vs_step` in each locked state: the line counted with its level, then the state's part on whether it is a candidate
(R243). -/
theorem vsStep_lineLocked (hfsm : s.sync.fsm = .lineLocked) : vsStep avg s = vsLineLocked cand (vsCounted avg s) := by
  rw [vsStep_eq, hfsm, ← hcand]

theorem vsStep_searching (hfsm : s.sync.fsm = .frameSyncSearching) :
    vsStep avg s = vsSearching cand (vsCounted avg s) := by
  rw [vsStep_eq, hfsm, ← hcand]

theorem vsStep_frameLocked (hfsm : s.sync.fsm = .frameLocked) : vsStep avg s = vsFrameLocked cand (vsCounted avg s) := by
  rw [vsStep_eq, hfsm, ← hcand]

end

/-! ## The end of a line (R241, R242) -/

/-- The state in which a completed line meets the frame sync: PX_LINE given, the row counted (R241). -/
theorem nextRow_emitLine_eq {s : State} {samples : List Fx} (h : lineSamples s = samples) :
    nextRow (emitLine s) = { s with
      sync := { s.sync with col := 0#32, lineSum := 0#64, row := satInc s.sync.row }
      io := { s.io with pix := s.io.pix ++
        (if s.sync.row.toNat < s.dm.d.rowsDisp.toNat then [.line s.sync.row s.dm.frames samples] else []) } } := by
  subst h
  unfold emitLine
  split
  · rfl
  · rw [List.append_nil]
    rfl

/-- The samples of a line, from the line buffer (R104). -/
theorem lineSamples_eq {s : State} {samples : List Fx} (hlen : samples.length = s.dm.d.spl.toNat)
    (h : ∀ k, k < s.dm.d.spl.toNat → samples[k]? = some (sparseGet 0#32 s.dm.line k)) : lineSamples s = samples := by
  apply List.ext_getElem?
  intro k
  by_cases hk : k < s.dm.d.spl.toNat
  · rw [h k hk]
    exact sparseToList_getElem? _ _ hk
  · rw [List.getElem?_eq_none (by rw [lineSamples_length]; omega), List.getElem?_eq_none (by omega)]

theorem lineEnd_none (s : State) :
    lineEnd .none s = if s.dm.d.lpf.toNat ≤ s.sync.row.toNat then frameDone s else s := by
  simp [lineEnd]

theorem lineEnd_acc (s : State) : lineEnd .acc s =
    if s.dm.d.lpf.toNat ≤ s.sync.row.toNat ∨ 1 < s.sync.row.toNat then frameDone s
    else { s with sync := { s.sync with row := 0#32 } } := by
  simp [lineEnd]

theorem vsLineLocked_row (cand : Bool) (s : State) : (vsLineLocked cand s).2.sync.row = s.sync.row := by
  unfold vsLineLocked
  split <;> simp

theorem vsSearching_row (cand : Bool) (s : State) : (vsSearching cand s).2.sync.row = s.sync.row := by
  unfold vsSearching
  dsimp only
  split_ifs <;> simp

theorem vsFrameLocked_row {cand : Bool} {s : State} (h : (vsFrameLocked cand s).1 ≠ .lost) :
    (vsFrameLocked cand s).2.sync.row = s.sync.row := by
  unfold vsFrameLocked at h ⊢
  dsimp only at h ⊢
  split_ifs at h ⊢
  · rfl
  · exact absurd rfl h
  · rfl
  · rfl

/-- Unless lock was lost, `vs_step` leaves the row (R243). -/
theorem vsStep_row {avg : Int} {s : State} (h : (vsStep avg s).1 ≠ .lost) : (vsStep avg s).2.sync.row = s.sync.row := by
  rw [vsStep_eq] at h ⊢
  split at h
  · rfl
  · rfl
  · exact vsLineLocked_row _ _
  · exact vsSearching_row _ _
  · exact vsFrameLocked_row h

/-- A completed line outside the locked states or with frame sync off meets no frame sync (R241). -/
theorem lineDone_noSync {s u : State} (hu : nextRow (emitLine s) = u)
    (h : s.dm.cur.atv.vsyncEn = false ∨ s.sync.fsm = .unsynchronized ∨ s.sync.fsm = .lineSyncSearching) :
    lineDone s = lineEnd .none u := by
  have hoff : ¬(s.dm.cur.atv.vsyncEn && s.sync.fsm.locked) = true := by
    rw [Bool.and_eq_true, locked_iff]
    rintro ⟨h1, h2, h3⟩
    rcases h with h | h | h
    · exact absurd (h1.symm.trans h) (by decide)
    · exact h2 h
    · exact h3 h
  unfold lineDone
  rw [if_neg hoff, hu]

/-- A completed line in a locked state with frame sync on: `vs_step` of its average, then the line's end, in the geometry and,
unless lock was lost, at the row that `vs_step` was given (R241). -/
theorem lineDone_sync {s u w : State} {v : VsAnswer} (hu : nextRow (emitLine s) = u) (hon : s.dm.cur.atv.vsyncEn = true)
    (hlocked : s.sync.fsm.locked = true) (hv : vsStep (lineAverage s) u = (v, w)) :
    lineDone s = lineEnd v w ∧ w.dm.d = u.dm.d ∧ (v ≠ .lost → w.sync.row = u.sync.row) := by
  have hrow := vsStep_row (avg := lineAverage s) (s := u)
  have hdm := vsStep_dm (lineAverage s) u
  rw [hv] at hrow hdm
  refine ⟨?_, congrArg Dm.d hdm, hrow⟩
  unfold lineDone
  rw [hon, hlocked, hu]
  dsimp only
  rw [hv]
  rfl

/-- Settles O52: `vs_step` by its part for each locked state, a completed line by `lineDone_noSync` and `lineDone_sync`. -/
theorem frameMachine : Obligations.FrameMachine := by
  refine ⟨?_, ?_, ?_, ?_⟩
  · intro s avg c m l level cand frame hc hm hl hlevel hcand hframe
    obtain rfl := eq_satInc hc
    obtain rfl := eq_satInc hm
    obtain rfl := eq_satInc hl
    obtain rfl : vsLevel avg s.dm.cur.atv.thrBlack = level := by rw [Bool.eq_iff_iff, vsLevel_iff, hlevel]
    have hcand : (vsLevel avg s.dm.cur.atv.thrBlack && !s.sync.vsPrev) = cand := by
      rw [Bool.eq_iff_iff, hcand, Bool.and_eq_true, Bool.not_eq_true']
    have hframe : onFrame s.dm.d (vsCounted avg s).sync = frame := by rw [Bool.eq_iff_iff, onFrame_iff, hframe]; rfl
    refine ⟨fun h => ?_, fun h => ?_, fun h => ?_⟩
    · rw [vsStep_lineLocked hcand h]
      refine ⟨fun hno => by rw [hno]; rfl, fun hyes => ?_⟩
      rw [hyes]
      exact vsLineLocked_acc h
    · rw [vsStep_searching hcand h]
      refine ⟨fun hno => by rw [hno]; rfl, fun hyes hoff => ?_, fun hyes hon hfew => ?_, fun hyes hon hlock => ?_⟩
      all_goals rw [hyes]
      · exact vsSearching_offCadence (hframe.trans hoff)
      · exact (vsSearching_onCadence (hframe.trans hon) h).trans (if_neg (Nat.not_le.2 hfew))
      · exact (vsSearching_onCadence (hframe.trans hon) h).trans (if_pos hlock)
    · rw [vsStep_frameLocked hcand h]
      refine ⟨fun hyes hon => by rw [hyes]; exact vsFrameLocked_acc (hframe.trans hon), fun hno hlines => ?_,
        fun hno hlines hfew => ?_, fun hno hlines hlost => ?_⟩
      all_goals rw [vsFrameLocked_noSync (s := vsCounted avg s) (hframe ▸ hno) h]
      · exact if_neg hlines
      · rw [← sub_eq_of_toNat_add hlines]
        exact (if_pos hlines).trans (if_neg (Nat.not_le.2 hfew))
      · exact (if_pos hlines).trans (if_pos hlost)
  · intro s c hc
    obtain rfl := eq_satInc hc
    rfl
  · intro s u r samples hr hlen hsamples hu
    obtain rfl := eq_satInc hr
    have hline : nextRow (emitLine s) = u := by rw [nextRow_emitLine_eq (lineSamples_eq hlen hsamples), hu]
    have hrow : u.sync.row = satInc s.sync.row := by rw [hu]
    have hd : u.dm.d = s.dm.d := by rw [hu]
    refine ⟨fun h => ?_, fun hon h1 h2 v w hv => ?_⟩
    · rw [lineDone_noSync hline h, lineEnd_none, hd, hrow]
    · obtain ⟨hend, hwd, hwrow⟩ := lineDone_sync hline hon ((locked_iff _).2 ⟨h1, h2⟩) hv
      rw [hd] at hwd
      rw [hrow] at hwrow
      refine ⟨fun h => by rw [hend, h]; rfl, fun h => ?_, fun h => ?_⟩
      · rw [hend, h, lineEnd_none, hwd, hwrow (by rw [h]; decide)]
      · rw [hend, h, lineEnd_acc, hwd, hwrow (by rw [h]; decide)]
  · intro s
    exact ⟨_, _, BitVec.toNat_add _ _, toInt_frameDone_effDelta s, rfl⟩

end Sys2Proof.Machine

/-! # SY.START (spec/45_synthesis.md R294; spec/46_control.md R343, R345, R346; spec/60_exceptions.md R395) -/

namespace Sys2Proof.Machine
open Config

/-! ## TIMER (R395) -/

/-- Reading TIMER does not look at the oscillators or the engine. -/
theorem timerAdvance_blind (s : State) (nco : Vector Nco 3) (gen : Gen) :
    timerAdvance { s with nco := nco, gen := gen } = { timerAdvance s with nco := nco, gen := gen } := by
  unfold timerAdvance
  dsimp only
  split <;> rfl

/-- A reading the environment has fixed is the next one, and is used up (log entry 7). -/
theorem timer_fixed {s : State} {now : Word} {later : List Word} (h : s.io.timerIn = now :: later) :
    timerNow s = now ∧ timerAdvance s = { s with io := { s.io with timerIn := later } } := by
  simp only [timerNow, timerAdvance, h, and_self]

/-! ## Starting -/

/-- Entries 1 and 2 of the oscillators written again: the later values stand. -/
theorem set_set_carrier_tone (v : Vector Nco 3) (a b c d : Nco) :
    (((v.set 1 a).set 2 b).set 1 c).set 2 d = (v.set 1 c).set 2 d := by
  rw [Vector.set_comm (i := 2) (j := 1) _ _ (by decide), Vector.set_set, Vector.set_set]

/-- The state `sy_create` leaves (R346): increments and derived record from the running bank, phases and dynamic state anew,
TIMER read once. -/
theorem syCreate_eq (s : State) : syCreate s = { timerAdvance s with
    nco := (s.nco.set 1 { phase := 0#32, inc := ncoIncHz s.gen.cur.carrierHz.toInt s.gen.cur.sampleRateHz.toNat }).set 2
      { phase := 0#32, inc := ncoIncHz s.gen.cur.toneHz.toNat s.gen.cur.sampleRateHz.toNat }
    gen := { s.gen with d := syDerive s.gen.cur, fmDev := 0#32, toggle := false, lastTime := timerNow s } } := by
  unfold syCreate
  rw [syProgram_eq, ← timerAdvance_blind]
  simp [setNco, set_set_carrier_tone]

/-- The state with a bank running and no message pending. -/
def withBank (b : GenBank) (s : State) : State := { s with gen := { s.gen with cur := b, pndF := false, val := true } }

theorem withBank_running {s : State} (hpend : s.gen.pndF = false) (hval : s.gen.val = true) :
    withBank s.gen.cur s = s := by
  unfold withBank
  rw [← hpend, ← hval]

/-- Reading TIMER and taking a bank into use do not meet. -/
theorem timerAdvance_withBank (b : GenBank) (s : State) : timerAdvance (withBank b s) = withBank b (timerAdvance s) := by
  unfold withBank
  rw [timerAdvance_blind s s.nco, timerAdvance_gen, ← timerAdvance_nco]

/-- Starting right after an apply programs the same increments again; the apply's phases do not stand (R343, R346). -/
theorem syCreate_syApply (s : State) : syCreate (syApply s) = syCreate (withBank s.gen.pnd s) := by
  rw [syCreate_eq, syCreate_eq, syApply_eq, timerAdvance_blind, timerAdvance_withBank]
  simp only [set_set_carrier_tone]
  rfl

/-- SY.START of an engine neither halted nor active, with a bank running after the apply (R345). -/
theorem exec_syStart_idle {s t : State} (hrun : s.gen.halted = false) (hidle : s.gen.active = false)
    (ht : (if s.gen.pndF then syApply s else s) = t) (hval : t.gen.val = true) : exec .syStart s =
      .next (respond .ok [] { syCreate t with gen := { (syCreate t).gen with active := true, stopReq := false } }) := by
  show execSyStart s = _
  simp [execSyStart, hrun, hidle, ht, hval]

/-- SY.START with a message pending or an earlier one running starts from that bank (R345). -/
theorem exec_syStart_bank {s : State} (hrun : s.gen.halted = false) (hidle : s.gen.active = false)
    (hbank : (s.gen.pndF || s.gen.val) = true) {u : State}
    (hu : u = syCreate (withBank (if s.gen.pndF then s.gen.pnd else s.gen.cur) s)) :
    exec .syStart s = .next (respond .ok [] { u with gen := { u.gen with active := true, stopReq := false } }) := by
  cases hpend : s.gen.pndF with
  | true =>
    rw [exec_syStart_idle hrun hidle (if_pos hpend) rfl, hu, syCreate_syApply, hpend]
    rfl
  | false =>
    have hval : s.gen.val = true := by simpa [hpend] using hbank
    rw [exec_syStart_idle hrun hidle (if_neg (Bool.eq_false_iff.1 hpend)) hval, hu, hpend]
    simp only [Bool.false_eq_true, if_false, withBank_running hpend hval]

/-- Settles O53: `exec_syStart_bank`, and the state `sy_create` leaves (`syCreate_eq`). -/
theorem syStartCompletes : Obligations.SyStartCompletes := by
  rintro s b hrun hidle hbank rfl
  refine ⟨_, _, syDerive _, toNat_ncoIncHz _ _, toNat_ncoIncHz _ _, syDerive_mem _, toInt_fmUnit _ _, ?_,
    fun now later h => timer_fixed h⟩
  rw [exec_syStart_bank hrun hidle hbank rfl, syCreate_eq, timerAdvance_withBank]
  rfl

end Sys2Proof.Machine

/-! # The throttle and the sizing faults (spec/45_synthesis.md R281, R292, R293, R295 to R299;
spec/60_exceptions.md R375, R376) -/

namespace Sys2Proof.Machine
open Config

/-! ## SY.TICK -/

/-- The state the throttle leaves before it generates (R295): TIMER read, its reading kept, the toggle flipped. -/
theorem syTickAdvance_eq (s : State) : syTickAdvance s = { timerAdvance s with
    gen := { s.gen with lastTime := timerNow s, toggle := !s.gen.toggle } } := by
  unfold syTickAdvance
  rw [timerAdvance_blind s s.nco, ← timerAdvance_nco]

/-- SY.TICK of a running engine with nothing pending generates the due samples (R295). -/
theorem exec_syTick_quiet {s : State} (hrun : s.gen.halted = false) (hactive : s.gen.active = true)
    (hstop : s.gen.stopReq = false) (hpend : s.gen.pndF = false) :
    exec .syTick s = syGenerate (2 * syDueSamples s) (syTickAdvance s) := by
  rw [exec_syTick_running hrun hactive, sySafePoint_quiet hstop hpend, if_pos hactive]

/-- The due samples of the elapsed count, rounded up when the toggle is 1 and else down (R295, R297). -/
theorem syDueSamples_eq {s : State} {due n : Nat}
    (hdue : due = s.gen.cur.sampleRateHz.toNat * (((timerNow s).toNat + 2 ^ 32 - s.gen.lastTime.toNat) % 2 ^ 32))
    (hn : n = if s.gen.toggle then (due + 999999) / 1000000 else due / 1000000) : syDueSamples s = n := by
  rw [hn, hdue, ← syElapsed_eq, syDueSamples, syDue, Nat.add_sub_assoc (by decide)]
  rfl

/-! ## The two sizing faults -/

theorem syGenerate_bufsize {s : State} {count : Nat} (hbuf : SY_BUF_WORDS < count) :
    syGenerate count s = .next (respond .fault [0#32] (raiseFault .syBufsize s)) := by
  unfold syGenerate syCheck
  rw [if_pos hbuf]
  rfl

theorem syGenerate_queue {s : State} {count : Nat} (hbuf : count ≤ SY_BUF_WORDS)
    (hqueue : SY_Q_WORDS < s.syq.length + 2 * (count / 2)) (hfill : s.syq.length ≤ SY_Q_WORDS) :
    syGenerate count s = .next (respond .fault [0#32] (raiseFault .syQueue s)) := by
  have hfree : syqFree s < 2 * (count / 2) := by
    unfold syqFree
    omega
  unfold syGenerate syCheck
  rw [if_neg (Nat.not_lt.2 hbuf), if_pos hfree]
  rfl

/-- A fault of SY.TICK stands beside the throttle's own update, which it does not undo (R295, R376). -/
theorem raiseFault_syTickAdvance (b : FaultBit) (s : State) : raiseFault b (syTickAdvance s) = { timerAdvance s with
    fault := s.fault ||| (1#32 <<< b.code)
    gen := { s.gen with halted := true, active := false, toggle := !s.gen.toggle, lastTime := timerNow s }
    io := { (timerAdvance s).io with evt := s.io.evt ++ [.fault b] } } := by
  rw [syTickAdvance_eq, ← timerAdvance_fault, ← timerAdvance_io_evt]
  rfl

/-- Settles O57: the buffer's check (`syGenerate_bufsize`), then the queue's (`syGenerate_queue`). -/
theorem syFaults : Obligations.SyFaults := by
  intro s hrun hactive hstop hpend
  refine ⟨fun count hbuf => ?_, fun count hbuf hqueue hfill => ?_, fun due n hdue hn => ?_⟩
  · exact (exec_syGen_quiet count hrun hactive hstop hpend).trans (syGenerate_bufsize hbuf)
  · exact (exec_syGen_quiet count hrun hactive hstop hpend).trans (syGenerate_queue hbuf hqueue hfill)
  · have htick := exec_syTick_quiet hrun hactive hstop hpend
    rw [syDueSamples_eq hdue hn] at htick
    have hpairs : 2 * n / 2 = n := Nat.mul_div_cancel_left n Nat.two_pos
    refine ⟨fun hbuf => ?_, fun hbuf hqueue hfill => ?_⟩
    · rw [htick, syGenerate_bufsize hbuf, raiseFault_syTickAdvance]
      rfl
    · rw [htick, syGenerate_queue hbuf (by rwa [syTickAdvance_syq, hpairs]) (by rwa [syTickAdvance_syq]),
        raiseFault_syTickAdvance]
      rfl

/-! ## A tick that fits -/

/-- The throttle's update is the synthesis engine's own (R45). -/
theorem demodShare_syTickAdvance (s : State) : demodShare (syTickAdvance s) = demodShare s := by
  simp [demodShare]

/-- Settles O58: SY.TICK is SY.GEN of the due halves after the throttle's update, so that `syGenCompletes` says the rest. -/
theorem syTickCompletes : Obligations.SyTickCompletes := by
  intro s due n hrun hactive hstop hpend hdue hn hbuf hqueue
  have hcount : (BitVec.ofNat 32 (2 * n)).toNat = 2 * n := by
    rw [BitVec.toNat_ofNat]
    omega
  have hadvance := syTickAdvance_eq s
  have hrun' : (syTickAdvance s).gen.halted = false := by rw [syTickAdvance_gen, hrun]
  have hactive' : (syTickAdvance s).gen.active = true := by rw [syTickAdvance_gen, hactive]
  have hstop' : (syTickAdvance s).gen.stopReq = false := by rw [syTickAdvance_gen, hstop]
  have hpend' : (syTickAdvance s).gen.pndF = false := by rw [syTickAdvance_gen, hpend]
  have htick : exec .syTick s = exec (.syGen (BitVec.ofNat 32 (2 * n))) (syTickAdvance s) := by
    rw [exec_syTick_quiet hrun hactive hstop hpend, syDueSamples_eq hdue hn,
      exec_syGen_quiet _ hrun' hactive' hstop' hpend', hcount]
  obtain ⟨t, batch, hexec, hio, hsyq, hlen, -, -, hbytes, -, -, -, -, hgen, -, hdemod, hfault, herr⟩ :=
    syGenCompletes _ (BitVec.ofNat 32 (2 * n)) n hrun' hactive' hstop' hpend' (by omega) (by omega)
      (by rwa [syTickAdvance_syq])
  refine ⟨t, batch, htick.trans hexec, ?_, hlen, ?_, ?_, fun a ha => ?_, hdemod.trans (demodShare_syTickAdvance s),
    ?_, ?_, hadvance ▸ htick⟩
  · rw [hsyq, syTickAdvance_syq]
  · rw [hio, syTickAdvance_io_rsp, hadvance]
  · rw [hgen, syTickAdvance_gen]
  · rw [hbytes a ha, syTickAdvance_sybuf]
  · rw [hfault, syTickAdvance_fault]
  · rw [herr, syTickAdvance_cfgErr]

/-! ## Ticks of a fixed interval (R298, R299) -/

/-- The samples of one tick: the whole ones, and one more when a part of one is due and the toggle is 1 (R295). -/
theorem rounded_due_eq (due : Nat) (toggle : Bool) :
    (if toggle then (due + 999999) / 1000000 else due / 1000000) =
      due / 1000000 + (if due % 1000000 = 0 then 0 else 1) * toggle.toNat := by
  cases toggle with
  | false => simp
  | true =>
    simp only [if_true, Bool.toNat_true, Nat.mul_one]
    split <;> omega

/-- The ticks with the toggle at 1, among one tick and N more. -/
theorem odd_ticks_succ (N : Nat) (toggle : Bool) :
    toggle.toNat + (N + (!toggle).toNat) / 2 = (N + 1 + toggle.toNat) / 2 := by
  cases toggle with
  | false => simp
  | true => simp only [Bool.not_true, Bool.toNat_true, Bool.toNat_false]; omega

/-- The elapsed count of a reading `e` after the last is `e`, the wrap of TIMER included (R297). -/
theorem elapsed_interval (last e : Word) : ((last + e).toNat + 2 ^ 32 - last.toNat) % 2 ^ 32 = e.toNat := by
  have hlast := last.isLt
  have he := e.isLt
  rw [BitVec.toNat_add]
  omega

/-- The readings of N + 1 ticks: the first, and those of N ticks after it. -/
theorem readings_succ (N : Nat) (last e : Word) :
    (List.range (N + 1)).map (fun k => last + BitVec.ofNat 32 (k + 1) * e) =
      (last + e) :: (List.range N).map (fun k => last + e + BitVec.ofNat 32 (k + 1) * e) := by
  rw [List.range_succ_eq_map, List.map_cons, List.map_map]
  congr 1
  · simp
  · refine List.map_congr_left fun k _ => ?_
    simp only [Function.comp_apply, Nat.succ_eq_add_one]
    rw [Nat.add_comm (k + 1) 1, BitVec.ofNat_add, BitVec.add_mul, BitVec.one_mul, ← BitVec.add_assoc]

/-- N ticks of a fixed interval from either toggle: q samples a tick, and `r` more on each with the toggle at 1. -/
theorem execAll_syTick (N : Nat) {s : State} {e : Word} {q r : Nat} (hrun : s.gen.halted = false)
    (hactive : s.gen.active = true) (hstop : s.gen.stopReq = false) (hpend : s.gen.pndF = false)
    (htimer : s.io.timerIn = (List.range N).map fun k => s.gen.lastTime + BitVec.ofNat 32 (k + 1) * e)
    (hq : q = s.gen.cur.sampleRateHz.toNat * e.toNat / 1000000)
    (hr : r = if s.gen.cur.sampleRateHz.toNat * e.toNat % 1000000 = 0 then 0 else 1)
    (hbuf : 2 * (q + 1) ≤ 65536) (hqueue : s.syq.length + N * (2 * (q + 1)) ≤ 262144) :
    ∃ t, execAll (List.replicate N .syTick) s = .next t ∧
      t.syq.length = s.syq.length + 2 * (N * q + r * ((N + s.gen.toggle.toNat) / 2)) ∧
      t.gen.toggle = (s.gen.toggle ^^ decide (N % 2 = 1)) ∧ t.gen.lastTime = s.gen.lastTime + BitVec.ofNat 32 N * e := by
  induction N generalizing s with
  | zero =>
    refine ⟨s, rfl, ?_, ?_, ?_⟩
    · cases s.gen.toggle <;> simp
    · simp
    · simp
  | succ N ih =>
    rw [readings_succ] at htimer
    obtain ⟨hnow, hadvance⟩ := timer_fixed htimer
    have hdue : s.gen.cur.sampleRateHz.toNat * e.toNat =
        s.gen.cur.sampleRateHz.toNat * (((timerNow s).toNat + 2 ^ 32 - s.gen.lastTime.toNat) % 2 ^ 32) := by
      rw [hnow, elapsed_interval]
    have hn : q + r * s.gen.toggle.toNat = if s.gen.toggle then
        (s.gen.cur.sampleRateHz.toNat * e.toNat + 999999) / 1000000
        else s.gen.cur.sampleRateHz.toNat * e.toNat / 1000000 := by
      rw [rounded_due_eq, hq, hr]
    have hle : r * s.gen.toggle.toNat ≤ 1 := by
      have hr1 : r ≤ 1 := by rw [hr]; split <;> omega
      exact Nat.mul_le_mul hr1 (Bool.toNat_le _)
    have hqueue' : s.syq.length + 2 * (q + 1) + N * (2 * (q + 1)) ≤ 262144 := by
      rwa [Nat.add_right_comm, Nat.add_assoc, ← Nat.succ_mul]
    obtain ⟨u, batch, hexec, hsyq, hlen, hio, hgen, -⟩ := syTickCompletes s _ _ hrun hactive hstop hpend hdue hn
      (by omega) (by omega)
    have hulen : u.syq.length = s.syq.length + 2 * (q + r * s.gen.toggle.toNat) := by
      rw [hsyq, List.length_append, hlen]
    have hcur : u.gen.cur = s.gen.cur := by rw [hgen]
    have hlast : u.gen.lastTime = s.gen.lastTime + e := by rw [hgen, ← hnow]
    have htoggle : u.gen.toggle = !s.gen.toggle := by rw [hgen]
    obtain ⟨t, hall, htlen, httoggle, htlast⟩ := ih (s := u) (by rw [hgen, hrun]) (by rw [hgen, hactive])
      (by rw [hgen, hstop]) (by rw [hgen, hpend]) (by rw [hio, hadvance, hlast]) (by rw [hcur, hq]) (by rw [hcur, hr])
      (by omega)
    refine ⟨t, ?_, ?_, ?_, ?_⟩
    · rw [List.replicate_succ, execAll, hexec]
      exact hall
    · rw [htlen, hulen, htoggle, ← odd_ticks_succ]
      ring
    · rw [httoggle, htoggle]
      simp only [Nat.succ_mod_two_eq_one_iff, ← Nat.mod_two_ne_one, decide_not, Bool.not_xor, Bool.xor_not]
    · rw [htlast, hlast, Nat.add_comm N 1, BitVec.ofNat_add, BitVec.add_mul, BitVec.one_mul, BitVec.add_assoc]

/-- Settles O59: `execAll_syTick` from a toggle at 0. -/
theorem throttleTotals : Obligations.ThrottleTotals := by
  intro N s e q hrun hactive hstop hpend htoggle htimer hq hbuf hqueue
  obtain ⟨t, hall, hlen, hflip, hlast⟩ := execAll_syTick N hrun hactive hstop hpend htimer hq rfl hbuf hqueue
  refine ⟨t, hall, ?_, ?_, hlast⟩
  · rw [hlen, htoggle]
    split <;> simp
  · rw [hflip, htoggle, Bool.false_xor]

end Sys2Proof.Machine

/-! # Configuration messages (spec/30_encoding.md R120, R122, R123; spec/46_control.md R334 to R339;
spec/60_exceptions.md R371) -/

namespace Sys2Proof.Machine
open Config

/-! ## Codes and clamped fields -/

theorem demodKind_of_code {n : Nat} {k : DemodKind}
    (h : (n, k) ∈ [(0, DemodKind.fm1), (1, .fm2), (2, .am), (3, .vsbU), (4, .vsbL)]) : DemodKind.ofCode? n = some k :=
  (by decide : ∀ p ∈ [(0, DemodKind.fm1), (1, .fm2), (2, .am), (3, .vsbU), (4, .vsbL)],
    DemodKind.ofCode? p.1 = some p.2) _ h

theorem depth_of_code {n : Nat} {d : Depth} (h : (n, d) ∈ [(0, Depth.bits8), (1, .bits12), (2, .bits16)]) :
    Depth.ofCode? n = some d :=
  (by decide : ∀ p ∈ [(0, Depth.bits8), (1, .bits12), (2, .bits16)], Depth.ofCode? p.1 = some p.2) _ h

theorem synthKind_of_code {n : Nat} {k : SynthKind} (h : (n, k) ∈ [(0, SynthKind.none), (1, .am), (2, .fm)]) :
    SynthKind.ofCode? n = some k :=
  (by decide : ∀ p ∈ [(0, SynthKind.none), (1, .am), (2, .fm)], SynthKind.ofCode? p.1 = some p.2) _ h

/-- A field clamped to [0, 1.0] (R334). -/
theorem toInt_clampField_unit (w : Word) : (clampField w 0 ONE).toInt = max 0 (min 65536 w.toInt) :=
  toInt_clampField w (by decide) (by decide) (by decide)

/-- A field clamped to [-1.0, 1.0] (R334). -/
theorem toInt_clampField_signed (w : Word) : (clampField w (-ONE) ONE).toInt = max (-65536) (min 65536 w.toInt) :=
  toInt_clampField w (by decide) (by decide) (by decide)

theorem ne_zero_of_pos {w : Word} (h : 0 < w.toNat) : w ≠ 0#32 := by
  rw [Ne, eq_zero_iff]
  exact h.ne'

/-! ## Valid messages -/

section
variable {s : State}

/-- DM.CFGATV past its checks stages the bank (R336). -/
theorem exec_dmCfgatv_valid {lineNs topNs fps : Word} (ratio thr black : Word) (h v : Bool) (htop : 0 < topNs.toNat)
    (hlt : topNs.toNat < lineNs.toNat) (hfps : 0 < fps.toNat) :
    exec (.dmCfgatv lineNs topNs fps ratio thr black h v) s = .next (respond .ok [] { s with dm := { s.dm with
      pnd := { s.dm.pnd with atv := atvBankOf lineNs topNs fps ratio thr black h v }
      pndF := { s.dm.pndF with atv := true } } }) := by
  show execDmCfgatv lineNs topNs fps ratio thr black h v s = _
  rw [execDmCfgatv, if_neg (ne_zero_of_pos (htop.trans hlt)), if_neg (ne_zero_of_pos htop),
    if_neg (ne_zero_of_pos hfps), if_neg (Nat.not_le.2 hlt), finish_eq]

/-- DM.CFGRF with an assigned kind stages the bank (R337). -/
theorem exec_dmCfgrf_valid {kind : Word} {k : DemodKind} (offset bw opp : Word) (f g : Bool)
    (hk : DemodKind.ofCode? kind.toNat = some k) :
    exec (.dmCfgrf offset kind bw opp f g) s = .next (respond .ok [] { s with dm := { s.dm with
      pnd := { s.dm.pnd with rf := ⟨offset, k, bw, opp, f, g⟩ }
      pndF := { s.dm.pndF with rf := true } } }) := by
  show execDmCfgrf offset kind bw opp f g s = _
  simp only [execDmCfgrf, hk, finish_eq]

/-- DM.CFGSTREAM with a rate stages the bank (R338). -/
theorem exec_dmCfgstream_valid {rate : Word} (hrate : 0 < rate.toNat) :
    exec (.dmCfgstream rate) s = .next (respond .ok [] { s with dm := { s.dm with
      pnd := { s.dm.pnd with stream := ⟨rate⟩ }
      pndF := { s.dm.pndF with stream := true } } }) :=
  if_neg (ne_zero_of_pos hrate)

/-- SY.CFG with a rate, an assigned depth and an assigned kind stages the bank (R339). -/
theorem exec_syCfg_valid {rate depth mod : Word} {d : Depth} {k : SynthKind}
    (carrier tone am dev ai aq di dq skew : Word) (hrate : 0 < rate.toNat) (hd : Depth.ofCode? depth.toNat = some d)
    (hk : SynthKind.ofCode? mod.toNat = some k) :
    exec (.syCfg rate carrier depth mod tone am dev ai aq di dq skew) s =
      .next (respond .ok [] { s with gen := { s.gen with
        pnd := genBankOf rate carrier d k tone am dev ai aq di dq skew, pndF := true } }) := by
  show execSyCfg rate carrier depth mod tone am dev ai aq di dq skew s = _
  simp only [execSyCfg, if_neg (ne_zero_of_pos hrate), hd, hk, finish_eq]

end

/-- Settles O37. -/
theorem messagesStaged : Obligations.MessagesStaged := by
  refine fun s => ⟨fun lineNs topNs fps ratio thr black h v htop hlt hfps => ?_,
    fun offset kind bw opp mk f g hk => exec_dmCfgrf_valid offset bw opp f g (demodKind_of_code hk),
    fun rate hrate => exec_dmCfgstream_valid hrate,
    fun rate carrier depth mod tone am dev ai aq di dq skew d k hrate hd hk => ?_⟩
  · exact ⟨_, exec_dmCfgatv_valid ratio thr black h v htop hlt hfps, rfl, rfl, rfl,
      toInt_clampField ratio (by decide) (by decide) (by decide), toInt_clampField_unit thr,
      toInt_clampField_unit black, rfl, rfl⟩
  · exact ⟨_, exec_syCfg_valid carrier tone am dev ai aq di dq skew hrate (depth_of_code hd) (synthKind_of_code hk),
      rfl, rfl, rfl, rfl, rfl, toInt_clampField_unit am, rfl, toInt_clampField_unit ai, toInt_clampField_unit aq,
      toInt_clampField_signed di, toInt_clampField_signed dq, rfl⟩

/-! ## Refused messages -/

section
variable {s : State}

/-- A zero field of DM.CFGATV is found before the comparison (R336). -/
theorem exec_dmCfgatv_zeroField {lineNs topNs fps : Word} (ratio thr black : Word) (h v : Bool)
    (hzero : lineNs.toNat = 0 ∨ topNs.toNat = 0 ∨ fps.toNat = 0) :
    exec (.dmCfgatv lineNs topNs fps ratio thr black h v) s = cfgReject .atv .zeroField s := by
  show execDmCfgatv lineNs topNs fps ratio thr black h v s = _
  simp only [← eq_zero_iff] at hzero
  unfold execDmCfgatv
  rcases hzero with hline | htop | hfps
  · rw [if_pos hline]
  · rw [if_pos htop, ite_self]
  · rw [if_pos hfps, ite_self, ite_self]

theorem exec_dmCfgatv_topNotLess {lineNs topNs fps : Word} (ratio thr black : Word) (h v : Bool) (hfps : 0 < fps.toNat)
    (hline : 0 < lineNs.toNat) (hle : lineNs.toNat ≤ topNs.toNat) :
    exec (.dmCfgatv lineNs topNs fps ratio thr black h v) s = cfgReject .atv .topNotLess s := by
  show execDmCfgatv lineNs topNs fps ratio thr black h v s = _
  rw [execDmCfgatv, if_neg (ne_zero_of_pos hline), if_neg (ne_zero_of_pos (hline.trans_le hle)),
    if_neg (ne_zero_of_pos hfps), if_pos hle]

theorem exec_dmCfgrf_badEnum {kind : Word} (offset bw opp : Word) (f g : Bool) (hkind : 4 < kind.toNat) :
    exec (.dmCfgrf offset kind bw opp f g) s = cfgReject .rf .badEnum s := by
  show execDmCfgrf offset kind bw opp f g s = _
  simp only [execDmCfgrf, demodKind_none hkind]

theorem exec_dmCfgstream_zeroField : exec (.dmCfgstream 0#32) s = cfgReject .stream .zeroField s := by
  show execDmCfgstream 0#32 s = _
  rw [execDmCfgstream, if_pos rfl]

theorem exec_syCfg_zeroField (carrier depth mod tone am dev ai aq di dq skew : Word) :
    exec (.syCfg 0#32 carrier depth mod tone am dev ai aq di dq skew) s = cfgReject .synthesis .zeroField s := by
  show execSyCfg 0#32 carrier depth mod tone am dev ai aq di dq skew s = _
  rw [execSyCfg, if_pos rfl]

/-- An unassigned depth or kind of SY.CFG has one reason, whichever is found first (R339). -/
theorem exec_syCfg_badEnum {rate depth mod : Word} (carrier tone am dev ai aq di dq skew : Word)
    (hrate : 0 < rate.toNat) (hbad : 2 < depth.toNat ∨ 2 < mod.toNat) :
    exec (.syCfg rate carrier depth mod tone am dev ai aq di dq skew) s = cfgReject .synthesis .badEnum s := by
  show execSyCfg rate carrier depth mod tone am dev ai aq di dq skew s = _
  rw [execSyCfg, if_neg (ne_zero_of_pos hrate)]
  rcases hbad with hdepth | hmod
  · rw [depth_none hdepth]
  · rw [synthKind_none hmod]
    cases Depth.ofCode? depth.toNat <;> rfl

end

/-- Settles O38: every refusal is `cfg_reject`, whose error count is the saturating one (`satInc_toNat`). -/
theorem messagesRejected : Obligations.MessagesRejected := by
  refine fun s => ⟨satInc s.cfgErr, satInc_toNat _, fun i bank q hi => ?_⟩
  show exec i s = cfgReject bank q s
  rcases hi with ⟨lineNs, topNs, fps, ratio, thr, black, h, v, rfl, rfl, hzero, rfl⟩ |
    ⟨lineNs, topNs, fps, ratio, thr, black, h, v, rfl, rfl, hfps, hline, hle, rfl⟩ |
    ⟨offset, kind, bw, opp, f, g, rfl, rfl, hkind, rfl⟩ | ⟨rfl, rfl, rfl⟩ |
    ⟨carrier, depth, mod, tone, am, dev, ai, aq, di, dq, skew, rfl, rfl, rfl⟩ |
    ⟨rate, carrier, depth, mod, tone, am, dev, ai, aq, di, dq, skew, rfl, rfl, hrate, hbad, rfl⟩
  · exact exec_dmCfgatv_zeroField ratio thr black h v hzero
  · exact exec_dmCfgatv_topNotLess ratio thr black h v hfps hline hle
  · exact exec_dmCfgrf_badEnum offset bw opp f g hkind
  · exact exec_dmCfgstream_zeroField
  · exact exec_syCfg_zeroField carrier depth mod tone am dev ai aq di dq skew
  · exact exec_syCfg_badEnum carrier tone am dev ai aq di dq skew hrate hbad

end Sys2Proof.Machine

/-! # DM.START (spec/46_control.md R341, R344 to R346; spec/70_reset_and_hazards.md R413)

START of an idle engine with messages pending is START of the state in which they have been applied, so that only the start with
nothing pending is left to look at. -/

namespace Sys2Proof.Machine
open Config

/-! ## Starting -/

/-- The state DM.START leaves from valid running banks (R344, R346). -/
def dmStarted (s : State) : State :=
  { dmCreate s with dm := { (dmCreate s).dm with active := true, stopReq := false } }

theorem dmStarted_eq (s : State) : dmStarted s = { s with
    nco := s.nco.set 0
      { phase := 0#32, inc := ncoIncHz (-s.dm.cur.rf.freqOffsetHz.toInt) s.dm.cur.stream.inRateHz.toNat }
    rc := rcReset (rcSetRatio (rcRatio s.dm.cur.stream.inRateHz.toNat s.dm.d.effRate.toNat) s.rc)
    sf := sfClear (sfSetMask (sfMaskgen s.dm.cur.rf.modKind.sfMode s.dm.cur.rf.rfBwHz s.dm.cur.rf.oppBwHz
      s.dm.d.effRate) s.sf)
    lt := .reset
    sync := .reset
    dm := { s.dm with uh1 := cfxZero, uh2 := cfxZero, line := [], frames := 0#32, active := true, stopReq := false }
    io := { s.io with evt := s.io.evt ++
      (if s.sync.fsm = .unsynchronized then [] else [.state s.sync.fsm .unsynchronized]) } } := by
  rw [dmStarted, dmCreate_eq]

theorem exec_dmStart_active {s : State} (h : s.dm.active = true) : exec .dmStart s = .next (respond .busy [] s) :=
  if_pos h

section
variable {s : State} (hidle : s.dm.active = false)
include hidle

/-- DM.START with messages pending is DM.START of the state with the pending messages applied (R344). -/
theorem exec_dmStart_pending (hpend : s.dm.pndF.any = true) : exec .dmStart s = exec .dmStart (dmApply s) := by
  obtain ⟨hactive, -, hclear⟩ := dmApply_flags s
  have hquiet : (dmApply s).dm.pndF.any = false := by rw [hclear]; rfl
  show execDmStart s = execDmStart (dmApply s)
  simp [execDmStart, hactive, hidle, hpend, hquiet]

/-- DM.START with nothing pending starts from valid running banks (R344). -/
theorem exec_dmStart_valid (hquiet : s.dm.pndF.any = false) (hval : s.dm.val.all = true) :
    exec .dmStart s = .next (respond .ok [] (dmStarted s)) := by
  show execDmStart s = _
  simp [execDmStart, hidle, hquiet, hval, dmStarted]

/-- DM.START with nothing pending and no complete configuration (R344). -/
theorem exec_dmStart_invalid (hquiet : s.dm.pndF.any = false) (hval : s.dm.val.all = false) :
    exec .dmStart s = .next (respond .nocfg [] s) := by
  show execDmStart s = _
  simp [execDmStart, hidle, hquiet, hval]

end

/-! ## What the apply step does with what is pending (R341) -/

section
variable {s : State}

/-- Messages that do not complete the configuration are kept. -/
theorem dmApply_incomplete (hall : (s.dm.val.or s.dm.pndF).all = false) : dmApply s =
    { s with dm := { s.dm with cur := dmCandidate s.dm, val := s.dm.val.or s.dm.pndF, pndF := .clear } } :=
  if_neg (Bool.eq_false_iff.1 hall)

/-- A complete candidate with an illegal geometry is dropped. -/
theorem dmApply_dropped {q : Reason} (hall : (s.dm.val.or s.dm.pndF).all = true)
    (h : dmDerive (dmCandidate s.dm) = .error q) :
    dmApply s = countCfgErr .derived q { s with dm := { s.dm with pndF := .clear } } := by
  rw [dmApply, if_pos hall, h]

/-- A complete candidate with a legal geometry is committed. -/
theorem dmApply_committed {d : DmDerived} (hall : (s.dm.val.or s.dm.pndF).all = true)
    (h : dmDerive (dmCandidate s.dm) = .ok d) :
    dmApply s = dmCommit (dmCandidate s.dm) d { s with dm := { s.dm with pndF := .clear } } := by
  rw [dmApply, if_pos hall, h]

end

/-! ## From the running banks -/

/-- Settles O40: the state `dm_create` leaves (`dmStarted_eq`), with nothing pending or after the pending messages have been
dropped (`dmApply_illegal`). -/
theorem dmStartRunning : Obligations.DmStartRunning := by
  refine ⟨fun s hidle hquiet hval => ?_, fun s cand q hidle hpend hval hcand hq => ?_⟩
  · refine ⟨_, _, _, toNat_ncoIncHz _ _, toNat_rcSetRatio_ratio _ s.dm.d.effRate.toNat s.rc, sfMode_mem _, ?_⟩
    rw [exec_dmStart_valid hidle hquiet hval, dmStarted_eq]
    rfl
  · obtain rfl : cand = dmCandidate s.dm := hcand
    have hstart : exec .dmStart (dmApply s) = .next (respond .ok [] (dmStarted (dmApply s))) := by
      rw [dmApply_illegal hval hq]
      exact exec_dmStart_valid hidle rfl hval
    refine ⟨satInc s.cfgErr, _, satInc_toNat _, (exec_dmStart_pending hidle hpend).trans hstart, ?_, ?_⟩
    · rw [← hstart, dmApply_illegal hval hq]
      rfl
    · rw [dmApply_illegal hval hq, dmStarted_eq]
      exact ⟨rfl, rfl, rfl, rfl, rfl, rfl⟩

/-! ## From the pending messages -/

/-- The EV_STATE a start emits (R237, R346). -/
def unsyncEvents (s : State) : List Event :=
  if s.sync.fsm = .unsynchronized then [] else [.state s.sync.fsm .unsynchronized]

/-- The EV_RATE the commit of a derived record emits (R249, R341). -/
def rateEvents (d : DmDerived) (s : State) : List Event :=
  if d.effRate = s.dm.rateReported then [] else [.rate d.effRate]

/-- The events of a start that commits a candidate: the timing's change leaves the synchronization state before the rate is
reported, the start itself only after (R341, R346). -/
def commitStartEvents (cand : DmBanks) (d : DmDerived) (s : State) : List Event :=
  if sameTiming cand d s then rateEvents d s ++ unsyncEvents s else unsyncEvents s ++ rateEvents d s

theorem commitStartEvents_perm (cand : DmBanks) (d : DmDerived) (s : State) :
    (commitStartEvents cand d s).Perm (rateEvents d s ++ unsyncEvents s) := by
  unfold commitStartEvents
  split
  · exact .refl _
  · exact List.perm_append_comm

theorem mem_commitStartEvents {cand : DmBanks} {d : DmDerived} {s : State} {e : Event} :
    e ∈ commitStartEvents cand d s ↔ (e = .rate d.effRate ∧ d.effRate ≠ s.dm.rateReported) ∨
      (e = .state s.sync.fsm .unsynchronized ∧ s.sync.fsm ≠ .unsynchronized) := by
  rw [(commitStartEvents_perm cand d s).mem_iff, List.mem_append, rateEvents, unsyncEvents]
  simp only [List.mem_ite_nil_left, List.mem_singleton, and_comm, ne_eq]

theorem nodup_commitStartEvents (cand : DmBanks) (d : DmDerived) (s : State) : (commitStartEvents cand d s).Nodup := by
  rw [(commitStartEvents_perm cand d s).nodup_iff, rateEvents, unsyncEvents]
  split <;> split <;> simp

theorem getElem_set_first (v : Vector Nco 3) (n : Nco) : (v.set 0 n)[(0 : Fin 3)] = n := by
  rw [Fin.getElem_fin]
  exact Vector.getElem_set_self _

theorem rcSetRatio_rcSetRatio (r r' : Nat) (c : Rc) : rcSetRatio r (rcSetRatio r' c) = rcSetRatio r c := rfl

theorem sfSetMask_sfSetMask (m m' : List Fx) (f : Sf) : sfSetMask m (sfSetMask m' f) = sfSetMask m f := rfl

theorem fsm_reset : Sync.reset.fsm = .unsynchronized := rfl

/-- The state DM.START leaves after a commit: the units programmed twice, the second time from phase and position 0. -/
theorem dmStarted_dmCommit (cand : DmBanks) (d : DmDerived) (s : State) : dmStarted (dmCommit cand d s) = { s with
    nco := s.nco.set 0
      { phase := 0#32, inc := ncoIncHz (-cand.rf.freqOffsetHz.toInt) cand.stream.inRateHz.toNat }
    rc := rcReset (rcSetRatio (rcRatio cand.stream.inRateHz.toNat d.effRate.toNat) s.rc)
    sf := sfClear (sfSetMask (sfMaskgen cand.rf.modKind.sfMode cand.rf.rfBwHz cand.rf.oppBwHz d.effRate) s.sf)
    lt := .reset
    sync := .reset
    dm := { s.dm with
      cur := cand, val := .full, d := d, rateReported := d.effRate
      uh1 := cfxZero, uh2 := cfxZero, line := [], frames := 0#32, active := true, stopReq := false }
    io := { s.io with evt := s.io.evt ++ commitStartEvents cand d s } } := by
  rw [dmStarted_eq, dmCommit_eq, commitStartEvents, unsyncEvents, rateEvents]
  dsimp only
  rw [Vector.set_set, rcSetRatio_rcSetRatio, sfSetMask_sfSetMask]
  cases hsame : sameTiming cand d s
  · simp [fsm_reset]
  · simp

/-- Settles O41: the apply commits the candidate (`dmApply_committed`), and START starts from it (`dmStarted_dmCommit`). -/
theorem dmStartApplies : Obligations.DmStartApplies := by
  intro s cand d hidle hpend hatv hrf hstream hcand hd
  obtain rfl : cand = dmCandidate s.dm := hcand
  have hall : (s.dm.val.or s.dm.pndF).all = true := by simp [DmFlags.all, DmFlags.or, hatv, hrf, hstream]
  refine ⟨respond .ok [] (dmStarted (dmApply s)), ?_, ?_⟩
  · rw [exec_dmStart_pending hidle hpend, dmApply_committed hall hd]
    refine exec_dmStart_valid ?_ ?_ ?_ <;> rw [dmCommit_eq]
    · exact hidle
    · rfl
    · rfl
  · rw [dmApply_committed hall hd, dmStarted_dmCommit]
    refine ⟨rfl, ?_, ?_, toNat_rcSetRatio_ratio _ d.effRate.toNat s.rc, rfl, rfl, rfl, ⟨_, sfMode_mem _, rfl⟩, rfl, rfl, rfl,
      rfl, ?_, rfl, rfl, rfl, rfl, _, rfl, fun e => mem_commitStartEvents, nodup_commitStartEvents _ _ _⟩
    · rw [respond_nco, getElem_set_first]
    · rw [respond_nco, getElem_set_first]
      exact toNat_ncoIncHz _ _
    · simp [synthShare]

/-! ## Refused -/

/-- Settles O42: START of an active engine, with nothing pending (`exec_dmStart_invalid`), and with messages pending that the
apply keeps (`dmApply_incomplete`) or drops (`dmApply_dropped`). -/
theorem startRefused : Obligations.StartRefused := by
  refine fun s => ⟨exec_dmStart_active, exec_dmStart_invalid, fun hidle hpend cand cval hcand hcval => ?_,
    fun hrun hactive => ?_, fun hrun hidle hpend hval => ?_⟩
  · obtain rfl : cand = dmCandidate s.dm := hcand
    obtain rfl : cval = s.dm.val.or s.dm.pndF := hcval
    rw [exec_dmStart_pending hidle hpend]
    refine ⟨fun hall => ?_, fun hall hval q hq => ⟨satInc s.cfgErr, satInc_toNat _, ?_⟩⟩
    · rw [dmApply_incomplete hall]
      exact exec_dmStart_invalid hidle rfl hall
    · rw [dmApply_dropped hall hq]
      exact exec_dmStart_invalid hidle rfl hval
  · exact (if_neg (Bool.eq_false_iff.1 hrun)).trans (if_pos hactive)
  · show execSyStart s = _
    simp [execSyStart, hrun, hidle, hpend, hval]

end Sys2Proof.Machine

/-! # STOP and reset (spec/46_control.md R340, R342, R347 to R349, R353; spec/70_reset_and_hazards.md R410, R411) -/

namespace Sys2Proof.Machine
open Config

/-! ## STOP -/

/-- STOP sets the request of an active engine only (R347). -/
theorem exec_dmStop (s : State) : exec .dmStop s =
    .next (respond .ok [] (if s.dm.active then { s with dm := { s.dm with stopReq := true } } else s)) := rfl

/-- STOP sets the request of an active engine only (R349). -/
theorem exec_syStop (s : State) : exec .syStop s =
    .next (respond .ok [] (if s.gen.active then { s with gen := { s.gen with stopReq := true } } else s)) := rfl

/-- DM.FEED takes a requested stop at its safe point and processes nothing (R340, R348). -/
theorem exec_dmFeed_stop {s : State} (hactive : s.dm.active = true) (hstop : s.dm.stopReq = true) (xs : List Cfx) :
    exec (.dmFeed xs) s = .next (respond .idle [] (emitEvt (.stopped .demodulation)
      { s with dm := { s.dm with active := false, stopReq := false } })) := by
  have hsafe : dmSafePoint s = _ := if_pos hstop
  show execDmFeed xs s = _
  simp [execDmFeed, hactive, hsafe]

/-- A cycle command of the synthesis engine takes a requested stop at its safe point and generates nothing (R342, R348). -/
theorem exec_sy_stop {s : State} (hrun : s.gen.halted = false) (hactive : s.gen.active = true)
    (hstop : s.gen.stopReq = true) {i : Instr} (hi : i = .syTick ∨ ∃ n, i = .syGen n) :
    exec i s = .next (respond .idle [] (emitEvt (.stopped .synthesis)
      { s with gen := { s.gen with active := false, stopReq := false } })) := by
  have hsafe : sySafePoint s = _ := if_pos hstop
  rcases hi with rfl | ⟨n, rfl⟩
  · rw [exec_syTick_running hrun hactive, hsafe]
    rfl
  · rw [exec_syGen_running n hrun hactive, hsafe]
    rfl

/-- Settles O43. -/
theorem stopTakesEffect : Obligations.StopTakesEffect := by
  refine fun s => ⟨fun hidle => ?_, fun hactive => ?_, exec_dmFeed_stop, fun hidle => ?_, fun hactive => ?_,
    fun hrun hactive hstop i => exec_sy_stop hrun hactive hstop⟩
  · rw [exec_dmStop, if_neg (Bool.eq_false_iff.1 hidle)]
  · rw [exec_dmStop, if_pos hactive]
  · rw [exec_syStop, if_neg (Bool.eq_false_iff.1 hidle)]
  · rw [exec_syStop, if_pos hactive]

/-! ## RESET and the reset input -/

theorem exec_reset (s : State) : exec .reset s = .next (respond .ok [] (resetCore s)) := rfl

/-- The reset input is served before anything on CMD (R410). -/
theorem step_of_resetIn {s : State} (h : s.io.resetIn = true) : step s = .next (hardwareReset s) :=
  if_pos h

/-- Settles O7: RESET answers from the reset state with the ports kept (`resetCore_eq`), the reset input leaves of CMD its
leading whole commands (`dropPartial_spec`). -/
theorem resetEffect : Obligations.ResetEffect := by
  refine fun s => ⟨⟨_, exec_reset s, ?_⟩, fun hreset => ?_⟩
  · rw [resetCore_eq]
    refine ⟨rfl, rfl, ?_, rfl, rfl, rfl, ?_, fun k => ⟨rfl, rfl⟩, rfl, ?_, rfl, rfl, rfl, rfl, rfl, rfl, rfl, rfl,
      fun k => rfl, rfl, ?_, rfl, rfl, rfl, rfl, rfl, rfl, rfl, rfl, rfl, rfl, rfl, rfl, rfl, rfl,
      fun a => rfl, rfl, rfl, rfl⟩
    · exact (by decide : ∀ k : Fin 3, State.reset.nco[k].phase = 0#32 ∧ State.reset.nco[k].inc = 0#32)
    · exact (by decide : ∀ k : Fin 2, State.reset.rc.hist[k] = ⟨0#32, 0#32⟩)
    · exact (by decide : ∀ k : Fin 32, State.reset.lt.win[k] = 0#32)
    · exact (by decide : ∀ k : Fin 6, State.reset.sync.win[k].toInt = FX_MAX)
  · obtain ⟨whole, part, hcmd, hwhole, hpart, hdrop⟩ := dropPartial_spec s.io.cmd
    simp only [headerLen_eq] at hwhole
    refine ⟨whole, part, hcmd, hwhole, hpart, ?_⟩
    rw [step_of_resetIn hreset, hardwareReset, hdrop]
    rfl

end Sys2Proof.Machine
